-- ==== Sys2Proof/Word.lean ====
section
/-! DEFINITION. The word types of the huffman codec core and the reference into its node arena.
Every integer of the hardware is unsigned (00_scope.md R7), bit 0 is the least significant bit (R6). -/

namespace Sys2Proof

/-- A byte: one system-memory cell (20_memory.md R61), one symbol (00_scope.md glossary). -/
abbrev Byte := BitVec 8

/-- A register or an MMIO data word (`REG_W`, 00_scope.md R5). -/
abbrev Word := BitVec 32

/-- A bus address, a length or an internal counter (`ADDR_W`, `LEN_W`, `FREQ_W`, 00_scope.md R5). -/
abbrev DWord := BitVec 64

/-- A codeword's bit pattern, 255 bits (10_state.md R45). -/
abbrev Pattern := BitVec 255

/-- An index into the node arena `s.node[0..510]` (10_state.md R42). A node reference is an
`Option NodeRef`, with `none` the spec's `NULL`. -/
abbrev NodeRef := Fin 511

end Sys2Proof
end

