-- ==== Sys2Proof/Config.lean ====
section
/-! DEFINITION. The implementation parameters of 00_scope.md R5 that the spec gives a value.
The three OPEN parameters are not here: `P_MMIO_BASE` and `P_BUS_FAULT` are plain data in
`Machine.Platform` (log entries 3 and 4), `P_INSTANCES` is one core (log entry 5).
The spec leaves no instruction result undefined, so no opaque free value is needed (log entry 6). -/

namespace Sys2Proof.Config

/-- `ALPHABET` (R5): the number of symbols. -/
def alphabet : Nat := 256

/-- `MAX_NODES` (R5): arena nodes, 256 leaves and 255 internal nodes. -/
def maxNodes : Nat := 511

/-- `MAX_HEAP` (R5): live queue entries. -/
def maxHeap : Nat := 256

/-- `MAX_CODE_LEN` (R5): the longest codeword, in bits. -/
def maxCodeLen : Nat := 255

/-- The size of system memory in bytes (20_memory.md R60). -/
def memorySize : Nat := 2 ^ 64

/-- The size of the register window in bytes (10_state.md R23). -/
def windowSize : Nat := 256

/-- `MAX_ENCODE_INPUT` (R5): the longest input of `ENCODE`, in bytes. -/
def maxEncodeInput : Nat := 2 ^ 32 - 1

/-- The longest payload a container can declare, in bits (45_encoder.md R245). -/
def maxPayloadBits : Nat := 2 ^ 32 - 1

end Sys2Proof.Config
end

