-- ==== Sys2Proof/Syntax.lean ====
section
/-! DEFINITION. The instructions: one constructor for each row of spec/opcode_table.json, and the
shapes a host MMIO access can have on the target port (10_state.md R51). -/

namespace Sys2Proof

/-- The eight operand words a host can write (10_state.md R33, R34; 47_host_interface.md R316). -/
inductive OperandReg where
  | srcAddrLo | srcAddrHi | srcLenLo | srcLenHi
  | dstAddrLo | dstAddrHi | dstCapLo | dstCapHi
  deriving DecidableEq, Repr

/-- The named registers of the window (10_state.md R23). -/
inductive RegName where
  | id | ctrl | cmd | status | errCode
  | srcAddrLo | srcAddrHi | srcLenLo | srcLenHi
  | dstAddrLo | dstAddrHi | dstCapLo | dstCapHi
  | outLenLo | outLenHi | errInfoLo | errInfoHi | payloadBits | symbols
  deriving DecidableEq, Repr

/-- One host access on the MMIO target port (10_state.md R51). The supported shapes are the 32-bit
read and the 32-bit write; `other` is an access of any other width (20_memory.md R68). -/
inductive Access where
  | read (off : Byte)
  | write (off : Byte) (v : Word)
  | other (off : Byte) (bytes : Nat) (isWrite : Bool)
  deriving DecidableEq, Repr

/-- The instructions, in the order of spec/opcode_table.json: the command words, the host MMIO
accesses, the engine's micro-operations. -/
inductive Instr where
  /-- `NOP` (47_host_interface.md R313). -/
  | nop
  /-- `ENCODE` (45_encoder.md R240). -/
  | encode
  /-- `DECODE` (46_decoder.md R270). -/
  | decode
  /-- `ILLEGAL`: any other command word `w` (47_host_interface.md R314). -/
  | illegal (w : Word)
  /-- `CMD_WHILE_BUSY`: any command word while `BUSY = 1` (47_host_interface.md R315). -/
  | cmdWhileBusy (w : Word)
  /-- `MMIO_READ` (47_host_interface.md R310). -/
  | mmioRead (off : Byte)
  /-- `MMIO_WRITE_CTRL` (47_host_interface.md R318). -/
  | mmioWriteCtrl (v : Word)
  /-- `MMIO_WRITE_STATUS` (47_host_interface.md R317). -/
  | mmioWriteStatus (v : Word)
  /-- `MMIO_WRITE_OPERAND` (47_host_interface.md R316). -/
  | mmioWriteOperand (r : OperandReg) (v : Word)
  /-- `MMIO_WRITE_IGNORED` (47_host_interface.md R311). -/
  | mmioWriteIgnored (off : Byte) (v : Word)
  /-- `FT_CLEAR` (40_frequency_table.md R130). -/
  | ftClear
  /-- `FT_COUNT` (40_frequency_table.md R131). -/
  | ftCount
  /-- `PQ_INSERT n` (41_priority_queue.md R152). -/
  | pqInsert (n : NodeRef)
  /-- `PQ_EXTRACT_MIN` (41_priority_queue.md R153). -/
  | pqExtractMin
  /-- `TB_LEAVES` (42_tree_builder.md R170). -/
  | tbLeaves
  /-- `TB_EMPTY` (42_tree_builder.md R171). -/
  | tbEmpty
  /-- `TB_SINGLE` (42_tree_builder.md R172). -/
  | tbSingle
  /-- `TB_MERGE` (42_tree_builder.md R173). -/
  | tbMerge
  /-- `TB_FINISH` (42_tree_builder.md R174). -/
  | tbFinish
  /-- `CG_WALK` (43_code_generator.md R190). -/
  | cgWalk
  /-- `E_HEADER_SIZE`: `E_HEADER` phase 0 (45_encoder.md R245). -/
  | eHeaderSize
  /-- `E_HEADER_BYTE`: `E_HEADER` phase 1 (45_encoder.md R246). -/
  | eHeaderByte
  /-- `E_PAYLOAD_STEP` (45_encoder.md R247, R248). -/
  | ePayloadStep
  /-- `BW_INIT base` (44_bitstream.md R210). -/
  | bwInit (base : DWord)
  /-- `BW_PUT_BIT b` (44_bitstream.md R211). -/
  | bwPutBit (b : Bool)
  /-- `BW_WRITE_BITS v` (44_bitstream.md R212). -/
  | bwWriteBits (v : Byte)
  /-- `BW_FINISH` (44_bitstream.md R213). -/
  | bwFinish
  /-- `D_HEADER_FIELD`: `D_HEADER` phases 0 to 4 (46_decoder.md R272). -/
  | dHeaderField
  /-- `D_HEADER_CHECK`: `D_HEADER` phase 5 (46_decoder.md R273). -/
  | dHeaderCheck
  /-- `D_REBUILD_STEP` (46_decoder.md R274). -/
  | dRebuildStep
  /-- `BR_INIT base, n` (44_bitstream.md R214). -/
  | brInit (base : DWord) (n : Word)
  /-- `BR_READ_BIT` (44_bitstream.md R215). -/
  | brReadBit
  /-- `TW_STEP` (46_decoder.md R275). -/
  | twStep
  /-- `SO_EMIT v` (46_decoder.md R276). -/
  | soEmit (v : Byte)
  /-- `D_PAYLOAD_END` (46_decoder.md R277, R278). -/
  | dPayloadEnd
  deriving DecidableEq, Repr

/-- The instructions a host access selects. The others are micro-operations, which "have no
host-visible encoding" (40_frequency_table.md). -/
def Instr.hostVisible : Instr → Bool
  | .nop | .encode | .decode | .illegal _ | .cmdWhileBusy _ => true
  | .mmioRead _ | .mmioWriteCtrl _ | .mmioWriteStatus _ | .mmioWriteOperand _ _
  | .mmioWriteIgnored _ _ => true
  | .ftClear | .ftCount | .pqInsert _ | .pqExtractMin | .tbLeaves | .tbEmpty | .tbSingle
  | .tbMerge | .tbFinish | .cgWalk | .eHeaderSize | .eHeaderByte | .ePayloadStep | .bwInit _
  | .bwPutBit _ | .bwWriteBits _ | .bwFinish | .dHeaderField | .dHeaderCheck | .dRebuildStep
  | .brInit _ _ | .brReadBit | .twStep | .soEmit _ | .dPayloadEnd => false

end Sys2Proof
end

