-- ==== Sys2Proof/WellFormed.lean ====
section
/-! DEFINITION. Which instructions are well formed: the field values the opcode table admits. -/

namespace Sys2Proof

/-- MMIO offsets are "multiples of 4 inside the window" (20_memory.md R68). -/
def alignedOffset (off : Byte) : Bool := off &&& 3#8 == 0#8

/-- The write offsets without any effect (47_host_interface.md R311): `ID`, `ERR_CODE`, the result
registers and the reserved offsets. -/
def ignoredOffset (off : Byte) : Bool :=
  off == 0x00#8 || off == 0x10#8 || off == 0x14#8 || (0x38#8).ule off

/-- The three legal command words (30_encoding.md R91). -/
def legalCommand (w : Word) : Bool := w == 0#32 || w == 1#32 || w == 2#32

/-- Well-formedness of an instruction's fields. -/
def Instr.wf : Instr → Bool
  | .illegal w => !legalCommand w
  | .mmioRead off => alignedOffset off
  | .mmioWriteIgnored off _ => alignedOffset off && ignoredOffset off
  | .nop | .encode | .decode | .cmdWhileBusy _ => true
  | .mmioWriteCtrl _ | .mmioWriteStatus _ | .mmioWriteOperand _ _ => true
  | .ftClear | .ftCount | .pqInsert _ | .pqExtractMin | .tbLeaves | .tbEmpty | .tbSingle
  | .tbMerge | .tbFinish | .cgWalk | .eHeaderSize | .eHeaderByte | .ePayloadStep | .bwInit _
  | .bwPutBit _ | .bwWriteBits _ | .bwFinish | .dHeaderField | .dHeaderCheck | .dRebuildStep
  | .brInit _ _ | .brReadBit | .twStep | .soEmit _ | .dPayloadEnd => true

end Sys2Proof
end

