-- ==== Sys2Proof/Decode.lean ====
section
/-! DEFINITION. Decoding: a command word (30_encoding.md R91, R93), a host MMIO access
(47_host_interface.md R310, R311), the register map (10_state.md R23); then the encoder, written from
the same tables. A micro-operation has no encoding: the engine's state selects it
(Machine/Sequencer.lean). -/

namespace Sys2Proof

/-- Why an access or a string of bytes is rejected. -/
inductive Reject where
  /-- An access that is not 32 bits wide (20_memory.md R68). Safe: the run stops. -/
  | width
  /-- An offset that is no multiple of 4 (20_memory.md R68). Safe: the run stops. -/
  | misaligned
  /-- A command is one 32-bit word (30_encoding.md R90); this string of bytes is not four bytes
  long. Safe: nothing is decoded. -/
  | length
  deriving DecidableEq, Repr

/-- A command word selects "by the whole word" (30_encoding.md R91); every other word is illegal
(R93). -/
def decodeCommand (w : Word) : Instr :=
  if w = 0x00000000#32 then .nop
  else if w = 0x00000001#32 then .encode
  else if w = 0x00000002#32 then .decode
  else .illegal w

/-- `CMD` (10_state.md R26, R112). -/
def cmdOffset : Byte := 0x08#8

/-- `CTRL` (10_state.md R25). -/
def ctrlOffset : Byte := 0x04#8

/-- `STATUS` (10_state.md R27). -/
def statusOffset : Byte := 0x0C#8

/-- The offsets of the operand words (10_state.md R23). -/
def OperandReg.offset : OperandReg → Byte
  | .srcAddrLo => 0x18#8
  | .srcAddrHi => 0x1C#8
  | .srcLenLo => 0x20#8
  | .srcLenHi => 0x24#8
  | .dstAddrLo => 0x28#8
  | .dstAddrHi => 0x2C#8
  | .dstCapLo => 0x30#8
  | .dstCapHi => 0x34#8

/-- All operand words. -/
def OperandReg.all : List OperandReg :=
  [.srcAddrLo, .srcAddrHi, .srcLenLo, .srcLenHi, .dstAddrLo, .dstAddrHi, .dstCapLo, .dstCapHi]

/-- The operand word at an offset, if there is one. -/
def operandAt (off : Byte) : Option OperandReg :=
  OperandReg.all.find? fun r => r.offset == off

/-- The register map (10_state.md R23). -/
def RegName.offset : RegName → Byte
  | .id => 0x00#8
  | .ctrl => 0x04#8
  | .cmd => 0x08#8
  | .status => 0x0C#8
  | .errCode => 0x10#8
  | .srcAddrLo => 0x18#8
  | .srcAddrHi => 0x1C#8
  | .srcLenLo => 0x20#8
  | .srcLenHi => 0x24#8
  | .dstAddrLo => 0x28#8
  | .dstAddrHi => 0x2C#8
  | .dstCapLo => 0x30#8
  | .dstCapHi => 0x34#8
  | .outLenLo => 0x38#8
  | .outLenHi => 0x3C#8
  | .errInfoLo => 0x40#8
  | .errInfoHi => 0x44#8
  | .payloadBits => 0x48#8
  | .symbols => 0x4C#8

/-- All named registers. -/
def RegName.all : List RegName :=
  [.id, .ctrl, .cmd, .status, .errCode, .srcAddrLo, .srcAddrHi, .srcLenLo, .srcLenHi, .dstAddrLo,
    .dstAddrHi, .dstCapLo, .dstCapHi, .outLenLo, .outLenHi, .errInfoLo, .errInfoHi, .payloadBits,
    .symbols]

/-- The register at an offset; `none` is a reserved offset (10_state.md R39). -/
def regAt (off : Byte) : Option RegName :=
  RegName.all.find? fun r => r.offset == off

/-- The write dispatch of 47_host_interface.md R311. `busy` is `STATUS.BUSY`: it alone tells a
`CMD` write of R312 to R314 from one of R315. -/
def decodeWrite (busy : Bool) (off : Byte) (v : Word) : Instr :=
  if off = ctrlOffset then .mmioWriteCtrl v
  else if off = cmdOffset then (if busy then .cmdWhileBusy v else decodeCommand v)
  else if off = statusOffset then .mmioWriteStatus v
  else match operandAt off with
    | some r => .mmioWriteOperand r v
    | none => .mmioWriteIgnored off v

/-- The decoder of host accesses: aligned 32-bit reads and writes are instructions, every other
access is rejected by name (20_memory.md R68). -/
def decodeAccess (busy : Bool) : Access → Except Reject Instr
  | .read off => if alignedOffset off then .ok (.mmioRead off) else .error .misaligned
  | .write off v => if alignedOffset off then .ok (decodeWrite busy off v) else .error .misaligned
  | .other _ _ _ => .error .width

/-- Assemble a 32-bit register word from its bytes, least significant first (20_memory.md R66). -/
def wordOfBytes (b0 b1 b2 b3 : Byte) : Word := b3 ++ b2 ++ b1 ++ b0

/-- The bytes of a 32-bit register word, least significant first. -/
def bytesOfWord (w : Word) : List Byte :=
  [w.extractLsb' 0 8, w.extractLsb' 8 8, w.extractLsb' 16 8, w.extractLsb' 24 8]

/-- The decoder of command words, total on any string of bytes: a command is one 32-bit word
(30_encoding.md R90). -/
def decodeBytes : List Byte → Except Reject Instr
  | [b0, b1, b2, b3] => .ok (decodeCommand (wordOfBytes b0 b1 b2 b3))
  | _ => .error .length

/-- The command word of the table's numbering (bit 0 the least significant), handed to the decoder
byte by byte. The bits above `nbits` are 0; no command is longer than 32 bits. -/
def decodeTableWord (nbits w : Nat) : Option Instr :=
  if nbits ≤ 32 then
    match decodeBytes (bytesOfWord (BitVec.ofNat 32 (w % 2 ^ nbits))) with
    | .ok i => some i
    | .error _ => none
  else none

/-- The word a command is written as (30_encoding.md R91). -/
def commandWord : Instr → Option Word
  | .nop => some 0x00000000#32
  | .encode => some 0x00000001#32
  | .decode => some 0x00000002#32
  | .illegal w => some w
  | .cmdWhileBusy w => some w
  | _ => none

/-- The encoder: the MMIO transaction (offset, data) of an instruction (30_encoding.md R112). A
micro-operation has none. -/
def encode : Instr → Option Access
  | .nop => some (.write 0x08#8 0x00000000#32)
  | .encode => some (.write 0x08#8 0x00000001#32)
  | .decode => some (.write 0x08#8 0x00000002#32)
  | .illegal w => some (.write 0x08#8 w)
  | .cmdWhileBusy w => some (.write 0x08#8 w)
  | .mmioRead off => some (.read off)
  | .mmioWriteCtrl v => some (.write 0x04#8 v)
  | .mmioWriteStatus v => some (.write 0x0C#8 v)
  | .mmioWriteOperand r v => some (.write r.offset v)
  | .mmioWriteIgnored off v => some (.write off v)
  | .ftClear | .ftCount | .pqInsert _ | .pqExtractMin | .tbLeaves | .tbEmpty | .tbSingle
  | .tbMerge | .tbFinish | .cgWalk | .eHeaderSize | .eHeaderByte | .ePayloadStep | .bwInit _
  | .bwPutBit _ | .bwWriteBits _ | .bwFinish | .dHeaderField | .dHeaderCheck | .dRebuildStep
  | .brInit _ _ | .brReadBit | .twStep | .soEmit _ | .dPayloadEnd => none

/-- The values of `STATUS.BUSY` under which an access stands for the instruction: a `CMD` write is
`CMD_WHILE_BUSY` exactly while `BUSY = 1` (30_encoding.md R93); no other access depends on it. -/
def Instr.selectedWhen (busy : Bool) : Instr → Bool
  | .nop | .encode | .decode | .illegal _ => !busy
  | .cmdWhileBusy _ => busy
  | _ => true

end Sys2Proof
end

