-- ==== Sys2Proof/Machine/State.lean ====
section
/-! DEFINITION. The state of the huffman codec core as plain data (10_state.md), the platform
parameters, the inputs still to come, and the reset state (70_reset_and_hazards.md R381). -/

namespace Sys2Proof.Machine

/-- The FSM states of the engine (10_state.md R22). -/
inductive Fsm where
  | idle | eCount | eBuild | eCodes | eHeader | ePayload | dHeader | dRebuild | dPayload
  deriving DecidableEq, Repr

/-- Leaf or internal (10_state.md R42). -/
inductive NodeKind where
  | leaf | internal
  deriving DecidableEq, Repr

/-- A tree node (10_state.md R42); `none` is the reference `NULL`. -/
structure Node where
  kind : NodeKind
  sym : Byte
  w : DWord
  minsym : Byte
  left : Option NodeRef
  right : Option NodeRef
  deriving DecidableEq, Repr

/-- An entry of the traversal stack (10_state.md R46). -/
structure CgEntry where
  node : NodeRef
  len : Byte
  pat : Pattern
  deriving DecidableEq, Repr

/-- What a micro-operation that returns a value returned when it ran as an instruction of its own:
`PQ_EXTRACT_MIN` (41_priority_queue.md R153), `BR_READ_BIT` (44_bitstream.md R215), `BW_FINISH`
(44_bitstream.md R213). The model's own latch (log entry 7). -/
inductive MicroResult where
  | none
  | node (n : Option NodeRef)
  | bit (b : Bool)
  | finish (nbits wpos : DWord)
  deriving DecidableEq, Repr

/-- The memory-mapped registers (10_state.md R23 to R38). `ID` is hardwired and `CMD` stores
nothing, so neither has a field; `STATUS.BUSY` and `STATUS.STATE` are views of the FSM state. A
LO/HI pair is one 64-bit value. -/
structure Regs where
  /-- `CTRL.IE` (R25). -/
  ie : Bool
  /-- `STATUS.DONE` (R28). -/
  done : Bool
  /-- `STATUS.ERR` (R29). -/
  err : Bool
  /-- `STATUS.REJ` (R30). -/
  rej : Bool
  /-- `ERR_CODE.CODE` (R32). -/
  errCode : BitVec 4
  /-- `ERR_CODE.SUB` (R32). -/
  errSub : BitVec 8
  /-- `ERR_INFO` (R36). -/
  errInfo : DWord
  /-- `SRC_ADDR` (R33). -/
  srcAddr : DWord
  /-- `SRC_LEN` (R33). -/
  srcLen : DWord
  /-- `DST_ADDR` (R34). -/
  dstAddr : DWord
  /-- `DST_CAP` (R34). -/
  dstCap : DWord
  /-- `OUT_LEN` (R35). -/
  outLen : DWord
  /-- `PAYLOAD_BITS` (R37). -/
  payloadBits : Word
  /-- `SYMBOLS[8:0]` (R38). -/
  symbols : BitVec 9
  deriving DecidableEq, Repr

/-- The engine's working state (10_state.md R40 to R49) and its FSM state (R21). -/
structure Engine where
  /-- `s.state` (R21, R22). -/
  fsm : Fsm
  /-- `s.phase` (R40). -/
  phase : BitVec 3
  /-- `s.op` (R40): bits [3:0] of the accepted command word. -/
  op : BitVec 4
  /-- `s.src` (R40). -/
  src : DWord
  /-- `s.len` (R40). -/
  len : DWord
  /-- `s.dst` (R40). -/
  dst : DWord
  /-- `s.cap` (R40). -/
  cap : DWord
  /-- `s.i` (R40): input byte index. -/
  i : DWord
  /-- `s.k` (R40): present symbols. -/
  k : BitVec 9
  /-- `s.origlen` (R40). -/
  origlen : DWord
  /-- `s.bitlen` (R40, R48). -/
  bitlen : Word
  /-- `s.total` (R40): total payload bits. -/
  total : DWord
  /-- `s.csize` (R40): container size. -/
  csize : DWord
  /-- `s.H` (R40): header size. -/
  hsize : DWord
  /-- `s.sum` (R40): sum of header frequencies. -/
  sum : DWord
  /-- `s.j` (R40, R49): symbols emitted. -/
  j : DWord
  /-- `s.hpos` (R40): header byte index of the encoder. -/
  hpos : DWord
  /-- `s.e` (R40): header entry index of the decoder. -/
  e : DWord
  /-- `s.freq[0..255]` (R41). -/
  freq : Vector DWord 256
  /-- `s.node[0..510]` (R42). -/
  node : Vector Node 511
  /-- `s.nn` (R42), 0..511. -/
  nn : BitVec 9
  /-- `s.pq` (R43): the queued nodes, each once, in ascending order of index (the one written form
  of the set; its arrangement "is not architecturally visible"). -/
  pq : List NodeRef
  /-- `s.root` (R44). -/
  root : Option NodeRef
  /-- `s.codelen[0..255]` (R45). -/
  codelen : Vector Byte 256
  /-- `s.codepat[0..255]` (R45). -/
  codepat : Vector Pattern 256
  /-- `s.cgstack` (R46), top first. -/
  cgstack : List CgEntry
  /-- `s.acc` (R47). -/
  acc : Byte
  /-- `s.nacc` (R47), 0..7; the eighth bit makes it 8 within a step. -/
  nacc : BitVec 4
  /-- `s.nbits` (R47). -/
  nbits : DWord
  /-- `s.wbase` (R47). -/
  wbase : DWord
  /-- `s.wpos` (R47). -/
  wpos : DWord
  /-- `s.rbase` (R48). -/
  rbase : DWord
  /-- `s.rpos` (R48). -/
  rpos : DWord
  /-- `s.cur` (R49). -/
  cur : Option NodeRef
  /-- The model's own latch for a micro-operation's return value (log entry 7). -/
  ret : MicroResult
  deriving DecidableEq, Repr

/-- A range of bus addresses `[base, base + size)`. -/
structure Region where
  base : Nat
  size : Nat
  deriving DecidableEq, Repr

/-- A range of bus addresses whose engine accesses the platform answers with an error. -/
structure FaultRegion where
  region : Region
  onRead : Bool
  onWrite : Bool
  deriving DecidableEq, Repr

/-- The platform the core stands on: parameters the spec leaves OPEN (00_scope.md R5), as data that
no step changes. -/
structure Platform where
  /-- `P_MMIO_BASE` (10_state.md R23). -/
  mmioBase : DWord
  /-- `P_BUS_FAULT` (20_memory.md R74), by ranges. -/
  busFaults : List FaultRegion
  /-- The ranges that are not ordinary memory (70_reset_and_hazards.md R388), beside the core's own
  window. -/
  devices : List Region
  deriving DecidableEq, Repr

/-- What reaches the core from outside between two engine steps (00_scope.md R12). -/
inductive Input where
  /-- A host MMIO access (47_host_interface.md). -/
  | mmio (a : Access)
  /-- `POLL` (30_encoding.md R111): the host reads the register until `(t & mask) == val`. `gaps` says
  how many engine steps go before each read after the first, one number a read; when it is used up,
  one engine step goes before each further read (log entry 19). -/
  | poll (off : Byte) (mask val : Word) (gaps : List Nat)
  /-- A store to system memory by the host (30_encoding.md R110 `MEM`) or another bus master: the
  bytes at `addr`, `addr + 1`, ... in one transaction (log entry 31). -/
  | store (addr : Nat) (bytes : List Byte)
  /-- A load of one byte of system memory by the host. -/
  | load (addr : DWord)
  /-- The `rst` input (70_reset_and_hazards.md R380), asserted when `inflight` memory accesses of
  the engine step then in progress have been made. -/
  | reset (inflight : Nat)
  deriving DecidableEq, Repr

/-- An input, and how many engine steps go before it (70_reset_and_hazards.md R389: "zero or any
finite number"). -/
structure Timed where
  after : Nat
  act : Input
  deriving DecidableEq, Repr

/-- One transaction of the memory initiator port, "answered OK or error" (10_state.md R51). -/
inductive BusAccess where
  | read (addr : Nat) (v : Byte)
  | write (addr : Nat) (v : Byte)
  | readError (addr : Nat)
  | writeError (addr : Nat)
  deriving DecidableEq, Repr

/-- What the host gets back: the value of an MMIO read, or of a load of its own. -/
inductive HostObs where
  | reg (off : Byte) (v : Word)
  | mem (addr : DWord) (v : Byte)
  deriving DecidableEq, Repr

/-- The state of the machine. -/
structure State where
  regs : Regs
  eng : Engine
  /-- System memory (20_memory.md R61), in the canonical form `Memory.wf`. -/
  mem : List Host.Cell
  plat : Platform
  /-- The inputs still to come, the first at the head. -/
  inputs : List Timed
  /-- The transactions of the memory initiator port so far, the newest first (log entry 8). -/
  busLog : List BusAccess
  /-- What the host has got back so far, the newest first (log entry 8). -/
  hostLog : List HostObs
  deriving DecidableEq, Repr

/-- Why the machine stops with a fault. All are safe: the run stops where the hardware, or the
spec, says nothing more. -/
inductive Fault where
  /-- The tree builder got `NONE` from the queue (93_implementation_defined.md S-11). Raised by
  `TB_SINGLE`, `TB_MERGE`, `TB_FINISH`. Safe. -/
  | queueEmpty
  /-- `PQ_INSERT` with 256 nodes queued: its assertion fails (41_priority_queue.md R152). Raised by
  `PQ_INSERT`, `TB_LEAVES`, `TB_MERGE`. Safe. -/
  | queueFull
  /-- A node beyond `s.node[510]` (10_state.md R42). Raised by `TB_LEAVES`, `TB_MERGE`. Safe. -/
  | arenaFull
  /-- The node named by `NULL` is needed (42_tree_builder.md R175 excludes it). Raised by
  `CG_WALK`, `TW_STEP`. Safe. -/
  | nullNode
  /-- A path longer than 255 (43_code_generator.md R191 excludes it). Raised by `CG_WALK`. Safe. -/
  | pathTooLong
  /-- The walk has popped as many nodes as the arena has and is not done: no tree
  (43_code_generator.md R190). Raised by `CG_WALK`. Safe. -/
  | walkNotTree
  /-- No header byte has this index (45_encoder.md R246). Raised by `E_HEADER_BYTE`. Safe. -/
  | headerIndex
  /-- The state rules name no step for this `s.phase` (45_encoder.md R245, R246; 46_decoder.md
  R272, R273). Raised by the engine's step and by `D_HEADER_FIELD`. Safe. -/
  | noSuchPhase
  /-- An address at or above 2^64 (20_memory.md R60). Raised by every memory access. Safe. -/
  | noSuchAddress
  /-- An agent other than the engine touched a buffer while `BUSY = 1`
  (70_reset_and_hazards.md R385). Raised by the step. Safe. -/
  | bufferHazard
  /-- A command's range is not ordinary memory (70_reset_and_hazards.md R388). Raised by `ENCODE`
  and `DECODE`. Safe. -/
  | notOrdinaryMemory
  deriving DecidableEq, Repr

/-- Why the model gives an instruction or an input no meaning. All are safe: the run stops. -/
inductive Refusal where
  /-- An instruction without a meaning in this model. Raised by exec's arms. Safe. -/
  | notModelled (mnemonic : String)
  /-- A host access that is not an aligned 32-bit one (20_memory.md R68, refusal
  `UnsupportedAccess`). Raised by the step, `MMIO_READ` and `MMIO_WRITE_IGNORED`. Safe. -/
  | unsupportedAccess
  /-- A field value the opcode table does not admit for the row (a legal command word as
  `ILLEGAL`, a write offset with an effect as `MMIO_WRITE_IGNORED`). No decoded instruction has
  one. Safe. -/
  | illFormed
  /-- A host access to a platform device whose behaviour the spec does not give
  (70_reset_and_hazards.md R388). Raised by the step. Safe. -/
  | deviceAccess
  deriving DecidableEq, Repr

/-- An arena entry nothing has written yet (log entry 2). -/
def Node.blank : Node :=
  { kind := .leaf, sym := 0, w := 0, minsym := 0, left := none, right := none }

/-- The registers after reset (70_reset_and_hazards.md R381). -/
def Regs.reset : Regs :=
  { ie := false, done := false, err := false, rej := false
    errCode := 0, errSub := 0, errInfo := 0
    srcAddr := 0, srcLen := 0, dstAddr := 0, dstCap := 0
    outLen := 0, payloadBits := 0, symbols := 0 }

/-- The engine after reset: `IDLE`, phase 0 (R381). Every other value is "unspecified" (R383): zero,
by log entry 2. -/
def Engine.reset : Engine :=
  { fsm := .idle, phase := 0
    op := 0, src := 0, len := 0, dst := 0, cap := 0
    i := 0, k := 0, origlen := 0, bitlen := 0, total := 0, csize := 0, hsize := 0, sum := 0
    j := 0, hpos := 0, e := 0
    freq := Vector.replicate 256 0
    node := Vector.replicate 511 Node.blank
    nn := 0, pq := [], root := none
    codelen := Vector.replicate 256 0
    codepat := Vector.replicate 256 0
    cgstack := []
    acc := 0, nacc := 0, nbits := 0, wbase := 0, wpos := 0
    rbase := 0, rpos := 0, cur := none
    ret := .none }

/-- The platform `State.reset` stands on: no bus fault, no device, a window base away from the
buffers of 95_test_vectors.md (log entries 3 and 4). -/
def Platform.plain : Platform :=
  { mmioBase := 0x8000000000000000, busFaults := [], devices := [] }

/-- The machine right after reset (70_reset_and_hazards.md R381), with nothing written to memory
and no input yet. -/
def State.reset : State :=
  { regs := Regs.reset, eng := Engine.reset, mem := [], plat := Platform.plain
    inputs := [], busLog := [], hostLog := [] }

end Sys2Proof.Machine
end

