-- ==== Sys2Proof/Machine/Flags.lean ====
section
/-! DEFINITION. The status and control bits (10_state.md R25 to R32), the interrupt output
(47_host_interface.md R319) and the error codes (30_encoding.md R107, R108). -/

namespace Sys2Proof.Machine

/-- The FSM encodings of 10_state.md R22. -/
def Fsm.code : Fsm → BitVec 4
  | .idle => 0
  | .eCount => 1
  | .eBuild => 2
  | .eCodes => 3
  | .eHeader => 4
  | .ePayload => 5
  | .dHeader => 8
  | .dRebuild => 9
  | .dPayload => 10

/-- `STATUS.BUSY`: "1 exactly while `s.state != IDLE`" (R27). -/
def State.busy (s : State) : Bool := s.eng.fsm != .idle

/-- One bit as a bit vector. -/
def bit (b : Bool) : BitVec 1 := BitVec.ofBool b

/-- `STATUS` as the host reads it: `BUSY` [0], `DONE` [1], `ERR` [2], `REJ` [3], `STATE` [11:8]
(R27 to R31). -/
def statusWord (s : State) : Word :=
  (0#20 ++ s.eng.fsm.code ++ 0#4 ++ bit s.regs.rej ++ bit s.regs.err ++ bit s.regs.done
    ++ bit s.busy : BitVec (20 + 4 + 4 + 1 + 1 + 1 + 1))

/-- `CTRL` as the host reads it: `IE` [0] (R25). -/
def ctrlWord (r : Regs) : Word := (0#31 ++ bit r.ie : BitVec (31 + 1))

/-- `ERR_CODE` as the host reads it: `CODE` [3:0], `SUB` [15:8] (R32). -/
def errCodeWord (r : Regs) : Word :=
  (0#16 ++ r.errSub ++ 0#4 ++ r.errCode : BitVec (16 + 8 + 4 + 4))

/-- `SYMBOLS` as the host reads it: k in [8:0] (R38). -/
def symbolsWord (r : Regs) : Word := (0#23 ++ r.symbols : BitVec (23 + 9))

/-- The write-1-to-clear effect of a `STATUS` write (47_host_interface.md R317). -/
def Regs.w1c (r : Regs) (v : Word) : Regs :=
  { r with
    done := r.done && !v.getLsbD 1
    err := r.err && !v.getLsbD 2
    rej := r.rej && !v.getLsbD 3 }

/-- The effect of a `CTRL` write: "only bit 0 is stored" (R25, 47_host_interface.md R318). -/
def Regs.setCtrl (r : Regs) (v : Word) : Regs := { r with ie := v.getLsbD 0 }

/-- The write-rejected flag (R30, 47_host_interface.md R315, R316). -/
def Regs.setRej (r : Regs) : Regs := { r with rej := true }

/-- The level of the `irq` output (47_host_interface.md R319). -/
def State.irq (s : State) : Bool := s.regs.ie && (s.regs.done || s.regs.err)

/-- The error kinds (60_exceptions.md R341). -/
inductive ErrKind where
  | invalidHeader | truncatedStream | unknownSymbolReferenced | payloadTooLong | outputOverflow
  | illegalCommand | busError
  deriving DecidableEq, Repr

/-- `ERR_CODE.CODE` of a kind (30_encoding.md R107). -/
def ErrKind.code : ErrKind → BitVec 4
  | .invalidHeader => 1
  | .truncatedStream => 2
  | .unknownSymbolReferenced => 3
  | .payloadTooLong => 4
  | .outputOverflow => 5
  | .illegalCommand => 6
  | .busError => 7

/-- The checks that can fail (30_encoding.md R108). -/
inductive ErrSub where
  | shortHeader | badMagic | kRange | dupSymbol | zeroFreq | lenSum | payloadShort | payloadLong
  | decDstSmall | readPastEnd | placeholder | bitsLeft | bitsTooMany | encDstSmall | writeBound
  | inputTooLong | badOpcode | srcRange | dstRange | overlap | readFault | writeFault
  deriving DecidableEq, Repr

/-- `ERR_CODE.SUB` of a check (30_encoding.md R108). -/
def ErrSub.code : ErrSub → BitVec 8
  | .shortHeader => 0x01
  | .badMagic => 0x02
  | .kRange => 0x03
  | .dupSymbol => 0x04
  | .zeroFreq => 0x05
  | .lenSum => 0x06
  | .payloadShort => 0x07
  | .payloadLong => 0x08
  | .decDstSmall => 0x09
  | .readPastEnd => 0x0A
  | .placeholder => 0x0B
  | .bitsLeft => 0x0C
  | .bitsTooMany => 0x10
  | .encDstSmall => 0x11
  | .writeBound => 0x12
  | .inputTooLong => 0x13
  | .badOpcode => 0x20
  | .srcRange => 0x21
  | .dstRange => 0x22
  | .overlap => 0x23
  | .readFault => 0x30
  | .writeFault => 0x31

/-- The kind each check belongs to (30_encoding.md R108, column CODE). -/
def ErrSub.kind : ErrSub → ErrKind
  | .shortHeader | .badMagic | .kRange | .lenSum | .payloadLong | .bitsLeft => .invalidHeader
  | .payloadShort | .readPastEnd => .truncatedStream
  | .dupSymbol | .zeroFreq | .placeholder => .unknownSymbolReferenced
  | .bitsTooMany | .inputTooLong => .payloadTooLong
  | .decDstSmall | .encDstSmall | .writeBound => .outputOverflow
  | .badOpcode | .srcRange | .dstRange | .overlap => .illegalCommand
  | .readFault | .writeFault => .busError

/-- The result registers at 0, as acceptance and the error entry leave them (R35, R37, R38). -/
def Regs.zeroResults (r : Regs) : Regs := { r with outLen := 0, payloadBits := 0, symbols := 0 }

/-- The registers after `raise E(sub, info)` (60_exceptions.md R346); `BUSY` falls with the FSM
state. -/
def Regs.report (r : Regs) (e : ErrSub) (info : DWord) : Regs :=
  { r.zeroResults with
    errCode := e.kind.code, errSub := e.code, errInfo := info, done := false, err := true }

/-- The registers after the first lines of acceptance (47_host_interface.md R312): the return from
an error too, since "there is no return-from-error instruction" (60_exceptions.md R348). -/
def Regs.clearReport (r : Regs) : Regs :=
  { r.zeroResults with done := false, err := false, errCode := 0, errSub := 0, errInfo := 0 }

/-- The registers after a command's completion (45_encoder.md R248, 46_decoder.md R278). -/
def Regs.finished (r : Regs) (outLen : DWord) (payloadBits : Word) (symbols : BitVec 9) : Regs :=
  { r with outLen := outLen, payloadBits := payloadBits, symbols := symbols, done := true }

end Sys2Proof.Machine
end

