-- ==== Sys2Proof/Machine/Memory.lean ====
section
/-! DEFINITION. System memory (20_memory.md R60, R61) as a canonical list of cells: addresses
strictly rising and below 2^64, no cell equal to what an unlisted address reads as. -/

namespace Sys2Proof.Machine

/-- What an address nothing has written reads as. The spec gives memory no reset contents (R61); its
programs start with "every memory byte not named is 00" (95_test_vectors.md, log entry 1). -/
def Memory.unwritten : Byte := 0

/-- `M[a]` (R62). -/
def Memory.read : List Host.Cell → Nat → Byte
  | [], _ => Memory.unwritten
  | (b, v) :: m, a => if a = b then v else Memory.read m a

/-- Put a cell before `m`, unless it says what an unlisted address reads as. -/
def Memory.put (a : Nat) (v : Byte) (m : List Host.Cell) : List Host.Cell :=
  if v = Memory.unwritten then m else (a, v) :: m

/-- `M[a] <- v` (R62), keeping the canonical form. -/
def Memory.write : List Host.Cell → Nat → Byte → List Host.Cell
  | [], a, v => Memory.put a v []
  | (b, u) :: m, a, v =>
    if a < b then Memory.put a v ((b, u) :: m)
    else if a = b then Memory.put a v m
    else (b, u) :: Memory.write m a v

/-- Consecutive bytes from address `a` on. -/
def Memory.writeBytes (m : List Host.Cell) (a : Nat) : List Byte → List Host.Cell
  | [] => m
  | v :: vs => Memory.writeBytes (Memory.write m a v) (a + 1) vs

/-- The cells of `m` lie at rising addresses from `lo` on, below 2^64, and none is redundant. -/
def Memory.wfFrom (lo : Nat) : List Host.Cell → Bool
  | [] => true
  | (a, v) :: m =>
    decide (lo ≤ a) && decide (a < Config.memorySize) && decide (v ≠ Memory.unwritten)
      && Memory.wfFrom (a + 1) m

/-- The canonical form. -/
def Memory.wf (m : List Host.Cell) : Bool := Memory.wfFrom 0 m

end Sys2Proof.Machine
end

