-- ==== Sys2Proof/Machine/Operands.lean ====
section
/-! DEFINITION. The operand forms: little-endian fields (00_scope.md R8), LO/HI register pairs
(10_state.md R23), codeword bits (R9), MSB-first payload bits (20_memory.md R65), the header bytes
(30_encoding.md R94), the node and table accessors, and the latched ranges. -/

namespace Sys2Proof.Machine

/-- `le16`, `le32`, `le64` (00_scope.md R8): the value of bytes, least significant first. -/
def leNat : List Byte → Nat
  | [] => 0
  | b :: bs => b.toNat + 256 * leNat bs

/-- `bytes_le_N` (00_scope.md R8): the `n` low bytes of a value, least significant first. -/
def bytesLE : Nat → Nat → List Byte
  | 0, _ => []
  | n + 1, v => BitVec.ofNat 8 v :: bytesLE n (v / 256)

/-- `ceil(a / 8)` (00_scope.md R7). -/
def ceilDiv8 (a : Nat) : Nat := (a + 7) / 8

/-- The low word of a pair (10_state.md R23). -/
def lo (v : DWord) : Word := v.extractLsb' 0 32

/-- The high word of a pair. -/
def hi (v : DWord) : Word := v.extractLsb' 32 32

/-- `HI * 2^32 + LO` (20_memory.md R66). -/
def pair (h l : Word) : DWord := (h ++ l : BitVec (32 + 32))

/-- A pair with its low word replaced. -/
def setLo (v : DWord) (w : Word) : DWord := pair (hi v) w

/-- A pair with its high word replaced. -/
def setHi (v : DWord) (w : Word) : DWord := pair w (lo v)

/-- The magic bytes "HUF1" (30_encoding.md R95). -/
def magic : List Byte := [0x48, 0x55, 0x46, 0x31]

/-- The register `ID` (10_state.md R24). -/
def idWord : Word := 0x31465548

/-- The table index of a symbol. -/
def symIdx (v : Byte) : Fin 256 := ⟨v.toNat, v.isLt⟩

/-- The symbols 0..255 in ascending order. -/
def allSymbols : List Byte := (List.range 256).map (BitVec.ofNat 8)

/-- `s.freq[v]` (10_state.md R41). -/
def Engine.freqOf (g : Engine) (v : Byte) : DWord := g.freq[symIdx v]

/-- `s.freq[v] <- f`. -/
def Engine.setFreq (g : Engine) (v : Byte) (f : DWord) : Engine :=
  { g with freq := g.freq.set (symIdx v).val f (symIdx v).isLt }

/-- `s.node[n]` (10_state.md R42). -/
def Engine.nodeAt (g : Engine) (n : NodeRef) : Node := g.node[n]

/-- `s.node[n] <- x`. -/
def Engine.setNode (g : Engine) (n : NodeRef) (x : Node) : Engine :=
  { g with node := g.node.set n.val x n.isLt }

/-- The arena index `s.nn`, if there is such a node. -/
def Engine.nextNode (g : Engine) : Option NodeRef :=
  if h : g.nn.toNat < 511 then some ⟨g.nn.toNat, h⟩ else none

/-- `s.codelen[v]` (10_state.md R45). -/
def Engine.codelenOf (g : Engine) (v : Byte) : Byte := g.codelen[symIdx v]

/-- `s.codepat[v]` (10_state.md R45). -/
def Engine.codepatOf (g : Engine) (v : Byte) : Pattern := g.codepat[symIdx v]

/-- The codeword of `v` becomes (`len`, `pat`). -/
def Engine.setCode (g : Engine) (v : Byte) (len : Byte) (pat : Pattern) : Engine :=
  { g with
    codelen := g.codelen.set (symIdx v).val len (symIdx v).isLt
    codepat := g.codepat.set (symIdx v).val pat (symIdx v).isLt }

/-- `s.pq <- q` (10_state.md R43). -/
def Engine.setPq (g : Engine) (q : List NodeRef) : Engine := { g with pq := q }

/-- `s.nn <- s.nn + 1` (10_state.md R42). -/
def Engine.nextNn (g : Engine) : Engine := { g with nn := g.nn + 1 }

/-- `s.k <- k` (10_state.md R40). -/
def Engine.setK (g : Engine) (k : BitVec 9) : Engine := { g with k := k }

/-- `s.root <- n` (10_state.md R44). -/
def Engine.setRoot (g : Engine) (n : Option NodeRef) : Engine := { g with root := n }

/-- `s.cgstack <- l` (10_state.md R46). -/
def Engine.setStack (g : Engine) (l : List CgEntry) : Engine := { g with cgstack := l }

/-- `s.cur <- n` (10_state.md R49). -/
def Engine.setCur (g : Engine) (n : Option NodeRef) : Engine := { g with cur := n }

/-- `s.i <- s.i + 1` (10_state.md R40). -/
def Engine.nextI (g : Engine) : Engine := { g with i := g.i + 1 }

/-- `s.j <- s.j + 1` (10_state.md R40). -/
def Engine.nextJ (g : Engine) : Engine := { g with j := g.j + 1 }

/-- `s.hpos <- s.hpos + 1` (10_state.md R40). -/
def Engine.nextHpos (g : Engine) : Engine := { g with hpos := g.hpos + 1 }

/-- `s.rpos <- s.rpos + 1` (10_state.md R48). -/
def Engine.nextRpos (g : Engine) : Engine := { g with rpos := g.rpos + 1 }

/-- `s.total <- t` (10_state.md R40). -/
def Engine.setTotal (g : Engine) (t : DWord) : Engine := { g with total := t }

/-- The model's own latch takes what a micro-operation returned (log entry 7). -/
def Engine.setRet (g : Engine) (x : MicroResult) : Engine := { g with ret := x }

/-- The bits `c_0 c_1 ...` of the codeword (`len`, `pat`), where `c_i = pat[len - 1 - i]`
(30_encoding.md R103). -/
def codeBits (pat : Pattern) : Nat → List Bool
  | 0 => []
  | n + 1 => pat.getLsbD n :: codeBits pat n

/-- The codeword of a symbol as bits. -/
def Engine.codeword (g : Engine) (v : Byte) : List Bool :=
  codeBits (g.codepatOf v) (g.codelenOf v).toNat

/-- Bit `p` of a payload whose byte `floor(p / 8)` is `b`: bit `7 - (p mod 8)` (20_memory.md
R65). -/
def payloadBit (b : Byte) (p : Nat) : Bool := b.getLsbD (7 - p % 8)

/-- `b << (7 - nacc)` (44_bitstream.md R211). -/
def bitAt (b : Bool) (nacc : BitVec 4) : Byte :=
  if b then (1 : Byte) <<< (7 - nacc.toNat) else 0

/-- One symbol entry of a header: the symbol, then `bytes_le_32` of its frequency (30_encoding.md
R98); nothing for a symbol that is not present. -/
def headerEntry (g : Engine) (v : Byte) : List Byte :=
  if g.freqOf v = 0 then [] else v :: bytesLE 4 (g.freqOf v).toNat

/-- The header `hdr` of 45_encoder.md R246. -/
def headerBytes (g : Engine) : List Byte :=
  magic ++ bytesLE 8 g.len.toNat ++ bytesLE 2 g.k.toNat ++ allSymbols.flatMap (headerEntry g)
    ++ bytesLE 4 g.total.toNat

/-- The exact number of payload bits, `sum over v of s.freq[v] * s.codelen[v]` (45_encoder.md
R245). Irreducible, so that no proof evaluates the sum by accident. -/
@[irreducible] def totalBits (g : Engine) : Nat :=
  (allSymbols.map fun v => (g.freqOf v).toNat * (g.codelenOf v).toNat).sum

/-- The size of a header with `k` entries (30_encoding.md R101). -/
def headerSize (k : Nat) : Nat := 18 + 5 * k

/-- The offset of entry `e` (30_encoding.md R94). -/
def entryOffset (e : Nat) : Nat := 14 + 5 * e

/-- Whether `a` lies in the region. -/
def Region.holds (r : Region) (a : Nat) : Bool := decide (r.base ≤ a ∧ a < r.base + r.size)

/-- Whether the region and `[base, base + size)` share an address. -/
def Region.meets (r : Region) (base size : Nat) : Bool :=
  decide (0 < r.size ∧ 0 < size ∧ r.base < base + size ∧ base < r.base + r.size)

/-- The register window (10_state.md R23). -/
def Platform.window (p : Platform) : Region := ⟨p.mmioBase.toNat, Config.windowSize⟩

/-- `P_BUS_FAULT(a, read)` (20_memory.md R74). -/
def Platform.readFaults (p : Platform) (a : Nat) : Bool :=
  p.busFaults.any fun f => f.onRead && f.region.holds a

/-- `P_BUS_FAULT(a, write)` (20_memory.md R74). -/
def Platform.writeFaults (p : Platform) (a : Nat) : Bool :=
  p.busFaults.any fun f => f.onWrite && f.region.holds a

/-- Whether `[base, base + size)` is ordinary memory (70_reset_and_hazards.md R388): it meets
neither a device nor the core's own window. -/
def Platform.ordinary (p : Platform) (base size : Nat) : Bool :=
  !p.window.meets base size && !p.devices.any fun r => r.meets base size

/-- Whether `a` is a device's address. -/
def Platform.isDevice (p : Platform) (a : Nat) : Bool := p.devices.any fun r => r.holds a

/-- The input range `[s.src, s.src + s.len)` (20_memory.md R72). -/
def Engine.srcRange (g : Engine) : Region := ⟨g.src.toNat, g.len.toNat⟩

/-- The output range `[s.dst, s.dst + s.cap)` (20_memory.md R73). -/
def Engine.dstRange (g : Engine) : Region := ⟨g.dst.toNat, g.cap.toNat⟩

end Sys2Proof.Machine
end

