-- ==== Sys2Proof/Machine/Ops.lean ====
section
/-! DEFINITION. The operations the meanings share: results that can raise, the error entry
(60_exceptions.md R346), completion, the memory port (20_memory.md R62, R73, R74), the register window
(47_host_interface.md R310 to R316), the priority queue (41_priority_queue.md). -/

namespace Sys2Proof.Machine

/-- What an operation of the engine comes to. `raised s` is the state after the error entry: "no
later line of the raising procedure runs" (00_scope.md R11). -/
inductive Res (α : Type) where
  | ok (a : α) (s : State)
  | raised (s : State)
  | fault (f : Fault)
  deriving Repr

/-- Go on with the result, unless an error was raised. -/
def Res.bind {α β : Type} (r : Res α) (k : α → State → Res β) : Res β :=
  match r with
  | .ok a s => k a s
  | .raised s => .raised s
  | .fault f => .fault f

/-- The outcome of an instruction: an error's entry is a next state. -/
def Res.outcome {α : Type} (r : Res α) : Host.Outcome State Fault Refusal :=
  match r with
  | .ok _ s => .next s
  | .raised s => .next s
  | .fault f => .fault f

/-- `s.f <- v` for working state. -/
def State.setEng (s : State) (g : Engine) : State := { s with eng := g }

/-- `R[f] <- v` for registers. -/
def State.setRegs (s : State) (r : Regs) : State := { s with regs := r }

/-- `state <- S`, which sets `s.phase` to 0 (10_state.md R40). -/
def Engine.goto (g : Engine) (f : Fsm) : Engine := { g with fsm := f, phase := 0 }

/-- `s.phase <- p`. -/
def Engine.setPhase (g : Engine) (p : BitVec 3) : Engine := { g with phase := p }

/-- The error entry (60_exceptions.md R346): the report is written, the results are zeroed, the engine
goes to `IDLE`; everything else keeps its value. -/
def State.errorEntry (s : State) (e : ErrSub) (info : DWord) : State :=
  { s with regs := s.regs.report e info, eng := s.eng.goto .idle }

/-- `raise E(sub, info)` (00_scope.md R10). -/
def raise {α : Type} (e : ErrSub) (info : DWord) (s : State) : Res α :=
  .raised (s.errorEntry e info)

/-- The acknowledgement, which is all the return there is (60_exceptions.md R348): a `STATUS` write
clears the bits it names (47_host_interface.md R317). -/
def State.acknowledge (s : State) (v : Word) : State := s.setRegs (s.regs.w1c v)

/-- A command's completion (45_encoder.md R248, 46_decoder.md R278). -/
def State.complete (s : State) (outLen : DWord) (payloadBits : Word) : State :=
  { s with
    regs := s.regs.finished outLen payloadBits s.eng.k
    eng := s.eng.goto .idle }

/-- A transaction of the memory port is on record. -/
def State.logBus (s : State) (x : BusAccess) : State := { s with busLog := x :: s.busLog }

/-- The host has got a value back. -/
def State.logHost (s : State) (x : HostObs) : State := { s with hostLog := x :: s.hostLog }

/-- `MemRead(a, 1)` (20_memory.md R62, R74). -/
def memRead (a : Nat) (s : State) : Res Byte :=
  if a < Config.memorySize then
    if s.plat.readFaults a then raise .readFault (BitVec.ofNat 64 a) (s.logBus (.readError a))
    else .ok (Memory.read s.mem a) (s.logBus (.read a (Memory.read s.mem a)))
  else .fault .noSuchAddress

/-- `rd(off, n)` (46_decoder.md R272): `n` reads in ascending order. -/
def memReadBytes : Nat → Nat → State → Res (List Byte)
  | 0, _, s => .ok [] s
  | n + 1, a, s =>
    (memRead a s).bind fun b s => (memReadBytes n (a + 1) s).bind fun bs s => .ok (b :: bs) s

/-- The write bound (20_memory.md R73): `s.dst <= a < s.dst + s.cap`. -/
def Engine.inBound (g : Engine) (a : Nat) : Bool := g.dstRange.holds a

/-- The write itself, on memory and on the port's record. -/
def State.store (s : State) (a : Nat) (v : Byte) : State :=
  { s with mem := Memory.write s.mem a v, busLog := .write a v :: s.busLog }

/-- `MemWrite(a, 1, v)` (20_memory.md R73, R74): the bound check comes first (60_exceptions.md
R345). -/
def memWrite (a : Nat) (v : Byte) (s : State) : Res Unit :=
  if s.eng.inBound a then
    if a < Config.memorySize then
      if s.plat.writeFaults a then raise .writeFault (BitVec.ofNat 64 a) (s.logBus (.writeError a))
      else .ok () (s.store a v)
    else .fault .noSuchAddress
  else raise .writeBound (BitVec.ofNat 64 a - s.eng.dst) s

/-- The value of a named register (10_state.md R24 to R38). -/
def regValue (s : State) : RegName → Word
  | .id => idWord
  | .ctrl => ctrlWord s.regs
  | .cmd => 0
  | .status => statusWord s
  | .errCode => errCodeWord s.regs
  | .srcAddrLo => lo s.regs.srcAddr
  | .srcAddrHi => hi s.regs.srcAddr
  | .srcLenLo => lo s.regs.srcLen
  | .srcLenHi => hi s.regs.srcLen
  | .dstAddrLo => lo s.regs.dstAddr
  | .dstAddrHi => hi s.regs.dstAddr
  | .dstCapLo => lo s.regs.dstCap
  | .dstCapHi => hi s.regs.dstCap
  | .outLenLo => lo s.regs.outLen
  | .outLenHi => hi s.regs.outLen
  | .errInfoLo => lo s.regs.errInfo
  | .errInfoHi => hi s.regs.errInfo
  | .payloadBits => s.regs.payloadBits
  | .symbols => symbolsWord s.regs

/-- `read(off)` (47_host_interface.md R310): reserved offsets read 0. -/
def readReg (s : State) (off : Byte) : Word :=
  match regAt off with
  | some r => regValue s r
  | none => 0

/-- The store of an operand word while idle (47_host_interface.md R316). -/
def Regs.setOperand (r : Regs) (o : OperandReg) (v : Word) : Regs :=
  match o with
  | .srcAddrLo => { r with srcAddr := setLo r.srcAddr v }
  | .srcAddrHi => { r with srcAddr := setHi r.srcAddr v }
  | .srcLenLo => { r with srcLen := setLo r.srcLen v }
  | .srcLenHi => { r with srcLen := setHi r.srcLen v }
  | .dstAddrLo => { r with dstAddr := setLo r.dstAddr v }
  | .dstAddrHi => { r with dstAddr := setHi r.dstAddr v }
  | .dstCapLo => { r with dstCap := setLo r.dstCap v }
  | .dstCapHi => { r with dstCap := setHi r.dstCap v }

/-- A write the core turns away while busy: "`R[STATUS].REJ <- 1` and nothing else"
(47_host_interface.md R315, R316). -/
def State.reject (s : State) : State := s.setRegs s.regs.setRej

/-- The operand latch (10_state.md R40, 30_encoding.md R92). -/
def Engine.latch (g : Engine) (op : BitVec 4) (r : Regs) : Engine :=
  { g with op := op, src := r.srcAddr, len := r.srcLen, dst := r.dstAddr, cap := r.dstCap }

/-- Whether the input and the output range overlap (47_host_interface.md R312): an empty range
overlaps nothing. -/
def Engine.overlap (g : Engine) : Bool :=
  decide (0 < g.len.toNat ∧ 0 < g.cap.toNat ∧ g.src.toNat < g.dst.toNat + g.cap.toNat
    ∧ g.dst.toNat < g.src.toNat + g.len.toNat)

/-- The state in which acceptance makes its checks (47_host_interface.md R312): the report and the
results are cleared and the operands latched. -/
def State.latched (s : State) (op : BitVec 4) : State :=
  { s with regs := s.regs.clearReport, eng := s.eng.latch op s.regs }

/-- Command acceptance (47_host_interface.md R312), up to the part of the command itself. -/
def acceptCommand (op : BitVec 4) (s : State) : Res Unit :=
  let s := s.latched op
  if Config.memorySize < s.eng.src.toNat + s.eng.len.toNat then raise .srcRange s.eng.src s
  else if Config.memorySize < s.eng.dst.toNat + s.eng.cap.toNat then raise .dstRange s.eng.dst s
  else if s.eng.overlap then raise .overlap s.eng.dst s
  else .ok () s

/-- Both latched ranges are ordinary memory (70_reset_and_hazards.md R388). -/
def State.rangesOrdinary (s : State) : Bool :=
  s.plat.ordinary s.eng.src.toNat s.eng.len.toNat && s.plat.ordinary s.eng.dst.toNat s.eng.cap.toNat

/-- `FT_CLEAR` (40_frequency_table.md R130). -/
def Engine.clearTable (g : Engine) : Engine := { g with freq := Vector.replicate 256 0, i := 0 }

/-- The end of acceptance (45_encoder.md R240, 46_decoder.md R270): `FT_CLEAR`, then the first state
of the command. Ranges that are not ordinary memory leave the contract (log entry 9). -/
def startCommand (f : Fsm) (s : State) : Res Unit :=
  if s.rangesOrdinary then .ok () (s.setEng (s.eng.clearTable.goto f))
  else .fault .notOrdinaryMemory

/-- `a <pq b` (41_priority_queue.md R150). -/
def Engine.pqLess (g : Engine) (a b : NodeRef) : Bool :=
  decide ((g.nodeAt a).w < (g.nodeAt b).w)
    || ((g.nodeAt a).w == (g.nodeAt b).w && decide ((g.nodeAt a).minsym < (g.nodeAt b).minsym))

/-- The smallest of some nodes (41_priority_queue.md R153). In a queue where two nodes had the same
key, which R151 excludes, the first of them (log entry 10). -/
def Engine.pqLeast (g : Engine) : List NodeRef → Option NodeRef
  | [] => none
  | a :: l =>
    match g.pqLeast l with
    | none => some a
    | some m => if g.pqLess m a then some m else some a

/-- The set with `n` in it, in ascending order. -/
def insertRef (n : NodeRef) : List NodeRef → List NodeRef
  | [] => [n]
  | a :: l => if n < a then n :: a :: l else if n = a then a :: l else a :: insertRef n l

/-- The set without `n`. -/
def removeRef (n : NodeRef) (l : List NodeRef) : List NodeRef := l.filter fun a => a != n

/-- `PQ_INSERT n` (41_priority_queue.md R152). -/
def pqInsert (n : NodeRef) (s : State) : Res Unit :=
  if s.eng.pq.length < Config.maxHeap then
    .ok () (s.setEng (s.eng.setPq (insertRef n s.eng.pq)))
  else .fault .queueFull

/-- `PQ_EXTRACT_MIN` (41_priority_queue.md R153): the node, or `NONE`, and the queue without it. -/
def pqExtractMin (s : State) : Res (Option NodeRef) :=
  match s.eng.pqLeast s.eng.pq with
  | none => .ok none s
  | some m => .ok (some m) (s.setEng (s.eng.setPq (removeRef m s.eng.pq)))

/-- `PQ_EXTRACT_MIN` for the tree builder, which never consumes `NONE` (41_priority_queue.md
R153). -/
def pqTake (s : State) : Res NodeRef :=
  (pqExtractMin s).bind fun m s =>
    match m with
    | some n => .ok n s
    | none => .fault .queueEmpty

end Sys2Proof.Machine
end

