-- ==== Sys2Proof/Machine/Queue.lean ====
section
/-! DEFINITION. The priority queue's operations as instructions (41_priority_queue.md R152, R153). -/

namespace Sys2Proof.Machine

/-- `s.ret <- x`: what a micro-operation returned (log entry 7). -/
def State.returns (s : State) (x : MicroResult) : State := s.setEng (s.eng.setRet x)

/-- `PQ_INSERT n` as an instruction. -/
def execPqInsert (n : NodeRef) (s : State) : Host.Outcome State Fault Refusal :=
  (pqInsert n s).outcome

/-- `PQ_EXTRACT_MIN` as an instruction: it returns the node, or `NONE` from an empty queue. -/
def execPqExtractMin (s : State) : Host.Outcome State Fault Refusal :=
  ((pqExtractMin s).bind fun m s => .ok () (s.returns (.node m))).outcome

end Sys2Proof.Machine
end

