-- ==== Sys2Proof/Machine/Bitstream.lean ====
section
/-! DEFINITION. The bitstream writer and reader (44_bitstream.md). -/

namespace Sys2Proof.Machine

/-- `BW_INIT base` (44_bitstream.md R210). -/
def Engine.bwInit (g : Engine) (base : DWord) : Engine :=
  { g with acc := 0, nacc := 0, nbits := 0, wbase := base, wpos := 0 }

/-- The bit put into the accumulator and counted (44_bitstream.md R211). -/
def Engine.putAcc (g : Engine) (b : Bool) : Engine :=
  { g with acc := g.acc ||| bitAt b g.nacc, nacc := g.nacc + 1, nbits := g.nbits + 1 }

/-- After the accumulator's byte is written (44_bitstream.md R211, R213). -/
def Engine.nextByte (g : Engine) : Engine := { g with wpos := g.wpos + 1, acc := 0, nacc := 0 }

/-- Write the accumulator at `s.wbase + s.wpos`. -/
def flushAcc (s : State) : Res Unit :=
  (memWrite (s.eng.wbase.toNat + s.eng.wpos.toNat) s.eng.acc s).bind fun _ s =>
    .ok () (s.setEng s.eng.nextByte)

/-- `BW_PUT_BIT b` (44_bitstream.md R211): the eighth bit of a byte writes it. -/
def bwPutBit (b : Bool) (s : State) : Res Unit :=
  let s := s.setEng (s.eng.putAcc b)
  if s.eng.nacc = 8 then flushAcc s else .ok () s

/-- Append some bits in order. -/
def bwPutBits : List Bool → State → Res Unit
  | [], s => .ok () s
  | b :: bs, s => (bwPutBit b s).bind fun _ s => bwPutBits bs s

/-- `BW_WRITE_BITS v` (44_bitstream.md R212): the codeword's bits, `c_0` first. -/
def bwWriteBits (v : Byte) (s : State) : Res Unit := bwPutBits (s.eng.codeword v) s

/-- `BW_FINISH` (44_bitstream.md R213): flush the partial byte; the results are `s.nbits` and
`s.wpos`. -/
def bwFinish (s : State) : Res Unit := if 0 < s.eng.nacc then flushAcc s else .ok () s

/-- `BR_INIT base, n` (44_bitstream.md R214). -/
def Engine.brInit (g : Engine) (base : DWord) (n : Word) : Engine :=
  { g with rbase := base, rpos := 0, bitlen := n }

/-- `BR_READ_BIT` (44_bitstream.md R215). -/
def brReadBit (s : State) : Res Bool :=
  if s.eng.bitlen.toNat ≤ s.eng.rpos.toNat then raise .readPastEnd s.eng.rpos s
  else
    (memRead (s.eng.rbase.toNat + s.eng.rpos.toNat / 8) s).bind fun byte s =>
      .ok (payloadBit byte s.eng.rpos.toNat) (s.setEng s.eng.nextRpos)

/-- `BW_INIT` as an instruction. -/
def execBwInit (base : DWord) (s : State) : Host.Outcome State Fault Refusal :=
  .next (s.setEng (s.eng.bwInit base))

/-- `BW_PUT_BIT` as an instruction. -/
def execBwPutBit (b : Bool) (s : State) : Host.Outcome State Fault Refusal := (bwPutBit b s).outcome

/-- `BW_WRITE_BITS` as an instruction. -/
def execBwWriteBits (v : Byte) (s : State) : Host.Outcome State Fault Refusal :=
  (bwWriteBits v s).outcome

/-- `BW_FINISH` as an instruction: it returns the bit count and the byte count. -/
def execBwFinish (s : State) : Host.Outcome State Fault Refusal :=
  ((bwFinish s).bind fun _ s => .ok () (s.returns (.finish s.eng.nbits s.eng.wpos))).outcome

/-- `BR_INIT` as an instruction. -/
def execBrInit (base : DWord) (n : Word) (s : State) : Host.Outcome State Fault Refusal :=
  .next (s.setEng (s.eng.brInit base n))

/-- `BR_READ_BIT` as an instruction: it returns the bit. -/
def execBrReadBit (s : State) : Host.Outcome State Fault Refusal :=
  ((brReadBit s).bind fun b s => .ok () (s.returns (.bit b))).outcome

end Sys2Proof.Machine
end

