-- ==== Sys2Proof/Machine/CodeGen.lean ====
section
/-! DEFINITION. The code table generator (43_code_generator.md R190), by an explicit stack
(10_state.md R46). -/

namespace Sys2Proof.Machine

/-- Every symbol without a codeword (43_code_generator.md R190). -/
def Engine.clearCodes (g : Engine) : Engine :=
  { g with codelen := Vector.replicate 256 0, codepat := Vector.replicate 256 0 }

/-- The entry of a child one level below `x`: bit 0 to the left, bit 1 to the right
(43_code_generator.md R190). -/
def CgEntry.child (x : CgEntry) (n : NodeRef) (b : Bool) : CgEntry :=
  { node := n, len := x.len + 1, pat := (x.pat <<< 1) ||| (if b then 1 else 0) }

/-- The entries an internal node pushes, the left one on top (43_code_generator.md R190). -/
def cgPush (x : CgEntry) (l : NodeRef) (r : Option NodeRef) (st : List CgEntry) : List CgEntry :=
  match r with
  | none => x.child l false :: st
  | some r => x.child l false :: x.child r true :: st

/-- The loop of `CG_WALK`: pop an entry; a leaf gets its codeword, an internal node pushes its
children. `fuel` bounds the pops: a tree in the arena has at most `MAX_NODES` nodes, each popped once
(log entry 11). -/
def cgLoop : Nat → State → Res Unit
  | fuel, s =>
    match s.eng.cgstack with
    | [] => .ok () s
    | x :: st =>
      match fuel with
      | 0 => .fault .walkNotTree
      | fuel + 1 =>
        let n := s.eng.nodeAt x.node
        let g := s.eng.setStack st
        match n.kind with
        | .leaf => cgLoop fuel (s.setEng (g.setCode n.sym x.len x.pat))
        | .internal =>
          if x.len.toNat < Config.maxCodeLen then
            match n.left with
            | none => .fault .nullNode
            | some l => cgLoop fuel (s.setEng (g.setStack (cgPush x l n.right st)))
          else .fault .pathTooLong

/-- `CG_WALK` (43_code_generator.md R190). -/
def cgWalk (s : State) : Res Unit :=
  let g := s.eng.clearCodes
  match g.root with
  | none => .ok () (s.setEng g)
  | some r =>
    cgLoop Config.maxNodes (s.setEng (g.setStack [{ node := r, len := 0, pat := 0 }]))

/-- `CG_WALK` as an instruction. -/
def execCgWalk (s : State) : Host.Outcome State Fault Refusal := (cgWalk s).outcome

end Sys2Proof.Machine
end

