-- ==== Sys2Proof/Machine/Commands.lean ====
section
/-! DEFINITION. The command words: `NOP`, `ENCODE`, `DECODE`, `ILLEGAL`, `CMD_WHILE_BUSY`
(47_host_interface.md R312 to R315, 45_encoder.md R240, 46_decoder.md R270). Each is a host write to
`CMD`, which the core turns away while `BUSY = 1`. -/

namespace Sys2Proof.Machine

/-- A `CMD` write: turned away while busy (47_host_interface.md R315), else its command's effect. -/
def whenIdle (s : State) (effect : Host.Outcome State Fault Refusal) :
    Host.Outcome State Fault Refusal :=
  if s.busy then .next s.reject else effect

/-- `NOP` (47_host_interface.md R313): "nothing (no register, engine state or memory changes)". -/
def nopEffect (s : State) : Res Unit := .ok () s

/-- `ENCODE` acceptance (47_host_interface.md R312, 45_encoder.md R240). -/
def encodeEffect (s : State) : Res Unit :=
  (acceptCommand 1 s).bind fun _ s =>
    if Config.maxEncodeInput < s.eng.len.toNat then raise .inputTooLong s.eng.len s
    else startCommand .eCount s

/-- `DECODE` acceptance (47_host_interface.md R312, 46_decoder.md R270). -/
def decodeEffect (s : State) : Res Unit :=
  (acceptCommand 2 s).bind fun _ s => startCommand .dHeader s

/-- An illegal command word (47_host_interface.md R314): `BAD_OPCODE`, with the word as
`ERR_INFO`. -/
def illegalEffect (w : Word) (s : State) : Res Unit := raise .badOpcode (w.setWidth 64) s

/-- The effect of a command word written while idle (30_encoding.md R91, R93). -/
def commandEffect (w : Word) (s : State) : Res Unit :=
  if w = 0#32 then nopEffect s
  else if w = 1#32 then encodeEffect s
  else if w = 2#32 then decodeEffect s
  else illegalEffect w s

/-- `NOP`. -/
def execNop (s : State) : Host.Outcome State Fault Refusal :=
  whenIdle s (nopEffect s).outcome

/-- `ENCODE`. -/
def execEncode (s : State) : Host.Outcome State Fault Refusal :=
  whenIdle s (encodeEffect s).outcome

/-- `DECODE`. -/
def execDecode (s : State) : Host.Outcome State Fault Refusal :=
  whenIdle s (decodeEffect s).outcome

/-- `ILLEGAL`: a legal word is no instance of this row. -/
def execIllegal (w : Word) (s : State) : Host.Outcome State Fault Refusal :=
  if legalCommand w then .refused .illFormed else whenIdle s (illegalEffect w s).outcome

/-- `CMD_WHILE_BUSY`: any word while `BUSY = 1` sets `REJ` (47_host_interface.md R315). The same
write while idle is the command of its word, by R312 to R314. -/
def execCmdWhileBusy (w : Word) (s : State) : Host.Outcome State Fault Refusal :=
  whenIdle s (commandEffect w s).outcome

end Sys2Proof.Machine
end

