-- ==== Sys2Proof/Machine/Tree.lean ====
section
/-! DEFINITION. The Huffman tree builder (42_tree_builder.md). -/

namespace Sys2Proof.Machine

/-- A leaf node of `TB_LEAVES` (42_tree_builder.md R170). -/
def Node.leafOf (v : Byte) (f : DWord) : Node :=
  { kind := .leaf, sym := v, w := f, minsym := v, left := none, right := none }

/-- The synthetic root of `TB_SINGLE` over the leaf `l` (42_tree_builder.md R172). -/
def Node.single (l : NodeRef) (x : Node) : Node :=
  { kind := .internal, sym := 0, w := x.w, minsym := x.minsym, left := some l, right := none }

/-- The smaller of two symbols. -/
def minSym (a b : Byte) : Byte := if a < b then a else b

/-- The internal node of `TB_MERGE` over `l` and `r` (42_tree_builder.md R173), its weight in 64
bits (R175). -/
def Node.merged (l r : NodeRef) (x y : Node) : Node :=
  { kind := .internal, sym := 0, w := x.w + y.w, minsym := minSym x.minsym y.minsym
    left := some l, right := some r }

/-- Write a node at `s.nn`, queue it, and count it. -/
def addQueued (x : Node) (s : State) : Res Unit :=
  match s.eng.nextNode with
  | none => .fault .arenaFull
  | some n =>
    (pqInsert n (s.setEng (s.eng.setNode n x))).bind fun _ s =>
      .ok () (s.setEng s.eng.nextNn)

/-- The loop of `TB_LEAVES` over some symbols (42_tree_builder.md R170). -/
def leavesLoop : List Byte → State → Res Unit
  | [], s => .ok () s
  | v :: vs, s =>
    if s.eng.freqOf v = 0 then leavesLoop vs s
    else (addQueued (Node.leafOf v (s.eng.freqOf v)) s).bind fun _ s => leavesLoop vs s

/-- The arena, the queue and the root empty (42_tree_builder.md R170). -/
def Engine.clearTree (g : Engine) : Engine := { g with nn := 0, pq := [], root := none }

/-- `TB_LEAVES` (42_tree_builder.md R170). -/
def tbLeaves (s : State) : Res Unit :=
  (leavesLoop allSymbols (s.setEng s.eng.clearTree)).bind fun _ s =>
    .ok () (s.setEng (s.eng.setK s.eng.nn))

/-- `TB_EMPTY` (42_tree_builder.md R171). -/
def tbEmpty (s : State) : Res Unit := .ok () (s.setEng (s.eng.setRoot none))

/-- The arena with the synthetic root over the leaf `l` (42_tree_builder.md R172). -/
def Engine.singleRoot (g : Engine) (l : NodeRef) : Engine :=
  { g.setNode 1 (Node.single l (g.nodeAt l)) with nn := 2, root := some 1 }

/-- `TB_SINGLE` (42_tree_builder.md R172). -/
def tbSingle (s : State) : Res Unit :=
  (pqTake s).bind fun l s =>
    .ok () (s.setEng (s.eng.singleRoot l))

/-- `TB_MERGE` (42_tree_builder.md R173): the first extraction is the left child. -/
def tbMerge (s : State) : Res Unit :=
  (pqTake s).bind fun l s =>
    (pqTake s).bind fun r s =>
      addQueued (Node.merged l r (s.eng.nodeAt l) (s.eng.nodeAt r)) s

/-- `TB_FINISH` (42_tree_builder.md R174). -/
def tbFinish (s : State) : Res Unit :=
  (pqTake s).bind fun n s => .ok () (s.setEng (s.eng.setRoot (some n)))

/-- `TB_LEAVES` as an instruction. -/
def execTbLeaves (s : State) : Host.Outcome State Fault Refusal := (tbLeaves s).outcome

/-- `TB_EMPTY` as an instruction. -/
def execTbEmpty (s : State) : Host.Outcome State Fault Refusal := (tbEmpty s).outcome

/-- `TB_SINGLE` as an instruction. -/
def execTbSingle (s : State) : Host.Outcome State Fault Refusal := (tbSingle s).outcome

/-- `TB_MERGE` as an instruction. -/
def execTbMerge (s : State) : Host.Outcome State Fault Refusal := (tbMerge s).outcome

/-- `TB_FINISH` as an instruction. -/
def execTbFinish (s : State) : Host.Outcome State Fault Refusal := (tbFinish s).outcome

end Sys2Proof.Machine
end

