-- ==== Sys2Proof/Machine/Decoder.lean ====
section
/-! DEFINITION. The decoder's own micro-operations (46_decoder.md R272 to R278). -/

namespace Sys2Proof.Machine

/-- `need(off, n)` then `rd(off, n)` (46_decoder.md R272): the field must fit in `s.len` bytes before
it is read. -/
def readField (off n : Nat) (s : State) : Res (List Byte) :=
  if s.eng.len.toNat < off + n then raise .shortHeader (BitVec.ofNat 64 off) s
  else memReadBytes n (s.eng.src.toNat + off) s

/-- `D_HEADER` phase 0: the magic (46_decoder.md R272). -/
def headerMagic (s : State) : Res Unit :=
  (readField 0 4 s).bind fun m s =>
    if m = magic then .ok () (s.setEng (s.eng.setPhase 1))
    else raise .badMagic (BitVec.ofNat 64 (leNat m)) s

/-- The original length is known (46_decoder.md R272, phase 1). -/
def Engine.setOrigLen (g : Engine) (n : Nat) : Engine :=
  { g with origlen := BitVec.ofNat 64 n, phase := 2 }

/-- `D_HEADER` phase 1: the original length (46_decoder.md R272). -/
def headerOrigLen (s : State) : Res Unit :=
  (readField 4 8 s).bind fun b s =>
    .ok () (s.setEng (s.eng.setOrigLen (leNat b)))

/-- The symbol count is known (46_decoder.md R272, phase 2). -/
def Engine.setCount (g : Engine) (n : Nat) : Engine :=
  { g with k := BitVec.ofNat 9 n, e := 0, sum := 0, phase := 3 }

/-- `D_HEADER` phase 2: the symbol count (46_decoder.md R272). -/
def headerCount (s : State) : Res Unit :=
  (readField 12 2 s).bind fun b s =>
    if 256 < leNat b then raise .kRange (BitVec.ofNat 64 (leNat b)) s
    else .ok () (s.setEng (s.eng.setCount (leNat b)))

/-- A header entry entered in the table (46_decoder.md R272). -/
def Engine.enterFreq (g : Engine) (v : Byte) (f : DWord) : Engine :=
  { g.setFreq v f with sum := g.sum + f, e := g.e + 1 }

/-- The checks of one entry, then its place in the table (46_decoder.md R272). -/
def headerEntryIn (off : Nat) (v : Byte) (f : Nat) (s : State) : Res Unit :=
  if s.eng.freqOf v ≠ 0 then raise .dupSymbol (BitVec.ofNat 64 off) s
  else if f = 0 then raise .zeroFreq (BitVec.ofNat 64 off) s
  else .ok () (s.setEng (s.eng.enterFreq v (BitVec.ofNat 64 f)))

/-- `D_HEADER` phase 3: one entry, or the end of the entries (46_decoder.md R272). -/
def headerEntryStep (s : State) : Res Unit :=
  if s.eng.e.toNat < s.eng.k.toNat then
    let off := entryOffset s.eng.e.toNat
    (readField off 5 s).bind fun b s =>
      headerEntryIn off (b.headD 0) (leNat (b.drop 1)) s
  else .ok () (s.setEng (s.eng.setPhase 4))

/-- The payload bit-length is known (46_decoder.md R272, phase 4). -/
def Engine.setBitLen (g : Engine) (n : Nat) : Engine :=
  { g with
    bitlen := BitVec.ofNat 32 n
    hsize := BitVec.ofNat 64 (headerSize g.k.toNat)
    phase := 5 }

/-- `D_HEADER` phase 4: the payload bit-length (46_decoder.md R272). -/
def headerBitLen (s : State) : Res Unit :=
  (readField (entryOffset s.eng.k.toNat) 4 s).bind fun b s =>
    .ok () (s.setEng (s.eng.setBitLen (leNat b)))

/-- `D_HEADER_FIELD` (46_decoder.md R272): the phase selects the field. -/
def dHeaderField (s : State) : Res Unit :=
  if s.eng.phase = 0 then headerMagic s
  else if s.eng.phase = 1 then headerOrigLen s
  else if s.eng.phase = 2 then headerCount s
  else if s.eng.phase = 3 then headerEntryStep s
  else if s.eng.phase = 4 then headerBitLen s
  else .fault .noSuchPhase

/-- `P`, the payload bytes present (46_decoder.md R273). -/
def Engine.payloadPresent (g : Engine) : Nat := g.len.toNat - g.hsize.toNat

/-- `D_HEADER_CHECK` (46_decoder.md R273): the whole-header checks in order. -/
def dHeaderCheck (s : State) : Res Unit :=
  if s.eng.sum ≠ s.eng.origlen then raise .lenSum s.eng.sum s
  else
    let p := s.eng.payloadPresent
    if p < ceilDiv8 s.eng.bitlen.toNat then raise .payloadShort (BitVec.ofNat 64 p) s
    else if ceilDiv8 s.eng.bitlen.toNat < p then raise .payloadLong (BitVec.ofNat 64 p) s
    else if s.eng.cap < s.eng.origlen then raise .decDstSmall s.eng.origlen s
    else .ok () (s.setEng (s.eng.goto .dRebuild))

/-- Move on to `s.phase = p` after a sub-step. -/
def thenPhase (p : BitVec 3) (r : Res Unit) : Res Unit :=
  r.bind fun _ s => .ok () (s.setEng (s.eng.setPhase p))

/-- The end of `D_REBUILD`: the bit reader and the walker start (46_decoder.md R274). -/
def Engine.startWalk (g : Engine) : Engine :=
  { g.brInit (g.src + g.hsize) g.bitlen with j := 0, cur := g.root }.goto .dPayload

/-- `D_REBUILD_STEP` (46_decoder.md R274). -/
def dRebuildStep (s : State) : Res Unit :=
  if s.eng.phase = 0 then thenPhase 1 (tbLeaves s)
  else if s.eng.phase = 1 then
    if s.eng.k = 0 then thenPhase 2 (tbEmpty s)
    else if s.eng.k = 1 then thenPhase 2 (tbSingle s)
    else if 1 < s.eng.pq.length then tbMerge s
    else thenPhase 2 (tbFinish s)
  else .ok () (s.setEng s.eng.startWalk)

/-- `SO_EMIT v` (46_decoder.md R276). -/
def soEmit (v : Byte) (s : State) : Res Unit :=
  (memWrite (s.eng.dst.toNat + s.eng.j.toNat) v s).bind fun _ s =>
    .ok () (s.setEng s.eng.nextJ)

/-- The child of `n` that the bit selects: 0 left, 1 right (46_decoder.md R275). -/
def Node.child (n : Node) (b : Bool) : Option NodeRef := if b then n.right else n.left

/-- `TW_STEP` (46_decoder.md R275). -/
def twStep (s : State) : Res Unit :=
  (brReadBit s).bind fun b s =>
    match s.eng.cur with
    | none => .fault .nullNode
    | some c =>
      match (s.eng.nodeAt c).child b with
      | none => raise .placeholder (s.eng.rpos - 1) s
      | some nxt =>
        match (s.eng.nodeAt nxt).kind with
        | .leaf =>
          (soEmit (s.eng.nodeAt nxt).sym s).bind fun _ s =>
            .ok () (s.setEng (s.eng.setCur s.eng.root))
        | .internal => .ok () (s.setEng (s.eng.setCur (some nxt)))

/-- `D_PAYLOAD_END` (46_decoder.md R277, R278). -/
def dPayloadEnd (s : State) : Res Unit :=
  if s.eng.rpos.toNat ≠ s.eng.bitlen.toNat then raise .bitsLeft s.eng.rpos s
  else .ok () (s.complete s.eng.origlen s.eng.bitlen)

/-- `D_HEADER_FIELD` as an instruction. -/
def execDHeaderField (s : State) : Host.Outcome State Fault Refusal := (dHeaderField s).outcome

/-- `D_HEADER_CHECK` as an instruction. -/
def execDHeaderCheck (s : State) : Host.Outcome State Fault Refusal := (dHeaderCheck s).outcome

/-- `D_REBUILD_STEP` as an instruction. -/
def execDRebuildStep (s : State) : Host.Outcome State Fault Refusal := (dRebuildStep s).outcome

/-- `TW_STEP` as an instruction. -/
def execTwStep (s : State) : Host.Outcome State Fault Refusal := (twStep s).outcome

/-- `SO_EMIT` as an instruction. -/
def execSoEmit (v : Byte) (s : State) : Host.Outcome State Fault Refusal := (soEmit v s).outcome

/-- `D_PAYLOAD_END` as an instruction. -/
def execDPayloadEnd (s : State) : Host.Outcome State Fault Refusal := (dPayloadEnd s).outcome

end Sys2Proof.Machine
end

