-- ==== Sys2Proof/Machine/Encoder.lean ====
section
/-! DEFINITION. The encoder's own micro-operations (45_encoder.md R245 to R248). -/

namespace Sys2Proof.Machine

/-- The sizes of `E_HEADER` phase 0 (45_encoder.md R245), from the exact bit total. -/
def Engine.sized (g : Engine) (total : Nat) : Engine :=
  { g with
    total := BitVec.ofNat 64 total
    hsize := BitVec.ofNat 64 (headerSize g.k.toNat)
    csize := BitVec.ofNat 64 (headerSize g.k.toNat + ceilDiv8 total) }

/-- The end of `E_HEADER` phase 0 (45_encoder.md R245). -/
def Engine.startHeader (g : Engine) : Engine := { g with hpos := 0, phase := 1 }

/-- `E_HEADER_SIZE` (45_encoder.md R245): the bit total, then the container size, each checked
before any write. -/
def eHeaderSize (s : State) : Res Unit :=
  let total := totalBits s.eng
  if Config.maxPayloadBits < total then
    raise .bitsTooMany (BitVec.ofNat 64 total)
      (s.setEng (s.eng.setTotal (BitVec.ofNat 64 total)))
  else
    let s := s.setEng (s.eng.sized total)
    if s.eng.cap < s.eng.csize then raise .encDstSmall s.eng.csize s
    else .ok () (s.setEng s.eng.startHeader)

/-- The end of `E_HEADER`: the bit writer starts after the header and the second pass begins
(45_encoder.md R246). -/
def Engine.startPayload (g : Engine) : Engine :=
  { g.bwInit (g.dst + g.hsize) with i := 0 }.goto .ePayload

/-- `E_HEADER_BYTE` (45_encoder.md R246): one header byte, and after the last the payload. -/
def eHeaderByte (s : State) : Res Unit :=
  match (headerBytes s.eng)[s.eng.hpos.toNat]? with
  | none => .fault .headerIndex
  | some b =>
    (memWrite (s.eng.dst.toNat + s.eng.hpos.toNat) b s).bind fun _ s =>
      let s := s.setEng s.eng.nextHpos
      if s.eng.hpos = s.eng.hsize then .ok () (s.setEng s.eng.startPayload) else .ok () s

/-- `E_PAYLOAD_STEP` (45_encoder.md R247, R248): the codeword of one input byte, or `BW_FINISH` and
completion. -/
def ePayloadStep (s : State) : Res Unit :=
  if s.eng.i < s.eng.len then
    (memRead (s.eng.src.toNat + s.eng.i.toNat) s).bind fun b s =>
      (bwWriteBits b s).bind fun _ s => .ok () (s.setEng s.eng.nextI)
  else
    (bwFinish s).bind fun _ s =>
      .ok () (s.complete (s.eng.hsize + s.eng.wpos) (s.eng.nbits.setWidth 32))

/-- `E_HEADER_SIZE` as an instruction. -/
def execEHeaderSize (s : State) : Host.Outcome State Fault Refusal := (eHeaderSize s).outcome

/-- `E_HEADER_BYTE` as an instruction. -/
def execEHeaderByte (s : State) : Host.Outcome State Fault Refusal := (eHeaderByte s).outcome

/-- `E_PAYLOAD_STEP` as an instruction. -/
def execEPayloadStep (s : State) : Host.Outcome State Fault Refusal := (ePayloadStep s).outcome

end Sys2Proof.Machine
end

