-- ==== Sys2Proof/Machine/Frequency.lean ====
section
/-! DEFINITION. The frequency counter (40_frequency_table.md). -/

namespace Sys2Proof.Machine

/-- One counted byte (40_frequency_table.md R131), the counter in 64 bits (R133). -/
def Engine.countByte (g : Engine) (b : Byte) : Engine :=
  { g.setFreq b (g.freqOf b + 1) with i := g.i + 1 }

/-- `FT_COUNT` (40_frequency_table.md R131). -/
def ftCount (s : State) : Res Unit :=
  (memRead (s.eng.src.toNat + s.eng.i.toNat) s).bind fun b s => .ok () (s.setEng (s.eng.countByte b))

/-- `FT_CLEAR` as an instruction (40_frequency_table.md R130). -/
def execFtClear (s : State) : Host.Outcome State Fault Refusal :=
  .next (s.setEng s.eng.clearTable)

/-- `FT_COUNT` as an instruction. -/
def execFtCount (s : State) : Host.Outcome State Fault Refusal := (ftCount s).outcome

end Sys2Proof.Machine
end

