-- ==== Sys2Proof/Machine/Mmio.lean ====
section
/-! DEFINITION. The host MMIO accesses other than `CMD` writes (47_host_interface.md R310, R311, R316
to R318). -/

namespace Sys2Proof.Machine

/-- `MMIO_READ` (47_host_interface.md R310): the host gets the register's value; nothing else
changes. -/
def execMmioRead (off : Byte) (s : State) : Host.Outcome State Fault Refusal :=
  if alignedOffset off then .next (s.logHost (.reg off (readReg s off)))
  else .refused .unsupportedAccess

/-- `MMIO_WRITE_CTRL` (47_host_interface.md R318), in any state. -/
def execMmioWriteCtrl (v : Word) (s : State) : Host.Outcome State Fault Refusal :=
  .next (s.setRegs (s.regs.setCtrl v))

/-- `MMIO_WRITE_STATUS` (47_host_interface.md R317), in any state. -/
def execMmioWriteStatus (v : Word) (s : State) : Host.Outcome State Fault Refusal :=
  .next (s.acknowledge v)

/-- `MMIO_WRITE_OPERAND` (47_host_interface.md R316): stored while idle, turned away while busy. -/
def execMmioWriteOperand (r : OperandReg) (v : Word) (s : State) :
    Host.Outcome State Fault Refusal :=
  if s.busy then .next s.reject else .next (s.setRegs (s.regs.setOperand r v))

/-- `MMIO_WRITE_IGNORED` (47_host_interface.md R311): "no register, engine state or memory changes
and `STATUS.REJ` is not set". An offset with an effect is no instance of this row. -/
def execMmioWriteIgnored (off : Byte) (_v : Word) (s : State) : Host.Outcome State Fault Refusal :=
  if alignedOffset off then
    if ignoredOffset off then .next s else .refused .illFormed
  else .refused .unsupportedAccess

end Sys2Proof.Machine
end

