-- ==== Sys2Proof/Machine/Dispatch.lean ====
section
/-! DEFINITION. The meaning of each instruction: one arm per constructor, each one direct call. -/

namespace Sys2Proof.Machine

def exec (i : Instr) (s : State) : Host.Outcome State Fault Refusal :=
  match i with
  -- command words
  | .nop => Sys2Proof.Machine.execNop s
  | .encode => Sys2Proof.Machine.execEncode s
  | .decode => Sys2Proof.Machine.execDecode s
  | .illegal w => Sys2Proof.Machine.execIllegal w s
  | .cmdWhileBusy w => Sys2Proof.Machine.execCmdWhileBusy w s
  -- host MMIO accesses
  | .mmioRead off => Sys2Proof.Machine.execMmioRead off s
  | .mmioWriteCtrl v => Sys2Proof.Machine.execMmioWriteCtrl v s
  | .mmioWriteStatus v => Sys2Proof.Machine.execMmioWriteStatus v s
  | .mmioWriteOperand r v => Sys2Proof.Machine.execMmioWriteOperand r v s
  | .mmioWriteIgnored off v => Sys2Proof.Machine.execMmioWriteIgnored off v s
  -- frequency counter
  | .ftClear => Sys2Proof.Machine.execFtClear s
  | .ftCount => Sys2Proof.Machine.execFtCount s
  -- priority queue
  | .pqInsert n => Sys2Proof.Machine.execPqInsert n s
  | .pqExtractMin => Sys2Proof.Machine.execPqExtractMin s
  -- tree builder
  | .tbLeaves => Sys2Proof.Machine.execTbLeaves s
  | .tbEmpty => Sys2Proof.Machine.execTbEmpty s
  | .tbSingle => Sys2Proof.Machine.execTbSingle s
  | .tbMerge => Sys2Proof.Machine.execTbMerge s
  | .tbFinish => Sys2Proof.Machine.execTbFinish s
  -- code generator
  | .cgWalk => Sys2Proof.Machine.execCgWalk s
  -- encoder
  | .eHeaderSize => Sys2Proof.Machine.execEHeaderSize s
  | .eHeaderByte => Sys2Proof.Machine.execEHeaderByte s
  | .ePayloadStep => Sys2Proof.Machine.execEPayloadStep s
  -- bitstream
  | .bwInit base => Sys2Proof.Machine.execBwInit base s
  | .bwPutBit b => Sys2Proof.Machine.execBwPutBit b s
  | .bwWriteBits v => Sys2Proof.Machine.execBwWriteBits v s
  | .bwFinish => Sys2Proof.Machine.execBwFinish s
  -- decoder
  | .dHeaderField => Sys2Proof.Machine.execDHeaderField s
  | .dHeaderCheck => Sys2Proof.Machine.execDHeaderCheck s
  | .dRebuildStep => Sys2Proof.Machine.execDRebuildStep s
  | .brInit base n => Sys2Proof.Machine.execBrInit base n s
  | .brReadBit => Sys2Proof.Machine.execBrReadBit s
  | .twStep => Sys2Proof.Machine.execTwStep s
  | .soEmit v => Sys2Proof.Machine.execSoEmit v s
  | .dPayloadEnd => Sys2Proof.Machine.execDPayloadEnd s

end Sys2Proof.Machine
end

