-- ==== Sys2Proof/Machine/Sequencer.lean ====
section
/-! DEFINITION. The engine's sequencer: which micro-operation a step performs and which state follows
(10_state.md R21, R22; 45_encoder.md R242 to R247; 46_decoder.md R272 to R277). -/

namespace Sys2Proof.Machine

/-- Go on from a next state; a fault or a refusal ends the step. -/
def onNext (o : Host.Outcome State Fault Refusal) (k : State → Host.Outcome State Fault Refusal) :
    Host.Outcome State Fault Refusal :=
  match o with
  | .next s => k s
  | .fault f => .fault f
  | .refused r => .refused r

/-- `state <- S` as a step's end. -/
def moveTo (f : Fsm) (s : State) : Host.Outcome State Fault Refusal :=
  .next (s.setEng (s.eng.goto f))

/-- `E_COUNT` (45_encoder.md R242). -/
def stepCount (s : State) : Host.Outcome State Fault Refusal :=
  if s.eng.i < s.eng.len then exec .ftCount s else moveTo .eBuild s

/-- `E_BUILD` (45_encoder.md R243). -/
def stepBuild (s : State) : Host.Outcome State Fault Refusal :=
  if s.eng.phase = 0 then
    onNext (exec .tbLeaves s) fun s => .next (s.setEng (s.eng.setPhase 1))
  else if s.eng.k = 0 then onNext (exec .tbEmpty s) (moveTo .eCodes)
  else if s.eng.k = 1 then onNext (exec .tbSingle s) (moveTo .eCodes)
  else if 1 < s.eng.pq.length then exec .tbMerge s
  else onNext (exec .tbFinish s) (moveTo .eCodes)

/-- `E_CODES` (45_encoder.md R244). -/
def stepCodes (s : State) : Host.Outcome State Fault Refusal :=
  onNext (exec .cgWalk s) (moveTo .eHeader)

/-- `E_HEADER` (45_encoder.md R245, R246). -/
def stepHeader (s : State) : Host.Outcome State Fault Refusal :=
  if s.eng.phase = 0 then exec .eHeaderSize s
  else if s.eng.phase = 1 then exec .eHeaderByte s
  else .fault .noSuchPhase

/-- `D_HEADER` (46_decoder.md R272, R273). -/
def stepDHeader (s : State) : Host.Outcome State Fault Refusal :=
  if s.eng.phase = 5 then exec .dHeaderCheck s else exec .dHeaderField s

/-- `D_PAYLOAD` (46_decoder.md R277). -/
def stepDPayload (s : State) : Host.Outcome State Fault Refusal :=
  if s.eng.j < s.eng.origlen then exec .twStep s else exec .dPayloadEnd s

/-- One step of the engine: in `IDLE` it waits (70_reset_and_hazards.md R381). -/
def engineStep (s : State) : Host.Outcome State Fault Refusal :=
  match s.eng.fsm with
  | .idle => .next s
  | .eCount => stepCount s
  | .eBuild => stepBuild s
  | .eCodes => stepCodes s
  | .eHeader => stepHeader s
  | .ePayload => exec .ePayloadStep s
  | .dHeader => stepDHeader s
  | .dRebuild => exec .dRebuildStep s
  | .dPayload => stepDPayload s

end Sys2Proof.Machine
end

