-- ==== Sys2Proof/Machine/Environment.lean ====
section
/-! DEFINITION. What reaches the core between two engine steps: host MMIO accesses and polls, stores
and loads of system memory by others, reset (00_scope.md R12). -/

namespace Sys2Proof.Machine

/-- The state with other inputs to come. -/
def State.setInputs (s : State) (l : List Timed) : State := { s with inputs := l }

/-- A host MMIO access runs the instruction it decodes to; any other access is refused
(20_memory.md R68). -/
def hostAccess (a : Access) (s : State) : Host.Outcome State Fault Refusal :=
  match decodeAccess s.busy a with
  | .ok i => exec i s
  | .error _ => .refused .unsupportedAccess

/-- The next read of a poll, after the engine steps its first gap gives; without one, after one
engine step, so that polling stops no progress (70_reset_and_hazards.md R389, log entry 19). -/
def nextPoll (off : Byte) (mask val : Word) : List Nat → Timed
  | [] => ⟨1, .poll off mask val []⟩
  | g :: gs => ⟨g, .poll off mask val gs⟩

/-- `POLL` (30_encoding.md R111): one read, and the poll again later unless its condition holds. -/
def hostPoll (off : Byte) (mask val : Word) (gaps : List Nat) (s : State) :
    Host.Outcome State Fault Refusal :=
  onNext (hostAccess (.read off) s) fun t =>
    if readReg s off &&& mask = val then .next t
    else .next (t.setInputs (nextPoll off mask val gaps :: t.inputs))

/-- An agent other than the engine writes a byte of a buffer of the running command
(70_reset_and_hazards.md R385). -/
def State.storeHazard (s : State) (addr size : Nat) : Bool :=
  s.busy && (s.eng.srcRange.meets addr size || s.eng.dstRange.meets addr size)

/-- An agent relies on a byte of the output buffer of the running command (R385). -/
def State.loadHazard (s : State) (addr : Nat) : Bool :=
  s.busy && s.eng.dstRange.holds addr

/-- A store by the host or another bus master (30_encoding.md R110, 20_memory.md R76), its bytes in
one transaction (log entry 31). A store into the register window is no 32-bit MMIO access
(20_memory.md R68). -/
def hostStore (addr : Nat) (bytes : List Byte) (s : State) : Host.Outcome State Fault Refusal :=
  if Config.memorySize < addr + bytes.length then .fault .noSuchAddress
  else if s.plat.window.meets addr bytes.length then .refused .unsupportedAccess
  else if s.plat.devices.any fun r => r.meets addr bytes.length then .refused .deviceAccess
  else if s.storeHazard addr bytes.length then .fault .bufferHazard
  else .next { s with mem := Memory.writeBytes s.mem addr bytes }

/-- A load of one byte of memory by the host (20_memory.md R78). -/
def hostLoad (addr : DWord) (s : State) : Host.Outcome State Fault Refusal :=
  if s.plat.window.holds addr.toNat then .refused .unsupportedAccess
  else if s.plat.isDevice addr.toNat then .refused .deviceAccess
  else if s.loadHazard addr.toNat then .fault .bufferHazard
  else .next (s.logHost (.mem addr (Memory.read s.mem addr.toNat)))

/-- The transactions the engine's next step makes, the first one first. -/
def nextAccesses (s : State) : List BusAccess :=
  match engineStep s with
  | .next t => (t.busLog.take (t.busLog.length - s.busLog.length)).reverse
  | .fault _ => []
  | .refused _ => []

/-- A transaction's effect on memory. -/
def BusAccess.land (m : List Host.Cell) : BusAccess → List Host.Cell
  | .write a v => Memory.write m a v
  | .read _ _ => m
  | .readError _ => m
  | .writeError _ => m

/-- The reset event (70_reset_and_hazards.md R380): the registers and the engine take their reset
values, memory keeps its contents with the first `inflight` accesses of the step in progress made,
and no later access. -/
def resetEvent (inflight : Nat) (s : State) : State :=
  let made := (nextAccesses s).take inflight
  { regs := Regs.reset
    eng := Engine.reset
    mem := made.foldl BusAccess.land s.mem
    plat := s.plat
    inputs := s.inputs
    busLog := made.reverse ++ s.busLog
    hostLog := s.hostLog }

/-- The effect of one input. -/
def applyInput (x : Input) (s : State) : Host.Outcome State Fault Refusal :=
  match x with
  | .mmio a => hostAccess a s
  | .poll off mask val gaps => hostPoll off mask val gaps s
  | .store addr bytes => hostStore addr bytes s
  | .load addr => hostLoad addr s
  | .reset inflight => .next (resetEvent inflight s)

end Sys2Proof.Machine
end

