-- ==== Sys2Proof/Machine/Step.lean ====
section
/-! DEFINITION. One step of the machine: the input that is due, or else one step of the engine
(70_reset_and_hazards.md R389; an input and an engine step "never overlap", 60_exceptions.md R345). -/

namespace Sys2Proof.Machine

/-- The first input lands when no engine step is left before it; with no input, the engine goes on. -/
def step (s : State) : Host.Outcome State Fault Refusal :=
  match s.inputs with
  | [] => engineStep s
  | ⟨0, x⟩ :: rest => applyInput x (s.setInputs rest)
  | ⟨n + 1, x⟩ :: rest => engineStep (s.setInputs (⟨n, x⟩ :: rest))

/-- The core "fetches no instructions" (20_memory.md R81): a command word is consumed by the host
write to `CMD` that carries it. So the word is the next input (log entry 12). -/
def State.withFetchWord (s : State) (nbits w : Nat) : State :=
  s.setInputs (⟨0, .mmio (.write cmdOffset (BitVec.ofNat 32 (w % 2 ^ nbits)))⟩ :: s.inputs)

end Sys2Proof.Machine
end

