-- ==== Sys2Proof/Machine/Script.lean ====
section
/-! DEFINITION. The host script notation (30_encoding.md R110 to R112): statements, their expansion to
host actions, the inputs a script is (47_host_interface.md R320), and the values its variables get. -/

namespace Sys2Proof.Machine

/-- The 64-bit register pairs (10_state.md R23). -/
inductive PairName where
  | srcAddr | srcLen | dstAddr | dstCap | outLen | errInfo
  deriving DecidableEq, Repr

/-- The low register of a pair. -/
def PairName.loReg : PairName → RegName
  | .srcAddr => .srcAddrLo
  | .srcLen => .srcLenLo
  | .dstAddr => .dstAddrLo
  | .dstCap => .dstCapLo
  | .outLen => .outLenLo
  | .errInfo => .errInfoLo

/-- The high register of a pair. -/
def PairName.hiReg : PairName → RegName
  | .srcAddr => .srcAddrHi
  | .srcLen => .srcLenHi
  | .dstAddr => .dstAddrHi
  | .dstCap => .dstCapHi
  | .outLen => .outLenHi
  | .errInfo => .errInfoHi

/-- A script variable (R110), by number. -/
abbrev Var := Nat

/-- A statement or a pseudo-instruction (R110, R111). -/
inductive Stmt where
  | wr (r : RegName) (v : Word)
  | rd (r : RegName) (x : Var)
  | mem (addr : DWord) (bytes : List Byte)
  | wr64 (p : PairName) (v : DWord)
  | rd64 (p : PairName) (x : Var)
  | encode
  | decode
  | nop
  | poll (r : RegName) (mask val : Word)
  | wait
  | ack
  deriving DecidableEq, Repr

/-- The stores of a `MEM` line, one byte each, at `a`, `a + 1`, ... (R110). -/
def memActions (a : Nat) : List Byte → List Input
  | [] => []
  | b :: bs => .store a [b] :: memActions (a + 1) bs

/-- The host actions of a statement, in order (R110, R111). -/
def Stmt.actions : Stmt → List Input
  | .wr r v => [.mmio (.write r.offset v)]
  | .rd r _ => [.mmio (.read r.offset)]
  | .mem a bs => memActions a.toNat bs
  | .wr64 p v => [.mmio (.write p.loReg.offset (lo v)), .mmio (.write p.hiReg.offset (hi v))]
  | .rd64 p _ => [.mmio (.read p.loReg.offset), .mmio (.read p.hiReg.offset)]
  | .encode => [.mmio (.write RegName.cmd.offset 1)]
  | .decode => [.mmio (.write RegName.cmd.offset 2)]
  | .nop => [.mmio (.write RegName.cmd.offset 0)]
  | .poll r mask val => [.poll r.offset mask val []]
  | .wait => [.poll RegName.status.offset 1 0 []]
  | .ack => [.mmio (.write RegName.status.offset 0x0000000E)]

/-- When one action of a script happens: how many engine steps go before it, and for a poll how many
go before each of its later reads. Each number is open on its own (70_reset_and_hazards.md R389). -/
structure Pace where
  after : Nat
  gaps : List Nat
  deriving DecidableEq, Repr

/-- An action with the gaps of its reads, if it is a poll. -/
def Input.paced (gaps : List Nat) : Input → Input
  | .mmio a => .mmio a
  | .poll off mask val _ => .poll off mask val gaps
  | .store addr bytes => .store addr bytes
  | .load addr => .load addr
  | .reset inflight => .reset inflight

/-- A script as inputs (47_host_interface.md R320): its actions in order, action `n` at its own pace
`pace n`. -/
def scriptInputs (pace : Nat → Pace) (script : List Stmt) : List Timed :=
  (script.flatMap Stmt.actions).mapIdx fun n x => ⟨(pace n).after, x.paced (pace n).gaps⟩

/-- The values the host's register reads have returned, the oldest first. -/
def State.readBack (s : State) : List Word :=
  s.hostLog.reverse.filterMap fun x =>
    match x with
    | .reg _ v => some v
    | .mem _ _ => none

/-- What the variables of a script hold, the latest value first. -/
abbrev Vars := List (Var × DWord)

/-- The values after those of a poll, whose reads end at the first with `(t & mask) == val` (R111);
none if no read ends it. -/
def pollEnd (mask val : Word) : List Word → Option (List Word)
  | [] => none
  | t :: l => if t &&& mask = val then some l else pollEnd mask val l

/-- The variables after a statement and the values it leaves, from those its reads return (R110):
`RD64` makes `v = t1 * 2^32 + t0` of its two (R111). None while a read is still to come. -/
def Stmt.bindVars (vars : Vars) (l : List Word) : Stmt → Option (Vars × List Word)
  | .rd _ x =>
    match l with
    | v :: l => some ((x, v.setWidth 64) :: vars, l)
    | [] => none
  | .rd64 _ x =>
    match l with
    | t0 :: t1 :: l => some ((x, BitVec.ofNat 64 (t1.toNat * 2 ^ 32 + t0.toNat)) :: vars, l)
    | _ => none
  | .poll _ mask val => (pollEnd mask val l).map fun l => (vars, l)
  | .wait => (pollEnd 1 0 l).map fun l => (vars, l)
  | .wr _ _ | .mem _ _ | .wr64 _ _ | .encode | .decode | .nop | .ack => some (vars, l)

/-- The variables at the end of a script, from the values its reads return in order (log entry
28). -/
def scriptVars (vars : Vars) (l : List Word) : List Stmt → Option Vars
  | [] => some vars
  | st :: script =>
    match st.bindVars vars l with
    | some (vars, l) => scriptVars vars l script
    | none => none

end Sys2Proof.Machine
end

