-- ==== Sys2Proof/Safety.lean ====
section
/-! DEFINITION. The terms the claims are stated in: the legal transitions, the invariant of every
step, the tree an arena holds and its codewords, the bytes a string of bits packs into, the
conditions under which an engine access is answered. -/

namespace Sys2Proof.Machine

/-- The transitions of 10_state.md R22: "leaves to", staying, and the way to `IDLE` from any
state. -/
def Fsm.mayMove : Fsm → Fsm → Bool
  | _, .idle => true
  | .idle, .eCount => true
  | .idle, .dHeader => true
  | .eCount, .eBuild => true
  | .eBuild, .eCodes => true
  | .eCodes, .eHeader => true
  | .eHeader, .ePayload => true
  | .dHeader, .dRebuild => true
  | .dRebuild, .dPayload => true
  | a, b => a == b

/-- The encoder's states (10_state.md R22). -/
def Fsm.isEncoder : Fsm → Bool
  | .eCount | .eBuild | .eCodes | .eHeader | .ePayload => true
  | .idle | .dHeader | .dRebuild | .dPayload => false

/-- The decoder's states (10_state.md R22). -/
def Fsm.isDecoder : Fsm → Bool
  | .dHeader | .dRebuild | .dPayload => true
  | .idle | .eCount | .eBuild | .eCodes | .eHeader | .ePayload => false

/-- A step ends in a next state. -/
def Goes (o : Host.Outcome State Fault Refusal) : Prop := ∃ t, o = .next t

/-- The engine's turn: no input is due, and the engine steps from `t`, which is `s` with one step less
to go before the next input (70_reset_and_hazards.md R389). -/
def State.engineTurn (s t : State) : Prop :=
  (s.inputs = [] ∧ t = s)
    ∨ ∃ n x rest, s.inputs = ⟨n + 1, x⟩ :: rest ∧ t = { s with inputs := ⟨n, x⟩ :: rest }

/-- The platform answers a read of `a` (20_memory.md R74). -/
def State.readable (s : State) (a : Nat) : Prop :=
  a < Config.memorySize ∧ s.plat.readFaults a = false

/-- The bound check passes for `a` (20_memory.md R73) and the platform answers a write (R74). -/
def State.writable (s : State) (a : Nat) : Prop :=
  s.eng.dst.toNat ≤ a ∧ a < s.eng.dst.toNat + s.eng.cap.toNat ∧ a < Config.memorySize
    ∧ s.plat.writeFaults a = false

/-- The present symbols in ascending order (00_scope.md glossary, 10_state.md R41). -/
def Engine.present (g : Engine) : List Byte := allSymbols.filter fun v => g.freqOf v != 0

/-- The sum of the counters, exact (40_frequency_table.md R132). -/
def Engine.freqSum (g : Engine) : Nat := (allSymbols.map fun v => (g.freqOf v).toNat).sum

/-- No two of these nodes have the same key (41_priority_queue.md R151). -/
def Engine.distinctKeys (g : Engine) (l : List NodeRef) : Prop :=
  ∀ a ∈ l, ∀ b ∈ l, a ≠ b → g.pqLess a b = true ∨ g.pqLess b a = true

/-- `m` is the smallest of these nodes (41_priority_queue.md R153). -/
def Engine.isLeast (g : Engine) (m : NodeRef) (l : List NodeRef) : Prop :=
  m ∈ l ∧ ∀ n ∈ l, n ≠ m → g.pqLess m n = true

/-- A binary tree over symbols, its leaves with their weights; `single` is the synthetic root of
k = 1 (42_tree_builder.md R172). -/
inductive Tree where
  | leaf (v : Byte) (w : Nat)
  | single (l : Tree)
  | node (l r : Tree)
  deriving DecidableEq, Repr

/-- The number of nodes. -/
def Tree.size : Tree → Nat
  | .leaf _ _ => 1
  | .single l => l.size + 1
  | .node l r => l.size + r.size + 1

/-- The length of the longest path. -/
def Tree.depth : Tree → Nat
  | .leaf _ _ => 0
  | .single l => l.depth + 1
  | .node l r => max l.depth r.depth + 1

/-- The leaves from left to right. -/
def Tree.leaves : Tree → List (Byte × Nat)
  | .leaf v w => [(v, w)]
  | .single l => l.leaves
  | .node l r => l.leaves ++ r.leaves

/-- Every internal node has two children (42_tree_builder.md R175 (c)). -/
def Tree.full : Tree → Bool
  | .leaf _ _ => true
  | .single _ => false
  | .node l r => l.full && r.full

/-- The codewords: the path to each leaf, bit 0 to the left and bit 1 to the right
(43_code_generator.md R190). -/
def Tree.codes : Tree → List (Byte × List Bool)
  | .leaf v _ => [(v, [])]
  | .single l => l.codes.map fun c => (c.1, false :: c.2)
  | .node l r =>
    (l.codes.map fun c => (c.1, false :: c.2)) ++ r.codes.map fun c => (c.1, true :: c.2)

/-- The arena holds the tree `t` at node `n` (10_state.md R42). -/
def Engine.holdsTree (g : Engine) : Tree → NodeRef → Prop
  | .leaf v w, n =>
    (g.nodeAt n).kind = .leaf ∧ (g.nodeAt n).sym = v ∧ (g.nodeAt n).w.toNat = w
  | .single l, n =>
    (g.nodeAt n).kind = .internal ∧ (g.nodeAt n).right = none
      ∧ ∃ a, (g.nodeAt n).left = some a ∧ g.holdsTree l a
  | .node l r, n =>
    (g.nodeAt n).kind = .internal
      ∧ (∃ a, (g.nodeAt n).left = some a ∧ g.holdsTree l a)
      ∧ ∃ b, (g.nodeAt n).right = some b ∧ g.holdsTree r b

/-- The root is a tree that a walk can finish: at most 511 nodes, paths of at most 255 bits, one
leaf a symbol (42_tree_builder.md R175). -/
def Engine.rootTree (g : Engine) (t : Tree) : Prop :=
  (∃ n, g.root = some n ∧ g.holdsTree t n) ∧ t.size ≤ 511 ∧ t.depth ≤ 255
    ∧ (t.leaves.map Prod.fst).Nodup

/-- A byte from its bits, the first bit most significant, missing bits 0 (20_memory.md R65). -/
def packByte (bs : List Bool) : Byte :=
  BitVec.ofNat 8 (((List.range 8).map fun q => if bs.getD q false then 2 ^ (7 - q) else 0).sum)

/-- Byte `q` of the packed string of bits `bs` (20_memory.md R65). -/
def packedByte (bs : List Bool) (q : Nat) : Byte := packByte (bs.drop (8 * q))

/-- The bits in the accumulator that wait for their byte to be complete (44_bitstream.md R211). -/
def Engine.waiting (g : Engine) : List Bool :=
  (List.range g.nacc.toNat).map fun q => g.acc.getLsbD (7 - q)

/-- The accumulator holds fewer than eight bits and zeros behind them (44_bitstream.md R210, R211). -/
def Engine.accClean (g : Engine) : Prop := g.nacc.toNat < 8 ∧ g.acc = packByte g.waiting

/-- The engine after the bits `bs` were put into the writer (44_bitstream.md R211, R212): the waiting
bits and the new ones fill whole bytes, the rest waits. -/
def Engine.afterBits (g : Engine) (bs : List Bool) : Engine :=
  let all := g.waiting ++ bs
  { g with
    acc := packedByte all (all.length / 8)
    nacc := BitVec.ofNat 4 (all.length % 8)
    nbits := g.nbits + BitVec.ofNat 64 bs.length
    wpos := g.wpos + BitVec.ofNat 64 (all.length / 8) }

/-- The address of the payload byte the writer completes next (44_bitstream.md R211). -/
def Engine.writeAddr (g : Engine) : Nat := g.wbase.toNat + g.wpos.toNat

/-- How many payload bytes the bits `bs` complete. -/
def Engine.bytesDone (g : Engine) (bs : List Bool) : Nat := (g.waiting ++ bs).length / 8

/-- The payload bytes the bits complete are in memory `m`, packed MSB first, and no other byte
differs; the port's record gains one write for each, in ascending order. -/
def State.bitsWritten (s : State) (bs : List Bool) (m : List Host.Cell) (log : List BusAccess) :
    Prop :=
  (∀ q < s.eng.bytesDone bs,
      Memory.read m (s.eng.writeAddr + q) = packedByte (s.eng.waiting ++ bs) q)
    ∧ (∀ a, a < s.eng.writeAddr ∨ s.eng.writeAddr + s.eng.bytesDone bs ≤ a →
      Memory.read m a = Memory.read s.mem a)
    ∧ log = ((List.range (s.eng.bytesDone bs)).map fun q =>
        BusAccess.write (s.eng.writeAddr + q) (packedByte (s.eng.waiting ++ bs) q)).reverse

/-- Every payload byte the bits complete can be written. -/
def State.bitsWritable (s : State) (bs : List Bool) : Prop :=
  ∀ q < s.eng.bytesDone bs, s.writable (s.eng.writeAddr + q)

/-- `n` reads of the bit reader in a row. -/
def readBits : Nat → State → Res (List Bool)
  | 0, s => .ok [] s
  | n + 1, s => (brReadBit s).bind fun b s => (readBits n s).bind fun bs s => .ok (b :: bs) s

/-- `n` merges in a row. -/
def mergeTimes : Nat → State → Res Unit
  | 0, s => .ok () s
  | n + 1, s => (tbMerge s).bind fun _ s => mergeTimes n s

/-- The tree builder for k ≥ 2 (42_tree_builder.md): the leaves, k - 1 merges, the root. -/
def buildTree (s : State) : Res Unit :=
  (tbLeaves s).bind fun _ s => (mergeTimes (s.eng.k.toNat - 1) s).bind fun _ s => tbFinish s

/-- The reads of consecutive bytes from `a` on, as the port records them, the newest first. -/
def readLog (m : List Host.Cell) (a : Nat) : Nat → List BusAccess
  | 0 => []
  | n + 1 => readLog m (a + 1) n ++ [.read a (Memory.read m a)]

/-- The bytes of memory from `a` on. -/
def bytesAt (m : List Host.Cell) (a : Nat) : Nat → List Byte
  | 0 => []
  | n + 1 => Memory.read m a :: bytesAt m (a + 1) n

/-- The state after an error (60_exceptions.md R346), written out: only the report, the results,
`DONE`, `ERR` and the FSM state differ from `s`. -/
def State.failed (s : State) (code : BitVec 4) (sub : BitVec 8) (info : DWord) : State :=
  { s with
    regs := { s.regs with
      errCode := code, errSub := sub, errInfo := info
      outLen := 0, payloadBits := 0, symbols := 0, done := false, err := true }
    eng := { s.eng with fsm := .idle, phase := 0 } }

/-- The platform answers a read of `a` with an error (20_memory.md R74). -/
def State.unreadable (s : State) (a : Nat) : Prop :=
  a < Config.memorySize ∧ s.plat.readFaults a = true

/-- A write at `a`, at or above the start of the output range, fails: it lies beyond the range
(20_memory.md R73), or the platform answers it with an error (R74). -/
def State.unwritable (s : State) (a : Nat) : Prop :=
  s.eng.dst.toNat ≤ a
    ∧ (s.eng.dst.toNat + s.eng.cap.toNat ≤ a
      ∨ (a < Config.memorySize ∧ s.plat.writeFaults a = true))

/-- The state after a read of `a` that fails: `READ_FAULT` with the address (20_memory.md R74). -/
def State.readFailed (s : State) (a : Nat) : State :=
  { s with busLog := .readError a :: s.busLog }.failed 7 0x30 (BitVec.ofNat 64 a)

/-- The state after a write at `a` that fails: beyond the output range `WRITE_BOUND` with `a - s.dst`
and no access (20_memory.md R73), else `WRITE_FAULT` with the address (R74). The bound comes first
(60_exceptions.md R345). -/
def State.writeFailed (s : State) (a : Nat) : State :=
  if s.eng.dst.toNat + s.eng.cap.toNat ≤ a then
    s.failed 5 0x12 (BitVec.ofNat 64 (a - s.eng.dst.toNat))
  else { s with busLog := .writeError a :: s.busLog }.failed 7 0x31 (BitVec.ofNat 64 a)

/-- How many of the bits `bs` are put before the one that completes byte `q`. -/
def Engine.bitsBefore (g : Engine) (q : Nat) : Nat := 8 * q + 7 - g.nacc.toNat

/-- The engine when the write of completed byte `q` fails: the byte and its eight bits are still in
the accumulator (44_bitstream.md R211, 60_exceptions.md R346, log entry 15). -/
def Engine.fullByte (g : Engine) (bs : List Bool) (q : Nat) : Engine :=
  { g with
    acc := packedByte (g.waiting ++ bs) q
    nacc := 8
    nbits := g.nbits + BitVec.ofNat 64 (g.bitsBefore q + 1)
    wpos := g.wpos + BitVec.ofNat 64 q }

/-- Of the payload bytes the bits `bs` complete, byte `q` is the first whose write fails. -/
def State.byteFails (s : State) (bs : List Bool) (q : Nat) : Prop :=
  q < s.eng.bytesDone bs ∧ (∀ p < q, s.writable (s.eng.writeAddr + p))
    ∧ s.eng.writeAddr + q < Config.memorySize ∧ s.unwritable (s.eng.writeAddr + q)

/-- The field of container bytes `[off, off + n)` that a `D_HEADER` step reads, by phase
(46_decoder.md R272). -/
def Engine.headerField (g : Engine) (off n : Nat) : Prop :=
  (g.phase = 0 ∧ off = 0 ∧ n = 4) ∨ (g.phase = 1 ∧ off = 4 ∧ n = 8)
    ∨ (g.phase = 2 ∧ off = 12 ∧ n = 2)
    ∨ (g.phase = 3 ∧ g.e.toNat < g.k.toNat ∧ off = 14 + 5 * g.e.toNat ∧ n = 5)
    ∨ (g.phase = 4 ∧ off = 14 + 5 * g.k.toNat ∧ n = 4)

/-- The state after the first lines of acceptance (47_host_interface.md R312), written out. -/
def State.acceptedAs (s : State) (op : BitVec 4) : State :=
  { s with
    regs := { s.regs with
      done := false, err := false, errCode := 0, errSub := 0, errInfo := 0
      outLen := 0, payloadBits := 0, symbols := 0 }
    eng := { s.eng with
      op := op, src := s.regs.srcAddr, len := s.regs.srcLen
      dst := s.regs.dstAddr, cap := s.regs.dstCap } }

/-- What acceptance needs of the operand registers (47_host_interface.md R312): no range wraps, and
no two non-empty ranges overlap. -/
def Regs.rangesOk (r : Regs) : Prop :=
  r.srcAddr.toNat + r.srcLen.toNat ≤ 2 ^ 64 ∧ r.dstAddr.toNat + r.dstCap.toNat ≤ 2 ^ 64
    ∧ ¬(0 < r.srcLen.toNat ∧ 0 < r.dstCap.toNat
      ∧ r.srcAddr.toNat < r.dstAddr.toNat + r.dstCap.toNat
      ∧ r.dstAddr.toNat < r.srcAddr.toNat + r.srcLen.toNat)

/-- The operand ranges are ordinary memory (70_reset_and_hazards.md R388). -/
def State.operandsOrdinary (s : State) : Prop :=
  s.plat.ordinary s.regs.srcAddr.toNat s.regs.srcLen.toNat = true
    ∧ s.plat.ordinary s.regs.dstAddr.toNat s.regs.dstCap.toNat = true

/-- The progress indices of each FSM state: what a run has established when it is there. -/
def Engine.progress (g : Engine) : Prop :=
  match g.fsm with
  | .idle => True
  | .eCount => g.i.toNat ≤ g.len.toNat ∧ g.freqSum = g.i.toNat
  | .eBuild => g.freqSum = g.len.toNat ∧ (g.phase ≠ 0 → g.k.toNat = g.present.length)
  | .eCodes => g.freqSum = g.len.toNat ∧ g.k.toNat = g.present.length
  | .eHeader =>
    g.k.toNat = g.present.length ∧ g.phase.toNat ≤ 1
      ∧ (g.phase = 1 →
        g.hsize.toNat = 18 + 5 * g.k.toNat ∧ g.hpos.toNat < g.hsize.toNat
          ∧ g.csize.toNat = g.hsize.toNat + (g.total.toNat + 7) / 8
          ∧ g.csize.toNat ≤ g.cap.toNat ∧ g.total.toNat < 2 ^ 32)
  | .ePayload =>
    g.i.toNat ≤ g.len.toNat ∧ g.hsize.toNat = 18 + 5 * g.k.toNat
      ∧ g.csize.toNat ≤ g.cap.toNat
  | .dHeader =>
    g.phase.toNat ≤ 5
      ∧ (g.phase.toNat ≤ 2 → g.freqSum = 0)
      ∧ (3 ≤ g.phase.toNat →
        g.e.toNat ≤ g.k.toNat ∧ g.e.toNat = g.present.length ∧ g.sum.toNat = g.freqSum
          ∧ g.freqSum ≤ g.e.toNat * (2 ^ 32 - 1))
      ∧ (4 ≤ g.phase.toNat → g.e.toNat = g.k.toNat)
      ∧ (g.phase = 5 → g.hsize.toNat = 18 + 5 * g.k.toNat ∧ g.hsize.toNat ≤ g.len.toNat)
  | .dRebuild =>
    g.phase.toNat ≤ 2 ∧ g.k.toNat = g.present.length ∧ g.freqSum = g.origlen.toNat
      ∧ g.origlen.toNat ≤ g.cap.toNat
      ∧ g.hsize.toNat + (g.bitlen.toNat + 7) / 8 = g.len.toNat
  | .dPayload =>
    g.j.toNat ≤ g.origlen.toNat ∧ g.origlen.toNat ≤ g.cap.toNat
      ∧ g.rpos.toNat ≤ g.bitlen.toNat ∧ g.rbase = g.src + g.hsize
      ∧ g.hsize.toNat + (g.bitlen.toNat + 7) / 8 = g.len.toNat

/-- The queue in its written form: ascending, each node once (log entry 10). -/
def Engine.queueWf (g : Engine) : Prop := g.pq.Pairwise (· < ·) ∧ g.pq.length ≤ 256

/-- The invariant of every step. -/
structure Inv (s : State) : Prop where
  /-- Memory keeps its canonical form. -/
  memory : Memory.wf s.mem = true
  /-- The queue keeps its written form and its capacity (41_priority_queue.md R154). -/
  queue : s.eng.queueWf
  /-- `DONE` and `ERR` "are never both 1" (10_state.md R28). -/
  notBoth : ¬(s.regs.done = true ∧ s.regs.err = true)
  /-- No reserved error code is reported, and none without `ERR_CODE` (30_encoding.md R107, R29). -/
  errReported : s.regs.errCode.toNat ≤ 7 ∧ (s.regs.err = true → s.regs.errCode ≠ 0)
  /-- k stays in its range (10_state.md R38, R40). -/
  counts : s.eng.k.toNat ≤ 256 ∧ s.regs.symbols.toNat ≤ 256
  /-- While busy the status bits and the results are 0 (70_reset_and_hazards.md R386). -/
  busyClear : s.busy = true →
    s.regs.done = false ∧ s.regs.err = false ∧ s.regs.errCode = 0 ∧ s.regs.errSub = 0
      ∧ s.regs.errInfo = 0 ∧ s.regs.outLen = 0 ∧ s.regs.payloadBits = 0 ∧ s.regs.symbols = 0
  /-- While busy the latched ranges are the ones acceptance checked (20_memory.md R72, R73). -/
  busyRanges : s.busy = true →
    s.eng.src.toNat + s.eng.len.toNat ≤ 2 ^ 64 ∧ s.eng.dst.toNat + s.eng.cap.toNat ≤ 2 ^ 64
      ∧ s.eng.overlap = false ∧ s.rangesOrdinary = true
  /-- The FSM state belongs to the command that runs (10_state.md R22, R40). -/
  command :
    (s.eng.fsm.isEncoder = true → s.eng.op = 1 ∧ s.eng.len.toNat ≤ 2 ^ 32 - 1)
      ∧ (s.eng.fsm.isDecoder = true → s.eng.op = 2)
  /-- The progress indices fit the FSM state. -/
  progress : s.eng.progress

end Sys2Proof.Machine
end

