-- ==== Sys2Proof/Certificates/Slice0/Obligations.lean ====
section
/-! DEFINITION. The statements for the provers. -/

open Sys2Proof Sys2Proof.Machine

/-! ### Encodings -/

/-- 30_encoding.md R91, R93: the three legal words and four illegal ones, as the table numbers them. -/
def Obligations.TableWordsDecode : Prop :=
  decodeTableWord 32 0x00000000 = some .nop
    ∧ decodeTableWord 32 0x00000001 = some .encode
    ∧ decodeTableWord 32 0x00000002 = some .decode
    ∧ decodeTableWord 32 0x00000003 = some (.illegal 0x00000003)
    ∧ decodeTableWord 32 0x00000010 = some (.illegal 0x00000010)
    ∧ decodeTableWord 32 0x80000001 = some (.illegal 0x80000001)
    ∧ decodeTableWord 32 0xFFFFFFFF = some (.illegal 0xFFFFFFFF)
    ∧ decodeAccess false (.write 0x04 1) = .ok (.mmioWriteCtrl 1)
    ∧ decodeAccess false (.write 0x0C 0x0E) = .ok (.mmioWriteStatus 0x0E)
    ∧ decodeAccess false (.write 0x20 15) = .ok (.mmioWriteOperand .srcLenLo 15)
    ∧ decodeAccess false (.write 0x34 7) = .ok (.mmioWriteOperand .dstCapHi 7)
    ∧ decodeAccess false (.write 0x38 1) = .ok (.mmioWriteIgnored 0x38 1)
    ∧ decodeAccess true (.write 0x08 2) = .ok (.cmdWhileBusy 2)
    ∧ decodeAccess true (.read 0x4C) = .ok (.mmioRead 0x4C)

/-- Every well-formed instruction a host access selects is what its encoding decodes to. -/
def Obligations.DecodeOfEncode : Prop :=
  ∀ (i : Instr) (busy : Bool) (a : Access), i.wf = true → i.selectedWhen busy = true →
    encode i = some a → decodeAccess busy a = .ok i

/-- An access has one meaning, which is well formed and which it encodes: the other direction. -/
def Obligations.EncodeOfDecode : Prop :=
  ∀ (i : Instr) (busy : Bool) (a : Access), decodeAccess busy a = .ok i →
    i.wf = true ∧ i.selectedWhen busy = true ∧ encode i = some a

/-! ### A step runs the decoded or selected instruction -/

/-- A host access that is due runs its instruction, on the state without that input; an unsupported
access is refused (20_memory.md R68). -/
def Obligations.HostAccessStepRunsInstruction : Prop :=
  ∀ (s : State) (a : Access) (rest : List Timed), s.inputs = ⟨0, .mmio a⟩ :: rest →
    (∀ i, decodeAccess s.busy a = .ok i → step s = exec i { s with inputs := rest })
      ∧ (∀ e, decodeAccess s.busy a = .error e → step s = .refused .unsupportedAccess)

/-- Host MMIO accesses that are not aligned 32-bit ones are refused (20_memory.md R68). -/
def Obligations.UnsupportedAccessRefused : Prop :=
  ∀ (s : State) (rest : List Timed) (off : Byte) (v : Word) (n : Nat) (w : Bool),
    (s.inputs = ⟨0, .mmio (.other off n w)⟩ :: rest → step s = .refused .unsupportedAccess)
      ∧ (off.toNat % 4 ≠ 0 → s.inputs = ⟨0, .mmio (.read off)⟩ :: rest →
        step s = .refused .unsupportedAccess)
      ∧ (off.toNat % 4 ≠ 0 → s.inputs = ⟨0, .mmio (.write off v)⟩ :: rest →
        step s = .refused .unsupportedAccess)

/-- With no input due the engine takes the step its state selects, in the encoder's states
(45_encoder.md R242 to R247) and in `IDLE`, where it waits (70_reset_and_hazards.md R381). That the
engine's turn comes when the input list has nothing due, and that a step in `IDLE` takes one, is the
model's choice (log entry 18). -/
def Obligations.EngineStepEncoder : Prop :=
  ∀ s u : State, s.engineTurn u →
    (u.eng.fsm = .idle → step s = .next u)
    ∧ (u.eng.fsm = .eCount → u.eng.i.toNat < u.eng.len.toNat → step s = exec .ftCount u)
    ∧ (u.eng.fsm = .eCount → u.eng.len.toNat ≤ u.eng.i.toNat →
      step s = .next { u with eng := { u.eng with fsm := .eBuild, phase := 0 } })
    ∧ (u.eng.fsm = .eBuild → u.eng.phase = 0 → ∀ t, exec .tbLeaves u = .next t →
      step s = .next { t with eng := { t.eng with phase := 1 } })
    ∧ (u.eng.fsm = .eBuild → u.eng.phase ≠ 0 → u.eng.k = 0 → ∀ t, exec .tbEmpty u = .next t →
      step s = .next { t with eng := { t.eng with fsm := .eCodes, phase := 0 } })
    ∧ (u.eng.fsm = .eBuild → u.eng.phase ≠ 0 → u.eng.k = 1 → ∀ t, exec .tbSingle u = .next t →
      step s = .next { t with eng := { t.eng with fsm := .eCodes, phase := 0 } })
    ∧ (u.eng.fsm = .eBuild → u.eng.phase ≠ 0 → 2 ≤ u.eng.k.toNat → 1 < u.eng.pq.length →
      step s = exec .tbMerge u)
    ∧ (u.eng.fsm = .eBuild → u.eng.phase ≠ 0 → 2 ≤ u.eng.k.toNat → u.eng.pq.length ≤ 1 →
      ∀ t, exec .tbFinish u = .next t →
        step s = .next { t with eng := { t.eng with fsm := .eCodes, phase := 0 } })
    ∧ (u.eng.fsm = .eCodes → ∀ t, exec .cgWalk u = .next t →
      step s = .next { t with eng := { t.eng with fsm := .eHeader, phase := 0 } })
    ∧ (u.eng.fsm = .eHeader → u.eng.phase = 0 → step s = exec .eHeaderSize u)
    ∧ (u.eng.fsm = .eHeader → u.eng.phase = 1 → step s = exec .eHeaderByte u)
    ∧ (u.eng.fsm = .ePayload → step s = exec .ePayloadStep u)

/-- The same in the decoder's states (46_decoder.md R272 to R277). The engine's turn is again that of
the model's input list (log entry 18). -/
def Obligations.EngineStepDecoder : Prop :=
  ∀ s u : State, s.engineTurn u →
    (u.eng.fsm = .dHeader → u.eng.phase ≠ 5 → step s = exec .dHeaderField u)
    ∧ (u.eng.fsm = .dHeader → u.eng.phase = 5 → step s = exec .dHeaderCheck u)
    ∧ (u.eng.fsm = .dRebuild → step s = exec .dRebuildStep u)
    ∧ (u.eng.fsm = .dPayload → u.eng.j.toNat < u.eng.origlen.toNat → step s = exec .twStep u)
    ∧ (u.eng.fsm = .dPayload → u.eng.origlen.toNat ≤ u.eng.j.toNat →
      step s = exec .dPayloadEnd u)

/-! ### Reset -/

/-- 70_reset_and_hazards.md R381: every register reads its reset value, `irq` is 0, and the engine
waits in `IDLE`. -/
def Obligations.ResetRegistersAndIdle : Prop :=
  (∀ off : Byte, readReg State.reset off = if off = 0x00 then 0x31465548 else 0)
    ∧ State.reset.irq = false ∧ State.reset.eng.fsm = .idle ∧ State.reset.eng.phase = 0
    ∧ step State.reset = .next State.reset

/-- 70_reset_and_hazards.md R380: the reset event gives every register its reset value, abandons the
command without a report, leaves memory but for accesses of the step in progress that were made
before it (an access happens completely, so that a byte reads as the last write made to it, or not at
all), and leaves platform and host alone. How many were made is the model's input (log entry 21). -/
def Obligations.ResetEventAbandonsCommand : Prop :=
  ∀ (s : State) (n : Nat) (rest : List Timed), s.inputs = ⟨0, .reset n⟩ :: rest →
    ∃ (t : State) (made : List BusAccess), step s = .next t
      ∧ t.regs = Regs.reset ∧ t.eng.fsm = .idle ∧ t.eng.phase = 0 ∧ t.irq = false
      ∧ t.plat = s.plat ∧ t.inputs = rest ∧ t.hostLog = s.hostLog
      ∧ t.busLog = made ++ s.busLog ∧ made.length ≤ n
      ∧ (n = 0 → t.mem = s.mem)
      ∧ t.mem = made.reverse.foldl BusAccess.land s.mem
      ∧ (Memory.wf s.mem = true → ∀ a v later earlier,
        made = later ++ BusAccess.write a v :: earlier → (∀ w, BusAccess.write a w ∉ later) →
        Memory.read t.mem a = v)
      ∧ (∀ a, (∀ v, BusAccess.write a v ∉ made) → Memory.read t.mem a = Memory.read s.mem a)
      ∧ (∀ u, engineStep { s with inputs := rest } = .next u →
        ∃ later, u.busLog = later ++ made ++ s.busLog ∧ (later ≠ [] → made.length = n))

/-! ### Commands -/

/-- 47_host_interface.md R313: `NOP` changes nothing; while busy it is rejected like every word. -/
def Obligations.NopChangesNothing : Prop :=
  ∀ s : State,
    (s.busy = false → exec .nop s = .next s)
    ∧ (s.busy = true → exec .nop s = .next { s with regs := { s.regs with rej := true } })

/-- 45_encoder.md R240 after 47_host_interface.md R312: `ENCODE` is accepted. -/
def Obligations.EncodeAccepted : Prop :=
  ∀ s : State, s.busy = false → s.regs.rangesOk → s.regs.srcLen.toNat ≤ 2 ^ 32 - 1 →
    s.operandsOrdinary →
    exec .encode s = .next { s.acceptedAs 1 with
      eng := { (s.acceptedAs 1).eng with
        freq := Vector.replicate 256 0, i := 0, fsm := .eCount, phase := 0 } }

/-- 46_decoder.md R270 after 47_host_interface.md R312: `DECODE` is accepted, with no limit on its
length. -/
def Obligations.DecodeAccepted : Prop :=
  ∀ s : State, s.busy = false → s.regs.rangesOk → s.operandsOrdinary →
    exec .decode s = .next { s.acceptedAs 2 with
      eng := { (s.acceptedAs 2).eng with
        freq := Vector.replicate 256 0, i := 0, fsm := .dHeader, phase := 0 } }

/-- 47_host_interface.md R312 and 60_exceptions.md R343 (1, 2), R344 (1): the first acceptance check
that fails is the one reported, with `BUSY` never set. -/
def Obligations.AcceptanceErrorsInOrder : Prop :=
  ∀ s : State, s.busy = false →
    (2 ^ 64 < s.regs.srcAddr.toNat + s.regs.srcLen.toNat →
      exec .encode s = .next ((s.acceptedAs 1).failed 6 0x21 s.regs.srcAddr)
        ∧ exec .decode s = .next ((s.acceptedAs 2).failed 6 0x21 s.regs.srcAddr))
    ∧ (s.regs.srcAddr.toNat + s.regs.srcLen.toNat ≤ 2 ^ 64 →
      2 ^ 64 < s.regs.dstAddr.toNat + s.regs.dstCap.toNat →
      exec .encode s = .next ((s.acceptedAs 1).failed 6 0x22 s.regs.dstAddr)
        ∧ exec .decode s = .next ((s.acceptedAs 2).failed 6 0x22 s.regs.dstAddr))
    ∧ (s.regs.srcAddr.toNat + s.regs.srcLen.toNat ≤ 2 ^ 64 →
      s.regs.dstAddr.toNat + s.regs.dstCap.toNat ≤ 2 ^ 64 →
      0 < s.regs.srcLen.toNat → 0 < s.regs.dstCap.toNat →
      s.regs.srcAddr.toNat < s.regs.dstAddr.toNat + s.regs.dstCap.toNat →
      s.regs.dstAddr.toNat < s.regs.srcAddr.toNat + s.regs.srcLen.toNat →
      exec .encode s = .next ((s.acceptedAs 1).failed 6 0x23 s.regs.dstAddr)
        ∧ exec .decode s = .next ((s.acceptedAs 2).failed 6 0x23 s.regs.dstAddr))
    ∧ (s.regs.rangesOk → 2 ^ 32 - 1 < s.regs.srcLen.toNat →
      exec .encode s = .next ((s.acceptedAs 1).failed 4 0x13 s.regs.srcLen))

/-- 47_host_interface.md R314: an illegal word while idle is `BAD_OPCODE` with the word as
`ERR_INFO`; the operand registers are neither latched nor changed. -/
def Obligations.IllegalWordReports : Prop :=
  ∀ (s : State) (w : Word), s.busy = false → w ≠ 0 → w ≠ 1 → w ≠ 2 →
    exec (.illegal w) s = .next (s.failed 6 0x20 (w.setWidth 64))

/-- 47_host_interface.md R315: any `CMD` word while busy sets `REJ` and changes nothing else. -/
def Obligations.CommandWhileBusyRejected : Prop :=
  ∀ (s : State) (w : Word), s.busy = true →
    exec (.cmdWhileBusy w) s = .next { s with regs := { s.regs with rej := true } }
      ∧ ∀ i, i.wf = true → commandWord i = some w →
        exec i s = .next { s with regs := { s.regs with rej := true } }

/-- A `CMD` write of `w` while idle is the command of `w` (30_encoding.md R91, R93), however it is
named. -/
def Obligations.CommandWordNamesItsCommand : Prop :=
  ∀ (s : State) (w : Word), s.busy = false →
    exec (.cmdWhileBusy w) s = exec (decodeCommand w) s

/-! ### Host MMIO accesses -/

/-- 47_host_interface.md R310, 10_state.md R23: a read returns the register as the map lays it out,
with reserved bits and offsets and `CMD` reading 0, in any state, and changes nothing (the host's
record of what it got is the model's own, log entry 8). -/
def Obligations.ReadReturnsRegister : Prop :=
  ∀ (s : State) (off : Byte), off.toNat % 4 = 0 →
    ∃ v : Word, exec (.mmioRead off) s = .next { s with hostLog := .reg off v :: s.hostLog }
      ∧ (off = 0x00 → v = 0x31465548)
      ∧ (off = 0x04 → v.toNat = s.regs.ie.toNat)
      ∧ (off = 0x08 → v = 0)
      ∧ (off = 0x0C → v.toNat = (if s.eng.fsm = .idle then 0 else 1) + 2 * s.regs.done.toNat
        + 4 * s.regs.err.toNat + 8 * s.regs.rej.toNat + 256 * s.eng.fsm.code.toNat)
      ∧ (off = 0x10 → v.toNat = s.regs.errCode.toNat + 256 * s.regs.errSub.toNat)
      ∧ (off = 0x14 → v = 0)
      ∧ (off = 0x18 → v.toNat = s.regs.srcAddr.toNat % 2 ^ 32)
      ∧ (off = 0x1C → v.toNat = s.regs.srcAddr.toNat / 2 ^ 32)
      ∧ (off = 0x20 → v.toNat = s.regs.srcLen.toNat % 2 ^ 32)
      ∧ (off = 0x24 → v.toNat = s.regs.srcLen.toNat / 2 ^ 32)
      ∧ (off = 0x28 → v.toNat = s.regs.dstAddr.toNat % 2 ^ 32)
      ∧ (off = 0x2C → v.toNat = s.regs.dstAddr.toNat / 2 ^ 32)
      ∧ (off = 0x30 → v.toNat = s.regs.dstCap.toNat % 2 ^ 32)
      ∧ (off = 0x34 → v.toNat = s.regs.dstCap.toNat / 2 ^ 32)
      ∧ (off = 0x38 → v.toNat = s.regs.outLen.toNat % 2 ^ 32)
      ∧ (off = 0x3C → v.toNat = s.regs.outLen.toNat / 2 ^ 32)
      ∧ (off = 0x40 → v.toNat = s.regs.errInfo.toNat % 2 ^ 32)
      ∧ (off = 0x44 → v.toNat = s.regs.errInfo.toNat / 2 ^ 32)
      ∧ (off = 0x48 → v = s.regs.payloadBits)
      ∧ (off = 0x4C → v.toNat = s.regs.symbols.toNat)
      ∧ (0x50 ≤ off.toNat → v = 0)

/-- 47_host_interface.md R317: a `STATUS` write clears the named bits, never sets one, and leaves
`ERR_CODE`, `ERR_INFO` and everything else; while busy it can only clear `REJ`. -/
def Obligations.StatusWriteClears : Prop :=
  ∀ (s : State) (v : Word),
    exec (.mmioWriteStatus v) s = .next { s with regs := { s.regs with
      done := s.regs.done && !v.getLsbD 1
      err := s.regs.err && !v.getLsbD 2
      rej := s.regs.rej && !v.getLsbD 3 } }
    ∧ (Inv s → s.busy = true →
      exec (.mmioWriteStatus v) s = .next { s with regs := { s.regs with
        rej := s.regs.rej && !v.getLsbD 3 } })

/-- 47_host_interface.md R318: a `CTRL` write stores bit 0, in any state, and `irq` follows at once. -/
def Obligations.CtrlWriteStoresIe : Prop :=
  ∀ (s : State) (v : Word), ∃ t,
    exec (.mmioWriteCtrl v) s = .next t
      ∧ t = { s with regs := { s.regs with ie := v.getLsbD 0 } }
      ∧ t.irq = (v.getLsbD 0 && (s.regs.done || s.regs.err))

/-- 47_host_interface.md R316: while idle the word is stored, and read back at its offset, while every
other offset reads as before; while busy the write is lost and `REJ` is set. -/
def Obligations.OperandWriteStoresOrRejects : Prop :=
  ∀ (s : State) (r : OperandReg) (v : Word),
    (s.busy = false → ∃ g : Regs,
      exec (.mmioWriteOperand r v) s = .next { s with regs := g }
        ∧ readReg { s with regs := g } r.offset = v
        ∧ ∀ off, off ≠ r.offset → readReg { s with regs := g } off = readReg s off)
    ∧ (s.busy = true →
      exec (.mmioWriteOperand r v) s = .next { s with regs := { s.regs with rej := true } })

/-- 47_host_interface.md R311: a write to a read-only or reserved offset is ignored, in any state. -/
def Obligations.IgnoredWriteChangesNothing : Prop :=
  ∀ (s : State) (off : Byte) (v : Word), off.toNat % 4 = 0 →
    (off = 0x00 ∨ off = 0x10 ∨ off = 0x14 ∨ 0x38 ≤ off.toNat) →
    exec (.mmioWriteIgnored off v) s = .next s

/-- 10_state.md R30: `REJ` is set only by a `CMD` or operand write while busy and cleared only by a
`STATUS` write with bit 3; every other instruction leaves it. -/
def Obligations.RejIsSticky : Prop :=
  ∀ (i : Instr) (s t : State), exec i s = .next t →
    t.regs.rej =
      match i with
      | .mmioWriteStatus v => s.regs.rej && !v.getLsbD 3
      | .mmioWriteOperand _ _ | .nop | .encode | .decode | .illegal _ | .cmdWhileBusy _ =>
        s.regs.rej || s.busy
      | _ => s.regs.rej

/-- 10_state.md R25, R33, R34: `CTRL` changes only by a `CTRL` write, and the operand registers only
by an operand write. -/
def Obligations.HostRegistersOnlyByHostWrites : Prop :=
  ∀ (i : Instr) (s t : State), exec i s = .next t →
    ((∀ v, i ≠ .mmioWriteCtrl v) → t.regs.ie = s.regs.ie)
      ∧ ((∀ r v, i ≠ .mmioWriteOperand r v) →
        t.regs.srcAddr = s.regs.srcAddr ∧ t.regs.srcLen = s.regs.srcLen
          ∧ t.regs.dstAddr = s.regs.dstAddr ∧ t.regs.dstCap = s.regs.dstCap)

/-- 47_host_interface.md R319: `irq` falls when a new command starts, follows `IE` when one completes
or fails, and does not depend on `REJ`. -/
def Obligations.IrqLevel : Prop :=
  ∀ s : State,
    s.irq = (s.regs.ie && (s.regs.done || s.regs.err))
    ∧ (∀ t, s.busy = false → (exec .encode s = .next t ∨ exec .decode s = .next t) →
      t.busy = true → t.irq = false)
    ∧ (∀ t, s.busy = true → engineStep s = .next t → t.busy = false → t.irq = s.regs.ie)
    ∧ (∀ t v, exec (.mmioWriteStatus v) s = .next t → v.getLsbD 1 = true → v.getLsbD 2 = true →
      t.irq = false)

/-! ### The frequency counter and the queue -/

/-- 40_frequency_table.md R130: the table and the index are zero, and nothing else changes. -/
def Obligations.FtClearZeroesTable : Prop :=
  ∀ s : State, ∃ f : Vector DWord 256,
    exec .ftClear s = .next { s with eng := { s.eng with freq := f, i := 0 } }
      ∧ ∀ v : Fin 256, f[v] = 0

/-- 40_frequency_table.md R131: one input byte is counted; a read the platform answers with an error
raises `READ_FAULT` and counts nothing. -/
def Obligations.FtCountCountsOneByte : Prop :=
  ∀ (s : State) (a : Nat), a = s.eng.src.toNat + s.eng.i.toNat → a < 2 ^ 64 →
    (s.plat.readFaults a = false → ∃ f : Vector DWord 256,
      exec .ftCount s = .next { s with
        busLog := .read a (Memory.read s.mem a) :: s.busLog
        eng := { s.eng with freq := f, i := s.eng.i + 1 } }
        ∧ ∀ v : Byte, f[symIdx v] =
          if v = Memory.read s.mem a then s.eng.freq[symIdx v] + 1 else s.eng.freq[symIdx v])
    ∧ (s.plat.readFaults a = true →
      exec .ftCount s = .next
        ({ s with busLog := .readError a :: s.busLog }.failed 7 0x30 (BitVec.ofNat 64 a)))

/-- 41_priority_queue.md R152: the node is in the queue, the others stay, and nothing else changes. -/
def Obligations.PqInsertAddsNode : Prop :=
  ∀ (s : State) (n : NodeRef), s.eng.pq.length < 256 → ∃ q : List NodeRef,
    exec (.pqInsert n) s = .next { s with eng := { s.eng with pq := q } }
      ∧ ∀ m, m ∈ q ↔ m = n ∨ m ∈ s.eng.pq

/-- 41_priority_queue.md R153 (with R151's distinct keys): the smallest node is returned and taken
out; from an empty queue the result is `NONE`. The latch that holds the result is the model's own
(log entry 7). -/
def Obligations.PqExtractMinTakesSmallest : Prop :=
  ∀ s : State,
    (s.eng.pq = [] →
      exec .pqExtractMin s = .next { s with eng := { s.eng with ret := .node none } })
    ∧ (s.eng.pq ≠ [] → s.eng.distinctKeys s.eng.pq → ∃ (m : NodeRef) (q : List NodeRef),
      exec .pqExtractMin s =
          .next { s with eng := { s.eng with pq := q, ret := .node (some m) } }
        ∧ m ∈ s.eng.pq
        ∧ (∀ n ∈ s.eng.pq, n ≠ m →
          (s.eng.node[m].w < s.eng.node[n].w
            ∨ (s.eng.node[m].w = s.eng.node[n].w ∧ s.eng.node[m].minsym < s.eng.node[n].minsym)))
        ∧ ∀ n, n ∈ q ↔ n ∈ s.eng.pq ∧ n ≠ m)

/-! ### The tree builder and the code generator -/

/-- 42_tree_builder.md R170: one leaf per present symbol, in ascending order, each queued; k is their
number. It completes in every state. -/
def Obligations.TbLeavesMakesLeaves : Prop :=
  ∀ s : State, ∃ (nodes : Vector Node 511) (q : List NodeRef),
    exec .tbLeaves s = .next { s with eng := { s.eng with
        node := nodes, pq := q, root := none
        nn := BitVec.ofNat 9 s.eng.present.length
        k := BitVec.ofNat 9 s.eng.present.length } }
      ∧ s.eng.present.length ≤ 256
      ∧ (∀ n, n ∈ q ↔ n.val < s.eng.present.length)
      ∧ ∀ n : NodeRef, nodes[n] =
        match s.eng.present[n.val]? with
        | some v => { kind := .leaf, sym := v, w := s.eng.freqOf v, minsym := v, left := none,
                      right := none }
        | none => s.eng.node[n]

/-- 42_tree_builder.md R171, R172, R174: no root for k = 0, the synthetic root for k = 1, the last
node for k ≥ 2. -/
def Obligations.TbRootSteps : Prop :=
  ∀ s : State,
    exec .tbEmpty s = .next { s with eng := { s.eng with root := none } }
    ∧ (∀ l, s.eng.pq = [l] → ∃ nodes : Vector Node 511,
      exec .tbSingle s = .next { s with eng := { s.eng with
          node := nodes, pq := [], nn := 2, root := some 1 } }
        ∧ ∀ n : NodeRef, nodes[n] =
          if n = 1 then
            { kind := .internal, sym := 0, w := s.eng.node[l].w, minsym := s.eng.node[l].minsym
              left := some l, right := none }
          else s.eng.node[n])
    ∧ (∀ n, s.eng.pq = [n] →
      exec .tbFinish s = .next { s with eng := { s.eng with pq := [], root := some n } })

/-- 42_tree_builder.md R173: the two smallest nodes, the first the left child, become one node that is
queued in their place. -/
def Obligations.TbMergeJoinsTwoSmallest : Prop :=
  ∀ (s : State) (l r n : NodeRef), s.eng.distinctKeys s.eng.pq → s.eng.pq.length ≤ 256 →
    s.eng.isLeast l s.eng.pq → s.eng.isLeast r (s.eng.pq.filter (· ≠ l)) →
    s.eng.nn.toNat = n.val →
    ∃ (nodes : Vector Node 511) (q : List NodeRef),
      exec .tbMerge s = .next { s with eng := { s.eng with
          node := nodes, pq := q, nn := s.eng.nn + 1 } }
        ∧ (∀ m, m ∈ q ↔ m = n ∨ (m ∈ s.eng.pq ∧ m ≠ l ∧ m ≠ r))
        ∧ ∀ m : NodeRef, nodes[m] =
          if m = n then
            { kind := .internal, sym := 0
              w := s.eng.node[l].w + s.eng.node[r].w
              minsym := BitVec.ofNat 8
                (min s.eng.node[l].minsym.toNat s.eng.node[r].minsym.toNat)
              left := some l, right := some r }
          else s.eng.node[m]

/-- 42_tree_builder.md R175 (c): for k ≥ 2 present symbols the leaves, k - 1 merges and the finish
complete, with 2k - 1 nodes and a root that holds a full tree with exactly one leaf for each present
symbol, of its weight, and depth at most k - 1; nothing outside the builder's state changes. -/
def Obligations.TreeBuilderBuildsTheTree : Prop :=
  ∀ s : State, 2 ≤ s.eng.present.length → s.eng.freqSum < 2 ^ 64 →
    ∃ (u : State) (t : Tree), buildTree s = .ok () u
      ∧ u.eng.rootTree t ∧ t.full = true
      ∧ (∀ v w, (v, w) ∈ t.leaves ↔ v ∈ s.eng.present ∧ w = (s.eng.freqOf v).toNat)
      ∧ t.leaves.length = s.eng.present.length
      ∧ u.eng.nn.toNat = 2 * s.eng.present.length - 1
      ∧ t.depth ≤ s.eng.present.length - 1
      ∧ (∀ n, u.eng.root = some n → u.eng.node[n].w.toNat = s.eng.freqSum)
      ∧ u = { s with eng := { s.eng with
          node := u.eng.node, nn := u.eng.nn, pq := u.eng.pq, root := u.eng.root, k := u.eng.k } }

/-- 43_code_generator.md R190: with a tree at the root every leaf's symbol gets its path as codeword
and every other symbol none; with no root every symbol has none. Nothing else changes. -/
def Obligations.CgWalkAssignsPaths : Prop :=
  ∀ s : State,
    (∀ t : Tree, s.eng.rootTree t → ∃ (lens : Vector Byte 256) (pats : Vector Pattern 256),
      exec .cgWalk s = .next { s with eng := { s.eng with
          codelen := lens, codepat := pats, cgstack := [] } }
        ∧ (∀ v path, (v, path) ∈ t.codes →
          lens[symIdx v].toNat = path.length
            ∧ ∀ q < path.length, pats[symIdx v].getLsbD (path.length - 1 - q) = path.getD q false)
        ∧ ∀ v, v ∉ t.leaves.map Prod.fst → lens[symIdx v] = 0 ∧ pats[symIdx v] = 0)
    ∧ (s.eng.root = none → ∃ (lens : Vector Byte 256) (pats : Vector Pattern 256),
      exec .cgWalk s = .next { s with eng := { s.eng with codelen := lens, codepat := pats } }
        ∧ ∀ v : Fin 256, lens[v] = 0 ∧ pats[v] = 0)

/-- 43_code_generator.md R191 (c): after the walk of a tree no codeword is a prefix of another
symbol's. -/
def Obligations.CodewordsArePrefixFree : Prop :=
  ∀ (s u : State) (t : Tree), s.eng.rootTree t → exec .cgWalk s = .next u →
    ∀ v ∈ t.leaves.map Prod.fst, ∀ w ∈ t.leaves.map Prod.fst, v ≠ w →
      ¬ (u.eng.codeword v) <+: (u.eng.codeword w)

/-! ### The bitstream -/

/-- 44_bitstream.md R210, R214: opening a writer and opening a reader. -/
def Obligations.BitstreamsOpen : Prop :=
  ∀ (s : State) (base : DWord) (n : Word),
    exec (.bwInit base) s = .next { s with eng := { s.eng with
        acc := 0, nacc := 0, nbits := 0, wbase := base, wpos := 0 } }
    ∧ exec (.brInit base n) s = .next { s with eng := { s.eng with
        rbase := base, rpos := 0, bitlen := n } }

/-- 44_bitstream.md R211, R212: the bits join the waiting ones, MSB first; every byte they complete
is written, once, at its address, and nothing else changes. -/
def Obligations.BitWriterPacksBits : Prop :=
  ∀ (s : State) (i : Instr) (bs : List Bool),
    ((∃ b, i = .bwPutBit b ∧ bs = [b]) ∨ (∃ v, i = .bwWriteBits v ∧ bs = s.eng.codeword v)) →
    Memory.wf s.mem = true → s.eng.accClean → s.bitsWritable bs →
    ∃ (m : List Host.Cell) (log : List BusAccess),
      exec i s = .next { s with
          mem := m, busLog := log ++ s.busLog, eng := s.eng.afterBits bs }
        ∧ s.bitsWritten bs m log

/-- 44_bitstream.md R211, R212 with 20_memory.md R73, R74 and 60_exceptions.md R347: the write of a
completed byte beyond the output range raises `WRITE_BOUND`, and one the platform answers with an
error raises `WRITE_FAULT`; the bytes completed before it are written and no other byte changes. That
`s.nacc` is then left at 8 is the model's choice (log entry 15). -/
def Obligations.BitWriterWriteErrors : Prop :=
  ∀ s : State,
    (∀ b : Bool, s.eng.nacc = 7 → s.unwritable s.eng.writeAddr →
      exec (.bwPutBit b) s = .next ({ s with eng := { s.eng with
        acc := s.eng.acc ||| (if b then 1 else 0)
        nacc := 8, nbits := s.eng.nbits + 1 } }.writeFailed s.eng.writeAddr))
    ∧ ∀ (v : Byte) (q : Nat), Memory.wf s.mem = true → s.eng.accClean →
      s.byteFails (s.eng.codeword v) q →
      ∃ (m : List Host.Cell) (log : List BusAccess),
        exec (.bwWriteBits v) s = .next ({ s with
            mem := m, busLog := log ++ s.busLog
            eng := s.eng.fullByte (s.eng.codeword v) q }.writeFailed (s.eng.writeAddr + q))
          ∧ s.bitsWritten ((s.eng.codeword v).take (s.eng.bitsBefore q)) m log

/-- 44_bitstream.md R213: the partial byte is written, zero padded (after bits that the writer put),
and the exact bit count and the byte count are returned (in the model's own latch, log entry 7); its
write can raise `WRITE_BOUND` or `WRITE_FAULT` (20_memory.md R73, R74), and then nothing is written. -/
def Obligations.BwFinishFlushes : Prop :=
  ∀ s : State,
    (s.eng.nacc = 0 →
      exec .bwFinish s = .next { s with eng := { s.eng with
        ret := .finish s.eng.nbits s.eng.wpos } })
    ∧ (0 < s.eng.nacc.toNat → Memory.wf s.mem = true → s.writable s.eng.writeAddr →
      ∃ m : List Host.Cell,
        exec .bwFinish s = .next { s with
            mem := m, busLog := .write s.eng.writeAddr s.eng.acc :: s.busLog
            eng := { s.eng with
              acc := 0, nacc := 0, wpos := s.eng.wpos + 1
              ret := .finish s.eng.nbits (s.eng.wpos + 1) } }
          ∧ (∀ a, Memory.read m a =
            if a = s.eng.writeAddr then s.eng.acc else Memory.read s.mem a)
          ∧ (s.eng.accClean →
            Memory.read m s.eng.writeAddr = packByte s.eng.waiting
              ∧ ∀ q < 8, s.eng.nacc.toNat ≤ q →
                (Memory.read m s.eng.writeAddr).getLsbD (7 - q) = false))
    ∧ (0 < s.eng.nacc.toNat → s.unwritable s.eng.writeAddr →
      exec .bwFinish s = .next (s.writeFailed s.eng.writeAddr))

/-- 44_bitstream.md R215: the next bit, MSB first, or `READ_PAST_END` at the declared count, or the
`READ_FAULT` of the platform. -/
def Obligations.BrReadBitReturnsBit : Prop :=
  ∀ (s : State) (a : Nat), a = s.eng.rbase.toNat + s.eng.rpos.toNat / 8 →
    (s.eng.bitlen.toNat ≤ s.eng.rpos.toNat →
      exec .brReadBit s = .next (s.failed 2 0x0A s.eng.rpos))
    ∧ (s.eng.rpos.toNat < s.eng.bitlen.toNat → s.readable a →
      exec .brReadBit s = .next { s with
        busLog := .read a (Memory.read s.mem a) :: s.busLog
        eng := { s.eng with
          rpos := s.eng.rpos + 1
          ret := .bit ((Memory.read s.mem a).getLsbD (7 - s.eng.rpos.toNat % 8)) } })
    ∧ (s.eng.rpos.toNat < s.eng.bitlen.toNat → a < 2 ^ 64 → s.plat.readFaults a = true →
      exec .brReadBit s = .next
        ({ s with busLog := .readError a :: s.busLog }.failed 7 0x30 (BitVec.ofNat 64 a)))

/-- 44_bitstream.md R216: what the writer packs, the reader returns in order, and one more read
raises `READ_PAST_END`. -/
def Obligations.ReaderInvertsWriter : Prop :=
  ∀ (s : State) (base : DWord) (bs : List Bool),
    Memory.wf s.mem = true → bs.length < 2 ^ 32 →
    (∀ q < (bs.length + 7) / 8,
      s.writable (base.toNat + q) ∧ s.plat.readFaults (base.toNat + q) = false) →
    ∃ u w x : State,
      ((bwPutBits bs (s.setEng (s.eng.bwInit base))).bind fun _ s => bwFinish s) = .ok () u
        ∧ u.eng.nbits.toNat = bs.length ∧ u.eng.wpos.toNat = (bs.length + 7) / 8
        ∧ readBits bs.length (u.setEng (u.eng.brInit base (BitVec.ofNat 32 bs.length))) = .ok bs w
        ∧ brReadBit w = .raised x ∧ x.regs.errCode = 2 ∧ x.regs.errSub = 0x0A
        ∧ x.regs.errInfo.toNat = bs.length

/-! ### The encoder -/

/-- 45_encoder.md R245: the exact bit total and the container size, each checked before any write. -/
def Obligations.EHeaderSizeChecks : Prop :=
  ∀ (s : State) (total size : Nat),
    total = ((List.range 256).map fun v => (s.eng.freq.toList.getD v 0).toNat
      * (s.eng.codelen.toList.getD v 0).toNat).sum →
    size = 18 + 5 * s.eng.k.toNat + (total + 7) / 8 →
    (2 ^ 32 - 1 < total →
      exec .eHeaderSize s = .next
        ({ s with eng := { s.eng with total := BitVec.ofNat 64 total } }.failed 4 0x10
          (BitVec.ofNat 64 total)))
    ∧ (total ≤ 2 ^ 32 - 1 → s.eng.cap.toNat < size →
      exec .eHeaderSize s = .next
        ({ s with eng := { s.eng with
          total := BitVec.ofNat 64 total
          hsize := BitVec.ofNat 64 (18 + 5 * s.eng.k.toNat)
          csize := BitVec.ofNat 64 size } }.failed 5 0x11 (BitVec.ofNat 64 size)))
    ∧ (total ≤ 2 ^ 32 - 1 → size ≤ s.eng.cap.toNat →
      exec .eHeaderSize s = .next { s with eng := { s.eng with
        total := BitVec.ofNat 64 total
        hsize := BitVec.ofNat 64 (18 + 5 * s.eng.k.toNat)
        csize := BitVec.ofNat 64 size
        hpos := 0, phase := 1 } })

/-- 45_encoder.md R246, 30_encoding.md R94: the header's bytes, field by field. -/
def Obligations.HeaderBytesLayout : Prop :=
  ∀ g : Engine, (∀ v, (g.freqOf v).toNat < 2 ^ 32) → g.total.toNat < 2 ^ 32 →
    (headerBytes g).length = 18 + 5 * g.present.length
      ∧ (headerBytes g).take 4 = [0x48, 0x55, 0x46, 0x31]
      ∧ leNat (((headerBytes g).drop 4).take 8) = g.len.toNat
      ∧ leNat (((headerBytes g).drop 12).take 2) = g.k.toNat
      ∧ (∀ e v, g.present[e]? = some v →
        (headerBytes g)[14 + 5 * e]? = some v
          ∧ leNat (((headerBytes g).drop (15 + 5 * e)).take 4) = (g.freqOf v).toNat)
      ∧ leNat ((headerBytes g).drop (14 + 5 * g.present.length)) = g.total.toNat

/-- 45_encoder.md R246: one header byte is written; after the last one the writer opens behind the
header and the second pass begins. A write that fails is `WRITE_BOUND` or `WRITE_FAULT`
(60_exceptions.md R343 (5)). -/
def Obligations.EHeaderByteWritesOne : Prop :=
  ∀ (s : State) (a : Nat) (b : Byte), a = s.eng.dst.toNat + s.eng.hpos.toNat →
    (headerBytes s.eng)[s.eng.hpos.toNat]? = some b →
    (Memory.wf s.mem = true → s.writable a →
      ∃ m : List Host.Cell,
        (∀ c, Memory.read m c = if c = a then b else Memory.read s.mem c)
        ∧ (s.eng.hpos + 1 ≠ s.eng.hsize →
          exec .eHeaderByte s = .next { s with
            mem := m, busLog := .write a b :: s.busLog
            eng := { s.eng with hpos := s.eng.hpos + 1 } })
        ∧ (s.eng.hpos + 1 = s.eng.hsize →
          exec .eHeaderByte s = .next { s with
            mem := m, busLog := .write a b :: s.busLog
            eng := { s.eng with
              hpos := s.eng.hpos + 1, i := 0, fsm := .ePayload, phase := 0
              acc := 0, nacc := 0, nbits := 0, wbase := s.eng.dst + s.eng.hsize, wpos := 0 } }))
    ∧ (s.unwritable a → exec .eHeaderByte s = .next (s.writeFailed a))

/-- 45_encoder.md R247, R248: the codeword of one input byte goes to the writer; after the last byte
the partial byte is flushed and the command completes. A read that fails is `READ_FAULT`, a write that
fails `WRITE_BOUND` or `WRITE_FAULT`, after the accesses before it (60_exceptions.md R343 (6), R347).
That `PAYLOAD_BITS` is the bit count cut to 32 bits is log entry 14, and that a failed byte leaves
`s.nacc` at 8 is log entry 15. -/
def Obligations.EPayloadStepEncodesOrCompletes : Prop :=
  ∀ (s : State) (a : Nat), a = s.eng.src.toNat + s.eng.i.toNat → Memory.wf s.mem = true →
    s.eng.accClean →
    (s.eng.i.toNat < s.eng.len.toNat → s.readable a →
      s.bitsWritable (s.eng.codeword (Memory.read s.mem a)) →
      ∃ (m : List Host.Cell) (log : List BusAccess),
        exec .ePayloadStep s = .next { s with
            mem := m, busLog := log ++ .read a (Memory.read s.mem a) :: s.busLog
            eng := { s.eng.afterBits (s.eng.codeword (Memory.read s.mem a)) with
              i := s.eng.i + 1 } }
          ∧ s.bitsWritten (s.eng.codeword (Memory.read s.mem a)) m log)
    ∧ (s.eng.len.toNat ≤ s.eng.i.toNat → s.eng.nacc = 0 →
      exec .ePayloadStep s = .next { s with
        regs := { s.regs with
          outLen := s.eng.hsize + s.eng.wpos, payloadBits := s.eng.nbits.setWidth 32
          symbols := s.eng.k, done := true }
        eng := { s.eng with fsm := .idle, phase := 0 } })
    ∧ (s.eng.len.toNat ≤ s.eng.i.toNat → 0 < s.eng.nacc.toNat → s.writable s.eng.writeAddr →
      ∃ m : List Host.Cell,
        exec .ePayloadStep s = .next { s with
            mem := m, busLog := .write s.eng.writeAddr s.eng.acc :: s.busLog
            regs := { s.regs with
              outLen := s.eng.hsize + (s.eng.wpos + 1), payloadBits := s.eng.nbits.setWidth 32
              symbols := s.eng.k, done := true }
            eng := { s.eng with
              acc := 0, nacc := 0, wpos := s.eng.wpos + 1, fsm := .idle, phase := 0 } }
          ∧ ∀ c, Memory.read m c =
            if c = s.eng.writeAddr then s.eng.acc else Memory.read s.mem c)
    ∧ (s.eng.i.toNat < s.eng.len.toNat → s.unreadable a →
      exec .ePayloadStep s = .next (s.readFailed a))
    ∧ (∀ (bs : List Bool) (q : Nat), s.eng.i.toNat < s.eng.len.toNat → s.readable a →
      bs = s.eng.codeword (Memory.read s.mem a) → s.byteFails bs q →
      ∃ (m : List Host.Cell) (log : List BusAccess),
        exec .ePayloadStep s = .next ({ s with
            mem := m, busLog := log ++ BusAccess.read a (Memory.read s.mem a) :: s.busLog
            eng := s.eng.fullByte bs q }.writeFailed (s.eng.writeAddr + q))
          ∧ s.bitsWritten (bs.take (s.eng.bitsBefore q)) m log)
    ∧ (s.eng.len.toNat ≤ s.eng.i.toNat → 0 < s.eng.nacc.toNat → s.unwritable s.eng.writeAddr →
      exec .ePayloadStep s = .next (s.writeFailed s.eng.writeAddr))

/-! ### The decoder -/

/-- 46_decoder.md R272: each header field that fits and passes its checks, phase by phase. -/
def Obligations.DHeaderFieldAcceptsField : Prop :=
  ∀ s : State,
    (s.eng.phase = 0 → 4 ≤ s.eng.len.toNat → (∀ q < 4, s.readable (s.eng.src.toNat + q)) →
      bytesAt s.mem s.eng.src.toNat 4 = [0x48, 0x55, 0x46, 0x31] →
      exec .dHeaderField s = .next { s with
        busLog := readLog s.mem s.eng.src.toNat 4 ++ s.busLog
        eng := { s.eng with phase := 1 } })
    ∧ (s.eng.phase = 1 → 12 ≤ s.eng.len.toNat →
      (∀ q < 8, s.readable (s.eng.src.toNat + 4 + q)) →
      exec .dHeaderField s = .next { s with
        busLog := readLog s.mem (s.eng.src.toNat + 4) 8 ++ s.busLog
        eng := { s.eng with
          origlen := BitVec.ofNat 64 (leNat (bytesAt s.mem (s.eng.src.toNat + 4) 8))
          phase := 2 } })
    ∧ (s.eng.phase = 2 → 14 ≤ s.eng.len.toNat →
      (∀ q < 2, s.readable (s.eng.src.toNat + 12 + q)) →
      leNat (bytesAt s.mem (s.eng.src.toNat + 12) 2) ≤ 256 →
      exec .dHeaderField s = .next { s with
        busLog := readLog s.mem (s.eng.src.toNat + 12) 2 ++ s.busLog
        eng := { s.eng with
          k := BitVec.ofNat 9 (leNat (bytesAt s.mem (s.eng.src.toNat + 12) 2))
          e := 0, sum := 0, phase := 3 } })
    ∧ (∀ (a : Nat) (v : Byte) (f : Nat), s.eng.phase = 3 → s.eng.e.toNat < s.eng.k.toNat →
      a = s.eng.src.toNat + (14 + 5 * s.eng.e.toNat) →
      14 + 5 * s.eng.e.toNat + 5 ≤ s.eng.len.toNat → (∀ q < 5, s.readable (a + q)) →
      v = Memory.read s.mem a → f = leNat (bytesAt s.mem (a + 1) 4) →
      s.eng.freqOf v = 0 → f ≠ 0 → ∃ t : Vector DWord 256,
        exec .dHeaderField s = .next { s with
            busLog := readLog s.mem a 5 ++ s.busLog
            eng := { s.eng with
              freq := t, sum := s.eng.sum + BitVec.ofNat 64 f, e := s.eng.e + 1 } }
          ∧ ∀ u : Byte, t[symIdx u] =
            if u = v then BitVec.ofNat 64 f else s.eng.freq[symIdx u])
    ∧ (s.eng.phase = 3 → s.eng.k.toNat ≤ s.eng.e.toNat →
      exec .dHeaderField s = .next { s with eng := { s.eng with phase := 4 } })
    ∧ (∀ off : Nat, s.eng.phase = 4 → off = 14 + 5 * s.eng.k.toNat →
      off + 4 ≤ s.eng.len.toNat → (∀ q < 4, s.readable (s.eng.src.toNat + off + q)) →
      exec .dHeaderField s = .next { s with
        busLog := readLog s.mem (s.eng.src.toNat + off) 4 ++ s.busLog
        eng := { s.eng with
          bitlen := BitVec.ofNat 32 (leNat (bytesAt s.mem (s.eng.src.toNat + off) 4))
          hsize := BitVec.ofNat 64 (18 + 5 * s.eng.k.toNat), phase := 5 } })

/-- 46_decoder.md R272, 60_exceptions.md R344 (2 to 6), R347: the field that does not fit is reported
before it is read; then the first byte of it whose read fails, with the bytes before that one read;
then the checks of the magic, of k, and of a repeated symbol before a zero frequency. -/
def Obligations.DHeaderFieldErrors : Prop :=
  ∀ s : State,
    (∀ off n : Nat, s.eng.headerField off n →
      (s.eng.len.toNat < off + n →
        exec .dHeaderField s = .next (s.failed 1 0x01 (BitVec.ofNat 64 off)))
      ∧ ∀ q < n, off + n ≤ s.eng.len.toNat →
        (∀ p < q, s.readable (s.eng.src.toNat + off + p)) →
        s.unreadable (s.eng.src.toNat + off + q) →
        exec .dHeaderField s = .next ({ s with
          busLog := readLog s.mem (s.eng.src.toNat + off) q ++ s.busLog }.readFailed
            (s.eng.src.toNat + off + q)))
    ∧ (s.eng.phase = 0 → 4 ≤ s.eng.len.toNat → (∀ q < 4, s.readable (s.eng.src.toNat + q)) →
      bytesAt s.mem s.eng.src.toNat 4 ≠ [0x48, 0x55, 0x46, 0x31] →
      exec .dHeaderField s = .next
        ({ s with busLog := readLog s.mem s.eng.src.toNat 4 ++ s.busLog }.failed 1 0x02
          (BitVec.ofNat 64 (leNat (bytesAt s.mem s.eng.src.toNat 4)))))
    ∧ (s.eng.phase = 2 → 14 ≤ s.eng.len.toNat →
      (∀ q < 2, s.readable (s.eng.src.toNat + 12 + q)) →
      256 < leNat (bytesAt s.mem (s.eng.src.toNat + 12) 2) →
      exec .dHeaderField s = .next
        ({ s with busLog := readLog s.mem (s.eng.src.toNat + 12) 2 ++ s.busLog }.failed 1 0x03
          (BitVec.ofNat 64 (leNat (bytesAt s.mem (s.eng.src.toNat + 12) 2)))))
    ∧ (∀ (off a : Nat), s.eng.phase = 3 → s.eng.e.toNat < s.eng.k.toNat →
      off = 14 + 5 * s.eng.e.toNat → a = s.eng.src.toNat + off →
      off + 5 ≤ s.eng.len.toNat → (∀ q < 5, s.readable (a + q)) →
      (s.eng.freqOf (Memory.read s.mem a) ≠ 0 →
        exec .dHeaderField s = .next
          ({ s with busLog := readLog s.mem a 5 ++ s.busLog }.failed 3 0x04
            (BitVec.ofNat 64 off)))
      ∧ (s.eng.freqOf (Memory.read s.mem a) = 0 → leNat (bytesAt s.mem (a + 1) 4) = 0 →
        exec .dHeaderField s = .next
          ({ s with busLog := readLog s.mem a 5 ++ s.busLog }.failed 3 0x05
            (BitVec.ofNat 64 off))))

/-- 46_decoder.md R273: the whole-header checks in their order; it answers a next state always. -/
def Obligations.DHeaderCheckInOrder : Prop :=
  ∀ (s : State) (p : Nat), p = s.eng.len.toNat - s.eng.hsize.toNat →
    exec .dHeaderCheck s = .next
      (if s.eng.sum ≠ s.eng.origlen then s.failed 1 0x06 s.eng.sum
       else if p < (s.eng.bitlen.toNat + 7) / 8 then s.failed 2 0x07 (BitVec.ofNat 64 p)
       else if (s.eng.bitlen.toNat + 7) / 8 < p then s.failed 1 0x08 (BitVec.ofNat 64 p)
       else if s.eng.cap.toNat < s.eng.origlen.toNat then s.failed 5 0x09 s.eng.origlen
       else { s with eng := { s.eng with fsm := .dRebuild, phase := 0 } })

/-- 46_decoder.md R274: the builder's steps by phase, then the reader and the walker start. -/
def Obligations.DRebuildStepByPhase : Prop :=
  ∀ s : State,
    (s.eng.phase = 0 → ∃ t, exec .tbLeaves s = .next t
      ∧ exec .dRebuildStep s = .next { t with eng := { t.eng with phase := 1 } })
    ∧ (s.eng.phase = 1 → s.eng.k = 0 →
      exec .dRebuildStep s = .next { s with eng := { s.eng with root := none, phase := 2 } })
    ∧ (∀ l, s.eng.phase = 1 → s.eng.k = 1 → s.eng.pq = [l] → ∃ t, exec .tbSingle s = .next t
      ∧ exec .dRebuildStep s = .next { t with eng := { t.eng with phase := 2 } })
    ∧ (s.eng.phase = 1 → 2 ≤ s.eng.k.toNat → 2 ≤ s.eng.pq.length → s.eng.pq.length ≤ 256 →
      s.eng.pq.Nodup → s.eng.nn.toNat < 511 → ∃ t, exec .tbMerge s = .next t
        ∧ exec .dRebuildStep s = .next t)
    ∧ (∀ n, s.eng.phase = 1 → 2 ≤ s.eng.k.toNat → s.eng.pq = [n] →
      exec .dRebuildStep s = .next { s with eng := { s.eng with
        pq := [], root := some n, phase := 2 } })
    ∧ (2 ≤ s.eng.phase.toNat →
      exec .dRebuildStep s = .next { s with eng := { s.eng with
        rbase := s.eng.src + s.eng.hsize, rpos := 0, j := 0, cur := s.eng.root
        fsm := .dPayload, phase := 0 } })

/-- 46_decoder.md R275: one bit moves the walk to a child; a leaf's symbol is written and the walk
restarts at the root; the placeholder and the end of the bits are errors, and so are a read and an
output write that fail (60_exceptions.md R344 (8)). -/
def Obligations.TwStepWalks : Prop :=
  ∀ (s : State) (c : NodeRef), s.eng.cur = some c →
    (s.eng.bitlen.toNat ≤ s.eng.rpos.toNat →
      exec .twStep s = .next (s.failed 2 0x0A s.eng.rpos))
    ∧ (∀ a : Nat, a = s.eng.rbase.toNat + s.eng.rpos.toNat / 8 → s.unreadable a →
      s.eng.rpos.toNat < s.eng.bitlen.toNat →
      exec .twStep s = .next (s.readFailed a))
    ∧ (∀ (a : Nat) (b : Bool) (log : List BusAccess),
      a = s.eng.rbase.toNat + s.eng.rpos.toNat / 8 → s.readable a →
      b = (Memory.read s.mem a).getLsbD (7 - s.eng.rpos.toNat % 8) →
      log = .read a (Memory.read s.mem a) :: s.busLog →
      s.eng.rpos.toNat < s.eng.bitlen.toNat →
      ((if b then s.eng.node[c].right else s.eng.node[c].left) = none →
        exec .twStep s = .next ({ s with
          busLog := log, eng := { s.eng with rpos := s.eng.rpos + 1 } }.failed 3 0x0B s.eng.rpos))
      ∧ (∀ n, (if b then s.eng.node[c].right else s.eng.node[c].left) = some n →
        (s.eng.node[n].kind = .internal →
          exec .twStep s = .next { s with
            busLog := log, eng := { s.eng with rpos := s.eng.rpos + 1, cur := some n } })
        ∧ (s.eng.node[n].kind = .leaf → Memory.wf s.mem = true →
          s.writable (s.eng.dst.toNat + s.eng.j.toNat) → ∃ m : List Host.Cell,
            exec .twStep s = .next { s with
                mem := m
                busLog := .write (s.eng.dst.toNat + s.eng.j.toNat) s.eng.node[n].sym :: log
                eng := { s.eng with
                  rpos := s.eng.rpos + 1, j := s.eng.j + 1, cur := s.eng.root } }
              ∧ ∀ d, Memory.read m d =
                if d = s.eng.dst.toNat + s.eng.j.toNat then s.eng.node[n].sym
                else Memory.read s.mem d)
        ∧ (s.eng.node[n].kind = .leaf → s.unwritable (s.eng.dst.toNat + s.eng.j.toNat) →
          exec .twStep s = .next ({ s with
            busLog := log, eng := { s.eng with rpos := s.eng.rpos + 1 } }.writeFailed
              (s.eng.dst.toNat + s.eng.j.toNat)))))

/-- 46_decoder.md R276 with 20_memory.md R73, R74: the symbol is written at the next output address;
outside the output range the write is refused with `WRITE_BOUND`, and a write the platform answers
with an error is `WRITE_FAULT`; then memory keeps every byte. -/
def Obligations.SoEmitWritesSymbol : Prop :=
  ∀ (s : State) (v : Byte) (a : Nat), a = s.eng.dst.toNat + s.eng.j.toNat →
    (Memory.wf s.mem = true → s.writable a → ∃ m : List Host.Cell,
      exec (.soEmit v) s = .next { s with
          mem := m, busLog := .write a v :: s.busLog, eng := { s.eng with j := s.eng.j + 1 } }
        ∧ ∀ d, Memory.read m d = if d = a then v else Memory.read s.mem d)
    ∧ (s.eng.cap.toNat ≤ s.eng.j.toNat →
      exec (.soEmit v) s = .next (s.failed 5 0x12 (BitVec.ofNat 64 a - s.eng.dst)))
    ∧ (s.eng.j.toNat < s.eng.cap.toNat → a < 2 ^ 64 → s.plat.writeFaults a = true →
      exec (.soEmit v) s = .next
        ({ s with busLog := .writeError a :: s.busLog }.failed 7 0x31 (BitVec.ofNat 64 a)))

/-- 46_decoder.md R277, R278: bits left over are an error, else the command completes with the
original length, the bit length and k. -/
def Obligations.DPayloadEndCompletes : Prop :=
  ∀ s : State, exec .dPayloadEnd s = .next
    (if s.eng.rpos.toNat ≠ s.eng.bitlen.toNat then s.failed 1 0x0C s.eng.rpos
     else { s with
       regs := { s.regs with
         outLen := s.eng.origlen, payloadBits := s.eng.bitlen, symbols := s.eng.k, done := true }
       eng := { s.eng with fsm := .idle, phase := 0 } })

/-! ### Where an instruction stops -/

/-- 70_reset_and_hazards.md R388 with 93_implementation_defined.md S-6: a command whose ranges pass
every check but are not ordinary memory is a fault (the place of the fault is log entry 9). -/
def Obligations.RangesMustBeOrdinaryMemory : Prop :=
  ∀ s : State, s.busy = false → s.regs.rangesOk → ¬ s.operandsOrdinary →
    (s.regs.srcLen.toNat ≤ 2 ^ 32 - 1 → exec .encode s = .fault .notOrdinaryMemory)
      ∧ exec .decode s = .fault .notOrdinaryMemory

/-- The forms that no decoded instruction and no engine step has, and the addresses that do not
exist, stop by name (93_implementation_defined.md S-7, S-11; 41_priority_queue.md R152). -/
def Obligations.ImpossibleFormsStopByName : Prop :=
  ∀ s : State,
    (∀ n, 256 ≤ s.eng.pq.length → exec (.pqInsert n) s = .fault .queueFull)
    ∧ (∀ w : Word, w = 0 ∨ w = 1 ∨ w = 2 → exec (.illegal w) s = .refused .illFormed)
    ∧ (∀ (off : Byte) (v : Word), off.toNat % 4 ≠ 0 →
      exec (.mmioRead off) s = .refused .unsupportedAccess
        ∧ exec (.mmioWriteIgnored off v) s = .refused .unsupportedAccess)
    ∧ (∀ (off : Byte) (v : Word), off.toNat % 4 = 0 →
      (off = 0x04 ∨ off = 0x08 ∨ off = 0x0C ∨ (0x18 ≤ off.toNat ∧ off.toNat < 0x38)) →
      exec (.mmioWriteIgnored off v) s = .refused .illFormed)
    ∧ (5 ≤ s.eng.phase.toNat → exec .dHeaderField s = .fault .noSuchPhase)
    ∧ ((headerBytes s.eng).length ≤ s.eng.hpos.toNat → exec .eHeaderByte s = .fault .headerIndex)
    ∧ (2 ^ 64 ≤ s.eng.src.toNat + s.eng.i.toNat → exec .ftCount s = .fault .noSuchAddress)
    ∧ (s.eng.rpos.toNat < s.eng.bitlen.toNat →
      2 ^ 64 ≤ s.eng.rbase.toNat + s.eng.rpos.toNat / 8 →
      exec .brReadBit s = .fault .noSuchAddress)
    ∧ (s.eng.pq = [] →
      exec .tbSingle s = .fault .queueEmpty ∧ exec .tbMerge s = .fault .queueEmpty
        ∧ exec .tbFinish s = .fault .queueEmpty)

/-! ### The whole machine -/

/-- 10_state.md R22: the only transitions of the FSM, over every step. -/
def Obligations.OnlyLegalTransitions : Prop :=
  ∀ s t : State, step s = .next t → s.eng.fsm.mayMove t.eng.fsm = true

/-- 20_memory.md R73, 10_state.md R34: whatever the instruction, no byte outside the latched output
range changes. -/
def Obligations.EngineWritesOnlyOutputRange : Prop :=
  ∀ (i : Instr) (s t : State) (a : Nat), exec i s = .next t →
    ¬(s.eng.dst.toNat ≤ a ∧ a < s.eng.dst.toNat + s.eng.cap.toNat) →
    Memory.read t.mem a = Memory.read s.mem a

/-- 20_memory.md R72: from a state that meets the invariant, every address the engine's step reads is
in the latched input range, and it writes only in the latched output range. -/
def Obligations.EngineAccessesInRange : Prop :=
  ∀ s t : State, Inv s → engineStep s = .next t →
    ∃ log : List BusAccess, t.busLog = log ++ s.busLog
      ∧ (∀ a v, BusAccess.read a v ∈ log ∨ BusAccess.readError a ∈ log →
        s.eng.src.toNat ≤ a ∧ a < s.eng.src.toNat + s.eng.len.toNat)
      ∧ (∀ a v, BusAccess.write a v ∈ log ∨ BusAccess.writeError a ∈ log →
        s.eng.dst.toNat ≤ a ∧ a < s.eng.dst.toNat + s.eng.cap.toNat)

/-- The reset state meets the invariant. The registers and the FSM state are R381's; the empty queue
and k in range rest on the model's choice for the storage that R383 leaves unspecified (log entry 2),
and memory with nothing listed on log entry 1. -/
def Obligations.ResetMeetsInvariant : Prop := Inv State.reset

/-- Every step keeps the invariant. After a reset input the queue and k are those of log entry 2. -/
def Obligations.StepKeepsInvariant : Prop :=
  ∀ s t : State, Inv s → step s = .next t → Inv t

/-- 70_reset_and_hazards.md R385: while busy, a store by another agent that touches either buffer is a
fault, as is a load from the output buffer (log entry 20); any other store to ordinary memory lands,
each byte at its address (30_encoding.md R110), and changes nothing else. A store past the last address
(20_memory.md R60) is a fault (log entry 13). That its bytes land together is log entry 31. -/
def Obligations.BuffersBelongToEngineWhileBusy : Prop :=
  (∀ (s : State) (addr : Nat) (bytes : List Byte) (rest : List Timed),
    s.inputs = ⟨0, .store addr bytes⟩ :: rest →
    (2 ^ 64 < addr + bytes.length → step s = .fault .noSuchAddress)
    ∧ (addr + bytes.length ≤ 2 ^ 64 → s.plat.ordinary addr bytes.length = true →
      (s.busy = true → ∀ a, addr ≤ a → a < addr + bytes.length →
        (s.eng.src.toNat ≤ a ∧ a < s.eng.src.toNat + s.eng.len.toNat)
          ∨ (s.eng.dst.toNat ≤ a ∧ a < s.eng.dst.toNat + s.eng.cap.toNat) →
        step s = .fault .bufferHazard)
      ∧ (Memory.wf s.mem = true →
        (s.busy = true → ∀ a, addr ≤ a → a < addr + bytes.length →
          (a < s.eng.src.toNat ∨ s.eng.src.toNat + s.eng.len.toNat ≤ a)
            ∧ (a < s.eng.dst.toNat ∨ s.eng.dst.toNat + s.eng.cap.toNat ≤ a)) →
        ∃ m : List Host.Cell, step s = .next { s with mem := m, inputs := rest }
          ∧ ∀ a, Memory.read m a =
            if addr ≤ a ∧ a < addr + bytes.length then bytes.getD (a - addr) 0
            else Memory.read s.mem a)))
  ∧ ∀ (s : State) (addr : DWord) (rest : List Timed), s.inputs = ⟨0, .load addr⟩ :: rest →
    s.plat.ordinary addr.toNat 1 = true → s.busy = true →
    s.eng.dst.toNat ≤ addr.toNat → addr.toNat < s.eng.dst.toNat + s.eng.cap.toNat →
    step s = .fault .bufferHazard

/-- 30_encoding.md R111, 47_host_interface.md R320: a poll reads its register once; it is over when
the condition holds, and otherwise comes again after the engine steps its next gap gives, or after one
when no gap is left (the record and the gaps are the model's own, log entries 8 and 19). -/
def Obligations.PollRepeatsItsRead : Prop :=
  ∀ (s : State) (off : Byte) (mask val : Word) (gaps : List Nat) (rest : List Timed),
    off.toNat % 4 = 0 → s.inputs = ⟨0, .poll off mask val gaps⟩ :: rest →
    step s = .next { s with
      hostLog := .reg off (readReg s off) :: s.hostLog
      inputs := if readReg s off &&& mask = val then rest
        else ⟨gaps.headD 1, .poll off mask val gaps.tail⟩ :: rest }
end

