-- ==== Sys2Proof/Laws/State.lean ====
section
/-! SUPPORT. What each named update of the state does to each field: one lemma a field, true by
definition, so that no later proof unfolds a record update. -/

namespace Sys2Proof.Machine

/-! ### Updates of `State` -/

@[simp] theorem State.setEng_regs (s : State) (g : Engine) : (s.setEng g).regs = s.regs := rfl
@[simp] theorem State.setEng_eng (s : State) (g : Engine) : (s.setEng g).eng = g := rfl
@[simp] theorem State.setEng_mem (s : State) (g : Engine) : (s.setEng g).mem = s.mem := rfl
@[simp] theorem State.setEng_plat (s : State) (g : Engine) : (s.setEng g).plat = s.plat := rfl
@[simp] theorem State.setEng_inputs (s : State) (g : Engine) : (s.setEng g).inputs = s.inputs := rfl
@[simp] theorem State.setEng_busLog (s : State) (g : Engine) : (s.setEng g).busLog = s.busLog := rfl
@[simp] theorem State.setEng_hostLog (s : State) (g : Engine) : (s.setEng g).hostLog = s.hostLog := rfl
@[simp] theorem State.setRegs_regs (s : State) (r : Regs) : (s.setRegs r).regs = r := rfl
@[simp] theorem State.setRegs_eng (s : State) (r : Regs) : (s.setRegs r).eng = s.eng := rfl
@[simp] theorem State.setRegs_mem (s : State) (r : Regs) : (s.setRegs r).mem = s.mem := rfl
@[simp] theorem State.setRegs_plat (s : State) (r : Regs) : (s.setRegs r).plat = s.plat := rfl
@[simp] theorem State.setRegs_inputs (s : State) (r : Regs) : (s.setRegs r).inputs = s.inputs := rfl
@[simp] theorem State.setRegs_busLog (s : State) (r : Regs) : (s.setRegs r).busLog = s.busLog := rfl
@[simp] theorem State.setRegs_hostLog (s : State) (r : Regs) : (s.setRegs r).hostLog = s.hostLog := rfl
@[simp] theorem State.setInputs_regs (s : State) (l : List Timed) : (s.setInputs l).regs = s.regs := rfl
@[simp] theorem State.setInputs_eng (s : State) (l : List Timed) : (s.setInputs l).eng = s.eng := rfl
@[simp] theorem State.setInputs_mem (s : State) (l : List Timed) : (s.setInputs l).mem = s.mem := rfl
@[simp] theorem State.setInputs_plat (s : State) (l : List Timed) : (s.setInputs l).plat = s.plat := rfl
@[simp] theorem State.setInputs_inputs (s : State) (l : List Timed) : (s.setInputs l).inputs = l := rfl
@[simp] theorem State.setInputs_busLog (s : State) (l : List Timed) : (s.setInputs l).busLog = s.busLog := rfl
@[simp] theorem State.setInputs_hostLog (s : State) (l : List Timed) : (s.setInputs l).hostLog = s.hostLog := rfl
@[simp] theorem State.logBus_regs (s : State) (x : BusAccess) : (s.logBus x).regs = s.regs := rfl
@[simp] theorem State.logBus_eng (s : State) (x : BusAccess) : (s.logBus x).eng = s.eng := rfl
@[simp] theorem State.logBus_mem (s : State) (x : BusAccess) : (s.logBus x).mem = s.mem := rfl
@[simp] theorem State.logBus_plat (s : State) (x : BusAccess) : (s.logBus x).plat = s.plat := rfl
@[simp] theorem State.logBus_inputs (s : State) (x : BusAccess) : (s.logBus x).inputs = s.inputs := rfl
@[simp] theorem State.logBus_busLog (s : State) (x : BusAccess) : (s.logBus x).busLog = x :: s.busLog := rfl
@[simp] theorem State.logBus_hostLog (s : State) (x : BusAccess) : (s.logBus x).hostLog = s.hostLog := rfl
@[simp] theorem State.logHost_regs (s : State) (x : HostObs) : (s.logHost x).regs = s.regs := rfl
@[simp] theorem State.logHost_eng (s : State) (x : HostObs) : (s.logHost x).eng = s.eng := rfl
@[simp] theorem State.logHost_mem (s : State) (x : HostObs) : (s.logHost x).mem = s.mem := rfl
@[simp] theorem State.logHost_plat (s : State) (x : HostObs) : (s.logHost x).plat = s.plat := rfl
@[simp] theorem State.logHost_inputs (s : State) (x : HostObs) : (s.logHost x).inputs = s.inputs := rfl
@[simp] theorem State.logHost_busLog (s : State) (x : HostObs) : (s.logHost x).busLog = s.busLog := rfl
@[simp] theorem State.logHost_hostLog (s : State) (x : HostObs) : (s.logHost x).hostLog = x :: s.hostLog := rfl
@[simp] theorem State.store_regs (s : State) (a : Nat) (v : Byte) : (s.store a v).regs = s.regs := rfl
@[simp] theorem State.store_eng (s : State) (a : Nat) (v : Byte) : (s.store a v).eng = s.eng := rfl
@[simp] theorem State.store_mem (s : State) (a : Nat) (v : Byte) : (s.store a v).mem = Memory.write s.mem a v := rfl
@[simp] theorem State.store_plat (s : State) (a : Nat) (v : Byte) : (s.store a v).plat = s.plat := rfl
@[simp] theorem State.store_inputs (s : State) (a : Nat) (v : Byte) : (s.store a v).inputs = s.inputs := rfl
@[simp] theorem State.store_busLog (s : State) (a : Nat) (v : Byte) : (s.store a v).busLog = .write a v :: s.busLog := rfl
@[simp] theorem State.store_hostLog (s : State) (a : Nat) (v : Byte) : (s.store a v).hostLog = s.hostLog := rfl
@[simp] theorem State.errorEntry_regs (s : State) (e : ErrSub) (info : DWord) : (s.errorEntry e info).regs = s.regs.report e info := rfl
@[simp] theorem State.errorEntry_eng (s : State) (e : ErrSub) (info : DWord) : (s.errorEntry e info).eng = s.eng.goto .idle := rfl
@[simp] theorem State.errorEntry_mem (s : State) (e : ErrSub) (info : DWord) : (s.errorEntry e info).mem = s.mem := rfl
@[simp] theorem State.errorEntry_plat (s : State) (e : ErrSub) (info : DWord) : (s.errorEntry e info).plat = s.plat := rfl
@[simp] theorem State.errorEntry_inputs (s : State) (e : ErrSub) (info : DWord) : (s.errorEntry e info).inputs = s.inputs := rfl
@[simp] theorem State.errorEntry_busLog (s : State) (e : ErrSub) (info : DWord) : (s.errorEntry e info).busLog = s.busLog := rfl
@[simp] theorem State.errorEntry_hostLog (s : State) (e : ErrSub) (info : DWord) : (s.errorEntry e info).hostLog = s.hostLog := rfl
@[simp] theorem State.complete_regs (s : State) (n : DWord) (b : Word) : (s.complete n b).regs = s.regs.finished n b s.eng.k := rfl
@[simp] theorem State.complete_eng (s : State) (n : DWord) (b : Word) : (s.complete n b).eng = s.eng.goto .idle := rfl
@[simp] theorem State.complete_mem (s : State) (n : DWord) (b : Word) : (s.complete n b).mem = s.mem := rfl
@[simp] theorem State.complete_plat (s : State) (n : DWord) (b : Word) : (s.complete n b).plat = s.plat := rfl
@[simp] theorem State.complete_inputs (s : State) (n : DWord) (b : Word) : (s.complete n b).inputs = s.inputs := rfl
@[simp] theorem State.complete_busLog (s : State) (n : DWord) (b : Word) : (s.complete n b).busLog = s.busLog := rfl
@[simp] theorem State.complete_hostLog (s : State) (n : DWord) (b : Word) : (s.complete n b).hostLog = s.hostLog := rfl
@[simp] theorem State.acknowledge_regs (s : State) (v : Word) : (s.acknowledge v).regs = s.regs.w1c v := rfl
@[simp] theorem State.acknowledge_eng (s : State) (v : Word) : (s.acknowledge v).eng = s.eng := rfl
@[simp] theorem State.acknowledge_mem (s : State) (v : Word) : (s.acknowledge v).mem = s.mem := rfl
@[simp] theorem State.acknowledge_plat (s : State) (v : Word) : (s.acknowledge v).plat = s.plat := rfl
@[simp] theorem State.acknowledge_inputs (s : State) (v : Word) : (s.acknowledge v).inputs = s.inputs := rfl
@[simp] theorem State.acknowledge_busLog (s : State) (v : Word) : (s.acknowledge v).busLog = s.busLog := rfl
@[simp] theorem State.acknowledge_hostLog (s : State) (v : Word) : (s.acknowledge v).hostLog = s.hostLog := rfl
@[simp] theorem State.reject_regs (s : State) : (s.reject).regs = s.regs.setRej := rfl
@[simp] theorem State.reject_eng (s : State) : (s.reject).eng = s.eng := rfl
@[simp] theorem State.reject_mem (s : State) : (s.reject).mem = s.mem := rfl
@[simp] theorem State.reject_plat (s : State) : (s.reject).plat = s.plat := rfl
@[simp] theorem State.reject_inputs (s : State) : (s.reject).inputs = s.inputs := rfl
@[simp] theorem State.reject_busLog (s : State) : (s.reject).busLog = s.busLog := rfl
@[simp] theorem State.reject_hostLog (s : State) : (s.reject).hostLog = s.hostLog := rfl
@[simp] theorem State.latched_regs (s : State) (op : BitVec 4) : (s.latched op).regs = s.regs.clearReport := rfl
@[simp] theorem State.latched_eng (s : State) (op : BitVec 4) : (s.latched op).eng = s.eng.latch op s.regs := rfl
@[simp] theorem State.latched_mem (s : State) (op : BitVec 4) : (s.latched op).mem = s.mem := rfl
@[simp] theorem State.latched_plat (s : State) (op : BitVec 4) : (s.latched op).plat = s.plat := rfl
@[simp] theorem State.latched_inputs (s : State) (op : BitVec 4) : (s.latched op).inputs = s.inputs := rfl
@[simp] theorem State.latched_busLog (s : State) (op : BitVec 4) : (s.latched op).busLog = s.busLog := rfl
@[simp] theorem State.latched_hostLog (s : State) (op : BitVec 4) : (s.latched op).hostLog = s.hostLog := rfl
@[simp] theorem State.returns_regs (s : State) (x : MicroResult) : (s.returns x).regs = s.regs := rfl
@[simp] theorem State.returns_eng (s : State) (x : MicroResult) : (s.returns x).eng = s.eng.setRet x := rfl
@[simp] theorem State.returns_mem (s : State) (x : MicroResult) : (s.returns x).mem = s.mem := rfl
@[simp] theorem State.returns_plat (s : State) (x : MicroResult) : (s.returns x).plat = s.plat := rfl
@[simp] theorem State.returns_inputs (s : State) (x : MicroResult) : (s.returns x).inputs = s.inputs := rfl
@[simp] theorem State.returns_busLog (s : State) (x : MicroResult) : (s.returns x).busLog = s.busLog := rfl
@[simp] theorem State.returns_hostLog (s : State) (x : MicroResult) : (s.returns x).hostLog = s.hostLog := rfl
@[simp] theorem State.failed_regs (s : State) (c : BitVec 4) (sub : BitVec 8) (i : DWord) : (s.failed c sub i).regs = { s.regs with errCode := c, errSub := sub, errInfo := i, outLen := 0, payloadBits := 0, symbols := 0, done := false, err := true } := rfl
@[simp] theorem State.failed_eng (s : State) (c : BitVec 4) (sub : BitVec 8) (i : DWord) : (s.failed c sub i).eng = { s.eng with fsm := .idle, phase := 0 } := rfl
@[simp] theorem State.failed_mem (s : State) (c : BitVec 4) (sub : BitVec 8) (i : DWord) : (s.failed c sub i).mem = s.mem := rfl
@[simp] theorem State.failed_plat (s : State) (c : BitVec 4) (sub : BitVec 8) (i : DWord) : (s.failed c sub i).plat = s.plat := rfl
@[simp] theorem State.failed_inputs (s : State) (c : BitVec 4) (sub : BitVec 8) (i : DWord) : (s.failed c sub i).inputs = s.inputs := rfl
@[simp] theorem State.failed_busLog (s : State) (c : BitVec 4) (sub : BitVec 8) (i : DWord) : (s.failed c sub i).busLog = s.busLog := rfl
@[simp] theorem State.failed_hostLog (s : State) (c : BitVec 4) (sub : BitVec 8) (i : DWord) : (s.failed c sub i).hostLog = s.hostLog := rfl

/-! ### Updates of `Regs` -/

@[simp] theorem Regs.w1c_ie (r : Regs) (v : Word) : (r.w1c v).ie = r.ie := rfl
@[simp] theorem Regs.w1c_done (r : Regs) (v : Word) : (r.w1c v).done = (r.done && !v.getLsbD 1) := rfl
@[simp] theorem Regs.w1c_err (r : Regs) (v : Word) : (r.w1c v).err = (r.err && !v.getLsbD 2) := rfl
@[simp] theorem Regs.w1c_rej (r : Regs) (v : Word) : (r.w1c v).rej = (r.rej && !v.getLsbD 3) := rfl
@[simp] theorem Regs.w1c_errCode (r : Regs) (v : Word) : (r.w1c v).errCode = r.errCode := rfl
@[simp] theorem Regs.w1c_errSub (r : Regs) (v : Word) : (r.w1c v).errSub = r.errSub := rfl
@[simp] theorem Regs.w1c_errInfo (r : Regs) (v : Word) : (r.w1c v).errInfo = r.errInfo := rfl
@[simp] theorem Regs.w1c_srcAddr (r : Regs) (v : Word) : (r.w1c v).srcAddr = r.srcAddr := rfl
@[simp] theorem Regs.w1c_srcLen (r : Regs) (v : Word) : (r.w1c v).srcLen = r.srcLen := rfl
@[simp] theorem Regs.w1c_dstAddr (r : Regs) (v : Word) : (r.w1c v).dstAddr = r.dstAddr := rfl
@[simp] theorem Regs.w1c_dstCap (r : Regs) (v : Word) : (r.w1c v).dstCap = r.dstCap := rfl
@[simp] theorem Regs.w1c_outLen (r : Regs) (v : Word) : (r.w1c v).outLen = r.outLen := rfl
@[simp] theorem Regs.w1c_payloadBits (r : Regs) (v : Word) : (r.w1c v).payloadBits = r.payloadBits := rfl
@[simp] theorem Regs.w1c_symbols (r : Regs) (v : Word) : (r.w1c v).symbols = r.symbols := rfl
@[simp] theorem Regs.setCtrl_ie (r : Regs) (v : Word) : (r.setCtrl v).ie = v.getLsbD 0 := rfl
@[simp] theorem Regs.setCtrl_done (r : Regs) (v : Word) : (r.setCtrl v).done = r.done := rfl
@[simp] theorem Regs.setCtrl_err (r : Regs) (v : Word) : (r.setCtrl v).err = r.err := rfl
@[simp] theorem Regs.setCtrl_rej (r : Regs) (v : Word) : (r.setCtrl v).rej = r.rej := rfl
@[simp] theorem Regs.setCtrl_errCode (r : Regs) (v : Word) : (r.setCtrl v).errCode = r.errCode := rfl
@[simp] theorem Regs.setCtrl_errSub (r : Regs) (v : Word) : (r.setCtrl v).errSub = r.errSub := rfl
@[simp] theorem Regs.setCtrl_errInfo (r : Regs) (v : Word) : (r.setCtrl v).errInfo = r.errInfo := rfl
@[simp] theorem Regs.setCtrl_srcAddr (r : Regs) (v : Word) : (r.setCtrl v).srcAddr = r.srcAddr := rfl
@[simp] theorem Regs.setCtrl_srcLen (r : Regs) (v : Word) : (r.setCtrl v).srcLen = r.srcLen := rfl
@[simp] theorem Regs.setCtrl_dstAddr (r : Regs) (v : Word) : (r.setCtrl v).dstAddr = r.dstAddr := rfl
@[simp] theorem Regs.setCtrl_dstCap (r : Regs) (v : Word) : (r.setCtrl v).dstCap = r.dstCap := rfl
@[simp] theorem Regs.setCtrl_outLen (r : Regs) (v : Word) : (r.setCtrl v).outLen = r.outLen := rfl
@[simp] theorem Regs.setCtrl_payloadBits (r : Regs) (v : Word) : (r.setCtrl v).payloadBits = r.payloadBits := rfl
@[simp] theorem Regs.setCtrl_symbols (r : Regs) (v : Word) : (r.setCtrl v).symbols = r.symbols := rfl
@[simp] theorem Regs.setRej_ie (r : Regs) : (r.setRej).ie = r.ie := rfl
@[simp] theorem Regs.setRej_done (r : Regs) : (r.setRej).done = r.done := rfl
@[simp] theorem Regs.setRej_err (r : Regs) : (r.setRej).err = r.err := rfl
@[simp] theorem Regs.setRej_rej (r : Regs) : (r.setRej).rej = true := rfl
@[simp] theorem Regs.setRej_errCode (r : Regs) : (r.setRej).errCode = r.errCode := rfl
@[simp] theorem Regs.setRej_errSub (r : Regs) : (r.setRej).errSub = r.errSub := rfl
@[simp] theorem Regs.setRej_errInfo (r : Regs) : (r.setRej).errInfo = r.errInfo := rfl
@[simp] theorem Regs.setRej_srcAddr (r : Regs) : (r.setRej).srcAddr = r.srcAddr := rfl
@[simp] theorem Regs.setRej_srcLen (r : Regs) : (r.setRej).srcLen = r.srcLen := rfl
@[simp] theorem Regs.setRej_dstAddr (r : Regs) : (r.setRej).dstAddr = r.dstAddr := rfl
@[simp] theorem Regs.setRej_dstCap (r : Regs) : (r.setRej).dstCap = r.dstCap := rfl
@[simp] theorem Regs.setRej_outLen (r : Regs) : (r.setRej).outLen = r.outLen := rfl
@[simp] theorem Regs.setRej_payloadBits (r : Regs) : (r.setRej).payloadBits = r.payloadBits := rfl
@[simp] theorem Regs.setRej_symbols (r : Regs) : (r.setRej).symbols = r.symbols := rfl
@[simp] theorem Regs.zeroResults_ie (r : Regs) : (r.zeroResults).ie = r.ie := rfl
@[simp] theorem Regs.zeroResults_done (r : Regs) : (r.zeroResults).done = r.done := rfl
@[simp] theorem Regs.zeroResults_err (r : Regs) : (r.zeroResults).err = r.err := rfl
@[simp] theorem Regs.zeroResults_rej (r : Regs) : (r.zeroResults).rej = r.rej := rfl
@[simp] theorem Regs.zeroResults_errCode (r : Regs) : (r.zeroResults).errCode = r.errCode := rfl
@[simp] theorem Regs.zeroResults_errSub (r : Regs) : (r.zeroResults).errSub = r.errSub := rfl
@[simp] theorem Regs.zeroResults_errInfo (r : Regs) : (r.zeroResults).errInfo = r.errInfo := rfl
@[simp] theorem Regs.zeroResults_srcAddr (r : Regs) : (r.zeroResults).srcAddr = r.srcAddr := rfl
@[simp] theorem Regs.zeroResults_srcLen (r : Regs) : (r.zeroResults).srcLen = r.srcLen := rfl
@[simp] theorem Regs.zeroResults_dstAddr (r : Regs) : (r.zeroResults).dstAddr = r.dstAddr := rfl
@[simp] theorem Regs.zeroResults_dstCap (r : Regs) : (r.zeroResults).dstCap = r.dstCap := rfl
@[simp] theorem Regs.zeroResults_outLen (r : Regs) : (r.zeroResults).outLen = 0 := rfl
@[simp] theorem Regs.zeroResults_payloadBits (r : Regs) : (r.zeroResults).payloadBits = 0 := rfl
@[simp] theorem Regs.zeroResults_symbols (r : Regs) : (r.zeroResults).symbols = 0 := rfl
@[simp] theorem Regs.report_ie (r : Regs) (e : ErrSub) (i : DWord) : (r.report e i).ie = r.ie := rfl
@[simp] theorem Regs.report_done (r : Regs) (e : ErrSub) (i : DWord) : (r.report e i).done = false := rfl
@[simp] theorem Regs.report_err (r : Regs) (e : ErrSub) (i : DWord) : (r.report e i).err = true := rfl
@[simp] theorem Regs.report_rej (r : Regs) (e : ErrSub) (i : DWord) : (r.report e i).rej = r.rej := rfl
@[simp] theorem Regs.report_errCode (r : Regs) (e : ErrSub) (i : DWord) : (r.report e i).errCode = e.kind.code := rfl
@[simp] theorem Regs.report_errSub (r : Regs) (e : ErrSub) (i : DWord) : (r.report e i).errSub = e.code := rfl
@[simp] theorem Regs.report_errInfo (r : Regs) (e : ErrSub) (i : DWord) : (r.report e i).errInfo = i := rfl
@[simp] theorem Regs.report_srcAddr (r : Regs) (e : ErrSub) (i : DWord) : (r.report e i).srcAddr = r.srcAddr := rfl
@[simp] theorem Regs.report_srcLen (r : Regs) (e : ErrSub) (i : DWord) : (r.report e i).srcLen = r.srcLen := rfl
@[simp] theorem Regs.report_dstAddr (r : Regs) (e : ErrSub) (i : DWord) : (r.report e i).dstAddr = r.dstAddr := rfl
@[simp] theorem Regs.report_dstCap (r : Regs) (e : ErrSub) (i : DWord) : (r.report e i).dstCap = r.dstCap := rfl
@[simp] theorem Regs.report_outLen (r : Regs) (e : ErrSub) (i : DWord) : (r.report e i).outLen = 0 := rfl
@[simp] theorem Regs.report_payloadBits (r : Regs) (e : ErrSub) (i : DWord) : (r.report e i).payloadBits = 0 := rfl
@[simp] theorem Regs.report_symbols (r : Regs) (e : ErrSub) (i : DWord) : (r.report e i).symbols = 0 := rfl
@[simp] theorem Regs.clearReport_ie (r : Regs) : (r.clearReport).ie = r.ie := rfl
@[simp] theorem Regs.clearReport_done (r : Regs) : (r.clearReport).done = false := rfl
@[simp] theorem Regs.clearReport_err (r : Regs) : (r.clearReport).err = false := rfl
@[simp] theorem Regs.clearReport_rej (r : Regs) : (r.clearReport).rej = r.rej := rfl
@[simp] theorem Regs.clearReport_errCode (r : Regs) : (r.clearReport).errCode = 0 := rfl
@[simp] theorem Regs.clearReport_errSub (r : Regs) : (r.clearReport).errSub = 0 := rfl
@[simp] theorem Regs.clearReport_errInfo (r : Regs) : (r.clearReport).errInfo = 0 := rfl
@[simp] theorem Regs.clearReport_srcAddr (r : Regs) : (r.clearReport).srcAddr = r.srcAddr := rfl
@[simp] theorem Regs.clearReport_srcLen (r : Regs) : (r.clearReport).srcLen = r.srcLen := rfl
@[simp] theorem Regs.clearReport_dstAddr (r : Regs) : (r.clearReport).dstAddr = r.dstAddr := rfl
@[simp] theorem Regs.clearReport_dstCap (r : Regs) : (r.clearReport).dstCap = r.dstCap := rfl
@[simp] theorem Regs.clearReport_outLen (r : Regs) : (r.clearReport).outLen = 0 := rfl
@[simp] theorem Regs.clearReport_payloadBits (r : Regs) : (r.clearReport).payloadBits = 0 := rfl
@[simp] theorem Regs.clearReport_symbols (r : Regs) : (r.clearReport).symbols = 0 := rfl
@[simp] theorem Regs.finished_ie (r : Regs) (n : DWord) (b : Word) (k : BitVec 9) : (r.finished n b k).ie = r.ie := rfl
@[simp] theorem Regs.finished_done (r : Regs) (n : DWord) (b : Word) (k : BitVec 9) : (r.finished n b k).done = true := rfl
@[simp] theorem Regs.finished_err (r : Regs) (n : DWord) (b : Word) (k : BitVec 9) : (r.finished n b k).err = r.err := rfl
@[simp] theorem Regs.finished_rej (r : Regs) (n : DWord) (b : Word) (k : BitVec 9) : (r.finished n b k).rej = r.rej := rfl
@[simp] theorem Regs.finished_errCode (r : Regs) (n : DWord) (b : Word) (k : BitVec 9) : (r.finished n b k).errCode = r.errCode := rfl
@[simp] theorem Regs.finished_errSub (r : Regs) (n : DWord) (b : Word) (k : BitVec 9) : (r.finished n b k).errSub = r.errSub := rfl
@[simp] theorem Regs.finished_errInfo (r : Regs) (n : DWord) (b : Word) (k : BitVec 9) : (r.finished n b k).errInfo = r.errInfo := rfl
@[simp] theorem Regs.finished_srcAddr (r : Regs) (n : DWord) (b : Word) (k : BitVec 9) : (r.finished n b k).srcAddr = r.srcAddr := rfl
@[simp] theorem Regs.finished_srcLen (r : Regs) (n : DWord) (b : Word) (k : BitVec 9) : (r.finished n b k).srcLen = r.srcLen := rfl
@[simp] theorem Regs.finished_dstAddr (r : Regs) (n : DWord) (b : Word) (k : BitVec 9) : (r.finished n b k).dstAddr = r.dstAddr := rfl
@[simp] theorem Regs.finished_dstCap (r : Regs) (n : DWord) (b : Word) (k : BitVec 9) : (r.finished n b k).dstCap = r.dstCap := rfl
@[simp] theorem Regs.finished_outLen (r : Regs) (n : DWord) (b : Word) (k : BitVec 9) : (r.finished n b k).outLen = n := rfl
@[simp] theorem Regs.finished_payloadBits (r : Regs) (n : DWord) (b : Word) (k : BitVec 9) : (r.finished n b k).payloadBits = b := rfl
@[simp] theorem Regs.finished_symbols (r : Regs) (n : DWord) (b : Word) (k : BitVec 9) : (r.finished n b k).symbols = k := rfl

/-! ### Updates of `Engine` -/

@[simp] theorem Engine.goto_fsm (g : Engine) (f : Fsm) : (g.goto f).fsm = f := rfl
@[simp] theorem Engine.goto_phase (g : Engine) (f : Fsm) : (g.goto f).phase = 0 := rfl
@[simp] theorem Engine.goto_op (g : Engine) (f : Fsm) : (g.goto f).op = g.op := rfl
@[simp] theorem Engine.goto_src (g : Engine) (f : Fsm) : (g.goto f).src = g.src := rfl
@[simp] theorem Engine.goto_len (g : Engine) (f : Fsm) : (g.goto f).len = g.len := rfl
@[simp] theorem Engine.goto_dst (g : Engine) (f : Fsm) : (g.goto f).dst = g.dst := rfl
@[simp] theorem Engine.goto_cap (g : Engine) (f : Fsm) : (g.goto f).cap = g.cap := rfl
@[simp] theorem Engine.goto_i (g : Engine) (f : Fsm) : (g.goto f).i = g.i := rfl
@[simp] theorem Engine.goto_k (g : Engine) (f : Fsm) : (g.goto f).k = g.k := rfl
@[simp] theorem Engine.goto_origlen (g : Engine) (f : Fsm) : (g.goto f).origlen = g.origlen := rfl
@[simp] theorem Engine.goto_bitlen (g : Engine) (f : Fsm) : (g.goto f).bitlen = g.bitlen := rfl
@[simp] theorem Engine.goto_total (g : Engine) (f : Fsm) : (g.goto f).total = g.total := rfl
@[simp] theorem Engine.goto_csize (g : Engine) (f : Fsm) : (g.goto f).csize = g.csize := rfl
@[simp] theorem Engine.goto_hsize (g : Engine) (f : Fsm) : (g.goto f).hsize = g.hsize := rfl
@[simp] theorem Engine.goto_sum (g : Engine) (f : Fsm) : (g.goto f).sum = g.sum := rfl
@[simp] theorem Engine.goto_j (g : Engine) (f : Fsm) : (g.goto f).j = g.j := rfl
@[simp] theorem Engine.goto_hpos (g : Engine) (f : Fsm) : (g.goto f).hpos = g.hpos := rfl
@[simp] theorem Engine.goto_e (g : Engine) (f : Fsm) : (g.goto f).e = g.e := rfl
@[simp] theorem Engine.goto_freq (g : Engine) (f : Fsm) : (g.goto f).freq = g.freq := rfl
@[simp] theorem Engine.goto_node (g : Engine) (f : Fsm) : (g.goto f).node = g.node := rfl
@[simp] theorem Engine.goto_nn (g : Engine) (f : Fsm) : (g.goto f).nn = g.nn := rfl
@[simp] theorem Engine.goto_pq (g : Engine) (f : Fsm) : (g.goto f).pq = g.pq := rfl
@[simp] theorem Engine.goto_root (g : Engine) (f : Fsm) : (g.goto f).root = g.root := rfl
@[simp] theorem Engine.goto_codelen (g : Engine) (f : Fsm) : (g.goto f).codelen = g.codelen := rfl
@[simp] theorem Engine.goto_codepat (g : Engine) (f : Fsm) : (g.goto f).codepat = g.codepat := rfl
@[simp] theorem Engine.goto_cgstack (g : Engine) (f : Fsm) : (g.goto f).cgstack = g.cgstack := rfl
@[simp] theorem Engine.goto_acc (g : Engine) (f : Fsm) : (g.goto f).acc = g.acc := rfl
@[simp] theorem Engine.goto_nacc (g : Engine) (f : Fsm) : (g.goto f).nacc = g.nacc := rfl
@[simp] theorem Engine.goto_nbits (g : Engine) (f : Fsm) : (g.goto f).nbits = g.nbits := rfl
@[simp] theorem Engine.goto_wbase (g : Engine) (f : Fsm) : (g.goto f).wbase = g.wbase := rfl
@[simp] theorem Engine.goto_wpos (g : Engine) (f : Fsm) : (g.goto f).wpos = g.wpos := rfl
@[simp] theorem Engine.goto_rbase (g : Engine) (f : Fsm) : (g.goto f).rbase = g.rbase := rfl
@[simp] theorem Engine.goto_rpos (g : Engine) (f : Fsm) : (g.goto f).rpos = g.rpos := rfl
@[simp] theorem Engine.goto_cur (g : Engine) (f : Fsm) : (g.goto f).cur = g.cur := rfl
@[simp] theorem Engine.goto_ret (g : Engine) (f : Fsm) : (g.goto f).ret = g.ret := rfl
@[simp] theorem Engine.setPhase_fsm (g : Engine) (p : BitVec 3) : (g.setPhase p).fsm = g.fsm := rfl
@[simp] theorem Engine.setPhase_phase (g : Engine) (p : BitVec 3) : (g.setPhase p).phase = p := rfl
@[simp] theorem Engine.setPhase_op (g : Engine) (p : BitVec 3) : (g.setPhase p).op = g.op := rfl
@[simp] theorem Engine.setPhase_src (g : Engine) (p : BitVec 3) : (g.setPhase p).src = g.src := rfl
@[simp] theorem Engine.setPhase_len (g : Engine) (p : BitVec 3) : (g.setPhase p).len = g.len := rfl
@[simp] theorem Engine.setPhase_dst (g : Engine) (p : BitVec 3) : (g.setPhase p).dst = g.dst := rfl
@[simp] theorem Engine.setPhase_cap (g : Engine) (p : BitVec 3) : (g.setPhase p).cap = g.cap := rfl
@[simp] theorem Engine.setPhase_i (g : Engine) (p : BitVec 3) : (g.setPhase p).i = g.i := rfl
@[simp] theorem Engine.setPhase_k (g : Engine) (p : BitVec 3) : (g.setPhase p).k = g.k := rfl
@[simp] theorem Engine.setPhase_origlen (g : Engine) (p : BitVec 3) : (g.setPhase p).origlen = g.origlen := rfl
@[simp] theorem Engine.setPhase_bitlen (g : Engine) (p : BitVec 3) : (g.setPhase p).bitlen = g.bitlen := rfl
@[simp] theorem Engine.setPhase_total (g : Engine) (p : BitVec 3) : (g.setPhase p).total = g.total := rfl
@[simp] theorem Engine.setPhase_csize (g : Engine) (p : BitVec 3) : (g.setPhase p).csize = g.csize := rfl
@[simp] theorem Engine.setPhase_hsize (g : Engine) (p : BitVec 3) : (g.setPhase p).hsize = g.hsize := rfl
@[simp] theorem Engine.setPhase_sum (g : Engine) (p : BitVec 3) : (g.setPhase p).sum = g.sum := rfl
@[simp] theorem Engine.setPhase_j (g : Engine) (p : BitVec 3) : (g.setPhase p).j = g.j := rfl
@[simp] theorem Engine.setPhase_hpos (g : Engine) (p : BitVec 3) : (g.setPhase p).hpos = g.hpos := rfl
@[simp] theorem Engine.setPhase_e (g : Engine) (p : BitVec 3) : (g.setPhase p).e = g.e := rfl
@[simp] theorem Engine.setPhase_freq (g : Engine) (p : BitVec 3) : (g.setPhase p).freq = g.freq := rfl
@[simp] theorem Engine.setPhase_node (g : Engine) (p : BitVec 3) : (g.setPhase p).node = g.node := rfl
@[simp] theorem Engine.setPhase_nn (g : Engine) (p : BitVec 3) : (g.setPhase p).nn = g.nn := rfl
@[simp] theorem Engine.setPhase_pq (g : Engine) (p : BitVec 3) : (g.setPhase p).pq = g.pq := rfl
@[simp] theorem Engine.setPhase_root (g : Engine) (p : BitVec 3) : (g.setPhase p).root = g.root := rfl
@[simp] theorem Engine.setPhase_codelen (g : Engine) (p : BitVec 3) : (g.setPhase p).codelen = g.codelen := rfl
@[simp] theorem Engine.setPhase_codepat (g : Engine) (p : BitVec 3) : (g.setPhase p).codepat = g.codepat := rfl
@[simp] theorem Engine.setPhase_cgstack (g : Engine) (p : BitVec 3) : (g.setPhase p).cgstack = g.cgstack := rfl
@[simp] theorem Engine.setPhase_acc (g : Engine) (p : BitVec 3) : (g.setPhase p).acc = g.acc := rfl
@[simp] theorem Engine.setPhase_nacc (g : Engine) (p : BitVec 3) : (g.setPhase p).nacc = g.nacc := rfl
@[simp] theorem Engine.setPhase_nbits (g : Engine) (p : BitVec 3) : (g.setPhase p).nbits = g.nbits := rfl
@[simp] theorem Engine.setPhase_wbase (g : Engine) (p : BitVec 3) : (g.setPhase p).wbase = g.wbase := rfl
@[simp] theorem Engine.setPhase_wpos (g : Engine) (p : BitVec 3) : (g.setPhase p).wpos = g.wpos := rfl
@[simp] theorem Engine.setPhase_rbase (g : Engine) (p : BitVec 3) : (g.setPhase p).rbase = g.rbase := rfl
@[simp] theorem Engine.setPhase_rpos (g : Engine) (p : BitVec 3) : (g.setPhase p).rpos = g.rpos := rfl
@[simp] theorem Engine.setPhase_cur (g : Engine) (p : BitVec 3) : (g.setPhase p).cur = g.cur := rfl
@[simp] theorem Engine.setPhase_ret (g : Engine) (p : BitVec 3) : (g.setPhase p).ret = g.ret := rfl
@[simp] theorem Engine.latch_fsm (g : Engine) (op : BitVec 4) (r : Regs) : (g.latch op r).fsm = g.fsm := rfl
@[simp] theorem Engine.latch_phase (g : Engine) (op : BitVec 4) (r : Regs) : (g.latch op r).phase = g.phase := rfl
@[simp] theorem Engine.latch_op (g : Engine) (op : BitVec 4) (r : Regs) : (g.latch op r).op = op := rfl
@[simp] theorem Engine.latch_src (g : Engine) (op : BitVec 4) (r : Regs) : (g.latch op r).src = r.srcAddr := rfl
@[simp] theorem Engine.latch_len (g : Engine) (op : BitVec 4) (r : Regs) : (g.latch op r).len = r.srcLen := rfl
@[simp] theorem Engine.latch_dst (g : Engine) (op : BitVec 4) (r : Regs) : (g.latch op r).dst = r.dstAddr := rfl
@[simp] theorem Engine.latch_cap (g : Engine) (op : BitVec 4) (r : Regs) : (g.latch op r).cap = r.dstCap := rfl
@[simp] theorem Engine.latch_i (g : Engine) (op : BitVec 4) (r : Regs) : (g.latch op r).i = g.i := rfl
@[simp] theorem Engine.latch_k (g : Engine) (op : BitVec 4) (r : Regs) : (g.latch op r).k = g.k := rfl
@[simp] theorem Engine.latch_origlen (g : Engine) (op : BitVec 4) (r : Regs) : (g.latch op r).origlen = g.origlen := rfl
@[simp] theorem Engine.latch_bitlen (g : Engine) (op : BitVec 4) (r : Regs) : (g.latch op r).bitlen = g.bitlen := rfl
@[simp] theorem Engine.latch_total (g : Engine) (op : BitVec 4) (r : Regs) : (g.latch op r).total = g.total := rfl
@[simp] theorem Engine.latch_csize (g : Engine) (op : BitVec 4) (r : Regs) : (g.latch op r).csize = g.csize := rfl
@[simp] theorem Engine.latch_hsize (g : Engine) (op : BitVec 4) (r : Regs) : (g.latch op r).hsize = g.hsize := rfl
@[simp] theorem Engine.latch_sum (g : Engine) (op : BitVec 4) (r : Regs) : (g.latch op r).sum = g.sum := rfl
@[simp] theorem Engine.latch_j (g : Engine) (op : BitVec 4) (r : Regs) : (g.latch op r).j = g.j := rfl
@[simp] theorem Engine.latch_hpos (g : Engine) (op : BitVec 4) (r : Regs) : (g.latch op r).hpos = g.hpos := rfl
@[simp] theorem Engine.latch_e (g : Engine) (op : BitVec 4) (r : Regs) : (g.latch op r).e = g.e := rfl
@[simp] theorem Engine.latch_freq (g : Engine) (op : BitVec 4) (r : Regs) : (g.latch op r).freq = g.freq := rfl
@[simp] theorem Engine.latch_node (g : Engine) (op : BitVec 4) (r : Regs) : (g.latch op r).node = g.node := rfl
@[simp] theorem Engine.latch_nn (g : Engine) (op : BitVec 4) (r : Regs) : (g.latch op r).nn = g.nn := rfl
@[simp] theorem Engine.latch_pq (g : Engine) (op : BitVec 4) (r : Regs) : (g.latch op r).pq = g.pq := rfl
@[simp] theorem Engine.latch_root (g : Engine) (op : BitVec 4) (r : Regs) : (g.latch op r).root = g.root := rfl
@[simp] theorem Engine.latch_codelen (g : Engine) (op : BitVec 4) (r : Regs) : (g.latch op r).codelen = g.codelen := rfl
@[simp] theorem Engine.latch_codepat (g : Engine) (op : BitVec 4) (r : Regs) : (g.latch op r).codepat = g.codepat := rfl
@[simp] theorem Engine.latch_cgstack (g : Engine) (op : BitVec 4) (r : Regs) : (g.latch op r).cgstack = g.cgstack := rfl
@[simp] theorem Engine.latch_acc (g : Engine) (op : BitVec 4) (r : Regs) : (g.latch op r).acc = g.acc := rfl
@[simp] theorem Engine.latch_nacc (g : Engine) (op : BitVec 4) (r : Regs) : (g.latch op r).nacc = g.nacc := rfl
@[simp] theorem Engine.latch_nbits (g : Engine) (op : BitVec 4) (r : Regs) : (g.latch op r).nbits = g.nbits := rfl
@[simp] theorem Engine.latch_wbase (g : Engine) (op : BitVec 4) (r : Regs) : (g.latch op r).wbase = g.wbase := rfl
@[simp] theorem Engine.latch_wpos (g : Engine) (op : BitVec 4) (r : Regs) : (g.latch op r).wpos = g.wpos := rfl
@[simp] theorem Engine.latch_rbase (g : Engine) (op : BitVec 4) (r : Regs) : (g.latch op r).rbase = g.rbase := rfl
@[simp] theorem Engine.latch_rpos (g : Engine) (op : BitVec 4) (r : Regs) : (g.latch op r).rpos = g.rpos := rfl
@[simp] theorem Engine.latch_cur (g : Engine) (op : BitVec 4) (r : Regs) : (g.latch op r).cur = g.cur := rfl
@[simp] theorem Engine.latch_ret (g : Engine) (op : BitVec 4) (r : Regs) : (g.latch op r).ret = g.ret := rfl
@[simp] theorem Engine.clearTable_fsm (g : Engine) : (g.clearTable).fsm = g.fsm := rfl
@[simp] theorem Engine.clearTable_phase (g : Engine) : (g.clearTable).phase = g.phase := rfl
@[simp] theorem Engine.clearTable_op (g : Engine) : (g.clearTable).op = g.op := rfl
@[simp] theorem Engine.clearTable_src (g : Engine) : (g.clearTable).src = g.src := rfl
@[simp] theorem Engine.clearTable_len (g : Engine) : (g.clearTable).len = g.len := rfl
@[simp] theorem Engine.clearTable_dst (g : Engine) : (g.clearTable).dst = g.dst := rfl
@[simp] theorem Engine.clearTable_cap (g : Engine) : (g.clearTable).cap = g.cap := rfl
@[simp] theorem Engine.clearTable_i (g : Engine) : (g.clearTable).i = 0 := rfl
@[simp] theorem Engine.clearTable_k (g : Engine) : (g.clearTable).k = g.k := rfl
@[simp] theorem Engine.clearTable_origlen (g : Engine) : (g.clearTable).origlen = g.origlen := rfl
@[simp] theorem Engine.clearTable_bitlen (g : Engine) : (g.clearTable).bitlen = g.bitlen := rfl
@[simp] theorem Engine.clearTable_total (g : Engine) : (g.clearTable).total = g.total := rfl
@[simp] theorem Engine.clearTable_csize (g : Engine) : (g.clearTable).csize = g.csize := rfl
@[simp] theorem Engine.clearTable_hsize (g : Engine) : (g.clearTable).hsize = g.hsize := rfl
@[simp] theorem Engine.clearTable_sum (g : Engine) : (g.clearTable).sum = g.sum := rfl
@[simp] theorem Engine.clearTable_j (g : Engine) : (g.clearTable).j = g.j := rfl
@[simp] theorem Engine.clearTable_hpos (g : Engine) : (g.clearTable).hpos = g.hpos := rfl
@[simp] theorem Engine.clearTable_e (g : Engine) : (g.clearTable).e = g.e := rfl
@[simp] theorem Engine.clearTable_freq (g : Engine) : (g.clearTable).freq = Vector.replicate 256 0 := rfl
@[simp] theorem Engine.clearTable_node (g : Engine) : (g.clearTable).node = g.node := rfl
@[simp] theorem Engine.clearTable_nn (g : Engine) : (g.clearTable).nn = g.nn := rfl
@[simp] theorem Engine.clearTable_pq (g : Engine) : (g.clearTable).pq = g.pq := rfl
@[simp] theorem Engine.clearTable_root (g : Engine) : (g.clearTable).root = g.root := rfl
@[simp] theorem Engine.clearTable_codelen (g : Engine) : (g.clearTable).codelen = g.codelen := rfl
@[simp] theorem Engine.clearTable_codepat (g : Engine) : (g.clearTable).codepat = g.codepat := rfl
@[simp] theorem Engine.clearTable_cgstack (g : Engine) : (g.clearTable).cgstack = g.cgstack := rfl
@[simp] theorem Engine.clearTable_acc (g : Engine) : (g.clearTable).acc = g.acc := rfl
@[simp] theorem Engine.clearTable_nacc (g : Engine) : (g.clearTable).nacc = g.nacc := rfl
@[simp] theorem Engine.clearTable_nbits (g : Engine) : (g.clearTable).nbits = g.nbits := rfl
@[simp] theorem Engine.clearTable_wbase (g : Engine) : (g.clearTable).wbase = g.wbase := rfl
@[simp] theorem Engine.clearTable_wpos (g : Engine) : (g.clearTable).wpos = g.wpos := rfl
@[simp] theorem Engine.clearTable_rbase (g : Engine) : (g.clearTable).rbase = g.rbase := rfl
@[simp] theorem Engine.clearTable_rpos (g : Engine) : (g.clearTable).rpos = g.rpos := rfl
@[simp] theorem Engine.clearTable_cur (g : Engine) : (g.clearTable).cur = g.cur := rfl
@[simp] theorem Engine.clearTable_ret (g : Engine) : (g.clearTable).ret = g.ret := rfl
@[simp] theorem Engine.setFreq_fsm (g : Engine) (v : Byte) (f : DWord) : (g.setFreq v f).fsm = g.fsm := rfl
@[simp] theorem Engine.setFreq_phase (g : Engine) (v : Byte) (f : DWord) : (g.setFreq v f).phase = g.phase := rfl
@[simp] theorem Engine.setFreq_op (g : Engine) (v : Byte) (f : DWord) : (g.setFreq v f).op = g.op := rfl
@[simp] theorem Engine.setFreq_src (g : Engine) (v : Byte) (f : DWord) : (g.setFreq v f).src = g.src := rfl
@[simp] theorem Engine.setFreq_len (g : Engine) (v : Byte) (f : DWord) : (g.setFreq v f).len = g.len := rfl
@[simp] theorem Engine.setFreq_dst (g : Engine) (v : Byte) (f : DWord) : (g.setFreq v f).dst = g.dst := rfl
@[simp] theorem Engine.setFreq_cap (g : Engine) (v : Byte) (f : DWord) : (g.setFreq v f).cap = g.cap := rfl
@[simp] theorem Engine.setFreq_i (g : Engine) (v : Byte) (f : DWord) : (g.setFreq v f).i = g.i := rfl
@[simp] theorem Engine.setFreq_k (g : Engine) (v : Byte) (f : DWord) : (g.setFreq v f).k = g.k := rfl
@[simp] theorem Engine.setFreq_origlen (g : Engine) (v : Byte) (f : DWord) : (g.setFreq v f).origlen = g.origlen := rfl
@[simp] theorem Engine.setFreq_bitlen (g : Engine) (v : Byte) (f : DWord) : (g.setFreq v f).bitlen = g.bitlen := rfl
@[simp] theorem Engine.setFreq_total (g : Engine) (v : Byte) (f : DWord) : (g.setFreq v f).total = g.total := rfl
@[simp] theorem Engine.setFreq_csize (g : Engine) (v : Byte) (f : DWord) : (g.setFreq v f).csize = g.csize := rfl
@[simp] theorem Engine.setFreq_hsize (g : Engine) (v : Byte) (f : DWord) : (g.setFreq v f).hsize = g.hsize := rfl
@[simp] theorem Engine.setFreq_sum (g : Engine) (v : Byte) (f : DWord) : (g.setFreq v f).sum = g.sum := rfl
@[simp] theorem Engine.setFreq_j (g : Engine) (v : Byte) (f : DWord) : (g.setFreq v f).j = g.j := rfl
@[simp] theorem Engine.setFreq_hpos (g : Engine) (v : Byte) (f : DWord) : (g.setFreq v f).hpos = g.hpos := rfl
@[simp] theorem Engine.setFreq_e (g : Engine) (v : Byte) (f : DWord) : (g.setFreq v f).e = g.e := rfl
@[simp] theorem Engine.setFreq_freq (g : Engine) (v : Byte) (f : DWord) : (g.setFreq v f).freq = g.freq.set (symIdx v).val f (symIdx v).isLt := rfl
@[simp] theorem Engine.setFreq_node (g : Engine) (v : Byte) (f : DWord) : (g.setFreq v f).node = g.node := rfl
@[simp] theorem Engine.setFreq_nn (g : Engine) (v : Byte) (f : DWord) : (g.setFreq v f).nn = g.nn := rfl
@[simp] theorem Engine.setFreq_pq (g : Engine) (v : Byte) (f : DWord) : (g.setFreq v f).pq = g.pq := rfl
@[simp] theorem Engine.setFreq_root (g : Engine) (v : Byte) (f : DWord) : (g.setFreq v f).root = g.root := rfl
@[simp] theorem Engine.setFreq_codelen (g : Engine) (v : Byte) (f : DWord) : (g.setFreq v f).codelen = g.codelen := rfl
@[simp] theorem Engine.setFreq_codepat (g : Engine) (v : Byte) (f : DWord) : (g.setFreq v f).codepat = g.codepat := rfl
@[simp] theorem Engine.setFreq_cgstack (g : Engine) (v : Byte) (f : DWord) : (g.setFreq v f).cgstack = g.cgstack := rfl
@[simp] theorem Engine.setFreq_acc (g : Engine) (v : Byte) (f : DWord) : (g.setFreq v f).acc = g.acc := rfl
@[simp] theorem Engine.setFreq_nacc (g : Engine) (v : Byte) (f : DWord) : (g.setFreq v f).nacc = g.nacc := rfl
@[simp] theorem Engine.setFreq_nbits (g : Engine) (v : Byte) (f : DWord) : (g.setFreq v f).nbits = g.nbits := rfl
@[simp] theorem Engine.setFreq_wbase (g : Engine) (v : Byte) (f : DWord) : (g.setFreq v f).wbase = g.wbase := rfl
@[simp] theorem Engine.setFreq_wpos (g : Engine) (v : Byte) (f : DWord) : (g.setFreq v f).wpos = g.wpos := rfl
@[simp] theorem Engine.setFreq_rbase (g : Engine) (v : Byte) (f : DWord) : (g.setFreq v f).rbase = g.rbase := rfl
@[simp] theorem Engine.setFreq_rpos (g : Engine) (v : Byte) (f : DWord) : (g.setFreq v f).rpos = g.rpos := rfl
@[simp] theorem Engine.setFreq_cur (g : Engine) (v : Byte) (f : DWord) : (g.setFreq v f).cur = g.cur := rfl
@[simp] theorem Engine.setFreq_ret (g : Engine) (v : Byte) (f : DWord) : (g.setFreq v f).ret = g.ret := rfl
@[simp] theorem Engine.countByte_fsm (g : Engine) (b : Byte) : (g.countByte b).fsm = g.fsm := rfl
@[simp] theorem Engine.countByte_phase (g : Engine) (b : Byte) : (g.countByte b).phase = g.phase := rfl
@[simp] theorem Engine.countByte_op (g : Engine) (b : Byte) : (g.countByte b).op = g.op := rfl
@[simp] theorem Engine.countByte_src (g : Engine) (b : Byte) : (g.countByte b).src = g.src := rfl
@[simp] theorem Engine.countByte_len (g : Engine) (b : Byte) : (g.countByte b).len = g.len := rfl
@[simp] theorem Engine.countByte_dst (g : Engine) (b : Byte) : (g.countByte b).dst = g.dst := rfl
@[simp] theorem Engine.countByte_cap (g : Engine) (b : Byte) : (g.countByte b).cap = g.cap := rfl
@[simp] theorem Engine.countByte_i (g : Engine) (b : Byte) : (g.countByte b).i = g.i + 1 := rfl
@[simp] theorem Engine.countByte_k (g : Engine) (b : Byte) : (g.countByte b).k = g.k := rfl
@[simp] theorem Engine.countByte_origlen (g : Engine) (b : Byte) : (g.countByte b).origlen = g.origlen := rfl
@[simp] theorem Engine.countByte_bitlen (g : Engine) (b : Byte) : (g.countByte b).bitlen = g.bitlen := rfl
@[simp] theorem Engine.countByte_total (g : Engine) (b : Byte) : (g.countByte b).total = g.total := rfl
@[simp] theorem Engine.countByte_csize (g : Engine) (b : Byte) : (g.countByte b).csize = g.csize := rfl
@[simp] theorem Engine.countByte_hsize (g : Engine) (b : Byte) : (g.countByte b).hsize = g.hsize := rfl
@[simp] theorem Engine.countByte_sum (g : Engine) (b : Byte) : (g.countByte b).sum = g.sum := rfl
@[simp] theorem Engine.countByte_j (g : Engine) (b : Byte) : (g.countByte b).j = g.j := rfl
@[simp] theorem Engine.countByte_hpos (g : Engine) (b : Byte) : (g.countByte b).hpos = g.hpos := rfl
@[simp] theorem Engine.countByte_e (g : Engine) (b : Byte) : (g.countByte b).e = g.e := rfl
@[simp] theorem Engine.countByte_freq (g : Engine) (b : Byte) : (g.countByte b).freq = (g.setFreq b (g.freqOf b + 1)).freq := rfl
@[simp] theorem Engine.countByte_node (g : Engine) (b : Byte) : (g.countByte b).node = g.node := rfl
@[simp] theorem Engine.countByte_nn (g : Engine) (b : Byte) : (g.countByte b).nn = g.nn := rfl
@[simp] theorem Engine.countByte_pq (g : Engine) (b : Byte) : (g.countByte b).pq = g.pq := rfl
@[simp] theorem Engine.countByte_root (g : Engine) (b : Byte) : (g.countByte b).root = g.root := rfl
@[simp] theorem Engine.countByte_codelen (g : Engine) (b : Byte) : (g.countByte b).codelen = g.codelen := rfl
@[simp] theorem Engine.countByte_codepat (g : Engine) (b : Byte) : (g.countByte b).codepat = g.codepat := rfl
@[simp] theorem Engine.countByte_cgstack (g : Engine) (b : Byte) : (g.countByte b).cgstack = g.cgstack := rfl
@[simp] theorem Engine.countByte_acc (g : Engine) (b : Byte) : (g.countByte b).acc = g.acc := rfl
@[simp] theorem Engine.countByte_nacc (g : Engine) (b : Byte) : (g.countByte b).nacc = g.nacc := rfl
@[simp] theorem Engine.countByte_nbits (g : Engine) (b : Byte) : (g.countByte b).nbits = g.nbits := rfl
@[simp] theorem Engine.countByte_wbase (g : Engine) (b : Byte) : (g.countByte b).wbase = g.wbase := rfl
@[simp] theorem Engine.countByte_wpos (g : Engine) (b : Byte) : (g.countByte b).wpos = g.wpos := rfl
@[simp] theorem Engine.countByte_rbase (g : Engine) (b : Byte) : (g.countByte b).rbase = g.rbase := rfl
@[simp] theorem Engine.countByte_rpos (g : Engine) (b : Byte) : (g.countByte b).rpos = g.rpos := rfl
@[simp] theorem Engine.countByte_cur (g : Engine) (b : Byte) : (g.countByte b).cur = g.cur := rfl
@[simp] theorem Engine.countByte_ret (g : Engine) (b : Byte) : (g.countByte b).ret = g.ret := rfl
@[simp] theorem Engine.enterFreq_fsm (g : Engine) (v : Byte) (f : DWord) : (g.enterFreq v f).fsm = g.fsm := rfl
@[simp] theorem Engine.enterFreq_phase (g : Engine) (v : Byte) (f : DWord) : (g.enterFreq v f).phase = g.phase := rfl
@[simp] theorem Engine.enterFreq_op (g : Engine) (v : Byte) (f : DWord) : (g.enterFreq v f).op = g.op := rfl
@[simp] theorem Engine.enterFreq_src (g : Engine) (v : Byte) (f : DWord) : (g.enterFreq v f).src = g.src := rfl
@[simp] theorem Engine.enterFreq_len (g : Engine) (v : Byte) (f : DWord) : (g.enterFreq v f).len = g.len := rfl
@[simp] theorem Engine.enterFreq_dst (g : Engine) (v : Byte) (f : DWord) : (g.enterFreq v f).dst = g.dst := rfl
@[simp] theorem Engine.enterFreq_cap (g : Engine) (v : Byte) (f : DWord) : (g.enterFreq v f).cap = g.cap := rfl
@[simp] theorem Engine.enterFreq_i (g : Engine) (v : Byte) (f : DWord) : (g.enterFreq v f).i = g.i := rfl
@[simp] theorem Engine.enterFreq_k (g : Engine) (v : Byte) (f : DWord) : (g.enterFreq v f).k = g.k := rfl
@[simp] theorem Engine.enterFreq_origlen (g : Engine) (v : Byte) (f : DWord) : (g.enterFreq v f).origlen = g.origlen := rfl
@[simp] theorem Engine.enterFreq_bitlen (g : Engine) (v : Byte) (f : DWord) : (g.enterFreq v f).bitlen = g.bitlen := rfl
@[simp] theorem Engine.enterFreq_total (g : Engine) (v : Byte) (f : DWord) : (g.enterFreq v f).total = g.total := rfl
@[simp] theorem Engine.enterFreq_csize (g : Engine) (v : Byte) (f : DWord) : (g.enterFreq v f).csize = g.csize := rfl
@[simp] theorem Engine.enterFreq_hsize (g : Engine) (v : Byte) (f : DWord) : (g.enterFreq v f).hsize = g.hsize := rfl
@[simp] theorem Engine.enterFreq_sum (g : Engine) (v : Byte) (f : DWord) : (g.enterFreq v f).sum = g.sum + f := rfl
@[simp] theorem Engine.enterFreq_j (g : Engine) (v : Byte) (f : DWord) : (g.enterFreq v f).j = g.j := rfl
@[simp] theorem Engine.enterFreq_hpos (g : Engine) (v : Byte) (f : DWord) : (g.enterFreq v f).hpos = g.hpos := rfl
@[simp] theorem Engine.enterFreq_e (g : Engine) (v : Byte) (f : DWord) : (g.enterFreq v f).e = g.e + 1 := rfl
@[simp] theorem Engine.enterFreq_freq (g : Engine) (v : Byte) (f : DWord) : (g.enterFreq v f).freq = (g.setFreq v f).freq := rfl
@[simp] theorem Engine.enterFreq_node (g : Engine) (v : Byte) (f : DWord) : (g.enterFreq v f).node = g.node := rfl
@[simp] theorem Engine.enterFreq_nn (g : Engine) (v : Byte) (f : DWord) : (g.enterFreq v f).nn = g.nn := rfl
@[simp] theorem Engine.enterFreq_pq (g : Engine) (v : Byte) (f : DWord) : (g.enterFreq v f).pq = g.pq := rfl
@[simp] theorem Engine.enterFreq_root (g : Engine) (v : Byte) (f : DWord) : (g.enterFreq v f).root = g.root := rfl
@[simp] theorem Engine.enterFreq_codelen (g : Engine) (v : Byte) (f : DWord) : (g.enterFreq v f).codelen = g.codelen := rfl
@[simp] theorem Engine.enterFreq_codepat (g : Engine) (v : Byte) (f : DWord) : (g.enterFreq v f).codepat = g.codepat := rfl
@[simp] theorem Engine.enterFreq_cgstack (g : Engine) (v : Byte) (f : DWord) : (g.enterFreq v f).cgstack = g.cgstack := rfl
@[simp] theorem Engine.enterFreq_acc (g : Engine) (v : Byte) (f : DWord) : (g.enterFreq v f).acc = g.acc := rfl
@[simp] theorem Engine.enterFreq_nacc (g : Engine) (v : Byte) (f : DWord) : (g.enterFreq v f).nacc = g.nacc := rfl
@[simp] theorem Engine.enterFreq_nbits (g : Engine) (v : Byte) (f : DWord) : (g.enterFreq v f).nbits = g.nbits := rfl
@[simp] theorem Engine.enterFreq_wbase (g : Engine) (v : Byte) (f : DWord) : (g.enterFreq v f).wbase = g.wbase := rfl
@[simp] theorem Engine.enterFreq_wpos (g : Engine) (v : Byte) (f : DWord) : (g.enterFreq v f).wpos = g.wpos := rfl
@[simp] theorem Engine.enterFreq_rbase (g : Engine) (v : Byte) (f : DWord) : (g.enterFreq v f).rbase = g.rbase := rfl
@[simp] theorem Engine.enterFreq_rpos (g : Engine) (v : Byte) (f : DWord) : (g.enterFreq v f).rpos = g.rpos := rfl
@[simp] theorem Engine.enterFreq_cur (g : Engine) (v : Byte) (f : DWord) : (g.enterFreq v f).cur = g.cur := rfl
@[simp] theorem Engine.enterFreq_ret (g : Engine) (v : Byte) (f : DWord) : (g.enterFreq v f).ret = g.ret := rfl
@[simp] theorem Engine.clearTree_fsm (g : Engine) : (g.clearTree).fsm = g.fsm := rfl
@[simp] theorem Engine.clearTree_phase (g : Engine) : (g.clearTree).phase = g.phase := rfl
@[simp] theorem Engine.clearTree_op (g : Engine) : (g.clearTree).op = g.op := rfl
@[simp] theorem Engine.clearTree_src (g : Engine) : (g.clearTree).src = g.src := rfl
@[simp] theorem Engine.clearTree_len (g : Engine) : (g.clearTree).len = g.len := rfl
@[simp] theorem Engine.clearTree_dst (g : Engine) : (g.clearTree).dst = g.dst := rfl
@[simp] theorem Engine.clearTree_cap (g : Engine) : (g.clearTree).cap = g.cap := rfl
@[simp] theorem Engine.clearTree_i (g : Engine) : (g.clearTree).i = g.i := rfl
@[simp] theorem Engine.clearTree_k (g : Engine) : (g.clearTree).k = g.k := rfl
@[simp] theorem Engine.clearTree_origlen (g : Engine) : (g.clearTree).origlen = g.origlen := rfl
@[simp] theorem Engine.clearTree_bitlen (g : Engine) : (g.clearTree).bitlen = g.bitlen := rfl
@[simp] theorem Engine.clearTree_total (g : Engine) : (g.clearTree).total = g.total := rfl
@[simp] theorem Engine.clearTree_csize (g : Engine) : (g.clearTree).csize = g.csize := rfl
@[simp] theorem Engine.clearTree_hsize (g : Engine) : (g.clearTree).hsize = g.hsize := rfl
@[simp] theorem Engine.clearTree_sum (g : Engine) : (g.clearTree).sum = g.sum := rfl
@[simp] theorem Engine.clearTree_j (g : Engine) : (g.clearTree).j = g.j := rfl
@[simp] theorem Engine.clearTree_hpos (g : Engine) : (g.clearTree).hpos = g.hpos := rfl
@[simp] theorem Engine.clearTree_e (g : Engine) : (g.clearTree).e = g.e := rfl
@[simp] theorem Engine.clearTree_freq (g : Engine) : (g.clearTree).freq = g.freq := rfl
@[simp] theorem Engine.clearTree_node (g : Engine) : (g.clearTree).node = g.node := rfl
@[simp] theorem Engine.clearTree_nn (g : Engine) : (g.clearTree).nn = 0 := rfl
@[simp] theorem Engine.clearTree_pq (g : Engine) : (g.clearTree).pq = [] := rfl
@[simp] theorem Engine.clearTree_root (g : Engine) : (g.clearTree).root = none := rfl
@[simp] theorem Engine.clearTree_codelen (g : Engine) : (g.clearTree).codelen = g.codelen := rfl
@[simp] theorem Engine.clearTree_codepat (g : Engine) : (g.clearTree).codepat = g.codepat := rfl
@[simp] theorem Engine.clearTree_cgstack (g : Engine) : (g.clearTree).cgstack = g.cgstack := rfl
@[simp] theorem Engine.clearTree_acc (g : Engine) : (g.clearTree).acc = g.acc := rfl
@[simp] theorem Engine.clearTree_nacc (g : Engine) : (g.clearTree).nacc = g.nacc := rfl
@[simp] theorem Engine.clearTree_nbits (g : Engine) : (g.clearTree).nbits = g.nbits := rfl
@[simp] theorem Engine.clearTree_wbase (g : Engine) : (g.clearTree).wbase = g.wbase := rfl
@[simp] theorem Engine.clearTree_wpos (g : Engine) : (g.clearTree).wpos = g.wpos := rfl
@[simp] theorem Engine.clearTree_rbase (g : Engine) : (g.clearTree).rbase = g.rbase := rfl
@[simp] theorem Engine.clearTree_rpos (g : Engine) : (g.clearTree).rpos = g.rpos := rfl
@[simp] theorem Engine.clearTree_cur (g : Engine) : (g.clearTree).cur = g.cur := rfl
@[simp] theorem Engine.clearTree_ret (g : Engine) : (g.clearTree).ret = g.ret := rfl
@[simp] theorem Engine.setNode_fsm (g : Engine) (n : NodeRef) (x : Node) : (g.setNode n x).fsm = g.fsm := rfl
@[simp] theorem Engine.setNode_phase (g : Engine) (n : NodeRef) (x : Node) : (g.setNode n x).phase = g.phase := rfl
@[simp] theorem Engine.setNode_op (g : Engine) (n : NodeRef) (x : Node) : (g.setNode n x).op = g.op := rfl
@[simp] theorem Engine.setNode_src (g : Engine) (n : NodeRef) (x : Node) : (g.setNode n x).src = g.src := rfl
@[simp] theorem Engine.setNode_len (g : Engine) (n : NodeRef) (x : Node) : (g.setNode n x).len = g.len := rfl
@[simp] theorem Engine.setNode_dst (g : Engine) (n : NodeRef) (x : Node) : (g.setNode n x).dst = g.dst := rfl
@[simp] theorem Engine.setNode_cap (g : Engine) (n : NodeRef) (x : Node) : (g.setNode n x).cap = g.cap := rfl
@[simp] theorem Engine.setNode_i (g : Engine) (n : NodeRef) (x : Node) : (g.setNode n x).i = g.i := rfl
@[simp] theorem Engine.setNode_k (g : Engine) (n : NodeRef) (x : Node) : (g.setNode n x).k = g.k := rfl
@[simp] theorem Engine.setNode_origlen (g : Engine) (n : NodeRef) (x : Node) : (g.setNode n x).origlen = g.origlen := rfl
@[simp] theorem Engine.setNode_bitlen (g : Engine) (n : NodeRef) (x : Node) : (g.setNode n x).bitlen = g.bitlen := rfl
@[simp] theorem Engine.setNode_total (g : Engine) (n : NodeRef) (x : Node) : (g.setNode n x).total = g.total := rfl
@[simp] theorem Engine.setNode_csize (g : Engine) (n : NodeRef) (x : Node) : (g.setNode n x).csize = g.csize := rfl
@[simp] theorem Engine.setNode_hsize (g : Engine) (n : NodeRef) (x : Node) : (g.setNode n x).hsize = g.hsize := rfl
@[simp] theorem Engine.setNode_sum (g : Engine) (n : NodeRef) (x : Node) : (g.setNode n x).sum = g.sum := rfl
@[simp] theorem Engine.setNode_j (g : Engine) (n : NodeRef) (x : Node) : (g.setNode n x).j = g.j := rfl
@[simp] theorem Engine.setNode_hpos (g : Engine) (n : NodeRef) (x : Node) : (g.setNode n x).hpos = g.hpos := rfl
@[simp] theorem Engine.setNode_e (g : Engine) (n : NodeRef) (x : Node) : (g.setNode n x).e = g.e := rfl
@[simp] theorem Engine.setNode_freq (g : Engine) (n : NodeRef) (x : Node) : (g.setNode n x).freq = g.freq := rfl
@[simp] theorem Engine.setNode_node (g : Engine) (n : NodeRef) (x : Node) : (g.setNode n x).node = g.node.set n.val x n.isLt := rfl
@[simp] theorem Engine.setNode_nn (g : Engine) (n : NodeRef) (x : Node) : (g.setNode n x).nn = g.nn := rfl
@[simp] theorem Engine.setNode_pq (g : Engine) (n : NodeRef) (x : Node) : (g.setNode n x).pq = g.pq := rfl
@[simp] theorem Engine.setNode_root (g : Engine) (n : NodeRef) (x : Node) : (g.setNode n x).root = g.root := rfl
@[simp] theorem Engine.setNode_codelen (g : Engine) (n : NodeRef) (x : Node) : (g.setNode n x).codelen = g.codelen := rfl
@[simp] theorem Engine.setNode_codepat (g : Engine) (n : NodeRef) (x : Node) : (g.setNode n x).codepat = g.codepat := rfl
@[simp] theorem Engine.setNode_cgstack (g : Engine) (n : NodeRef) (x : Node) : (g.setNode n x).cgstack = g.cgstack := rfl
@[simp] theorem Engine.setNode_acc (g : Engine) (n : NodeRef) (x : Node) : (g.setNode n x).acc = g.acc := rfl
@[simp] theorem Engine.setNode_nacc (g : Engine) (n : NodeRef) (x : Node) : (g.setNode n x).nacc = g.nacc := rfl
@[simp] theorem Engine.setNode_nbits (g : Engine) (n : NodeRef) (x : Node) : (g.setNode n x).nbits = g.nbits := rfl
@[simp] theorem Engine.setNode_wbase (g : Engine) (n : NodeRef) (x : Node) : (g.setNode n x).wbase = g.wbase := rfl
@[simp] theorem Engine.setNode_wpos (g : Engine) (n : NodeRef) (x : Node) : (g.setNode n x).wpos = g.wpos := rfl
@[simp] theorem Engine.setNode_rbase (g : Engine) (n : NodeRef) (x : Node) : (g.setNode n x).rbase = g.rbase := rfl
@[simp] theorem Engine.setNode_rpos (g : Engine) (n : NodeRef) (x : Node) : (g.setNode n x).rpos = g.rpos := rfl
@[simp] theorem Engine.setNode_cur (g : Engine) (n : NodeRef) (x : Node) : (g.setNode n x).cur = g.cur := rfl
@[simp] theorem Engine.setNode_ret (g : Engine) (n : NodeRef) (x : Node) : (g.setNode n x).ret = g.ret := rfl
@[simp] theorem Engine.clearCodes_fsm (g : Engine) : (g.clearCodes).fsm = g.fsm := rfl
@[simp] theorem Engine.clearCodes_phase (g : Engine) : (g.clearCodes).phase = g.phase := rfl
@[simp] theorem Engine.clearCodes_op (g : Engine) : (g.clearCodes).op = g.op := rfl
@[simp] theorem Engine.clearCodes_src (g : Engine) : (g.clearCodes).src = g.src := rfl
@[simp] theorem Engine.clearCodes_len (g : Engine) : (g.clearCodes).len = g.len := rfl
@[simp] theorem Engine.clearCodes_dst (g : Engine) : (g.clearCodes).dst = g.dst := rfl
@[simp] theorem Engine.clearCodes_cap (g : Engine) : (g.clearCodes).cap = g.cap := rfl
@[simp] theorem Engine.clearCodes_i (g : Engine) : (g.clearCodes).i = g.i := rfl
@[simp] theorem Engine.clearCodes_k (g : Engine) : (g.clearCodes).k = g.k := rfl
@[simp] theorem Engine.clearCodes_origlen (g : Engine) : (g.clearCodes).origlen = g.origlen := rfl
@[simp] theorem Engine.clearCodes_bitlen (g : Engine) : (g.clearCodes).bitlen = g.bitlen := rfl
@[simp] theorem Engine.clearCodes_total (g : Engine) : (g.clearCodes).total = g.total := rfl
@[simp] theorem Engine.clearCodes_csize (g : Engine) : (g.clearCodes).csize = g.csize := rfl
@[simp] theorem Engine.clearCodes_hsize (g : Engine) : (g.clearCodes).hsize = g.hsize := rfl
@[simp] theorem Engine.clearCodes_sum (g : Engine) : (g.clearCodes).sum = g.sum := rfl
@[simp] theorem Engine.clearCodes_j (g : Engine) : (g.clearCodes).j = g.j := rfl
@[simp] theorem Engine.clearCodes_hpos (g : Engine) : (g.clearCodes).hpos = g.hpos := rfl
@[simp] theorem Engine.clearCodes_e (g : Engine) : (g.clearCodes).e = g.e := rfl
@[simp] theorem Engine.clearCodes_freq (g : Engine) : (g.clearCodes).freq = g.freq := rfl
@[simp] theorem Engine.clearCodes_node (g : Engine) : (g.clearCodes).node = g.node := rfl
@[simp] theorem Engine.clearCodes_nn (g : Engine) : (g.clearCodes).nn = g.nn := rfl
@[simp] theorem Engine.clearCodes_pq (g : Engine) : (g.clearCodes).pq = g.pq := rfl
@[simp] theorem Engine.clearCodes_root (g : Engine) : (g.clearCodes).root = g.root := rfl
@[simp] theorem Engine.clearCodes_codelen (g : Engine) : (g.clearCodes).codelen = Vector.replicate 256 0 := rfl
@[simp] theorem Engine.clearCodes_codepat (g : Engine) : (g.clearCodes).codepat = Vector.replicate 256 0 := rfl
@[simp] theorem Engine.clearCodes_cgstack (g : Engine) : (g.clearCodes).cgstack = g.cgstack := rfl
@[simp] theorem Engine.clearCodes_acc (g : Engine) : (g.clearCodes).acc = g.acc := rfl
@[simp] theorem Engine.clearCodes_nacc (g : Engine) : (g.clearCodes).nacc = g.nacc := rfl
@[simp] theorem Engine.clearCodes_nbits (g : Engine) : (g.clearCodes).nbits = g.nbits := rfl
@[simp] theorem Engine.clearCodes_wbase (g : Engine) : (g.clearCodes).wbase = g.wbase := rfl
@[simp] theorem Engine.clearCodes_wpos (g : Engine) : (g.clearCodes).wpos = g.wpos := rfl
@[simp] theorem Engine.clearCodes_rbase (g : Engine) : (g.clearCodes).rbase = g.rbase := rfl
@[simp] theorem Engine.clearCodes_rpos (g : Engine) : (g.clearCodes).rpos = g.rpos := rfl
@[simp] theorem Engine.clearCodes_cur (g : Engine) : (g.clearCodes).cur = g.cur := rfl
@[simp] theorem Engine.clearCodes_ret (g : Engine) : (g.clearCodes).ret = g.ret := rfl
@[simp] theorem Engine.setCode_fsm (g : Engine) (v len : Byte) (pat : Pattern) : (g.setCode v len pat).fsm = g.fsm := rfl
@[simp] theorem Engine.setCode_phase (g : Engine) (v len : Byte) (pat : Pattern) : (g.setCode v len pat).phase = g.phase := rfl
@[simp] theorem Engine.setCode_op (g : Engine) (v len : Byte) (pat : Pattern) : (g.setCode v len pat).op = g.op := rfl
@[simp] theorem Engine.setCode_src (g : Engine) (v len : Byte) (pat : Pattern) : (g.setCode v len pat).src = g.src := rfl
@[simp] theorem Engine.setCode_len (g : Engine) (v len : Byte) (pat : Pattern) : (g.setCode v len pat).len = g.len := rfl
@[simp] theorem Engine.setCode_dst (g : Engine) (v len : Byte) (pat : Pattern) : (g.setCode v len pat).dst = g.dst := rfl
@[simp] theorem Engine.setCode_cap (g : Engine) (v len : Byte) (pat : Pattern) : (g.setCode v len pat).cap = g.cap := rfl
@[simp] theorem Engine.setCode_i (g : Engine) (v len : Byte) (pat : Pattern) : (g.setCode v len pat).i = g.i := rfl
@[simp] theorem Engine.setCode_k (g : Engine) (v len : Byte) (pat : Pattern) : (g.setCode v len pat).k = g.k := rfl
@[simp] theorem Engine.setCode_origlen (g : Engine) (v len : Byte) (pat : Pattern) : (g.setCode v len pat).origlen = g.origlen := rfl
@[simp] theorem Engine.setCode_bitlen (g : Engine) (v len : Byte) (pat : Pattern) : (g.setCode v len pat).bitlen = g.bitlen := rfl
@[simp] theorem Engine.setCode_total (g : Engine) (v len : Byte) (pat : Pattern) : (g.setCode v len pat).total = g.total := rfl
@[simp] theorem Engine.setCode_csize (g : Engine) (v len : Byte) (pat : Pattern) : (g.setCode v len pat).csize = g.csize := rfl
@[simp] theorem Engine.setCode_hsize (g : Engine) (v len : Byte) (pat : Pattern) : (g.setCode v len pat).hsize = g.hsize := rfl
@[simp] theorem Engine.setCode_sum (g : Engine) (v len : Byte) (pat : Pattern) : (g.setCode v len pat).sum = g.sum := rfl
@[simp] theorem Engine.setCode_j (g : Engine) (v len : Byte) (pat : Pattern) : (g.setCode v len pat).j = g.j := rfl
@[simp] theorem Engine.setCode_hpos (g : Engine) (v len : Byte) (pat : Pattern) : (g.setCode v len pat).hpos = g.hpos := rfl
@[simp] theorem Engine.setCode_e (g : Engine) (v len : Byte) (pat : Pattern) : (g.setCode v len pat).e = g.e := rfl
@[simp] theorem Engine.setCode_freq (g : Engine) (v len : Byte) (pat : Pattern) : (g.setCode v len pat).freq = g.freq := rfl
@[simp] theorem Engine.setCode_node (g : Engine) (v len : Byte) (pat : Pattern) : (g.setCode v len pat).node = g.node := rfl
@[simp] theorem Engine.setCode_nn (g : Engine) (v len : Byte) (pat : Pattern) : (g.setCode v len pat).nn = g.nn := rfl
@[simp] theorem Engine.setCode_pq (g : Engine) (v len : Byte) (pat : Pattern) : (g.setCode v len pat).pq = g.pq := rfl
@[simp] theorem Engine.setCode_root (g : Engine) (v len : Byte) (pat : Pattern) : (g.setCode v len pat).root = g.root := rfl
@[simp] theorem Engine.setCode_codelen (g : Engine) (v len : Byte) (pat : Pattern) : (g.setCode v len pat).codelen = g.codelen.set (symIdx v).val len (symIdx v).isLt := rfl
@[simp] theorem Engine.setCode_codepat (g : Engine) (v len : Byte) (pat : Pattern) : (g.setCode v len pat).codepat = g.codepat.set (symIdx v).val pat (symIdx v).isLt := rfl
@[simp] theorem Engine.setCode_cgstack (g : Engine) (v len : Byte) (pat : Pattern) : (g.setCode v len pat).cgstack = g.cgstack := rfl
@[simp] theorem Engine.setCode_acc (g : Engine) (v len : Byte) (pat : Pattern) : (g.setCode v len pat).acc = g.acc := rfl
@[simp] theorem Engine.setCode_nacc (g : Engine) (v len : Byte) (pat : Pattern) : (g.setCode v len pat).nacc = g.nacc := rfl
@[simp] theorem Engine.setCode_nbits (g : Engine) (v len : Byte) (pat : Pattern) : (g.setCode v len pat).nbits = g.nbits := rfl
@[simp] theorem Engine.setCode_wbase (g : Engine) (v len : Byte) (pat : Pattern) : (g.setCode v len pat).wbase = g.wbase := rfl
@[simp] theorem Engine.setCode_wpos (g : Engine) (v len : Byte) (pat : Pattern) : (g.setCode v len pat).wpos = g.wpos := rfl
@[simp] theorem Engine.setCode_rbase (g : Engine) (v len : Byte) (pat : Pattern) : (g.setCode v len pat).rbase = g.rbase := rfl
@[simp] theorem Engine.setCode_rpos (g : Engine) (v len : Byte) (pat : Pattern) : (g.setCode v len pat).rpos = g.rpos := rfl
@[simp] theorem Engine.setCode_cur (g : Engine) (v len : Byte) (pat : Pattern) : (g.setCode v len pat).cur = g.cur := rfl
@[simp] theorem Engine.setCode_ret (g : Engine) (v len : Byte) (pat : Pattern) : (g.setCode v len pat).ret = g.ret := rfl
@[simp] theorem Engine.sized_fsm (g : Engine) (t : Nat) : (g.sized t).fsm = g.fsm := rfl
@[simp] theorem Engine.sized_phase (g : Engine) (t : Nat) : (g.sized t).phase = g.phase := rfl
@[simp] theorem Engine.sized_op (g : Engine) (t : Nat) : (g.sized t).op = g.op := rfl
@[simp] theorem Engine.sized_src (g : Engine) (t : Nat) : (g.sized t).src = g.src := rfl
@[simp] theorem Engine.sized_len (g : Engine) (t : Nat) : (g.sized t).len = g.len := rfl
@[simp] theorem Engine.sized_dst (g : Engine) (t : Nat) : (g.sized t).dst = g.dst := rfl
@[simp] theorem Engine.sized_cap (g : Engine) (t : Nat) : (g.sized t).cap = g.cap := rfl
@[simp] theorem Engine.sized_i (g : Engine) (t : Nat) : (g.sized t).i = g.i := rfl
@[simp] theorem Engine.sized_k (g : Engine) (t : Nat) : (g.sized t).k = g.k := rfl
@[simp] theorem Engine.sized_origlen (g : Engine) (t : Nat) : (g.sized t).origlen = g.origlen := rfl
@[simp] theorem Engine.sized_bitlen (g : Engine) (t : Nat) : (g.sized t).bitlen = g.bitlen := rfl
@[simp] theorem Engine.sized_total (g : Engine) (t : Nat) : (g.sized t).total = BitVec.ofNat 64 t := rfl
@[simp] theorem Engine.sized_csize (g : Engine) (t : Nat) : (g.sized t).csize = BitVec.ofNat 64 (headerSize g.k.toNat + ceilDiv8 t) := rfl
@[simp] theorem Engine.sized_hsize (g : Engine) (t : Nat) : (g.sized t).hsize = BitVec.ofNat 64 (headerSize g.k.toNat) := rfl
@[simp] theorem Engine.sized_sum (g : Engine) (t : Nat) : (g.sized t).sum = g.sum := rfl
@[simp] theorem Engine.sized_j (g : Engine) (t : Nat) : (g.sized t).j = g.j := rfl
@[simp] theorem Engine.sized_hpos (g : Engine) (t : Nat) : (g.sized t).hpos = g.hpos := rfl
@[simp] theorem Engine.sized_e (g : Engine) (t : Nat) : (g.sized t).e = g.e := rfl
@[simp] theorem Engine.sized_freq (g : Engine) (t : Nat) : (g.sized t).freq = g.freq := rfl
@[simp] theorem Engine.sized_node (g : Engine) (t : Nat) : (g.sized t).node = g.node := rfl
@[simp] theorem Engine.sized_nn (g : Engine) (t : Nat) : (g.sized t).nn = g.nn := rfl
@[simp] theorem Engine.sized_pq (g : Engine) (t : Nat) : (g.sized t).pq = g.pq := rfl
@[simp] theorem Engine.sized_root (g : Engine) (t : Nat) : (g.sized t).root = g.root := rfl
@[simp] theorem Engine.sized_codelen (g : Engine) (t : Nat) : (g.sized t).codelen = g.codelen := rfl
@[simp] theorem Engine.sized_codepat (g : Engine) (t : Nat) : (g.sized t).codepat = g.codepat := rfl
@[simp] theorem Engine.sized_cgstack (g : Engine) (t : Nat) : (g.sized t).cgstack = g.cgstack := rfl
@[simp] theorem Engine.sized_acc (g : Engine) (t : Nat) : (g.sized t).acc = g.acc := rfl
@[simp] theorem Engine.sized_nacc (g : Engine) (t : Nat) : (g.sized t).nacc = g.nacc := rfl
@[simp] theorem Engine.sized_nbits (g : Engine) (t : Nat) : (g.sized t).nbits = g.nbits := rfl
@[simp] theorem Engine.sized_wbase (g : Engine) (t : Nat) : (g.sized t).wbase = g.wbase := rfl
@[simp] theorem Engine.sized_wpos (g : Engine) (t : Nat) : (g.sized t).wpos = g.wpos := rfl
@[simp] theorem Engine.sized_rbase (g : Engine) (t : Nat) : (g.sized t).rbase = g.rbase := rfl
@[simp] theorem Engine.sized_rpos (g : Engine) (t : Nat) : (g.sized t).rpos = g.rpos := rfl
@[simp] theorem Engine.sized_cur (g : Engine) (t : Nat) : (g.sized t).cur = g.cur := rfl
@[simp] theorem Engine.sized_ret (g : Engine) (t : Nat) : (g.sized t).ret = g.ret := rfl
@[simp] theorem Engine.bwInit_fsm (g : Engine) (a : DWord) : (g.bwInit a).fsm = g.fsm := rfl
@[simp] theorem Engine.bwInit_phase (g : Engine) (a : DWord) : (g.bwInit a).phase = g.phase := rfl
@[simp] theorem Engine.bwInit_op (g : Engine) (a : DWord) : (g.bwInit a).op = g.op := rfl
@[simp] theorem Engine.bwInit_src (g : Engine) (a : DWord) : (g.bwInit a).src = g.src := rfl
@[simp] theorem Engine.bwInit_len (g : Engine) (a : DWord) : (g.bwInit a).len = g.len := rfl
@[simp] theorem Engine.bwInit_dst (g : Engine) (a : DWord) : (g.bwInit a).dst = g.dst := rfl
@[simp] theorem Engine.bwInit_cap (g : Engine) (a : DWord) : (g.bwInit a).cap = g.cap := rfl
@[simp] theorem Engine.bwInit_i (g : Engine) (a : DWord) : (g.bwInit a).i = g.i := rfl
@[simp] theorem Engine.bwInit_k (g : Engine) (a : DWord) : (g.bwInit a).k = g.k := rfl
@[simp] theorem Engine.bwInit_origlen (g : Engine) (a : DWord) : (g.bwInit a).origlen = g.origlen := rfl
@[simp] theorem Engine.bwInit_bitlen (g : Engine) (a : DWord) : (g.bwInit a).bitlen = g.bitlen := rfl
@[simp] theorem Engine.bwInit_total (g : Engine) (a : DWord) : (g.bwInit a).total = g.total := rfl
@[simp] theorem Engine.bwInit_csize (g : Engine) (a : DWord) : (g.bwInit a).csize = g.csize := rfl
@[simp] theorem Engine.bwInit_hsize (g : Engine) (a : DWord) : (g.bwInit a).hsize = g.hsize := rfl
@[simp] theorem Engine.bwInit_sum (g : Engine) (a : DWord) : (g.bwInit a).sum = g.sum := rfl
@[simp] theorem Engine.bwInit_j (g : Engine) (a : DWord) : (g.bwInit a).j = g.j := rfl
@[simp] theorem Engine.bwInit_hpos (g : Engine) (a : DWord) : (g.bwInit a).hpos = g.hpos := rfl
@[simp] theorem Engine.bwInit_e (g : Engine) (a : DWord) : (g.bwInit a).e = g.e := rfl
@[simp] theorem Engine.bwInit_freq (g : Engine) (a : DWord) : (g.bwInit a).freq = g.freq := rfl
@[simp] theorem Engine.bwInit_node (g : Engine) (a : DWord) : (g.bwInit a).node = g.node := rfl
@[simp] theorem Engine.bwInit_nn (g : Engine) (a : DWord) : (g.bwInit a).nn = g.nn := rfl
@[simp] theorem Engine.bwInit_pq (g : Engine) (a : DWord) : (g.bwInit a).pq = g.pq := rfl
@[simp] theorem Engine.bwInit_root (g : Engine) (a : DWord) : (g.bwInit a).root = g.root := rfl
@[simp] theorem Engine.bwInit_codelen (g : Engine) (a : DWord) : (g.bwInit a).codelen = g.codelen := rfl
@[simp] theorem Engine.bwInit_codepat (g : Engine) (a : DWord) : (g.bwInit a).codepat = g.codepat := rfl
@[simp] theorem Engine.bwInit_cgstack (g : Engine) (a : DWord) : (g.bwInit a).cgstack = g.cgstack := rfl
@[simp] theorem Engine.bwInit_acc (g : Engine) (a : DWord) : (g.bwInit a).acc = 0 := rfl
@[simp] theorem Engine.bwInit_nacc (g : Engine) (a : DWord) : (g.bwInit a).nacc = 0 := rfl
@[simp] theorem Engine.bwInit_nbits (g : Engine) (a : DWord) : (g.bwInit a).nbits = 0 := rfl
@[simp] theorem Engine.bwInit_wbase (g : Engine) (a : DWord) : (g.bwInit a).wbase = a := rfl
@[simp] theorem Engine.bwInit_wpos (g : Engine) (a : DWord) : (g.bwInit a).wpos = 0 := rfl
@[simp] theorem Engine.bwInit_rbase (g : Engine) (a : DWord) : (g.bwInit a).rbase = g.rbase := rfl
@[simp] theorem Engine.bwInit_rpos (g : Engine) (a : DWord) : (g.bwInit a).rpos = g.rpos := rfl
@[simp] theorem Engine.bwInit_cur (g : Engine) (a : DWord) : (g.bwInit a).cur = g.cur := rfl
@[simp] theorem Engine.bwInit_ret (g : Engine) (a : DWord) : (g.bwInit a).ret = g.ret := rfl
@[simp] theorem Engine.putAcc_fsm (g : Engine) (b : Bool) : (g.putAcc b).fsm = g.fsm := rfl
@[simp] theorem Engine.putAcc_phase (g : Engine) (b : Bool) : (g.putAcc b).phase = g.phase := rfl
@[simp] theorem Engine.putAcc_op (g : Engine) (b : Bool) : (g.putAcc b).op = g.op := rfl
@[simp] theorem Engine.putAcc_src (g : Engine) (b : Bool) : (g.putAcc b).src = g.src := rfl
@[simp] theorem Engine.putAcc_len (g : Engine) (b : Bool) : (g.putAcc b).len = g.len := rfl
@[simp] theorem Engine.putAcc_dst (g : Engine) (b : Bool) : (g.putAcc b).dst = g.dst := rfl
@[simp] theorem Engine.putAcc_cap (g : Engine) (b : Bool) : (g.putAcc b).cap = g.cap := rfl
@[simp] theorem Engine.putAcc_i (g : Engine) (b : Bool) : (g.putAcc b).i = g.i := rfl
@[simp] theorem Engine.putAcc_k (g : Engine) (b : Bool) : (g.putAcc b).k = g.k := rfl
@[simp] theorem Engine.putAcc_origlen (g : Engine) (b : Bool) : (g.putAcc b).origlen = g.origlen := rfl
@[simp] theorem Engine.putAcc_bitlen (g : Engine) (b : Bool) : (g.putAcc b).bitlen = g.bitlen := rfl
@[simp] theorem Engine.putAcc_total (g : Engine) (b : Bool) : (g.putAcc b).total = g.total := rfl
@[simp] theorem Engine.putAcc_csize (g : Engine) (b : Bool) : (g.putAcc b).csize = g.csize := rfl
@[simp] theorem Engine.putAcc_hsize (g : Engine) (b : Bool) : (g.putAcc b).hsize = g.hsize := rfl
@[simp] theorem Engine.putAcc_sum (g : Engine) (b : Bool) : (g.putAcc b).sum = g.sum := rfl
@[simp] theorem Engine.putAcc_j (g : Engine) (b : Bool) : (g.putAcc b).j = g.j := rfl
@[simp] theorem Engine.putAcc_hpos (g : Engine) (b : Bool) : (g.putAcc b).hpos = g.hpos := rfl
@[simp] theorem Engine.putAcc_e (g : Engine) (b : Bool) : (g.putAcc b).e = g.e := rfl
@[simp] theorem Engine.putAcc_freq (g : Engine) (b : Bool) : (g.putAcc b).freq = g.freq := rfl
@[simp] theorem Engine.putAcc_node (g : Engine) (b : Bool) : (g.putAcc b).node = g.node := rfl
@[simp] theorem Engine.putAcc_nn (g : Engine) (b : Bool) : (g.putAcc b).nn = g.nn := rfl
@[simp] theorem Engine.putAcc_pq (g : Engine) (b : Bool) : (g.putAcc b).pq = g.pq := rfl
@[simp] theorem Engine.putAcc_root (g : Engine) (b : Bool) : (g.putAcc b).root = g.root := rfl
@[simp] theorem Engine.putAcc_codelen (g : Engine) (b : Bool) : (g.putAcc b).codelen = g.codelen := rfl
@[simp] theorem Engine.putAcc_codepat (g : Engine) (b : Bool) : (g.putAcc b).codepat = g.codepat := rfl
@[simp] theorem Engine.putAcc_cgstack (g : Engine) (b : Bool) : (g.putAcc b).cgstack = g.cgstack := rfl
@[simp] theorem Engine.putAcc_acc (g : Engine) (b : Bool) : (g.putAcc b).acc = g.acc ||| bitAt b g.nacc := rfl
@[simp] theorem Engine.putAcc_nacc (g : Engine) (b : Bool) : (g.putAcc b).nacc = g.nacc + 1 := rfl
@[simp] theorem Engine.putAcc_nbits (g : Engine) (b : Bool) : (g.putAcc b).nbits = g.nbits + 1 := rfl
@[simp] theorem Engine.putAcc_wbase (g : Engine) (b : Bool) : (g.putAcc b).wbase = g.wbase := rfl
@[simp] theorem Engine.putAcc_wpos (g : Engine) (b : Bool) : (g.putAcc b).wpos = g.wpos := rfl
@[simp] theorem Engine.putAcc_rbase (g : Engine) (b : Bool) : (g.putAcc b).rbase = g.rbase := rfl
@[simp] theorem Engine.putAcc_rpos (g : Engine) (b : Bool) : (g.putAcc b).rpos = g.rpos := rfl
@[simp] theorem Engine.putAcc_cur (g : Engine) (b : Bool) : (g.putAcc b).cur = g.cur := rfl
@[simp] theorem Engine.putAcc_ret (g : Engine) (b : Bool) : (g.putAcc b).ret = g.ret := rfl
@[simp] theorem Engine.nextByte_fsm (g : Engine) : (g.nextByte).fsm = g.fsm := rfl
@[simp] theorem Engine.nextByte_phase (g : Engine) : (g.nextByte).phase = g.phase := rfl
@[simp] theorem Engine.nextByte_op (g : Engine) : (g.nextByte).op = g.op := rfl
@[simp] theorem Engine.nextByte_src (g : Engine) : (g.nextByte).src = g.src := rfl
@[simp] theorem Engine.nextByte_len (g : Engine) : (g.nextByte).len = g.len := rfl
@[simp] theorem Engine.nextByte_dst (g : Engine) : (g.nextByte).dst = g.dst := rfl
@[simp] theorem Engine.nextByte_cap (g : Engine) : (g.nextByte).cap = g.cap := rfl
@[simp] theorem Engine.nextByte_i (g : Engine) : (g.nextByte).i = g.i := rfl
@[simp] theorem Engine.nextByte_k (g : Engine) : (g.nextByte).k = g.k := rfl
@[simp] theorem Engine.nextByte_origlen (g : Engine) : (g.nextByte).origlen = g.origlen := rfl
@[simp] theorem Engine.nextByte_bitlen (g : Engine) : (g.nextByte).bitlen = g.bitlen := rfl
@[simp] theorem Engine.nextByte_total (g : Engine) : (g.nextByte).total = g.total := rfl
@[simp] theorem Engine.nextByte_csize (g : Engine) : (g.nextByte).csize = g.csize := rfl
@[simp] theorem Engine.nextByte_hsize (g : Engine) : (g.nextByte).hsize = g.hsize := rfl
@[simp] theorem Engine.nextByte_sum (g : Engine) : (g.nextByte).sum = g.sum := rfl
@[simp] theorem Engine.nextByte_j (g : Engine) : (g.nextByte).j = g.j := rfl
@[simp] theorem Engine.nextByte_hpos (g : Engine) : (g.nextByte).hpos = g.hpos := rfl
@[simp] theorem Engine.nextByte_e (g : Engine) : (g.nextByte).e = g.e := rfl
@[simp] theorem Engine.nextByte_freq (g : Engine) : (g.nextByte).freq = g.freq := rfl
@[simp] theorem Engine.nextByte_node (g : Engine) : (g.nextByte).node = g.node := rfl
@[simp] theorem Engine.nextByte_nn (g : Engine) : (g.nextByte).nn = g.nn := rfl
@[simp] theorem Engine.nextByte_pq (g : Engine) : (g.nextByte).pq = g.pq := rfl
@[simp] theorem Engine.nextByte_root (g : Engine) : (g.nextByte).root = g.root := rfl
@[simp] theorem Engine.nextByte_codelen (g : Engine) : (g.nextByte).codelen = g.codelen := rfl
@[simp] theorem Engine.nextByte_codepat (g : Engine) : (g.nextByte).codepat = g.codepat := rfl
@[simp] theorem Engine.nextByte_cgstack (g : Engine) : (g.nextByte).cgstack = g.cgstack := rfl
@[simp] theorem Engine.nextByte_acc (g : Engine) : (g.nextByte).acc = 0 := rfl
@[simp] theorem Engine.nextByte_nacc (g : Engine) : (g.nextByte).nacc = 0 := rfl
@[simp] theorem Engine.nextByte_nbits (g : Engine) : (g.nextByte).nbits = g.nbits := rfl
@[simp] theorem Engine.nextByte_wbase (g : Engine) : (g.nextByte).wbase = g.wbase := rfl
@[simp] theorem Engine.nextByte_wpos (g : Engine) : (g.nextByte).wpos = g.wpos + 1 := rfl
@[simp] theorem Engine.nextByte_rbase (g : Engine) : (g.nextByte).rbase = g.rbase := rfl
@[simp] theorem Engine.nextByte_rpos (g : Engine) : (g.nextByte).rpos = g.rpos := rfl
@[simp] theorem Engine.nextByte_cur (g : Engine) : (g.nextByte).cur = g.cur := rfl
@[simp] theorem Engine.nextByte_ret (g : Engine) : (g.nextByte).ret = g.ret := rfl
@[simp] theorem Engine.startPayload_fsm (g : Engine) : (g.startPayload).fsm = .ePayload := rfl
@[simp] theorem Engine.startPayload_phase (g : Engine) : (g.startPayload).phase = 0 := rfl
@[simp] theorem Engine.startPayload_op (g : Engine) : (g.startPayload).op = g.op := rfl
@[simp] theorem Engine.startPayload_src (g : Engine) : (g.startPayload).src = g.src := rfl
@[simp] theorem Engine.startPayload_len (g : Engine) : (g.startPayload).len = g.len := rfl
@[simp] theorem Engine.startPayload_dst (g : Engine) : (g.startPayload).dst = g.dst := rfl
@[simp] theorem Engine.startPayload_cap (g : Engine) : (g.startPayload).cap = g.cap := rfl
@[simp] theorem Engine.startPayload_i (g : Engine) : (g.startPayload).i = 0 := rfl
@[simp] theorem Engine.startPayload_k (g : Engine) : (g.startPayload).k = g.k := rfl
@[simp] theorem Engine.startPayload_origlen (g : Engine) : (g.startPayload).origlen = g.origlen := rfl
@[simp] theorem Engine.startPayload_bitlen (g : Engine) : (g.startPayload).bitlen = g.bitlen := rfl
@[simp] theorem Engine.startPayload_total (g : Engine) : (g.startPayload).total = g.total := rfl
@[simp] theorem Engine.startPayload_csize (g : Engine) : (g.startPayload).csize = g.csize := rfl
@[simp] theorem Engine.startPayload_hsize (g : Engine) : (g.startPayload).hsize = g.hsize := rfl
@[simp] theorem Engine.startPayload_sum (g : Engine) : (g.startPayload).sum = g.sum := rfl
@[simp] theorem Engine.startPayload_j (g : Engine) : (g.startPayload).j = g.j := rfl
@[simp] theorem Engine.startPayload_hpos (g : Engine) : (g.startPayload).hpos = g.hpos := rfl
@[simp] theorem Engine.startPayload_e (g : Engine) : (g.startPayload).e = g.e := rfl
@[simp] theorem Engine.startPayload_freq (g : Engine) : (g.startPayload).freq = g.freq := rfl
@[simp] theorem Engine.startPayload_node (g : Engine) : (g.startPayload).node = g.node := rfl
@[simp] theorem Engine.startPayload_nn (g : Engine) : (g.startPayload).nn = g.nn := rfl
@[simp] theorem Engine.startPayload_pq (g : Engine) : (g.startPayload).pq = g.pq := rfl
@[simp] theorem Engine.startPayload_root (g : Engine) : (g.startPayload).root = g.root := rfl
@[simp] theorem Engine.startPayload_codelen (g : Engine) : (g.startPayload).codelen = g.codelen := rfl
@[simp] theorem Engine.startPayload_codepat (g : Engine) : (g.startPayload).codepat = g.codepat := rfl
@[simp] theorem Engine.startPayload_cgstack (g : Engine) : (g.startPayload).cgstack = g.cgstack := rfl
@[simp] theorem Engine.startPayload_acc (g : Engine) : (g.startPayload).acc = 0 := rfl
@[simp] theorem Engine.startPayload_nacc (g : Engine) : (g.startPayload).nacc = 0 := rfl
@[simp] theorem Engine.startPayload_nbits (g : Engine) : (g.startPayload).nbits = 0 := rfl
@[simp] theorem Engine.startPayload_wbase (g : Engine) : (g.startPayload).wbase = g.dst + g.hsize := rfl
@[simp] theorem Engine.startPayload_wpos (g : Engine) : (g.startPayload).wpos = 0 := rfl
@[simp] theorem Engine.startPayload_rbase (g : Engine) : (g.startPayload).rbase = g.rbase := rfl
@[simp] theorem Engine.startPayload_rpos (g : Engine) : (g.startPayload).rpos = g.rpos := rfl
@[simp] theorem Engine.startPayload_cur (g : Engine) : (g.startPayload).cur = g.cur := rfl
@[simp] theorem Engine.startPayload_ret (g : Engine) : (g.startPayload).ret = g.ret := rfl
@[simp] theorem Engine.brInit_fsm (g : Engine) (a : DWord) (n : Word) : (g.brInit a n).fsm = g.fsm := rfl
@[simp] theorem Engine.brInit_phase (g : Engine) (a : DWord) (n : Word) : (g.brInit a n).phase = g.phase := rfl
@[simp] theorem Engine.brInit_op (g : Engine) (a : DWord) (n : Word) : (g.brInit a n).op = g.op := rfl
@[simp] theorem Engine.brInit_src (g : Engine) (a : DWord) (n : Word) : (g.brInit a n).src = g.src := rfl
@[simp] theorem Engine.brInit_len (g : Engine) (a : DWord) (n : Word) : (g.brInit a n).len = g.len := rfl
@[simp] theorem Engine.brInit_dst (g : Engine) (a : DWord) (n : Word) : (g.brInit a n).dst = g.dst := rfl
@[simp] theorem Engine.brInit_cap (g : Engine) (a : DWord) (n : Word) : (g.brInit a n).cap = g.cap := rfl
@[simp] theorem Engine.brInit_i (g : Engine) (a : DWord) (n : Word) : (g.brInit a n).i = g.i := rfl
@[simp] theorem Engine.brInit_k (g : Engine) (a : DWord) (n : Word) : (g.brInit a n).k = g.k := rfl
@[simp] theorem Engine.brInit_origlen (g : Engine) (a : DWord) (n : Word) : (g.brInit a n).origlen = g.origlen := rfl
@[simp] theorem Engine.brInit_bitlen (g : Engine) (a : DWord) (n : Word) : (g.brInit a n).bitlen = n := rfl
@[simp] theorem Engine.brInit_total (g : Engine) (a : DWord) (n : Word) : (g.brInit a n).total = g.total := rfl
@[simp] theorem Engine.brInit_csize (g : Engine) (a : DWord) (n : Word) : (g.brInit a n).csize = g.csize := rfl
@[simp] theorem Engine.brInit_hsize (g : Engine) (a : DWord) (n : Word) : (g.brInit a n).hsize = g.hsize := rfl
@[simp] theorem Engine.brInit_sum (g : Engine) (a : DWord) (n : Word) : (g.brInit a n).sum = g.sum := rfl
@[simp] theorem Engine.brInit_j (g : Engine) (a : DWord) (n : Word) : (g.brInit a n).j = g.j := rfl
@[simp] theorem Engine.brInit_hpos (g : Engine) (a : DWord) (n : Word) : (g.brInit a n).hpos = g.hpos := rfl
@[simp] theorem Engine.brInit_e (g : Engine) (a : DWord) (n : Word) : (g.brInit a n).e = g.e := rfl
@[simp] theorem Engine.brInit_freq (g : Engine) (a : DWord) (n : Word) : (g.brInit a n).freq = g.freq := rfl
@[simp] theorem Engine.brInit_node (g : Engine) (a : DWord) (n : Word) : (g.brInit a n).node = g.node := rfl
@[simp] theorem Engine.brInit_nn (g : Engine) (a : DWord) (n : Word) : (g.brInit a n).nn = g.nn := rfl
@[simp] theorem Engine.brInit_pq (g : Engine) (a : DWord) (n : Word) : (g.brInit a n).pq = g.pq := rfl
@[simp] theorem Engine.brInit_root (g : Engine) (a : DWord) (n : Word) : (g.brInit a n).root = g.root := rfl
@[simp] theorem Engine.brInit_codelen (g : Engine) (a : DWord) (n : Word) : (g.brInit a n).codelen = g.codelen := rfl
@[simp] theorem Engine.brInit_codepat (g : Engine) (a : DWord) (n : Word) : (g.brInit a n).codepat = g.codepat := rfl
@[simp] theorem Engine.brInit_cgstack (g : Engine) (a : DWord) (n : Word) : (g.brInit a n).cgstack = g.cgstack := rfl
@[simp] theorem Engine.brInit_acc (g : Engine) (a : DWord) (n : Word) : (g.brInit a n).acc = g.acc := rfl
@[simp] theorem Engine.brInit_nacc (g : Engine) (a : DWord) (n : Word) : (g.brInit a n).nacc = g.nacc := rfl
@[simp] theorem Engine.brInit_nbits (g : Engine) (a : DWord) (n : Word) : (g.brInit a n).nbits = g.nbits := rfl
@[simp] theorem Engine.brInit_wbase (g : Engine) (a : DWord) (n : Word) : (g.brInit a n).wbase = g.wbase := rfl
@[simp] theorem Engine.brInit_wpos (g : Engine) (a : DWord) (n : Word) : (g.brInit a n).wpos = g.wpos := rfl
@[simp] theorem Engine.brInit_rbase (g : Engine) (a : DWord) (n : Word) : (g.brInit a n).rbase = a := rfl
@[simp] theorem Engine.brInit_rpos (g : Engine) (a : DWord) (n : Word) : (g.brInit a n).rpos = 0 := rfl
@[simp] theorem Engine.brInit_cur (g : Engine) (a : DWord) (n : Word) : (g.brInit a n).cur = g.cur := rfl
@[simp] theorem Engine.brInit_ret (g : Engine) (a : DWord) (n : Word) : (g.brInit a n).ret = g.ret := rfl
@[simp] theorem Engine.startWalk_fsm (g : Engine) : (g.startWalk).fsm = .dPayload := rfl
@[simp] theorem Engine.startWalk_phase (g : Engine) : (g.startWalk).phase = 0 := rfl
@[simp] theorem Engine.startWalk_op (g : Engine) : (g.startWalk).op = g.op := rfl
@[simp] theorem Engine.startWalk_src (g : Engine) : (g.startWalk).src = g.src := rfl
@[simp] theorem Engine.startWalk_len (g : Engine) : (g.startWalk).len = g.len := rfl
@[simp] theorem Engine.startWalk_dst (g : Engine) : (g.startWalk).dst = g.dst := rfl
@[simp] theorem Engine.startWalk_cap (g : Engine) : (g.startWalk).cap = g.cap := rfl
@[simp] theorem Engine.startWalk_i (g : Engine) : (g.startWalk).i = g.i := rfl
@[simp] theorem Engine.startWalk_k (g : Engine) : (g.startWalk).k = g.k := rfl
@[simp] theorem Engine.startWalk_origlen (g : Engine) : (g.startWalk).origlen = g.origlen := rfl
@[simp] theorem Engine.startWalk_bitlen (g : Engine) : (g.startWalk).bitlen = g.bitlen := rfl
@[simp] theorem Engine.startWalk_total (g : Engine) : (g.startWalk).total = g.total := rfl
@[simp] theorem Engine.startWalk_csize (g : Engine) : (g.startWalk).csize = g.csize := rfl
@[simp] theorem Engine.startWalk_hsize (g : Engine) : (g.startWalk).hsize = g.hsize := rfl
@[simp] theorem Engine.startWalk_sum (g : Engine) : (g.startWalk).sum = g.sum := rfl
@[simp] theorem Engine.startWalk_j (g : Engine) : (g.startWalk).j = 0 := rfl
@[simp] theorem Engine.startWalk_hpos (g : Engine) : (g.startWalk).hpos = g.hpos := rfl
@[simp] theorem Engine.startWalk_e (g : Engine) : (g.startWalk).e = g.e := rfl
@[simp] theorem Engine.startWalk_freq (g : Engine) : (g.startWalk).freq = g.freq := rfl
@[simp] theorem Engine.startWalk_node (g : Engine) : (g.startWalk).node = g.node := rfl
@[simp] theorem Engine.startWalk_nn (g : Engine) : (g.startWalk).nn = g.nn := rfl
@[simp] theorem Engine.startWalk_pq (g : Engine) : (g.startWalk).pq = g.pq := rfl
@[simp] theorem Engine.startWalk_root (g : Engine) : (g.startWalk).root = g.root := rfl
@[simp] theorem Engine.startWalk_codelen (g : Engine) : (g.startWalk).codelen = g.codelen := rfl
@[simp] theorem Engine.startWalk_codepat (g : Engine) : (g.startWalk).codepat = g.codepat := rfl
@[simp] theorem Engine.startWalk_cgstack (g : Engine) : (g.startWalk).cgstack = g.cgstack := rfl
@[simp] theorem Engine.startWalk_acc (g : Engine) : (g.startWalk).acc = g.acc := rfl
@[simp] theorem Engine.startWalk_nacc (g : Engine) : (g.startWalk).nacc = g.nacc := rfl
@[simp] theorem Engine.startWalk_nbits (g : Engine) : (g.startWalk).nbits = g.nbits := rfl
@[simp] theorem Engine.startWalk_wbase (g : Engine) : (g.startWalk).wbase = g.wbase := rfl
@[simp] theorem Engine.startWalk_wpos (g : Engine) : (g.startWalk).wpos = g.wpos := rfl
@[simp] theorem Engine.startWalk_rbase (g : Engine) : (g.startWalk).rbase = g.src + g.hsize := rfl
@[simp] theorem Engine.startWalk_rpos (g : Engine) : (g.startWalk).rpos = 0 := rfl
@[simp] theorem Engine.startWalk_cur (g : Engine) : (g.startWalk).cur = g.root := rfl
@[simp] theorem Engine.startWalk_ret (g : Engine) : (g.startWalk).ret = g.ret := rfl
@[simp] theorem Engine.setPq_fsm (g : Engine) (q : List NodeRef) : (g.setPq q).fsm = g.fsm := rfl
@[simp] theorem Engine.setPq_phase (g : Engine) (q : List NodeRef) : (g.setPq q).phase = g.phase := rfl
@[simp] theorem Engine.setPq_op (g : Engine) (q : List NodeRef) : (g.setPq q).op = g.op := rfl
@[simp] theorem Engine.setPq_src (g : Engine) (q : List NodeRef) : (g.setPq q).src = g.src := rfl
@[simp] theorem Engine.setPq_len (g : Engine) (q : List NodeRef) : (g.setPq q).len = g.len := rfl
@[simp] theorem Engine.setPq_dst (g : Engine) (q : List NodeRef) : (g.setPq q).dst = g.dst := rfl
@[simp] theorem Engine.setPq_cap (g : Engine) (q : List NodeRef) : (g.setPq q).cap = g.cap := rfl
@[simp] theorem Engine.setPq_i (g : Engine) (q : List NodeRef) : (g.setPq q).i = g.i := rfl
@[simp] theorem Engine.setPq_k (g : Engine) (q : List NodeRef) : (g.setPq q).k = g.k := rfl
@[simp] theorem Engine.setPq_origlen (g : Engine) (q : List NodeRef) : (g.setPq q).origlen = g.origlen := rfl
@[simp] theorem Engine.setPq_bitlen (g : Engine) (q : List NodeRef) : (g.setPq q).bitlen = g.bitlen := rfl
@[simp] theorem Engine.setPq_total (g : Engine) (q : List NodeRef) : (g.setPq q).total = g.total := rfl
@[simp] theorem Engine.setPq_csize (g : Engine) (q : List NodeRef) : (g.setPq q).csize = g.csize := rfl
@[simp] theorem Engine.setPq_hsize (g : Engine) (q : List NodeRef) : (g.setPq q).hsize = g.hsize := rfl
@[simp] theorem Engine.setPq_sum (g : Engine) (q : List NodeRef) : (g.setPq q).sum = g.sum := rfl
@[simp] theorem Engine.setPq_j (g : Engine) (q : List NodeRef) : (g.setPq q).j = g.j := rfl
@[simp] theorem Engine.setPq_hpos (g : Engine) (q : List NodeRef) : (g.setPq q).hpos = g.hpos := rfl
@[simp] theorem Engine.setPq_e (g : Engine) (q : List NodeRef) : (g.setPq q).e = g.e := rfl
@[simp] theorem Engine.setPq_freq (g : Engine) (q : List NodeRef) : (g.setPq q).freq = g.freq := rfl
@[simp] theorem Engine.setPq_node (g : Engine) (q : List NodeRef) : (g.setPq q).node = g.node := rfl
@[simp] theorem Engine.setPq_nn (g : Engine) (q : List NodeRef) : (g.setPq q).nn = g.nn := rfl
@[simp] theorem Engine.setPq_pq (g : Engine) (q : List NodeRef) : (g.setPq q).pq = q := rfl
@[simp] theorem Engine.setPq_root (g : Engine) (q : List NodeRef) : (g.setPq q).root = g.root := rfl
@[simp] theorem Engine.setPq_codelen (g : Engine) (q : List NodeRef) : (g.setPq q).codelen = g.codelen := rfl
@[simp] theorem Engine.setPq_codepat (g : Engine) (q : List NodeRef) : (g.setPq q).codepat = g.codepat := rfl
@[simp] theorem Engine.setPq_cgstack (g : Engine) (q : List NodeRef) : (g.setPq q).cgstack = g.cgstack := rfl
@[simp] theorem Engine.setPq_acc (g : Engine) (q : List NodeRef) : (g.setPq q).acc = g.acc := rfl
@[simp] theorem Engine.setPq_nacc (g : Engine) (q : List NodeRef) : (g.setPq q).nacc = g.nacc := rfl
@[simp] theorem Engine.setPq_nbits (g : Engine) (q : List NodeRef) : (g.setPq q).nbits = g.nbits := rfl
@[simp] theorem Engine.setPq_wbase (g : Engine) (q : List NodeRef) : (g.setPq q).wbase = g.wbase := rfl
@[simp] theorem Engine.setPq_wpos (g : Engine) (q : List NodeRef) : (g.setPq q).wpos = g.wpos := rfl
@[simp] theorem Engine.setPq_rbase (g : Engine) (q : List NodeRef) : (g.setPq q).rbase = g.rbase := rfl
@[simp] theorem Engine.setPq_rpos (g : Engine) (q : List NodeRef) : (g.setPq q).rpos = g.rpos := rfl
@[simp] theorem Engine.setPq_cur (g : Engine) (q : List NodeRef) : (g.setPq q).cur = g.cur := rfl
@[simp] theorem Engine.setPq_ret (g : Engine) (q : List NodeRef) : (g.setPq q).ret = g.ret := rfl
@[simp] theorem Engine.nextNn_fsm (g : Engine) : (g.nextNn).fsm = g.fsm := rfl
@[simp] theorem Engine.nextNn_phase (g : Engine) : (g.nextNn).phase = g.phase := rfl
@[simp] theorem Engine.nextNn_op (g : Engine) : (g.nextNn).op = g.op := rfl
@[simp] theorem Engine.nextNn_src (g : Engine) : (g.nextNn).src = g.src := rfl
@[simp] theorem Engine.nextNn_len (g : Engine) : (g.nextNn).len = g.len := rfl
@[simp] theorem Engine.nextNn_dst (g : Engine) : (g.nextNn).dst = g.dst := rfl
@[simp] theorem Engine.nextNn_cap (g : Engine) : (g.nextNn).cap = g.cap := rfl
@[simp] theorem Engine.nextNn_i (g : Engine) : (g.nextNn).i = g.i := rfl
@[simp] theorem Engine.nextNn_k (g : Engine) : (g.nextNn).k = g.k := rfl
@[simp] theorem Engine.nextNn_origlen (g : Engine) : (g.nextNn).origlen = g.origlen := rfl
@[simp] theorem Engine.nextNn_bitlen (g : Engine) : (g.nextNn).bitlen = g.bitlen := rfl
@[simp] theorem Engine.nextNn_total (g : Engine) : (g.nextNn).total = g.total := rfl
@[simp] theorem Engine.nextNn_csize (g : Engine) : (g.nextNn).csize = g.csize := rfl
@[simp] theorem Engine.nextNn_hsize (g : Engine) : (g.nextNn).hsize = g.hsize := rfl
@[simp] theorem Engine.nextNn_sum (g : Engine) : (g.nextNn).sum = g.sum := rfl
@[simp] theorem Engine.nextNn_j (g : Engine) : (g.nextNn).j = g.j := rfl
@[simp] theorem Engine.nextNn_hpos (g : Engine) : (g.nextNn).hpos = g.hpos := rfl
@[simp] theorem Engine.nextNn_e (g : Engine) : (g.nextNn).e = g.e := rfl
@[simp] theorem Engine.nextNn_freq (g : Engine) : (g.nextNn).freq = g.freq := rfl
@[simp] theorem Engine.nextNn_node (g : Engine) : (g.nextNn).node = g.node := rfl
@[simp] theorem Engine.nextNn_nn (g : Engine) : (g.nextNn).nn = g.nn + 1 := rfl
@[simp] theorem Engine.nextNn_pq (g : Engine) : (g.nextNn).pq = g.pq := rfl
@[simp] theorem Engine.nextNn_root (g : Engine) : (g.nextNn).root = g.root := rfl
@[simp] theorem Engine.nextNn_codelen (g : Engine) : (g.nextNn).codelen = g.codelen := rfl
@[simp] theorem Engine.nextNn_codepat (g : Engine) : (g.nextNn).codepat = g.codepat := rfl
@[simp] theorem Engine.nextNn_cgstack (g : Engine) : (g.nextNn).cgstack = g.cgstack := rfl
@[simp] theorem Engine.nextNn_acc (g : Engine) : (g.nextNn).acc = g.acc := rfl
@[simp] theorem Engine.nextNn_nacc (g : Engine) : (g.nextNn).nacc = g.nacc := rfl
@[simp] theorem Engine.nextNn_nbits (g : Engine) : (g.nextNn).nbits = g.nbits := rfl
@[simp] theorem Engine.nextNn_wbase (g : Engine) : (g.nextNn).wbase = g.wbase := rfl
@[simp] theorem Engine.nextNn_wpos (g : Engine) : (g.nextNn).wpos = g.wpos := rfl
@[simp] theorem Engine.nextNn_rbase (g : Engine) : (g.nextNn).rbase = g.rbase := rfl
@[simp] theorem Engine.nextNn_rpos (g : Engine) : (g.nextNn).rpos = g.rpos := rfl
@[simp] theorem Engine.nextNn_cur (g : Engine) : (g.nextNn).cur = g.cur := rfl
@[simp] theorem Engine.nextNn_ret (g : Engine) : (g.nextNn).ret = g.ret := rfl
@[simp] theorem Engine.setK_fsm (g : Engine) (k : BitVec 9) : (g.setK k).fsm = g.fsm := rfl
@[simp] theorem Engine.setK_phase (g : Engine) (k : BitVec 9) : (g.setK k).phase = g.phase := rfl
@[simp] theorem Engine.setK_op (g : Engine) (k : BitVec 9) : (g.setK k).op = g.op := rfl
@[simp] theorem Engine.setK_src (g : Engine) (k : BitVec 9) : (g.setK k).src = g.src := rfl
@[simp] theorem Engine.setK_len (g : Engine) (k : BitVec 9) : (g.setK k).len = g.len := rfl
@[simp] theorem Engine.setK_dst (g : Engine) (k : BitVec 9) : (g.setK k).dst = g.dst := rfl
@[simp] theorem Engine.setK_cap (g : Engine) (k : BitVec 9) : (g.setK k).cap = g.cap := rfl
@[simp] theorem Engine.setK_i (g : Engine) (k : BitVec 9) : (g.setK k).i = g.i := rfl
@[simp] theorem Engine.setK_k (g : Engine) (k : BitVec 9) : (g.setK k).k = k := rfl
@[simp] theorem Engine.setK_origlen (g : Engine) (k : BitVec 9) : (g.setK k).origlen = g.origlen := rfl
@[simp] theorem Engine.setK_bitlen (g : Engine) (k : BitVec 9) : (g.setK k).bitlen = g.bitlen := rfl
@[simp] theorem Engine.setK_total (g : Engine) (k : BitVec 9) : (g.setK k).total = g.total := rfl
@[simp] theorem Engine.setK_csize (g : Engine) (k : BitVec 9) : (g.setK k).csize = g.csize := rfl
@[simp] theorem Engine.setK_hsize (g : Engine) (k : BitVec 9) : (g.setK k).hsize = g.hsize := rfl
@[simp] theorem Engine.setK_sum (g : Engine) (k : BitVec 9) : (g.setK k).sum = g.sum := rfl
@[simp] theorem Engine.setK_j (g : Engine) (k : BitVec 9) : (g.setK k).j = g.j := rfl
@[simp] theorem Engine.setK_hpos (g : Engine) (k : BitVec 9) : (g.setK k).hpos = g.hpos := rfl
@[simp] theorem Engine.setK_e (g : Engine) (k : BitVec 9) : (g.setK k).e = g.e := rfl
@[simp] theorem Engine.setK_freq (g : Engine) (k : BitVec 9) : (g.setK k).freq = g.freq := rfl
@[simp] theorem Engine.setK_node (g : Engine) (k : BitVec 9) : (g.setK k).node = g.node := rfl
@[simp] theorem Engine.setK_nn (g : Engine) (k : BitVec 9) : (g.setK k).nn = g.nn := rfl
@[simp] theorem Engine.setK_pq (g : Engine) (k : BitVec 9) : (g.setK k).pq = g.pq := rfl
@[simp] theorem Engine.setK_root (g : Engine) (k : BitVec 9) : (g.setK k).root = g.root := rfl
@[simp] theorem Engine.setK_codelen (g : Engine) (k : BitVec 9) : (g.setK k).codelen = g.codelen := rfl
@[simp] theorem Engine.setK_codepat (g : Engine) (k : BitVec 9) : (g.setK k).codepat = g.codepat := rfl
@[simp] theorem Engine.setK_cgstack (g : Engine) (k : BitVec 9) : (g.setK k).cgstack = g.cgstack := rfl
@[simp] theorem Engine.setK_acc (g : Engine) (k : BitVec 9) : (g.setK k).acc = g.acc := rfl
@[simp] theorem Engine.setK_nacc (g : Engine) (k : BitVec 9) : (g.setK k).nacc = g.nacc := rfl
@[simp] theorem Engine.setK_nbits (g : Engine) (k : BitVec 9) : (g.setK k).nbits = g.nbits := rfl
@[simp] theorem Engine.setK_wbase (g : Engine) (k : BitVec 9) : (g.setK k).wbase = g.wbase := rfl
@[simp] theorem Engine.setK_wpos (g : Engine) (k : BitVec 9) : (g.setK k).wpos = g.wpos := rfl
@[simp] theorem Engine.setK_rbase (g : Engine) (k : BitVec 9) : (g.setK k).rbase = g.rbase := rfl
@[simp] theorem Engine.setK_rpos (g : Engine) (k : BitVec 9) : (g.setK k).rpos = g.rpos := rfl
@[simp] theorem Engine.setK_cur (g : Engine) (k : BitVec 9) : (g.setK k).cur = g.cur := rfl
@[simp] theorem Engine.setK_ret (g : Engine) (k : BitVec 9) : (g.setK k).ret = g.ret := rfl
@[simp] theorem Engine.setRoot_fsm (g : Engine) (n : Option NodeRef) : (g.setRoot n).fsm = g.fsm := rfl
@[simp] theorem Engine.setRoot_phase (g : Engine) (n : Option NodeRef) : (g.setRoot n).phase = g.phase := rfl
@[simp] theorem Engine.setRoot_op (g : Engine) (n : Option NodeRef) : (g.setRoot n).op = g.op := rfl
@[simp] theorem Engine.setRoot_src (g : Engine) (n : Option NodeRef) : (g.setRoot n).src = g.src := rfl
@[simp] theorem Engine.setRoot_len (g : Engine) (n : Option NodeRef) : (g.setRoot n).len = g.len := rfl
@[simp] theorem Engine.setRoot_dst (g : Engine) (n : Option NodeRef) : (g.setRoot n).dst = g.dst := rfl
@[simp] theorem Engine.setRoot_cap (g : Engine) (n : Option NodeRef) : (g.setRoot n).cap = g.cap := rfl
@[simp] theorem Engine.setRoot_i (g : Engine) (n : Option NodeRef) : (g.setRoot n).i = g.i := rfl
@[simp] theorem Engine.setRoot_k (g : Engine) (n : Option NodeRef) : (g.setRoot n).k = g.k := rfl
@[simp] theorem Engine.setRoot_origlen (g : Engine) (n : Option NodeRef) : (g.setRoot n).origlen = g.origlen := rfl
@[simp] theorem Engine.setRoot_bitlen (g : Engine) (n : Option NodeRef) : (g.setRoot n).bitlen = g.bitlen := rfl
@[simp] theorem Engine.setRoot_total (g : Engine) (n : Option NodeRef) : (g.setRoot n).total = g.total := rfl
@[simp] theorem Engine.setRoot_csize (g : Engine) (n : Option NodeRef) : (g.setRoot n).csize = g.csize := rfl
@[simp] theorem Engine.setRoot_hsize (g : Engine) (n : Option NodeRef) : (g.setRoot n).hsize = g.hsize := rfl
@[simp] theorem Engine.setRoot_sum (g : Engine) (n : Option NodeRef) : (g.setRoot n).sum = g.sum := rfl
@[simp] theorem Engine.setRoot_j (g : Engine) (n : Option NodeRef) : (g.setRoot n).j = g.j := rfl
@[simp] theorem Engine.setRoot_hpos (g : Engine) (n : Option NodeRef) : (g.setRoot n).hpos = g.hpos := rfl
@[simp] theorem Engine.setRoot_e (g : Engine) (n : Option NodeRef) : (g.setRoot n).e = g.e := rfl
@[simp] theorem Engine.setRoot_freq (g : Engine) (n : Option NodeRef) : (g.setRoot n).freq = g.freq := rfl
@[simp] theorem Engine.setRoot_node (g : Engine) (n : Option NodeRef) : (g.setRoot n).node = g.node := rfl
@[simp] theorem Engine.setRoot_nn (g : Engine) (n : Option NodeRef) : (g.setRoot n).nn = g.nn := rfl
@[simp] theorem Engine.setRoot_pq (g : Engine) (n : Option NodeRef) : (g.setRoot n).pq = g.pq := rfl
@[simp] theorem Engine.setRoot_root (g : Engine) (n : Option NodeRef) : (g.setRoot n).root = n := rfl
@[simp] theorem Engine.setRoot_codelen (g : Engine) (n : Option NodeRef) : (g.setRoot n).codelen = g.codelen := rfl
@[simp] theorem Engine.setRoot_codepat (g : Engine) (n : Option NodeRef) : (g.setRoot n).codepat = g.codepat := rfl
@[simp] theorem Engine.setRoot_cgstack (g : Engine) (n : Option NodeRef) : (g.setRoot n).cgstack = g.cgstack := rfl
@[simp] theorem Engine.setRoot_acc (g : Engine) (n : Option NodeRef) : (g.setRoot n).acc = g.acc := rfl
@[simp] theorem Engine.setRoot_nacc (g : Engine) (n : Option NodeRef) : (g.setRoot n).nacc = g.nacc := rfl
@[simp] theorem Engine.setRoot_nbits (g : Engine) (n : Option NodeRef) : (g.setRoot n).nbits = g.nbits := rfl
@[simp] theorem Engine.setRoot_wbase (g : Engine) (n : Option NodeRef) : (g.setRoot n).wbase = g.wbase := rfl
@[simp] theorem Engine.setRoot_wpos (g : Engine) (n : Option NodeRef) : (g.setRoot n).wpos = g.wpos := rfl
@[simp] theorem Engine.setRoot_rbase (g : Engine) (n : Option NodeRef) : (g.setRoot n).rbase = g.rbase := rfl
@[simp] theorem Engine.setRoot_rpos (g : Engine) (n : Option NodeRef) : (g.setRoot n).rpos = g.rpos := rfl
@[simp] theorem Engine.setRoot_cur (g : Engine) (n : Option NodeRef) : (g.setRoot n).cur = g.cur := rfl
@[simp] theorem Engine.setRoot_ret (g : Engine) (n : Option NodeRef) : (g.setRoot n).ret = g.ret := rfl
@[simp] theorem Engine.setStack_fsm (g : Engine) (l : List CgEntry) : (g.setStack l).fsm = g.fsm := rfl
@[simp] theorem Engine.setStack_phase (g : Engine) (l : List CgEntry) : (g.setStack l).phase = g.phase := rfl
@[simp] theorem Engine.setStack_op (g : Engine) (l : List CgEntry) : (g.setStack l).op = g.op := rfl
@[simp] theorem Engine.setStack_src (g : Engine) (l : List CgEntry) : (g.setStack l).src = g.src := rfl
@[simp] theorem Engine.setStack_len (g : Engine) (l : List CgEntry) : (g.setStack l).len = g.len := rfl
@[simp] theorem Engine.setStack_dst (g : Engine) (l : List CgEntry) : (g.setStack l).dst = g.dst := rfl
@[simp] theorem Engine.setStack_cap (g : Engine) (l : List CgEntry) : (g.setStack l).cap = g.cap := rfl
@[simp] theorem Engine.setStack_i (g : Engine) (l : List CgEntry) : (g.setStack l).i = g.i := rfl
@[simp] theorem Engine.setStack_k (g : Engine) (l : List CgEntry) : (g.setStack l).k = g.k := rfl
@[simp] theorem Engine.setStack_origlen (g : Engine) (l : List CgEntry) : (g.setStack l).origlen = g.origlen := rfl
@[simp] theorem Engine.setStack_bitlen (g : Engine) (l : List CgEntry) : (g.setStack l).bitlen = g.bitlen := rfl
@[simp] theorem Engine.setStack_total (g : Engine) (l : List CgEntry) : (g.setStack l).total = g.total := rfl
@[simp] theorem Engine.setStack_csize (g : Engine) (l : List CgEntry) : (g.setStack l).csize = g.csize := rfl
@[simp] theorem Engine.setStack_hsize (g : Engine) (l : List CgEntry) : (g.setStack l).hsize = g.hsize := rfl
@[simp] theorem Engine.setStack_sum (g : Engine) (l : List CgEntry) : (g.setStack l).sum = g.sum := rfl
@[simp] theorem Engine.setStack_j (g : Engine) (l : List CgEntry) : (g.setStack l).j = g.j := rfl
@[simp] theorem Engine.setStack_hpos (g : Engine) (l : List CgEntry) : (g.setStack l).hpos = g.hpos := rfl
@[simp] theorem Engine.setStack_e (g : Engine) (l : List CgEntry) : (g.setStack l).e = g.e := rfl
@[simp] theorem Engine.setStack_freq (g : Engine) (l : List CgEntry) : (g.setStack l).freq = g.freq := rfl
@[simp] theorem Engine.setStack_node (g : Engine) (l : List CgEntry) : (g.setStack l).node = g.node := rfl
@[simp] theorem Engine.setStack_nn (g : Engine) (l : List CgEntry) : (g.setStack l).nn = g.nn := rfl
@[simp] theorem Engine.setStack_pq (g : Engine) (l : List CgEntry) : (g.setStack l).pq = g.pq := rfl
@[simp] theorem Engine.setStack_root (g : Engine) (l : List CgEntry) : (g.setStack l).root = g.root := rfl
@[simp] theorem Engine.setStack_codelen (g : Engine) (l : List CgEntry) : (g.setStack l).codelen = g.codelen := rfl
@[simp] theorem Engine.setStack_codepat (g : Engine) (l : List CgEntry) : (g.setStack l).codepat = g.codepat := rfl
@[simp] theorem Engine.setStack_cgstack (g : Engine) (l : List CgEntry) : (g.setStack l).cgstack = l := rfl
@[simp] theorem Engine.setStack_acc (g : Engine) (l : List CgEntry) : (g.setStack l).acc = g.acc := rfl
@[simp] theorem Engine.setStack_nacc (g : Engine) (l : List CgEntry) : (g.setStack l).nacc = g.nacc := rfl
@[simp] theorem Engine.setStack_nbits (g : Engine) (l : List CgEntry) : (g.setStack l).nbits = g.nbits := rfl
@[simp] theorem Engine.setStack_wbase (g : Engine) (l : List CgEntry) : (g.setStack l).wbase = g.wbase := rfl
@[simp] theorem Engine.setStack_wpos (g : Engine) (l : List CgEntry) : (g.setStack l).wpos = g.wpos := rfl
@[simp] theorem Engine.setStack_rbase (g : Engine) (l : List CgEntry) : (g.setStack l).rbase = g.rbase := rfl
@[simp] theorem Engine.setStack_rpos (g : Engine) (l : List CgEntry) : (g.setStack l).rpos = g.rpos := rfl
@[simp] theorem Engine.setStack_cur (g : Engine) (l : List CgEntry) : (g.setStack l).cur = g.cur := rfl
@[simp] theorem Engine.setStack_ret (g : Engine) (l : List CgEntry) : (g.setStack l).ret = g.ret := rfl
@[simp] theorem Engine.setCur_fsm (g : Engine) (n : Option NodeRef) : (g.setCur n).fsm = g.fsm := rfl
@[simp] theorem Engine.setCur_phase (g : Engine) (n : Option NodeRef) : (g.setCur n).phase = g.phase := rfl
@[simp] theorem Engine.setCur_op (g : Engine) (n : Option NodeRef) : (g.setCur n).op = g.op := rfl
@[simp] theorem Engine.setCur_src (g : Engine) (n : Option NodeRef) : (g.setCur n).src = g.src := rfl
@[simp] theorem Engine.setCur_len (g : Engine) (n : Option NodeRef) : (g.setCur n).len = g.len := rfl
@[simp] theorem Engine.setCur_dst (g : Engine) (n : Option NodeRef) : (g.setCur n).dst = g.dst := rfl
@[simp] theorem Engine.setCur_cap (g : Engine) (n : Option NodeRef) : (g.setCur n).cap = g.cap := rfl
@[simp] theorem Engine.setCur_i (g : Engine) (n : Option NodeRef) : (g.setCur n).i = g.i := rfl
@[simp] theorem Engine.setCur_k (g : Engine) (n : Option NodeRef) : (g.setCur n).k = g.k := rfl
@[simp] theorem Engine.setCur_origlen (g : Engine) (n : Option NodeRef) : (g.setCur n).origlen = g.origlen := rfl
@[simp] theorem Engine.setCur_bitlen (g : Engine) (n : Option NodeRef) : (g.setCur n).bitlen = g.bitlen := rfl
@[simp] theorem Engine.setCur_total (g : Engine) (n : Option NodeRef) : (g.setCur n).total = g.total := rfl
@[simp] theorem Engine.setCur_csize (g : Engine) (n : Option NodeRef) : (g.setCur n).csize = g.csize := rfl
@[simp] theorem Engine.setCur_hsize (g : Engine) (n : Option NodeRef) : (g.setCur n).hsize = g.hsize := rfl
@[simp] theorem Engine.setCur_sum (g : Engine) (n : Option NodeRef) : (g.setCur n).sum = g.sum := rfl
@[simp] theorem Engine.setCur_j (g : Engine) (n : Option NodeRef) : (g.setCur n).j = g.j := rfl
@[simp] theorem Engine.setCur_hpos (g : Engine) (n : Option NodeRef) : (g.setCur n).hpos = g.hpos := rfl
@[simp] theorem Engine.setCur_e (g : Engine) (n : Option NodeRef) : (g.setCur n).e = g.e := rfl
@[simp] theorem Engine.setCur_freq (g : Engine) (n : Option NodeRef) : (g.setCur n).freq = g.freq := rfl
@[simp] theorem Engine.setCur_node (g : Engine) (n : Option NodeRef) : (g.setCur n).node = g.node := rfl
@[simp] theorem Engine.setCur_nn (g : Engine) (n : Option NodeRef) : (g.setCur n).nn = g.nn := rfl
@[simp] theorem Engine.setCur_pq (g : Engine) (n : Option NodeRef) : (g.setCur n).pq = g.pq := rfl
@[simp] theorem Engine.setCur_root (g : Engine) (n : Option NodeRef) : (g.setCur n).root = g.root := rfl
@[simp] theorem Engine.setCur_codelen (g : Engine) (n : Option NodeRef) : (g.setCur n).codelen = g.codelen := rfl
@[simp] theorem Engine.setCur_codepat (g : Engine) (n : Option NodeRef) : (g.setCur n).codepat = g.codepat := rfl
@[simp] theorem Engine.setCur_cgstack (g : Engine) (n : Option NodeRef) : (g.setCur n).cgstack = g.cgstack := rfl
@[simp] theorem Engine.setCur_acc (g : Engine) (n : Option NodeRef) : (g.setCur n).acc = g.acc := rfl
@[simp] theorem Engine.setCur_nacc (g : Engine) (n : Option NodeRef) : (g.setCur n).nacc = g.nacc := rfl
@[simp] theorem Engine.setCur_nbits (g : Engine) (n : Option NodeRef) : (g.setCur n).nbits = g.nbits := rfl
@[simp] theorem Engine.setCur_wbase (g : Engine) (n : Option NodeRef) : (g.setCur n).wbase = g.wbase := rfl
@[simp] theorem Engine.setCur_wpos (g : Engine) (n : Option NodeRef) : (g.setCur n).wpos = g.wpos := rfl
@[simp] theorem Engine.setCur_rbase (g : Engine) (n : Option NodeRef) : (g.setCur n).rbase = g.rbase := rfl
@[simp] theorem Engine.setCur_rpos (g : Engine) (n : Option NodeRef) : (g.setCur n).rpos = g.rpos := rfl
@[simp] theorem Engine.setCur_cur (g : Engine) (n : Option NodeRef) : (g.setCur n).cur = n := rfl
@[simp] theorem Engine.setCur_ret (g : Engine) (n : Option NodeRef) : (g.setCur n).ret = g.ret := rfl
@[simp] theorem Engine.nextI_fsm (g : Engine) : (g.nextI).fsm = g.fsm := rfl
@[simp] theorem Engine.nextI_phase (g : Engine) : (g.nextI).phase = g.phase := rfl
@[simp] theorem Engine.nextI_op (g : Engine) : (g.nextI).op = g.op := rfl
@[simp] theorem Engine.nextI_src (g : Engine) : (g.nextI).src = g.src := rfl
@[simp] theorem Engine.nextI_len (g : Engine) : (g.nextI).len = g.len := rfl
@[simp] theorem Engine.nextI_dst (g : Engine) : (g.nextI).dst = g.dst := rfl
@[simp] theorem Engine.nextI_cap (g : Engine) : (g.nextI).cap = g.cap := rfl
@[simp] theorem Engine.nextI_i (g : Engine) : (g.nextI).i = g.i + 1 := rfl
@[simp] theorem Engine.nextI_k (g : Engine) : (g.nextI).k = g.k := rfl
@[simp] theorem Engine.nextI_origlen (g : Engine) : (g.nextI).origlen = g.origlen := rfl
@[simp] theorem Engine.nextI_bitlen (g : Engine) : (g.nextI).bitlen = g.bitlen := rfl
@[simp] theorem Engine.nextI_total (g : Engine) : (g.nextI).total = g.total := rfl
@[simp] theorem Engine.nextI_csize (g : Engine) : (g.nextI).csize = g.csize := rfl
@[simp] theorem Engine.nextI_hsize (g : Engine) : (g.nextI).hsize = g.hsize := rfl
@[simp] theorem Engine.nextI_sum (g : Engine) : (g.nextI).sum = g.sum := rfl
@[simp] theorem Engine.nextI_j (g : Engine) : (g.nextI).j = g.j := rfl
@[simp] theorem Engine.nextI_hpos (g : Engine) : (g.nextI).hpos = g.hpos := rfl
@[simp] theorem Engine.nextI_e (g : Engine) : (g.nextI).e = g.e := rfl
@[simp] theorem Engine.nextI_freq (g : Engine) : (g.nextI).freq = g.freq := rfl
@[simp] theorem Engine.nextI_node (g : Engine) : (g.nextI).node = g.node := rfl
@[simp] theorem Engine.nextI_nn (g : Engine) : (g.nextI).nn = g.nn := rfl
@[simp] theorem Engine.nextI_pq (g : Engine) : (g.nextI).pq = g.pq := rfl
@[simp] theorem Engine.nextI_root (g : Engine) : (g.nextI).root = g.root := rfl
@[simp] theorem Engine.nextI_codelen (g : Engine) : (g.nextI).codelen = g.codelen := rfl
@[simp] theorem Engine.nextI_codepat (g : Engine) : (g.nextI).codepat = g.codepat := rfl
@[simp] theorem Engine.nextI_cgstack (g : Engine) : (g.nextI).cgstack = g.cgstack := rfl
@[simp] theorem Engine.nextI_acc (g : Engine) : (g.nextI).acc = g.acc := rfl
@[simp] theorem Engine.nextI_nacc (g : Engine) : (g.nextI).nacc = g.nacc := rfl
@[simp] theorem Engine.nextI_nbits (g : Engine) : (g.nextI).nbits = g.nbits := rfl
@[simp] theorem Engine.nextI_wbase (g : Engine) : (g.nextI).wbase = g.wbase := rfl
@[simp] theorem Engine.nextI_wpos (g : Engine) : (g.nextI).wpos = g.wpos := rfl
@[simp] theorem Engine.nextI_rbase (g : Engine) : (g.nextI).rbase = g.rbase := rfl
@[simp] theorem Engine.nextI_rpos (g : Engine) : (g.nextI).rpos = g.rpos := rfl
@[simp] theorem Engine.nextI_cur (g : Engine) : (g.nextI).cur = g.cur := rfl
@[simp] theorem Engine.nextI_ret (g : Engine) : (g.nextI).ret = g.ret := rfl
@[simp] theorem Engine.nextJ_fsm (g : Engine) : (g.nextJ).fsm = g.fsm := rfl
@[simp] theorem Engine.nextJ_phase (g : Engine) : (g.nextJ).phase = g.phase := rfl
@[simp] theorem Engine.nextJ_op (g : Engine) : (g.nextJ).op = g.op := rfl
@[simp] theorem Engine.nextJ_src (g : Engine) : (g.nextJ).src = g.src := rfl
@[simp] theorem Engine.nextJ_len (g : Engine) : (g.nextJ).len = g.len := rfl
@[simp] theorem Engine.nextJ_dst (g : Engine) : (g.nextJ).dst = g.dst := rfl
@[simp] theorem Engine.nextJ_cap (g : Engine) : (g.nextJ).cap = g.cap := rfl
@[simp] theorem Engine.nextJ_i (g : Engine) : (g.nextJ).i = g.i := rfl
@[simp] theorem Engine.nextJ_k (g : Engine) : (g.nextJ).k = g.k := rfl
@[simp] theorem Engine.nextJ_origlen (g : Engine) : (g.nextJ).origlen = g.origlen := rfl
@[simp] theorem Engine.nextJ_bitlen (g : Engine) : (g.nextJ).bitlen = g.bitlen := rfl
@[simp] theorem Engine.nextJ_total (g : Engine) : (g.nextJ).total = g.total := rfl
@[simp] theorem Engine.nextJ_csize (g : Engine) : (g.nextJ).csize = g.csize := rfl
@[simp] theorem Engine.nextJ_hsize (g : Engine) : (g.nextJ).hsize = g.hsize := rfl
@[simp] theorem Engine.nextJ_sum (g : Engine) : (g.nextJ).sum = g.sum := rfl
@[simp] theorem Engine.nextJ_j (g : Engine) : (g.nextJ).j = g.j + 1 := rfl
@[simp] theorem Engine.nextJ_hpos (g : Engine) : (g.nextJ).hpos = g.hpos := rfl
@[simp] theorem Engine.nextJ_e (g : Engine) : (g.nextJ).e = g.e := rfl
@[simp] theorem Engine.nextJ_freq (g : Engine) : (g.nextJ).freq = g.freq := rfl
@[simp] theorem Engine.nextJ_node (g : Engine) : (g.nextJ).node = g.node := rfl
@[simp] theorem Engine.nextJ_nn (g : Engine) : (g.nextJ).nn = g.nn := rfl
@[simp] theorem Engine.nextJ_pq (g : Engine) : (g.nextJ).pq = g.pq := rfl
@[simp] theorem Engine.nextJ_root (g : Engine) : (g.nextJ).root = g.root := rfl
@[simp] theorem Engine.nextJ_codelen (g : Engine) : (g.nextJ).codelen = g.codelen := rfl
@[simp] theorem Engine.nextJ_codepat (g : Engine) : (g.nextJ).codepat = g.codepat := rfl
@[simp] theorem Engine.nextJ_cgstack (g : Engine) : (g.nextJ).cgstack = g.cgstack := rfl
@[simp] theorem Engine.nextJ_acc (g : Engine) : (g.nextJ).acc = g.acc := rfl
@[simp] theorem Engine.nextJ_nacc (g : Engine) : (g.nextJ).nacc = g.nacc := rfl
@[simp] theorem Engine.nextJ_nbits (g : Engine) : (g.nextJ).nbits = g.nbits := rfl
@[simp] theorem Engine.nextJ_wbase (g : Engine) : (g.nextJ).wbase = g.wbase := rfl
@[simp] theorem Engine.nextJ_wpos (g : Engine) : (g.nextJ).wpos = g.wpos := rfl
@[simp] theorem Engine.nextJ_rbase (g : Engine) : (g.nextJ).rbase = g.rbase := rfl
@[simp] theorem Engine.nextJ_rpos (g : Engine) : (g.nextJ).rpos = g.rpos := rfl
@[simp] theorem Engine.nextJ_cur (g : Engine) : (g.nextJ).cur = g.cur := rfl
@[simp] theorem Engine.nextJ_ret (g : Engine) : (g.nextJ).ret = g.ret := rfl
@[simp] theorem Engine.nextHpos_fsm (g : Engine) : (g.nextHpos).fsm = g.fsm := rfl
@[simp] theorem Engine.nextHpos_phase (g : Engine) : (g.nextHpos).phase = g.phase := rfl
@[simp] theorem Engine.nextHpos_op (g : Engine) : (g.nextHpos).op = g.op := rfl
@[simp] theorem Engine.nextHpos_src (g : Engine) : (g.nextHpos).src = g.src := rfl
@[simp] theorem Engine.nextHpos_len (g : Engine) : (g.nextHpos).len = g.len := rfl
@[simp] theorem Engine.nextHpos_dst (g : Engine) : (g.nextHpos).dst = g.dst := rfl
@[simp] theorem Engine.nextHpos_cap (g : Engine) : (g.nextHpos).cap = g.cap := rfl
@[simp] theorem Engine.nextHpos_i (g : Engine) : (g.nextHpos).i = g.i := rfl
@[simp] theorem Engine.nextHpos_k (g : Engine) : (g.nextHpos).k = g.k := rfl
@[simp] theorem Engine.nextHpos_origlen (g : Engine) : (g.nextHpos).origlen = g.origlen := rfl
@[simp] theorem Engine.nextHpos_bitlen (g : Engine) : (g.nextHpos).bitlen = g.bitlen := rfl
@[simp] theorem Engine.nextHpos_total (g : Engine) : (g.nextHpos).total = g.total := rfl
@[simp] theorem Engine.nextHpos_csize (g : Engine) : (g.nextHpos).csize = g.csize := rfl
@[simp] theorem Engine.nextHpos_hsize (g : Engine) : (g.nextHpos).hsize = g.hsize := rfl
@[simp] theorem Engine.nextHpos_sum (g : Engine) : (g.nextHpos).sum = g.sum := rfl
@[simp] theorem Engine.nextHpos_j (g : Engine) : (g.nextHpos).j = g.j := rfl
@[simp] theorem Engine.nextHpos_hpos (g : Engine) : (g.nextHpos).hpos = g.hpos + 1 := rfl
@[simp] theorem Engine.nextHpos_e (g : Engine) : (g.nextHpos).e = g.e := rfl
@[simp] theorem Engine.nextHpos_freq (g : Engine) : (g.nextHpos).freq = g.freq := rfl
@[simp] theorem Engine.nextHpos_node (g : Engine) : (g.nextHpos).node = g.node := rfl
@[simp] theorem Engine.nextHpos_nn (g : Engine) : (g.nextHpos).nn = g.nn := rfl
@[simp] theorem Engine.nextHpos_pq (g : Engine) : (g.nextHpos).pq = g.pq := rfl
@[simp] theorem Engine.nextHpos_root (g : Engine) : (g.nextHpos).root = g.root := rfl
@[simp] theorem Engine.nextHpos_codelen (g : Engine) : (g.nextHpos).codelen = g.codelen := rfl
@[simp] theorem Engine.nextHpos_codepat (g : Engine) : (g.nextHpos).codepat = g.codepat := rfl
@[simp] theorem Engine.nextHpos_cgstack (g : Engine) : (g.nextHpos).cgstack = g.cgstack := rfl
@[simp] theorem Engine.nextHpos_acc (g : Engine) : (g.nextHpos).acc = g.acc := rfl
@[simp] theorem Engine.nextHpos_nacc (g : Engine) : (g.nextHpos).nacc = g.nacc := rfl
@[simp] theorem Engine.nextHpos_nbits (g : Engine) : (g.nextHpos).nbits = g.nbits := rfl
@[simp] theorem Engine.nextHpos_wbase (g : Engine) : (g.nextHpos).wbase = g.wbase := rfl
@[simp] theorem Engine.nextHpos_wpos (g : Engine) : (g.nextHpos).wpos = g.wpos := rfl
@[simp] theorem Engine.nextHpos_rbase (g : Engine) : (g.nextHpos).rbase = g.rbase := rfl
@[simp] theorem Engine.nextHpos_rpos (g : Engine) : (g.nextHpos).rpos = g.rpos := rfl
@[simp] theorem Engine.nextHpos_cur (g : Engine) : (g.nextHpos).cur = g.cur := rfl
@[simp] theorem Engine.nextHpos_ret (g : Engine) : (g.nextHpos).ret = g.ret := rfl
@[simp] theorem Engine.nextRpos_fsm (g : Engine) : (g.nextRpos).fsm = g.fsm := rfl
@[simp] theorem Engine.nextRpos_phase (g : Engine) : (g.nextRpos).phase = g.phase := rfl
@[simp] theorem Engine.nextRpos_op (g : Engine) : (g.nextRpos).op = g.op := rfl
@[simp] theorem Engine.nextRpos_src (g : Engine) : (g.nextRpos).src = g.src := rfl
@[simp] theorem Engine.nextRpos_len (g : Engine) : (g.nextRpos).len = g.len := rfl
@[simp] theorem Engine.nextRpos_dst (g : Engine) : (g.nextRpos).dst = g.dst := rfl
@[simp] theorem Engine.nextRpos_cap (g : Engine) : (g.nextRpos).cap = g.cap := rfl
@[simp] theorem Engine.nextRpos_i (g : Engine) : (g.nextRpos).i = g.i := rfl
@[simp] theorem Engine.nextRpos_k (g : Engine) : (g.nextRpos).k = g.k := rfl
@[simp] theorem Engine.nextRpos_origlen (g : Engine) : (g.nextRpos).origlen = g.origlen := rfl
@[simp] theorem Engine.nextRpos_bitlen (g : Engine) : (g.nextRpos).bitlen = g.bitlen := rfl
@[simp] theorem Engine.nextRpos_total (g : Engine) : (g.nextRpos).total = g.total := rfl
@[simp] theorem Engine.nextRpos_csize (g : Engine) : (g.nextRpos).csize = g.csize := rfl
@[simp] theorem Engine.nextRpos_hsize (g : Engine) : (g.nextRpos).hsize = g.hsize := rfl
@[simp] theorem Engine.nextRpos_sum (g : Engine) : (g.nextRpos).sum = g.sum := rfl
@[simp] theorem Engine.nextRpos_j (g : Engine) : (g.nextRpos).j = g.j := rfl
@[simp] theorem Engine.nextRpos_hpos (g : Engine) : (g.nextRpos).hpos = g.hpos := rfl
@[simp] theorem Engine.nextRpos_e (g : Engine) : (g.nextRpos).e = g.e := rfl
@[simp] theorem Engine.nextRpos_freq (g : Engine) : (g.nextRpos).freq = g.freq := rfl
@[simp] theorem Engine.nextRpos_node (g : Engine) : (g.nextRpos).node = g.node := rfl
@[simp] theorem Engine.nextRpos_nn (g : Engine) : (g.nextRpos).nn = g.nn := rfl
@[simp] theorem Engine.nextRpos_pq (g : Engine) : (g.nextRpos).pq = g.pq := rfl
@[simp] theorem Engine.nextRpos_root (g : Engine) : (g.nextRpos).root = g.root := rfl
@[simp] theorem Engine.nextRpos_codelen (g : Engine) : (g.nextRpos).codelen = g.codelen := rfl
@[simp] theorem Engine.nextRpos_codepat (g : Engine) : (g.nextRpos).codepat = g.codepat := rfl
@[simp] theorem Engine.nextRpos_cgstack (g : Engine) : (g.nextRpos).cgstack = g.cgstack := rfl
@[simp] theorem Engine.nextRpos_acc (g : Engine) : (g.nextRpos).acc = g.acc := rfl
@[simp] theorem Engine.nextRpos_nacc (g : Engine) : (g.nextRpos).nacc = g.nacc := rfl
@[simp] theorem Engine.nextRpos_nbits (g : Engine) : (g.nextRpos).nbits = g.nbits := rfl
@[simp] theorem Engine.nextRpos_wbase (g : Engine) : (g.nextRpos).wbase = g.wbase := rfl
@[simp] theorem Engine.nextRpos_wpos (g : Engine) : (g.nextRpos).wpos = g.wpos := rfl
@[simp] theorem Engine.nextRpos_rbase (g : Engine) : (g.nextRpos).rbase = g.rbase := rfl
@[simp] theorem Engine.nextRpos_rpos (g : Engine) : (g.nextRpos).rpos = g.rpos + 1 := rfl
@[simp] theorem Engine.nextRpos_cur (g : Engine) : (g.nextRpos).cur = g.cur := rfl
@[simp] theorem Engine.nextRpos_ret (g : Engine) : (g.nextRpos).ret = g.ret := rfl
@[simp] theorem Engine.setTotal_fsm (g : Engine) (t : DWord) : (g.setTotal t).fsm = g.fsm := rfl
@[simp] theorem Engine.setTotal_phase (g : Engine) (t : DWord) : (g.setTotal t).phase = g.phase := rfl
@[simp] theorem Engine.setTotal_op (g : Engine) (t : DWord) : (g.setTotal t).op = g.op := rfl
@[simp] theorem Engine.setTotal_src (g : Engine) (t : DWord) : (g.setTotal t).src = g.src := rfl
@[simp] theorem Engine.setTotal_len (g : Engine) (t : DWord) : (g.setTotal t).len = g.len := rfl
@[simp] theorem Engine.setTotal_dst (g : Engine) (t : DWord) : (g.setTotal t).dst = g.dst := rfl
@[simp] theorem Engine.setTotal_cap (g : Engine) (t : DWord) : (g.setTotal t).cap = g.cap := rfl
@[simp] theorem Engine.setTotal_i (g : Engine) (t : DWord) : (g.setTotal t).i = g.i := rfl
@[simp] theorem Engine.setTotal_k (g : Engine) (t : DWord) : (g.setTotal t).k = g.k := rfl
@[simp] theorem Engine.setTotal_origlen (g : Engine) (t : DWord) : (g.setTotal t).origlen = g.origlen := rfl
@[simp] theorem Engine.setTotal_bitlen (g : Engine) (t : DWord) : (g.setTotal t).bitlen = g.bitlen := rfl
@[simp] theorem Engine.setTotal_total (g : Engine) (t : DWord) : (g.setTotal t).total = t := rfl
@[simp] theorem Engine.setTotal_csize (g : Engine) (t : DWord) : (g.setTotal t).csize = g.csize := rfl
@[simp] theorem Engine.setTotal_hsize (g : Engine) (t : DWord) : (g.setTotal t).hsize = g.hsize := rfl
@[simp] theorem Engine.setTotal_sum (g : Engine) (t : DWord) : (g.setTotal t).sum = g.sum := rfl
@[simp] theorem Engine.setTotal_j (g : Engine) (t : DWord) : (g.setTotal t).j = g.j := rfl
@[simp] theorem Engine.setTotal_hpos (g : Engine) (t : DWord) : (g.setTotal t).hpos = g.hpos := rfl
@[simp] theorem Engine.setTotal_e (g : Engine) (t : DWord) : (g.setTotal t).e = g.e := rfl
@[simp] theorem Engine.setTotal_freq (g : Engine) (t : DWord) : (g.setTotal t).freq = g.freq := rfl
@[simp] theorem Engine.setTotal_node (g : Engine) (t : DWord) : (g.setTotal t).node = g.node := rfl
@[simp] theorem Engine.setTotal_nn (g : Engine) (t : DWord) : (g.setTotal t).nn = g.nn := rfl
@[simp] theorem Engine.setTotal_pq (g : Engine) (t : DWord) : (g.setTotal t).pq = g.pq := rfl
@[simp] theorem Engine.setTotal_root (g : Engine) (t : DWord) : (g.setTotal t).root = g.root := rfl
@[simp] theorem Engine.setTotal_codelen (g : Engine) (t : DWord) : (g.setTotal t).codelen = g.codelen := rfl
@[simp] theorem Engine.setTotal_codepat (g : Engine) (t : DWord) : (g.setTotal t).codepat = g.codepat := rfl
@[simp] theorem Engine.setTotal_cgstack (g : Engine) (t : DWord) : (g.setTotal t).cgstack = g.cgstack := rfl
@[simp] theorem Engine.setTotal_acc (g : Engine) (t : DWord) : (g.setTotal t).acc = g.acc := rfl
@[simp] theorem Engine.setTotal_nacc (g : Engine) (t : DWord) : (g.setTotal t).nacc = g.nacc := rfl
@[simp] theorem Engine.setTotal_nbits (g : Engine) (t : DWord) : (g.setTotal t).nbits = g.nbits := rfl
@[simp] theorem Engine.setTotal_wbase (g : Engine) (t : DWord) : (g.setTotal t).wbase = g.wbase := rfl
@[simp] theorem Engine.setTotal_wpos (g : Engine) (t : DWord) : (g.setTotal t).wpos = g.wpos := rfl
@[simp] theorem Engine.setTotal_rbase (g : Engine) (t : DWord) : (g.setTotal t).rbase = g.rbase := rfl
@[simp] theorem Engine.setTotal_rpos (g : Engine) (t : DWord) : (g.setTotal t).rpos = g.rpos := rfl
@[simp] theorem Engine.setTotal_cur (g : Engine) (t : DWord) : (g.setTotal t).cur = g.cur := rfl
@[simp] theorem Engine.setTotal_ret (g : Engine) (t : DWord) : (g.setTotal t).ret = g.ret := rfl
@[simp] theorem Engine.setRet_fsm (g : Engine) (x : MicroResult) : (g.setRet x).fsm = g.fsm := rfl
@[simp] theorem Engine.setRet_phase (g : Engine) (x : MicroResult) : (g.setRet x).phase = g.phase := rfl
@[simp] theorem Engine.setRet_op (g : Engine) (x : MicroResult) : (g.setRet x).op = g.op := rfl
@[simp] theorem Engine.setRet_src (g : Engine) (x : MicroResult) : (g.setRet x).src = g.src := rfl
@[simp] theorem Engine.setRet_len (g : Engine) (x : MicroResult) : (g.setRet x).len = g.len := rfl
@[simp] theorem Engine.setRet_dst (g : Engine) (x : MicroResult) : (g.setRet x).dst = g.dst := rfl
@[simp] theorem Engine.setRet_cap (g : Engine) (x : MicroResult) : (g.setRet x).cap = g.cap := rfl
@[simp] theorem Engine.setRet_i (g : Engine) (x : MicroResult) : (g.setRet x).i = g.i := rfl
@[simp] theorem Engine.setRet_k (g : Engine) (x : MicroResult) : (g.setRet x).k = g.k := rfl
@[simp] theorem Engine.setRet_origlen (g : Engine) (x : MicroResult) : (g.setRet x).origlen = g.origlen := rfl
@[simp] theorem Engine.setRet_bitlen (g : Engine) (x : MicroResult) : (g.setRet x).bitlen = g.bitlen := rfl
@[simp] theorem Engine.setRet_total (g : Engine) (x : MicroResult) : (g.setRet x).total = g.total := rfl
@[simp] theorem Engine.setRet_csize (g : Engine) (x : MicroResult) : (g.setRet x).csize = g.csize := rfl
@[simp] theorem Engine.setRet_hsize (g : Engine) (x : MicroResult) : (g.setRet x).hsize = g.hsize := rfl
@[simp] theorem Engine.setRet_sum (g : Engine) (x : MicroResult) : (g.setRet x).sum = g.sum := rfl
@[simp] theorem Engine.setRet_j (g : Engine) (x : MicroResult) : (g.setRet x).j = g.j := rfl
@[simp] theorem Engine.setRet_hpos (g : Engine) (x : MicroResult) : (g.setRet x).hpos = g.hpos := rfl
@[simp] theorem Engine.setRet_e (g : Engine) (x : MicroResult) : (g.setRet x).e = g.e := rfl
@[simp] theorem Engine.setRet_freq (g : Engine) (x : MicroResult) : (g.setRet x).freq = g.freq := rfl
@[simp] theorem Engine.setRet_node (g : Engine) (x : MicroResult) : (g.setRet x).node = g.node := rfl
@[simp] theorem Engine.setRet_nn (g : Engine) (x : MicroResult) : (g.setRet x).nn = g.nn := rfl
@[simp] theorem Engine.setRet_pq (g : Engine) (x : MicroResult) : (g.setRet x).pq = g.pq := rfl
@[simp] theorem Engine.setRet_root (g : Engine) (x : MicroResult) : (g.setRet x).root = g.root := rfl
@[simp] theorem Engine.setRet_codelen (g : Engine) (x : MicroResult) : (g.setRet x).codelen = g.codelen := rfl
@[simp] theorem Engine.setRet_codepat (g : Engine) (x : MicroResult) : (g.setRet x).codepat = g.codepat := rfl
@[simp] theorem Engine.setRet_cgstack (g : Engine) (x : MicroResult) : (g.setRet x).cgstack = g.cgstack := rfl
@[simp] theorem Engine.setRet_acc (g : Engine) (x : MicroResult) : (g.setRet x).acc = g.acc := rfl
@[simp] theorem Engine.setRet_nacc (g : Engine) (x : MicroResult) : (g.setRet x).nacc = g.nacc := rfl
@[simp] theorem Engine.setRet_nbits (g : Engine) (x : MicroResult) : (g.setRet x).nbits = g.nbits := rfl
@[simp] theorem Engine.setRet_wbase (g : Engine) (x : MicroResult) : (g.setRet x).wbase = g.wbase := rfl
@[simp] theorem Engine.setRet_wpos (g : Engine) (x : MicroResult) : (g.setRet x).wpos = g.wpos := rfl
@[simp] theorem Engine.setRet_rbase (g : Engine) (x : MicroResult) : (g.setRet x).rbase = g.rbase := rfl
@[simp] theorem Engine.setRet_rpos (g : Engine) (x : MicroResult) : (g.setRet x).rpos = g.rpos := rfl
@[simp] theorem Engine.setRet_cur (g : Engine) (x : MicroResult) : (g.setRet x).cur = g.cur := rfl
@[simp] theorem Engine.setRet_ret (g : Engine) (x : MicroResult) : (g.setRet x).ret = x := rfl
@[simp] theorem Engine.singleRoot_fsm (g : Engine) (l : NodeRef) : (g.singleRoot l).fsm = g.fsm := rfl
@[simp] theorem Engine.singleRoot_phase (g : Engine) (l : NodeRef) : (g.singleRoot l).phase = g.phase := rfl
@[simp] theorem Engine.singleRoot_op (g : Engine) (l : NodeRef) : (g.singleRoot l).op = g.op := rfl
@[simp] theorem Engine.singleRoot_src (g : Engine) (l : NodeRef) : (g.singleRoot l).src = g.src := rfl
@[simp] theorem Engine.singleRoot_len (g : Engine) (l : NodeRef) : (g.singleRoot l).len = g.len := rfl
@[simp] theorem Engine.singleRoot_dst (g : Engine) (l : NodeRef) : (g.singleRoot l).dst = g.dst := rfl
@[simp] theorem Engine.singleRoot_cap (g : Engine) (l : NodeRef) : (g.singleRoot l).cap = g.cap := rfl
@[simp] theorem Engine.singleRoot_i (g : Engine) (l : NodeRef) : (g.singleRoot l).i = g.i := rfl
@[simp] theorem Engine.singleRoot_k (g : Engine) (l : NodeRef) : (g.singleRoot l).k = g.k := rfl
@[simp] theorem Engine.singleRoot_origlen (g : Engine) (l : NodeRef) : (g.singleRoot l).origlen = g.origlen := rfl
@[simp] theorem Engine.singleRoot_bitlen (g : Engine) (l : NodeRef) : (g.singleRoot l).bitlen = g.bitlen := rfl
@[simp] theorem Engine.singleRoot_total (g : Engine) (l : NodeRef) : (g.singleRoot l).total = g.total := rfl
@[simp] theorem Engine.singleRoot_csize (g : Engine) (l : NodeRef) : (g.singleRoot l).csize = g.csize := rfl
@[simp] theorem Engine.singleRoot_hsize (g : Engine) (l : NodeRef) : (g.singleRoot l).hsize = g.hsize := rfl
@[simp] theorem Engine.singleRoot_sum (g : Engine) (l : NodeRef) : (g.singleRoot l).sum = g.sum := rfl
@[simp] theorem Engine.singleRoot_j (g : Engine) (l : NodeRef) : (g.singleRoot l).j = g.j := rfl
@[simp] theorem Engine.singleRoot_hpos (g : Engine) (l : NodeRef) : (g.singleRoot l).hpos = g.hpos := rfl
@[simp] theorem Engine.singleRoot_e (g : Engine) (l : NodeRef) : (g.singleRoot l).e = g.e := rfl
@[simp] theorem Engine.singleRoot_freq (g : Engine) (l : NodeRef) : (g.singleRoot l).freq = g.freq := rfl
@[simp] theorem Engine.singleRoot_node (g : Engine) (l : NodeRef) : (g.singleRoot l).node = (g.setNode 1 (Node.single l (g.nodeAt l))).node := rfl
@[simp] theorem Engine.singleRoot_nn (g : Engine) (l : NodeRef) : (g.singleRoot l).nn = 2 := rfl
@[simp] theorem Engine.singleRoot_pq (g : Engine) (l : NodeRef) : (g.singleRoot l).pq = g.pq := rfl
@[simp] theorem Engine.singleRoot_root (g : Engine) (l : NodeRef) : (g.singleRoot l).root = some 1 := rfl
@[simp] theorem Engine.singleRoot_codelen (g : Engine) (l : NodeRef) : (g.singleRoot l).codelen = g.codelen := rfl
@[simp] theorem Engine.singleRoot_codepat (g : Engine) (l : NodeRef) : (g.singleRoot l).codepat = g.codepat := rfl
@[simp] theorem Engine.singleRoot_cgstack (g : Engine) (l : NodeRef) : (g.singleRoot l).cgstack = g.cgstack := rfl
@[simp] theorem Engine.singleRoot_acc (g : Engine) (l : NodeRef) : (g.singleRoot l).acc = g.acc := rfl
@[simp] theorem Engine.singleRoot_nacc (g : Engine) (l : NodeRef) : (g.singleRoot l).nacc = g.nacc := rfl
@[simp] theorem Engine.singleRoot_nbits (g : Engine) (l : NodeRef) : (g.singleRoot l).nbits = g.nbits := rfl
@[simp] theorem Engine.singleRoot_wbase (g : Engine) (l : NodeRef) : (g.singleRoot l).wbase = g.wbase := rfl
@[simp] theorem Engine.singleRoot_wpos (g : Engine) (l : NodeRef) : (g.singleRoot l).wpos = g.wpos := rfl
@[simp] theorem Engine.singleRoot_rbase (g : Engine) (l : NodeRef) : (g.singleRoot l).rbase = g.rbase := rfl
@[simp] theorem Engine.singleRoot_rpos (g : Engine) (l : NodeRef) : (g.singleRoot l).rpos = g.rpos := rfl
@[simp] theorem Engine.singleRoot_cur (g : Engine) (l : NodeRef) : (g.singleRoot l).cur = g.cur := rfl
@[simp] theorem Engine.singleRoot_ret (g : Engine) (l : NodeRef) : (g.singleRoot l).ret = g.ret := rfl
@[simp] theorem Engine.startHeader_fsm (g : Engine) : (g.startHeader).fsm = g.fsm := rfl
@[simp] theorem Engine.startHeader_phase (g : Engine) : (g.startHeader).phase = 1 := rfl
@[simp] theorem Engine.startHeader_op (g : Engine) : (g.startHeader).op = g.op := rfl
@[simp] theorem Engine.startHeader_src (g : Engine) : (g.startHeader).src = g.src := rfl
@[simp] theorem Engine.startHeader_len (g : Engine) : (g.startHeader).len = g.len := rfl
@[simp] theorem Engine.startHeader_dst (g : Engine) : (g.startHeader).dst = g.dst := rfl
@[simp] theorem Engine.startHeader_cap (g : Engine) : (g.startHeader).cap = g.cap := rfl
@[simp] theorem Engine.startHeader_i (g : Engine) : (g.startHeader).i = g.i := rfl
@[simp] theorem Engine.startHeader_k (g : Engine) : (g.startHeader).k = g.k := rfl
@[simp] theorem Engine.startHeader_origlen (g : Engine) : (g.startHeader).origlen = g.origlen := rfl
@[simp] theorem Engine.startHeader_bitlen (g : Engine) : (g.startHeader).bitlen = g.bitlen := rfl
@[simp] theorem Engine.startHeader_total (g : Engine) : (g.startHeader).total = g.total := rfl
@[simp] theorem Engine.startHeader_csize (g : Engine) : (g.startHeader).csize = g.csize := rfl
@[simp] theorem Engine.startHeader_hsize (g : Engine) : (g.startHeader).hsize = g.hsize := rfl
@[simp] theorem Engine.startHeader_sum (g : Engine) : (g.startHeader).sum = g.sum := rfl
@[simp] theorem Engine.startHeader_j (g : Engine) : (g.startHeader).j = g.j := rfl
@[simp] theorem Engine.startHeader_hpos (g : Engine) : (g.startHeader).hpos = 0 := rfl
@[simp] theorem Engine.startHeader_e (g : Engine) : (g.startHeader).e = g.e := rfl
@[simp] theorem Engine.startHeader_freq (g : Engine) : (g.startHeader).freq = g.freq := rfl
@[simp] theorem Engine.startHeader_node (g : Engine) : (g.startHeader).node = g.node := rfl
@[simp] theorem Engine.startHeader_nn (g : Engine) : (g.startHeader).nn = g.nn := rfl
@[simp] theorem Engine.startHeader_pq (g : Engine) : (g.startHeader).pq = g.pq := rfl
@[simp] theorem Engine.startHeader_root (g : Engine) : (g.startHeader).root = g.root := rfl
@[simp] theorem Engine.startHeader_codelen (g : Engine) : (g.startHeader).codelen = g.codelen := rfl
@[simp] theorem Engine.startHeader_codepat (g : Engine) : (g.startHeader).codepat = g.codepat := rfl
@[simp] theorem Engine.startHeader_cgstack (g : Engine) : (g.startHeader).cgstack = g.cgstack := rfl
@[simp] theorem Engine.startHeader_acc (g : Engine) : (g.startHeader).acc = g.acc := rfl
@[simp] theorem Engine.startHeader_nacc (g : Engine) : (g.startHeader).nacc = g.nacc := rfl
@[simp] theorem Engine.startHeader_nbits (g : Engine) : (g.startHeader).nbits = g.nbits := rfl
@[simp] theorem Engine.startHeader_wbase (g : Engine) : (g.startHeader).wbase = g.wbase := rfl
@[simp] theorem Engine.startHeader_wpos (g : Engine) : (g.startHeader).wpos = g.wpos := rfl
@[simp] theorem Engine.startHeader_rbase (g : Engine) : (g.startHeader).rbase = g.rbase := rfl
@[simp] theorem Engine.startHeader_rpos (g : Engine) : (g.startHeader).rpos = g.rpos := rfl
@[simp] theorem Engine.startHeader_cur (g : Engine) : (g.startHeader).cur = g.cur := rfl
@[simp] theorem Engine.startHeader_ret (g : Engine) : (g.startHeader).ret = g.ret := rfl
@[simp] theorem Engine.setOrigLen_fsm (g : Engine) (n : Nat) : (g.setOrigLen n).fsm = g.fsm := rfl
@[simp] theorem Engine.setOrigLen_phase (g : Engine) (n : Nat) : (g.setOrigLen n).phase = 2 := rfl
@[simp] theorem Engine.setOrigLen_op (g : Engine) (n : Nat) : (g.setOrigLen n).op = g.op := rfl
@[simp] theorem Engine.setOrigLen_src (g : Engine) (n : Nat) : (g.setOrigLen n).src = g.src := rfl
@[simp] theorem Engine.setOrigLen_len (g : Engine) (n : Nat) : (g.setOrigLen n).len = g.len := rfl
@[simp] theorem Engine.setOrigLen_dst (g : Engine) (n : Nat) : (g.setOrigLen n).dst = g.dst := rfl
@[simp] theorem Engine.setOrigLen_cap (g : Engine) (n : Nat) : (g.setOrigLen n).cap = g.cap := rfl
@[simp] theorem Engine.setOrigLen_i (g : Engine) (n : Nat) : (g.setOrigLen n).i = g.i := rfl
@[simp] theorem Engine.setOrigLen_k (g : Engine) (n : Nat) : (g.setOrigLen n).k = g.k := rfl
@[simp] theorem Engine.setOrigLen_origlen (g : Engine) (n : Nat) : (g.setOrigLen n).origlen = BitVec.ofNat 64 n := rfl
@[simp] theorem Engine.setOrigLen_bitlen (g : Engine) (n : Nat) : (g.setOrigLen n).bitlen = g.bitlen := rfl
@[simp] theorem Engine.setOrigLen_total (g : Engine) (n : Nat) : (g.setOrigLen n).total = g.total := rfl
@[simp] theorem Engine.setOrigLen_csize (g : Engine) (n : Nat) : (g.setOrigLen n).csize = g.csize := rfl
@[simp] theorem Engine.setOrigLen_hsize (g : Engine) (n : Nat) : (g.setOrigLen n).hsize = g.hsize := rfl
@[simp] theorem Engine.setOrigLen_sum (g : Engine) (n : Nat) : (g.setOrigLen n).sum = g.sum := rfl
@[simp] theorem Engine.setOrigLen_j (g : Engine) (n : Nat) : (g.setOrigLen n).j = g.j := rfl
@[simp] theorem Engine.setOrigLen_hpos (g : Engine) (n : Nat) : (g.setOrigLen n).hpos = g.hpos := rfl
@[simp] theorem Engine.setOrigLen_e (g : Engine) (n : Nat) : (g.setOrigLen n).e = g.e := rfl
@[simp] theorem Engine.setOrigLen_freq (g : Engine) (n : Nat) : (g.setOrigLen n).freq = g.freq := rfl
@[simp] theorem Engine.setOrigLen_node (g : Engine) (n : Nat) : (g.setOrigLen n).node = g.node := rfl
@[simp] theorem Engine.setOrigLen_nn (g : Engine) (n : Nat) : (g.setOrigLen n).nn = g.nn := rfl
@[simp] theorem Engine.setOrigLen_pq (g : Engine) (n : Nat) : (g.setOrigLen n).pq = g.pq := rfl
@[simp] theorem Engine.setOrigLen_root (g : Engine) (n : Nat) : (g.setOrigLen n).root = g.root := rfl
@[simp] theorem Engine.setOrigLen_codelen (g : Engine) (n : Nat) : (g.setOrigLen n).codelen = g.codelen := rfl
@[simp] theorem Engine.setOrigLen_codepat (g : Engine) (n : Nat) : (g.setOrigLen n).codepat = g.codepat := rfl
@[simp] theorem Engine.setOrigLen_cgstack (g : Engine) (n : Nat) : (g.setOrigLen n).cgstack = g.cgstack := rfl
@[simp] theorem Engine.setOrigLen_acc (g : Engine) (n : Nat) : (g.setOrigLen n).acc = g.acc := rfl
@[simp] theorem Engine.setOrigLen_nacc (g : Engine) (n : Nat) : (g.setOrigLen n).nacc = g.nacc := rfl
@[simp] theorem Engine.setOrigLen_nbits (g : Engine) (n : Nat) : (g.setOrigLen n).nbits = g.nbits := rfl
@[simp] theorem Engine.setOrigLen_wbase (g : Engine) (n : Nat) : (g.setOrigLen n).wbase = g.wbase := rfl
@[simp] theorem Engine.setOrigLen_wpos (g : Engine) (n : Nat) : (g.setOrigLen n).wpos = g.wpos := rfl
@[simp] theorem Engine.setOrigLen_rbase (g : Engine) (n : Nat) : (g.setOrigLen n).rbase = g.rbase := rfl
@[simp] theorem Engine.setOrigLen_rpos (g : Engine) (n : Nat) : (g.setOrigLen n).rpos = g.rpos := rfl
@[simp] theorem Engine.setOrigLen_cur (g : Engine) (n : Nat) : (g.setOrigLen n).cur = g.cur := rfl
@[simp] theorem Engine.setOrigLen_ret (g : Engine) (n : Nat) : (g.setOrigLen n).ret = g.ret := rfl
@[simp] theorem Engine.setCount_fsm (g : Engine) (n : Nat) : (g.setCount n).fsm = g.fsm := rfl
@[simp] theorem Engine.setCount_phase (g : Engine) (n : Nat) : (g.setCount n).phase = 3 := rfl
@[simp] theorem Engine.setCount_op (g : Engine) (n : Nat) : (g.setCount n).op = g.op := rfl
@[simp] theorem Engine.setCount_src (g : Engine) (n : Nat) : (g.setCount n).src = g.src := rfl
@[simp] theorem Engine.setCount_len (g : Engine) (n : Nat) : (g.setCount n).len = g.len := rfl
@[simp] theorem Engine.setCount_dst (g : Engine) (n : Nat) : (g.setCount n).dst = g.dst := rfl
@[simp] theorem Engine.setCount_cap (g : Engine) (n : Nat) : (g.setCount n).cap = g.cap := rfl
@[simp] theorem Engine.setCount_i (g : Engine) (n : Nat) : (g.setCount n).i = g.i := rfl
@[simp] theorem Engine.setCount_k (g : Engine) (n : Nat) : (g.setCount n).k = BitVec.ofNat 9 n := rfl
@[simp] theorem Engine.setCount_origlen (g : Engine) (n : Nat) : (g.setCount n).origlen = g.origlen := rfl
@[simp] theorem Engine.setCount_bitlen (g : Engine) (n : Nat) : (g.setCount n).bitlen = g.bitlen := rfl
@[simp] theorem Engine.setCount_total (g : Engine) (n : Nat) : (g.setCount n).total = g.total := rfl
@[simp] theorem Engine.setCount_csize (g : Engine) (n : Nat) : (g.setCount n).csize = g.csize := rfl
@[simp] theorem Engine.setCount_hsize (g : Engine) (n : Nat) : (g.setCount n).hsize = g.hsize := rfl
@[simp] theorem Engine.setCount_sum (g : Engine) (n : Nat) : (g.setCount n).sum = 0 := rfl
@[simp] theorem Engine.setCount_j (g : Engine) (n : Nat) : (g.setCount n).j = g.j := rfl
@[simp] theorem Engine.setCount_hpos (g : Engine) (n : Nat) : (g.setCount n).hpos = g.hpos := rfl
@[simp] theorem Engine.setCount_e (g : Engine) (n : Nat) : (g.setCount n).e = 0 := rfl
@[simp] theorem Engine.setCount_freq (g : Engine) (n : Nat) : (g.setCount n).freq = g.freq := rfl
@[simp] theorem Engine.setCount_node (g : Engine) (n : Nat) : (g.setCount n).node = g.node := rfl
@[simp] theorem Engine.setCount_nn (g : Engine) (n : Nat) : (g.setCount n).nn = g.nn := rfl
@[simp] theorem Engine.setCount_pq (g : Engine) (n : Nat) : (g.setCount n).pq = g.pq := rfl
@[simp] theorem Engine.setCount_root (g : Engine) (n : Nat) : (g.setCount n).root = g.root := rfl
@[simp] theorem Engine.setCount_codelen (g : Engine) (n : Nat) : (g.setCount n).codelen = g.codelen := rfl
@[simp] theorem Engine.setCount_codepat (g : Engine) (n : Nat) : (g.setCount n).codepat = g.codepat := rfl
@[simp] theorem Engine.setCount_cgstack (g : Engine) (n : Nat) : (g.setCount n).cgstack = g.cgstack := rfl
@[simp] theorem Engine.setCount_acc (g : Engine) (n : Nat) : (g.setCount n).acc = g.acc := rfl
@[simp] theorem Engine.setCount_nacc (g : Engine) (n : Nat) : (g.setCount n).nacc = g.nacc := rfl
@[simp] theorem Engine.setCount_nbits (g : Engine) (n : Nat) : (g.setCount n).nbits = g.nbits := rfl
@[simp] theorem Engine.setCount_wbase (g : Engine) (n : Nat) : (g.setCount n).wbase = g.wbase := rfl
@[simp] theorem Engine.setCount_wpos (g : Engine) (n : Nat) : (g.setCount n).wpos = g.wpos := rfl
@[simp] theorem Engine.setCount_rbase (g : Engine) (n : Nat) : (g.setCount n).rbase = g.rbase := rfl
@[simp] theorem Engine.setCount_rpos (g : Engine) (n : Nat) : (g.setCount n).rpos = g.rpos := rfl
@[simp] theorem Engine.setCount_cur (g : Engine) (n : Nat) : (g.setCount n).cur = g.cur := rfl
@[simp] theorem Engine.setCount_ret (g : Engine) (n : Nat) : (g.setCount n).ret = g.ret := rfl
@[simp] theorem Engine.setBitLen_fsm (g : Engine) (n : Nat) : (g.setBitLen n).fsm = g.fsm := rfl
@[simp] theorem Engine.setBitLen_phase (g : Engine) (n : Nat) : (g.setBitLen n).phase = 5 := rfl
@[simp] theorem Engine.setBitLen_op (g : Engine) (n : Nat) : (g.setBitLen n).op = g.op := rfl
@[simp] theorem Engine.setBitLen_src (g : Engine) (n : Nat) : (g.setBitLen n).src = g.src := rfl
@[simp] theorem Engine.setBitLen_len (g : Engine) (n : Nat) : (g.setBitLen n).len = g.len := rfl
@[simp] theorem Engine.setBitLen_dst (g : Engine) (n : Nat) : (g.setBitLen n).dst = g.dst := rfl
@[simp] theorem Engine.setBitLen_cap (g : Engine) (n : Nat) : (g.setBitLen n).cap = g.cap := rfl
@[simp] theorem Engine.setBitLen_i (g : Engine) (n : Nat) : (g.setBitLen n).i = g.i := rfl
@[simp] theorem Engine.setBitLen_k (g : Engine) (n : Nat) : (g.setBitLen n).k = g.k := rfl
@[simp] theorem Engine.setBitLen_origlen (g : Engine) (n : Nat) : (g.setBitLen n).origlen = g.origlen := rfl
@[simp] theorem Engine.setBitLen_bitlen (g : Engine) (n : Nat) : (g.setBitLen n).bitlen = BitVec.ofNat 32 n := rfl
@[simp] theorem Engine.setBitLen_total (g : Engine) (n : Nat) : (g.setBitLen n).total = g.total := rfl
@[simp] theorem Engine.setBitLen_csize (g : Engine) (n : Nat) : (g.setBitLen n).csize = g.csize := rfl
@[simp] theorem Engine.setBitLen_hsize (g : Engine) (n : Nat) : (g.setBitLen n).hsize = BitVec.ofNat 64 (headerSize g.k.toNat) := rfl
@[simp] theorem Engine.setBitLen_sum (g : Engine) (n : Nat) : (g.setBitLen n).sum = g.sum := rfl
@[simp] theorem Engine.setBitLen_j (g : Engine) (n : Nat) : (g.setBitLen n).j = g.j := rfl
@[simp] theorem Engine.setBitLen_hpos (g : Engine) (n : Nat) : (g.setBitLen n).hpos = g.hpos := rfl
@[simp] theorem Engine.setBitLen_e (g : Engine) (n : Nat) : (g.setBitLen n).e = g.e := rfl
@[simp] theorem Engine.setBitLen_freq (g : Engine) (n : Nat) : (g.setBitLen n).freq = g.freq := rfl
@[simp] theorem Engine.setBitLen_node (g : Engine) (n : Nat) : (g.setBitLen n).node = g.node := rfl
@[simp] theorem Engine.setBitLen_nn (g : Engine) (n : Nat) : (g.setBitLen n).nn = g.nn := rfl
@[simp] theorem Engine.setBitLen_pq (g : Engine) (n : Nat) : (g.setBitLen n).pq = g.pq := rfl
@[simp] theorem Engine.setBitLen_root (g : Engine) (n : Nat) : (g.setBitLen n).root = g.root := rfl
@[simp] theorem Engine.setBitLen_codelen (g : Engine) (n : Nat) : (g.setBitLen n).codelen = g.codelen := rfl
@[simp] theorem Engine.setBitLen_codepat (g : Engine) (n : Nat) : (g.setBitLen n).codepat = g.codepat := rfl
@[simp] theorem Engine.setBitLen_cgstack (g : Engine) (n : Nat) : (g.setBitLen n).cgstack = g.cgstack := rfl
@[simp] theorem Engine.setBitLen_acc (g : Engine) (n : Nat) : (g.setBitLen n).acc = g.acc := rfl
@[simp] theorem Engine.setBitLen_nacc (g : Engine) (n : Nat) : (g.setBitLen n).nacc = g.nacc := rfl
@[simp] theorem Engine.setBitLen_nbits (g : Engine) (n : Nat) : (g.setBitLen n).nbits = g.nbits := rfl
@[simp] theorem Engine.setBitLen_wbase (g : Engine) (n : Nat) : (g.setBitLen n).wbase = g.wbase := rfl
@[simp] theorem Engine.setBitLen_wpos (g : Engine) (n : Nat) : (g.setBitLen n).wpos = g.wpos := rfl
@[simp] theorem Engine.setBitLen_rbase (g : Engine) (n : Nat) : (g.setBitLen n).rbase = g.rbase := rfl
@[simp] theorem Engine.setBitLen_rpos (g : Engine) (n : Nat) : (g.setBitLen n).rpos = g.rpos := rfl
@[simp] theorem Engine.setBitLen_cur (g : Engine) (n : Nat) : (g.setBitLen n).cur = g.cur := rfl
@[simp] theorem Engine.setBitLen_ret (g : Engine) (n : Nat) : (g.setBitLen n).ret = g.ret := rfl

end Sys2Proof.Machine
end

