-- ==== Sys2Proof/Laws/Memory.lean ====
section
/-! SUPPORT. Memory: a read after a write, and the canonical form kept by every operation. -/

namespace Sys2Proof.Machine

@[simp] theorem Memory.read_nil (a : Nat) : Memory.read [] a = Memory.unwritten := rfl

theorem Memory.read_cons (b : Nat) (v : Byte) (m : List Host.Cell) (a : Nat) :
    Memory.read ((b, v) :: m) a = if a = b then v else Memory.read m a := rfl

theorem Memory.wfFrom_cons (lo a : Nat) (v : Byte) (m : List Host.Cell) :
    Memory.wfFrom lo ((a, v) :: m) = true ↔
      lo ≤ a ∧ a < Config.memorySize ∧ v ≠ Memory.unwritten ∧ Memory.wfFrom (a + 1) m = true := by
  simp [Memory.wfFrom, and_assoc]

/-- The cells of a well-formed list may start later than required. -/
theorem Memory.wfFrom_mono {lo lo' : Nat} (h : lo ≤ lo') {m : List Host.Cell}
    (hm : Memory.wfFrom lo' m = true) : Memory.wfFrom lo m = true := by
  cases m with
  | nil => rfl
  | cons c m =>
    obtain ⟨a, v⟩ := c
    rw [Memory.wfFrom_cons] at hm ⊢
    exact ⟨by omega, hm.2⟩

/-- Below the first cell every address reads as unwritten. -/
theorem Memory.read_of_wfFrom {m : List Host.Cell} {lo a : Nat} (hm : Memory.wfFrom lo m = true)
    (h : a < lo) : Memory.read m a = Memory.unwritten := by
  induction m generalizing lo with
  | nil => rfl
  | cons c m ih =>
    obtain ⟨b, v⟩ := c
    rw [Memory.wfFrom_cons] at hm
    rw [Memory.read_cons, if_neg (by omega)]
    exact ih hm.2.2.2 (by omega)

theorem Memory.read_put_ne (m : List Host.Cell) {a c : Nat} (v : Byte) (h : c ≠ a) :
    Memory.read (Memory.put a v m) c = Memory.read m c := by
  unfold Memory.put
  split
  · rfl
  · rw [Memory.read_cons, if_neg h]

theorem Memory.read_put_eq {m : List Host.Cell} {lo a : Nat} (v : Byte)
    (hm : Memory.wfFrom lo m = true) (h : a < lo) : Memory.read (Memory.put a v m) a = v := by
  unfold Memory.put
  split
  · rename_i hv
    rw [Memory.read_of_wfFrom hm h, hv]
  · rw [Memory.read_cons, if_pos rfl]

/-- A write leaves every other address as it was, in any list. -/
theorem Memory.read_write_ne (m : List Host.Cell) {a c : Nat} (v : Byte) (h : c ≠ a) :
    Memory.read (Memory.write m a v) c = Memory.read m c := by
  induction m with
  | nil => exact Memory.read_put_ne [] v h
  | cons x m ih =>
    obtain ⟨b, u⟩ := x
    unfold Memory.write
    split
    · exact Memory.read_put_ne _ v h
    · split
      · rename_i hab
        subst hab
        rw [Memory.read_put_ne _ v h, Memory.read_cons, if_neg h]
      · rw [Memory.read_cons, Memory.read_cons, ih]

/-- A write is read back. -/
theorem Memory.read_write_eq {m : List Host.Cell} {lo : Nat} (hm : Memory.wfFrom lo m = true)
    (a : Nat) (v : Byte) : Memory.read (Memory.write m a v) a = v := by
  induction m generalizing lo with
  | nil => exact Memory.read_put_eq (lo := a + 1) v rfl (by omega)
  | cons x m ih =>
    obtain ⟨b, u⟩ := x
    rw [Memory.wfFrom_cons] at hm
    unfold Memory.write
    split
    · refine Memory.read_put_eq (lo := b) v ?_ (by omega)
      rw [Memory.wfFrom_cons]
      exact ⟨le_refl b, hm.2⟩
    · split
      · rename_i hab
        subst hab
        exact Memory.read_put_eq v hm.2.2.2 (by omega)
      · rename_i hab
        rw [Memory.read_cons, if_neg hab, ih hm.2.2.2]

theorem Memory.wfFrom_put {m : List Host.Cell} {lo a : Nat} (v : Byte)
    (hm : Memory.wfFrom (a + 1) m = true) (h : lo ≤ a) (ha : a < Config.memorySize) :
    Memory.wfFrom lo (Memory.put a v m) = true := by
  unfold Memory.put
  split
  · exact Memory.wfFrom_mono (by omega) hm
  · rename_i hv
    rw [Memory.wfFrom_cons]
    exact ⟨h, ha, hv, hm⟩

theorem Memory.wfFrom_write {m : List Host.Cell} {lo a : Nat} (v : Byte)
    (hm : Memory.wfFrom lo m = true) (h : lo ≤ a) (ha : a < Config.memorySize) :
    Memory.wfFrom lo (Memory.write m a v) = true := by
  induction m generalizing lo with
  | nil => exact Memory.wfFrom_put v rfl h ha
  | cons x m ih =>
    obtain ⟨b, u⟩ := x
    rw [Memory.wfFrom_cons] at hm
    unfold Memory.write
    split
    · refine Memory.wfFrom_put v ?_ h ha
      rw [Memory.wfFrom_cons]
      exact ⟨by omega, hm.2⟩
    · split
      · rename_i hab
        subst hab
        exact Memory.wfFrom_put v hm.2.2.2 h ha
      · rw [Memory.wfFrom_cons]
        exact ⟨hm.1, hm.2.1, hm.2.2.1, ih hm.2.2.2 (by omega)⟩

/-- A write inside the address space keeps the canonical form. -/
theorem Memory.wf_write {m : List Host.Cell} {a : Nat} (v : Byte) (hm : Memory.wf m = true)
    (ha : a < Config.memorySize) : Memory.wf (Memory.write m a v) = true :=
  Memory.wfFrom_write v hm (Nat.zero_le a) ha

/-- Writes of consecutive bytes inside the address space keep the canonical form. -/
theorem Memory.wf_writeBytes {m : List Host.Cell} {a : Nat} (vs : List Byte)
    (hm : Memory.wf m = true) (ha : a + vs.length ≤ Config.memorySize) :
    Memory.wf (Memory.writeBytes m a vs) = true := by
  induction vs generalizing m a with
  | nil => exact hm
  | cons v vs ih =>
    have h : a + (vs.length + 1) ≤ Config.memorySize := ha
    exact ih (Memory.wf_write v hm (by omega)) (by omega)

/-- Consecutive writes leave every address outside them as it was. -/
theorem Memory.read_writeBytes_ne (m : List Host.Cell) {a c : Nat} (vs : List Byte)
    (h : c < a ∨ a + vs.length ≤ c) :
    Memory.read (Memory.writeBytes m a vs) c = Memory.read m c := by
  induction vs generalizing m a with
  | nil => rfl
  | cons v vs ih =>
    have h' : c < a ∨ a + (vs.length + 1) ≤ c := h
    show Memory.read (Memory.writeBytes (Memory.write m a v) (a + 1) vs) c = _
    rw [ih (Memory.write m a v) (by omega), Memory.read_write_ne m v (by omega)]

/-- Consecutive writes are read back, and every other address is as it was. -/
theorem Memory.read_writeBytes {m : List Host.Cell} {a : Nat} (vs : List Byte)
    (hm : Memory.wf m = true) (ha : a + vs.length ≤ Config.memorySize) (c : Nat) :
    Memory.read (Memory.writeBytes m a vs) c =
      if a ≤ c ∧ c < a + vs.length then vs.getD (c - a) 0 else Memory.read m c := by
  induction vs generalizing m a with
  | nil => rw [if_neg (by simp)]; rfl
  | cons v vs ih =>
    rw [List.length_cons] at ha ⊢
    show Memory.read (Memory.writeBytes (Memory.write m a v) (a + 1) vs) c = _
    rw [ih (Memory.wf_write v hm (by omega)) (by omega)]
    by_cases hc : c = a
    · subst hc
      rw [if_neg (by omega), if_pos (by omega), Memory.read_write_eq hm, Nat.sub_self]
      rfl
    · rw [Memory.read_write_ne m v hc]
      by_cases h : a + 1 ≤ c ∧ c < a + 1 + vs.length
      · rw [if_pos h, if_pos (by omega), show c - a = (c - (a + 1)) + 1 by omega,
          List.getD_cons_succ]
      · rw [if_neg h, if_neg (by omega)]

/-- The memory of the reset state is in the canonical form. -/
theorem Memory.wf_reset : Memory.wf State.reset.mem = true := rfl

end Sys2Proof.Machine
end

