-- ==== Sys2Proof/Laws/Ops.lean ====
section
/-! SUPPORT. One lemma for each shared operation that says everything it can come to. -/

namespace Sys2Proof.Machine

section Results

variable {α β : Type}

@[simp] theorem Res.bind_ok (a : α) (s : State) (k : α → State → Res β) :
    (Res.ok a s).bind k = k a s := rfl

@[simp] theorem Res.bind_raised (s : State) (k : α → State → Res β) :
    (Res.raised s).bind k = .raised s := rfl

@[simp] theorem Res.bind_fault (f : Fault) (k : α → State → Res β) :
    (Res.fault f).bind k = .fault f := rfl

@[simp] theorem Res.outcome_ok (a : α) (s : State) : (Res.ok a s).outcome = .next s := rfl

@[simp] theorem Res.outcome_raised (s : State) : (Res.raised s : Res α).outcome = .next s := rfl

@[simp] theorem Res.outcome_fault (f : Fault) : (Res.fault f : Res α).outcome = .fault f := rfl

@[simp] theorem raise_bind (e : ErrSub) (i : DWord) (s : State) (k : α → State → Res β) :
    (raise e i s : Res α).bind k = raise e i s := rfl

@[simp] theorem raise_outcome (e : ErrSub) (i : DWord) (s : State) :
    (raise e i s : Res α).outcome = .next (s.errorEntry e i) := rfl

/-- What a sequence can come to: its first part stops it, or its second part runs. -/
theorem Res.bind_assoc {γ : Type} (r : Res α) (k : α → State → Res β) (l : β → State → Res γ) :
    (r.bind k).bind l = r.bind fun a s => (k a s).bind l := by
  cases r <;> rfl

theorem Res.bind_ok_inv {r : Res α} {k : α → State → Res β} {b : β} {t : State}
    (h : r.bind k = .ok b t) : ∃ a s, r = .ok a s ∧ k a s = .ok b t := by
  cases r with
  | ok a s => exact ⟨a, s, rfl, h⟩
  | raised s => exact absurd h (by simp)
  | fault f => exact absurd h (by simp)

theorem Res.bind_raised_inv {r : Res α} {k : α → State → Res β} {t : State}
    (h : r.bind k = .raised t) : r = .raised t ∨ ∃ a s, r = .ok a s ∧ k a s = .raised t := by
  cases r with
  | ok a s => exact .inr ⟨a, s, rfl, h⟩
  | raised s => exact .inl (by simpa using h)
  | fault f => exact absurd h (by simp)

/-- An instruction's next state is an operation's end or its error entry. -/
theorem Res.outcome_next_inv {r : Res α} {t : State} (h : r.outcome = .next t) :
    (∃ a, r = .ok a t) ∨ r = .raised t := by
  cases r with
  | ok a s => exact .inl ⟨a, by simpa using h⟩
  | raised s => exact .inr (by simpa using h)
  | fault f => exact absurd h (by simp)

end Results

/-! ### What holds of a result whatever it is -/

/-- Every state the operation can end in has the property; a fault has none. -/
def Res.all {α : Type} (P : State → Prop) : Res α → Prop
  | .ok _ s => P s
  | .raised s => P s
  | .fault _ => True

section Always

variable {α β : Type} {P : State → Prop}

theorem Res.all_bind {r : Res α} {k : α → State → Res β} (hr : r.all P)
    (hk : ∀ a s, r = .ok a s → P s → (k a s).all P) : (r.bind k).all P := by
  cases r with
  | ok a s => exact hk a s rfl hr
  | raised s => exact hr
  | fault f => trivial

theorem Res.all_outcome {r : Res α} {t : State} (hr : r.all P) (h : r.outcome = .next t) : P t := by
  rcases Res.outcome_next_inv h with ⟨a, rfl⟩ | rfl <;> exact hr

theorem Res.all_mono {Q : State → Prop} {r : Res α} (hr : r.all P) (h : ∀ s, P s → Q s) :
    r.all Q := by
  cases r with
  | ok a s => exact h s hr
  | raised s => exact h s hr
  | fault f => trivial

end Always

/-! ### The memory port -/

/-- `MemRead`: the byte, or the error entry of a `READ_FAULT`, or an address that does not exist. -/
theorem memRead_cases (a : Nat) (s : State) :
    (a < Config.memorySize ∧ s.plat.readFaults a = false
      ∧ memRead a s = .ok (Memory.read s.mem a) (s.logBus (.read a (Memory.read s.mem a))))
    ∨ (a < Config.memorySize ∧ s.plat.readFaults a = true
      ∧ memRead a s = raise .readFault (BitVec.ofNat 64 a) (s.logBus (.readError a)))
    ∨ (Config.memorySize ≤ a ∧ memRead a s = .fault .noSuchAddress) := by
  unfold memRead
  by_cases h : a < Config.memorySize
  · cases hf : s.plat.readFaults a
    · exact .inl ⟨h, rfl, by simp [h]⟩
    · exact .inr (.inl ⟨h, rfl, by simp [h]⟩)
  · exact .inr (.inr ⟨by omega, by simp [h]⟩)

/-- A read the platform answers. -/
theorem memRead_ok {a : Nat} {s : State} (h : s.readable a) :
    memRead a s = .ok (Memory.read s.mem a) (s.logBus (.read a (Memory.read s.mem a))) := by
  rcases memRead_cases a s with ⟨-, -, e⟩ | ⟨-, hf, -⟩ | ⟨hb, -⟩
  · exact e
  · exact absurd hf (by simp [h.2])
  · exact absurd h.1 (by omega)

/-- `MemWrite`: the store, or the error entry of a `WRITE_BOUND` or a `WRITE_FAULT`, or an address
that does not exist. -/
theorem memWrite_cases (a : Nat) (v : Byte) (s : State) :
    (s.eng.inBound a = true ∧ a < Config.memorySize ∧ s.plat.writeFaults a = false
      ∧ memWrite a v s = .ok () (s.store a v))
    ∨ (s.eng.inBound a = true ∧ a < Config.memorySize ∧ s.plat.writeFaults a = true
      ∧ memWrite a v s = raise .writeFault (BitVec.ofNat 64 a) (s.logBus (.writeError a)))
    ∨ (s.eng.inBound a = true ∧ Config.memorySize ≤ a ∧ memWrite a v s = .fault .noSuchAddress)
    ∨ (s.eng.inBound a = false
      ∧ memWrite a v s = raise .writeBound (BitVec.ofNat 64 a - s.eng.dst) s) := by
  unfold memWrite
  cases hb : s.eng.inBound a
  · exact .inr (.inr (.inr ⟨rfl, by simp⟩))
  · by_cases h : a < Config.memorySize
    · cases hf : s.plat.writeFaults a
      · exact .inl ⟨rfl, h, rfl, by simp [h]⟩
      · exact .inr (.inl ⟨rfl, h, rfl, by simp [h]⟩)
    · exact .inr (.inr (.inl ⟨rfl, by omega, by simp [h]⟩))

theorem inBound_iff (g : Engine) (a : Nat) :
    g.inBound a = true ↔ g.dst.toNat ≤ a ∧ a < g.dst.toNat + g.cap.toNat := by
  exact decide_eq_true_iff

/-- A write inside the bound that the platform answers. -/
theorem memWrite_ok {a : Nat} {s : State} (v : Byte) (h : s.writable a) :
    memWrite a v s = .ok () (s.store a v) := by
  have hb : s.eng.inBound a = true := (inBound_iff _ _).2 ⟨h.1, h.2.1⟩
  rcases memWrite_cases a v s with ⟨-, -, -, e⟩ | ⟨-, -, hf, -⟩ | ⟨-, hs, -⟩ | ⟨hn, -⟩
  · exact e
  · exact absurd hf (by simp [h.2.2.2])
  · exact absurd h.2.2.1 (by omega)
  · exact absurd hb (by simp [hn])

/-- A read the platform answers with an error. -/
theorem memRead_failed {a : Nat} {s : State} (h : s.unreadable a) :
    memRead a s = .raised (s.readFailed a) := by
  rcases memRead_cases a s with ⟨-, hf, -⟩ | ⟨-, -, e⟩ | ⟨hb, -⟩
  · exact absurd h.2 (by simp [hf])
  · exact e
  · exact absurd h.1 (by omega)

/-- The 64-bit difference of an address and the start of the range it is not below. -/
theorem ofNat_sub_toNat {a : Nat} {d : DWord} (h : d.toNat ≤ a) :
    BitVec.ofNat 64 a - d = BitVec.ofNat 64 (a - d.toNat) := by
  apply BitVec.eq_of_toNat_eq
  simp only [BitVec.toNat_sub, BitVec.toNat_ofNat]
  omega

/-- A write beyond the bound, or one the platform answers with an error. -/
theorem memWrite_failed {a : Nat} {s : State} (v : Byte) (h : s.unwritable a) :
    memWrite a v s = .raised (s.writeFailed a) := by
  unfold State.writeFailed
  by_cases hb : s.eng.dst.toNat + s.eng.cap.toNat ≤ a
  · rcases memWrite_cases a v s with ⟨hi, -⟩ | ⟨hi, -⟩ | ⟨hi, -⟩ | ⟨-, e⟩
    · exact absurd ((inBound_iff _ _).1 hi).2 (by omega)
    · exact absurd ((inBound_iff _ _).1 hi).2 (by omega)
    · exact absurd ((inBound_iff _ _).1 hi).2 (by omega)
    · rw [e, if_pos hb, ofNat_sub_toNat h.1]
      rfl
  · obtain ⟨hs, hf⟩ := h.2.resolve_left hb
    have hi : s.eng.inBound a = true := (inBound_iff _ _).2 ⟨h.1, by omega⟩
    rcases memWrite_cases a v s with ⟨-, -, hn, -⟩ | ⟨-, -, -, e⟩ | ⟨-, hn, -⟩ | ⟨hn, -⟩
    · exact absurd hf (by simp [hn])
    · rw [e, if_neg hb]
      rfl
    · exact absurd hs (by omega)
    · exact absurd hi (by simp [hn])

/-- A property that a read's record and an error entry keep is kept by any number of reads. -/
theorem memReadBytes_all {P : State → Prop} (hlog : ∀ s x, P s → P (s.logBus x))
    (herr : ∀ s e i, P s → P (s.errorEntry e i)) (n : Nat) :
    ∀ (a : Nat) (s : State), P s → (memReadBytes n a s).all P := by
  induction n with
  | zero => exact fun a s h => h
  | succ n ih =>
    intro a s h
    refine Res.all_bind ?_ fun b t _ ht => Res.all_bind (ih (a + 1) t ht) fun bs u _ hu => hu
    rcases memRead_cases a s with ⟨-, -, e⟩ | ⟨-, -, e⟩ | ⟨-, e⟩ <;> rw [e]
    · exact hlog _ _ h
    · exact herr _ _ _ (hlog _ _ h)
    · trivial

/-- Bytes the platform answers: their values, in order, and one record each. -/
theorem memReadBytes_ok (n : Nat) : ∀ (a : Nat) (s : State),
    (∀ q < n, s.readable (a + q)) →
    memReadBytes n a s = .ok (bytesAt s.mem a n) { s with busLog := readLog s.mem a n ++ s.busLog } := by
  induction n with
  | zero => exact fun a s _ => rfl
  | succ n ih =>
    intro a s h
    have h0 : s.readable a := h 0 (by omega)
    have hn : ∀ q < n, (s.logBus (.read a (Memory.read s.mem a))).readable (a + 1 + q) := by
      intro q hq
      have := h (q + 1) (by omega)
      rw [show a + 1 + q = a + (q + 1) by omega]
      exact this
    show (memRead a s).bind _ = _
    rw [memRead_ok h0, Res.bind_ok, ih (a + 1) _ hn, Res.bind_ok]
    simp [bytesAt, readLog, State.logBus]

/-- The first byte the platform answers with an error ends the reads; the bytes before it have been
read (60_exceptions.md R347). -/
theorem memReadBytes_failed (n : Nat) : ∀ (a q : Nat) (s : State), q < n →
    (∀ p < q, s.readable (a + p)) → s.unreadable (a + q) →
    memReadBytes n a s =
      .raised ({ s with busLog := readLog s.mem a q ++ s.busLog }.readFailed (a + q)) := by
  induction n with
  | zero => exact fun a q s h => absurd h (Nat.not_lt_zero q)
  | succ n ih =>
    intro a q s hq hr hu
    show (memRead a s).bind _ = _
    cases q with
    | zero =>
      rw [memRead_failed (a := a) hu]
      rfl
    | succ q =>
      have h0 : s.readable a := hr 0 (by omega)
      have hr' : ∀ p < q, (s.logBus (.read a (Memory.read s.mem a))).readable (a + 1 + p) := by
        intro p hp
        rw [show a + 1 + p = a + (p + 1) by omega]
        exact hr (p + 1) (by omega)
      rw [show a + (q + 1) = a + 1 + q by omega] at hu ⊢
      rw [memRead_ok h0, Res.bind_ok, ih (a + 1) q _ (by omega) hr' hu]
      simp [readLog, State.logBus]

/-! ### The queue -/

theorem mem_insertRef (n m : NodeRef) (l : List NodeRef) :
    m ∈ insertRef n l ↔ m = n ∨ m ∈ l := by
  induction l with
  | nil => simp [insertRef]
  | cons a l ih =>
    unfold insertRef
    split
    · simp
    · split
      · rename_i h
        subst h
        simp
      · simp only [List.mem_cons, ih]
        tauto

theorem mem_removeRef (n m : NodeRef) (l : List NodeRef) :
    m ∈ removeRef n l ↔ m ∈ l ∧ m ≠ n := by
  simp [removeRef]

theorem insertRef_length (n : NodeRef) (l : List NodeRef) :
    (insertRef n l).length ≤ l.length + 1 := by
  induction l with
  | nil => simp [insertRef]
  | cons a l ih =>
    unfold insertRef
    split
    · simp
    · split
      · simp
      · simpa using ih

/-- The queue keeps its ascending order under an insertion. -/
theorem insertRef_sorted (n : NodeRef) {l : List NodeRef} (h : l.Pairwise (· < ·)) :
    (insertRef n l).Pairwise (· < ·) := by
  induction l with
  | nil => simp [insertRef]
  | cons a l ih =>
    rw [List.pairwise_cons] at h
    unfold insertRef
    split
    · rename_i hna
      rw [List.pairwise_cons, List.pairwise_cons]
      refine ⟨fun b hb => ?_, h⟩
      rcases List.mem_cons.1 hb with rfl | hb
      · exact hna
      · exact lt_trans hna (h.1 b hb)
    · split
      · exact List.pairwise_cons.2 h
      · rename_i h1 h2
        rw [List.pairwise_cons]
        refine ⟨fun b hb => ?_, ih h.2⟩
        rcases (mem_insertRef n b l).1 hb with rfl | hb
        · exact lt_of_le_of_ne (not_lt.1 h1) (fun e => h2 e.symm)
        · exact h.1 b hb

/-- The queue keeps its ascending order when a node is taken out. -/
theorem removeRef_sorted (n : NodeRef) {l : List NodeRef} (h : l.Pairwise (· < ·)) :
    (removeRef n l).Pairwise (· < ·) := List.Pairwise.filter _ h

theorem removeRef_length (n : NodeRef) (l : List NodeRef) :
    (removeRef n l).length ≤ l.length := List.length_filter_le _ _

/-- The node an extraction takes is one of the queue. -/
theorem pqLeast_mem {g : Engine} {l : List NodeRef} {m : NodeRef} (h : g.pqLeast l = some m) :
    m ∈ l := by
  induction l generalizing m with
  | nil => simp [Engine.pqLeast] at h
  | cons a l ih =>
    unfold Engine.pqLeast at h
    cases hl : g.pqLeast l with
    | none => simp [hl] at h; simp [h]
    | some k =>
      simp only [hl] at h
      split at h
      · cases h; exact List.mem_cons_of_mem _ (ih hl)
      · cases h; exact List.mem_cons_self

theorem pqLeast_eq_none {g : Engine} {l : List NodeRef} : g.pqLeast l = none ↔ l = [] := by
  cases l with
  | nil => simp [Engine.pqLeast]
  | cons a l =>
    unfold Engine.pqLeast
    cases g.pqLeast l with
    | none => simp
    | some m => by_cases h : g.pqLess m a = true <;> simp [h]

/-- The queue's order is transitive (41_priority_queue.md R150). -/
theorem pqLess_trans {g : Engine} {a b c : NodeRef} (h1 : g.pqLess a b = true)
    (h2 : g.pqLess b c = true) : g.pqLess a c = true := by
  simp only [Engine.pqLess, Bool.or_eq_true, Bool.and_eq_true, decide_eq_true_eq, beq_iff_eq,
    BitVec.lt_def] at *
  rcases h1 with h1 | ⟨e1, h1⟩ <;> rcases h2 with h2 | ⟨e2, h2⟩
  · exact .inl (by omega)
  · exact .inl (by rw [← e2]; exact h1)
  · exact .inl (by rw [e1]; exact h2)
  · exact .inr ⟨e1.trans e2, by omega⟩

/-- The queue's order is asymmetric (41_priority_queue.md R150). -/
theorem pqLess_asymm {g : Engine} {a b : NodeRef} (h1 : g.pqLess a b = true) :
    g.pqLess b a = false := by
  rw [Bool.eq_false_iff]
  intro h2
  have h := pqLess_trans h1 h2
  simp [Engine.pqLess] at h

/-- In a queue of distinct keys an extraction takes the smallest node (41_priority_queue.md R153). -/
theorem pqLeast_isLeast {g : Engine} {l : List NodeRef} (hd : g.distinctKeys l) {m : NodeRef}
    (h : g.pqLeast l = some m) : g.isLeast m l := by
  induction l generalizing m with
  | nil => simp [Engine.pqLeast] at h
  | cons a l ih =>
    have hdl : g.distinctKeys l := fun x hx y hy =>
      hd x (List.mem_cons_of_mem _ hx) y (List.mem_cons_of_mem _ hy)
    unfold Engine.pqLeast at h
    cases hl : g.pqLeast l with
    | none =>
      simp only [hl, Option.some.injEq] at h
      subst h
      rw [pqLeast_eq_none] at hl
      subst hl
      exact ⟨List.mem_cons_self, fun n hn hne => absurd (List.mem_singleton.1 hn) hne⟩
    | some k =>
      have hk := ih hdl hl
      simp only [hl] at h
      split at h
      · rename_i hka
        cases h
        refine ⟨List.mem_cons_of_mem _ hk.1, fun n hn hne => ?_⟩
        rcases List.mem_cons.1 hn with rfl | hn
        · exact hka
        · exact hk.2 n hn hne
      · rename_i hka
        cases h
        refine ⟨List.mem_cons_self, fun n hn hne => ?_⟩
        rcases List.mem_cons.1 hn with rfl | hn
        · exact absurd rfl hne
        · by_cases e : a = k
          · subst e
            exact hk.2 n hn hne
          · have hak : g.pqLess a k = true :=
              (hd a List.mem_cons_self k (List.mem_cons_of_mem _ hk.1) e).resolve_right hka
            by_cases e : n = k
            · subst e
              exact hak
            · exact pqLess_trans hak (hk.2 n hn e)

/-- `PQ_EXTRACT_MIN`: `NONE` from an empty queue, or the least node and the queue without it. -/
theorem pqExtractMin_cases (s : State) :
    (s.eng.pq = [] ∧ pqExtractMin s = .ok none s)
    ∨ ∃ m, s.eng.pqLeast s.eng.pq = some m
      ∧ pqExtractMin s = .ok (some m) (s.setEng (s.eng.setPq (removeRef m s.eng.pq))) := by
  unfold pqExtractMin
  cases h : s.eng.pqLeast s.eng.pq with
  | none => exact .inl ⟨pqLeast_eq_none.1 h, rfl⟩
  | some m => exact .inr ⟨m, rfl, rfl⟩

/-- `PQ_EXTRACT_MIN` for the builder: the least node, or the fault of an empty queue. -/
theorem pqTake_cases (s : State) :
    (s.eng.pq = [] ∧ pqTake s = .fault .queueEmpty)
    ∨ ∃ m, s.eng.pqLeast s.eng.pq = some m
      ∧ pqTake s = .ok m (s.setEng (s.eng.setPq (removeRef m s.eng.pq))) := by
  unfold pqTake
  rcases pqExtractMin_cases s with ⟨h, e⟩ | ⟨m, h, e⟩
  · exact .inl ⟨h, by rw [e]; rfl⟩
  · exact .inr ⟨m, h, by rw [e]; rfl⟩

/-- `PQ_INSERT`: the node queued, or the fault of a full queue. -/
theorem pqInsert_cases (n : NodeRef) (s : State) :
    (s.eng.pq.length < 256
      ∧ pqInsert n s = .ok () (s.setEng (s.eng.setPq (insertRef n s.eng.pq))))
    ∨ (256 ≤ s.eng.pq.length ∧ pqInsert n s = .fault .queueFull) := by
  unfold pqInsert
  by_cases h : s.eng.pq.length < Config.maxHeap
  · exact .inl ⟨h, by simp [h]⟩
  · exact .inr ⟨by simpa [Config.maxHeap] using h, by simp [h]⟩

/-! ### Acceptance -/

/-- Acceptance: the first range check that fails, or the latched state. -/
theorem acceptCommand_cases (op : BitVec 4) (s : State) :
    (2 ^ 64 < s.regs.srcAddr.toNat + s.regs.srcLen.toNat
      ∧ acceptCommand op s = raise .srcRange s.regs.srcAddr (s.latched op))
    ∨ (s.regs.srcAddr.toNat + s.regs.srcLen.toNat ≤ 2 ^ 64
      ∧ 2 ^ 64 < s.regs.dstAddr.toNat + s.regs.dstCap.toNat
      ∧ acceptCommand op s = raise .dstRange s.regs.dstAddr (s.latched op))
    ∨ (s.regs.srcAddr.toNat + s.regs.srcLen.toNat ≤ 2 ^ 64
      ∧ s.regs.dstAddr.toNat + s.regs.dstCap.toNat ≤ 2 ^ 64
      ∧ (s.latched op).eng.overlap = true
      ∧ acceptCommand op s = raise .overlap s.regs.dstAddr (s.latched op))
    ∨ (s.regs.srcAddr.toNat + s.regs.srcLen.toNat ≤ 2 ^ 64
      ∧ s.regs.dstAddr.toNat + s.regs.dstCap.toNat ≤ 2 ^ 64
      ∧ (s.latched op).eng.overlap = false
      ∧ acceptCommand op s = .ok () (s.latched op)) := by
  have e : acceptCommand op s =
      if 2 ^ 64 < s.regs.srcAddr.toNat + s.regs.srcLen.toNat then
        raise .srcRange s.regs.srcAddr (s.latched op)
      else if 2 ^ 64 < s.regs.dstAddr.toNat + s.regs.dstCap.toNat then
        raise .dstRange s.regs.dstAddr (s.latched op)
      else if (s.latched op).eng.overlap then raise .overlap s.regs.dstAddr (s.latched op)
      else .ok () (s.latched op) := rfl
  by_cases h1 : 2 ^ 64 < s.regs.srcAddr.toNat + s.regs.srcLen.toNat
  · exact .inl ⟨h1, by rw [e, if_pos h1]⟩
  · by_cases h2 : 2 ^ 64 < s.regs.dstAddr.toNat + s.regs.dstCap.toNat
    · exact .inr (.inl ⟨by omega, h2, by rw [e, if_neg h1, if_pos h2]⟩)
    · cases h3 : (s.latched op).eng.overlap
      · exact .inr (.inr (.inr ⟨by omega, by omega, rfl, by rw [e, if_neg h1, if_neg h2, h3]; rfl⟩))
      · exact .inr (.inr (.inl ⟨by omega, by omega, rfl, by rw [e, if_neg h1, if_neg h2, h3]; rfl⟩))

/-- The end of acceptance: the first state of the command, or ranges that are no ordinary memory. -/
theorem startCommand_cases (f : Fsm) (s : State) :
    (s.rangesOrdinary = true ∧ startCommand f s = .ok () (s.setEng (s.eng.clearTable.goto f)))
    ∨ (s.rangesOrdinary = false ∧ startCommand f s = .fault .notOrdinaryMemory) := by
  unfold startCommand
  cases h : s.rangesOrdinary
  · exact .inr ⟨rfl, by simp⟩
  · exact .inl ⟨rfl, by simp⟩

end Sys2Proof.Machine
end

