-- ==== Sys2Proof/Laws/Engine.lean ====
section
/-! SUPPORT. What every micro-operation keeps: a property that the engine's own updates keep, kept by
every operation built from them, once for each operation. -/

namespace Sys2Proof.Machine

/-- The latched operands (10_state.md R40) are the same. -/
def Engine.sameOperands (g h : Engine) : Prop :=
  g.op = h.op ∧ g.src = h.src ∧ g.len = h.len ∧ g.dst = h.dst ∧ g.cap = h.cap

theorem Engine.sameOperands_refl (g : Engine) : g.sameOperands g := ⟨rfl, rfl, rfl, rfl, rfl⟩

/-- A property of states that the engine's updates keep: the updates of its working state other than
the latched operands, the record of the memory port, a checked write, the error entry, completion. -/
structure EngineClosed (P : State → Prop) : Prop where
  setEng : ∀ s g, g.sameOperands s.eng → P s → P (s.setEng g)
  logBus : ∀ s x, P s → P (s.logBus x)
  error : ∀ s e i, P s → P (s.errorEntry e i)
  store : ∀ s a v, s.eng.inBound a = true → a < Config.memorySize → P s → P (s.store a v)
  complete : ∀ s o p, P s → P (s.complete o p)

section Kept

variable {P : State → Prop}

theorem all_ok_setEng (hP : EngineClosed P) {α : Type} {s : State} (a : α) {g : Engine}
    (hg : g.sameOperands s.eng) (h : P s) : (Res.ok a (s.setEng g)).all P := hP.setEng s g hg h

theorem all_raise (hP : EngineClosed P) {α : Type} {s : State} (e : ErrSub) (i : DWord) (h : P s) :
    (raise e i s : Res α).all P := hP.error s e i h

theorem memRead_all (hP : EngineClosed P) (a : Nat) {s : State} (h : P s) : (memRead a s).all P := by
  rcases memRead_cases a s with ⟨-, -, e⟩ | ⟨-, -, e⟩ | ⟨-, e⟩ <;> rw [e]
  · exact hP.logBus _ _ h
  · exact hP.error _ _ _ (hP.logBus _ _ h)
  · trivial

theorem memReadBytes_kept (hP : EngineClosed P) (n a : Nat) {s : State} (h : P s) :
    (memReadBytes n a s).all P :=
  memReadBytes_all (fun s x => hP.logBus s x) (fun s e i => hP.error s e i) n a s h

theorem memWrite_all (hP : EngineClosed P) (a : Nat) (v : Byte) {s : State} (h : P s) :
    (memWrite a v s).all P := by
  rcases memWrite_cases a v s with ⟨hb, hs, -, e⟩ | ⟨-, -, -, e⟩ | ⟨-, -, e⟩ | ⟨-, e⟩ <;> rw [e]
  · exact hP.store _ _ _ hb hs h
  · exact hP.error _ _ _ (hP.logBus _ _ h)
  · trivial
  · exact hP.error _ _ _ h

theorem ftCount_all (hP : EngineClosed P) {s : State} (h : P s) : (ftCount s).all P :=
  Res.all_bind (memRead_all hP _ h) fun _ _ _ ht =>
    all_ok_setEng hP () ⟨rfl, rfl, rfl, rfl, rfl⟩ ht

theorem pqInsert_all (hP : EngineClosed P) (n : NodeRef) {s : State} (h : P s) :
    (pqInsert n s).all P := by
  rcases pqInsert_cases n s with ⟨-, e⟩ | ⟨-, e⟩ <;> rw [e]
  · exact hP.setEng _ _ ⟨rfl, rfl, rfl, rfl, rfl⟩ h
  · trivial

theorem pqExtractMin_all (hP : EngineClosed P) {s : State} (h : P s) : (pqExtractMin s).all P := by
  rcases pqExtractMin_cases s with ⟨-, e⟩ | ⟨m, -, e⟩ <;> rw [e]
  · exact h
  · exact hP.setEng _ _ ⟨rfl, rfl, rfl, rfl, rfl⟩ h

theorem pqTake_all (hP : EngineClosed P) {s : State} (h : P s) : (pqTake s).all P := by
  rcases pqTake_cases s with ⟨-, e⟩ | ⟨m, -, e⟩ <;> rw [e]
  · trivial
  · exact hP.setEng _ _ ⟨rfl, rfl, rfl, rfl, rfl⟩ h

theorem addQueued_all (hP : EngineClosed P) (x : Node) {s : State} (h : P s) :
    (addQueued x s).all P := by
  unfold addQueued
  split
  · trivial
  · exact Res.all_bind (pqInsert_all hP _ (hP.setEng _ _ ⟨rfl, rfl, rfl, rfl, rfl⟩ h))
      fun _ _ _ ht => hP.setEng _ _ ⟨rfl, rfl, rfl, rfl, rfl⟩ ht

theorem leavesLoop_all (hP : EngineClosed P) (l : List Byte) :
    ∀ {s : State}, P s → (leavesLoop l s).all P := by
  induction l with
  | nil => exact fun h => h
  | cons v l ih =>
    intro s h
    unfold leavesLoop
    split
    · exact ih h
    · exact Res.all_bind (addQueued_all hP _ h) fun _ _ _ ht => ih ht

theorem tbLeaves_all (hP : EngineClosed P) {s : State} (h : P s) : (tbLeaves s).all P :=
  Res.all_bind (leavesLoop_all hP _ (hP.setEng _ _ ⟨rfl, rfl, rfl, rfl, rfl⟩ h)) fun _ _ _ ht =>
    hP.setEng _ _ ⟨rfl, rfl, rfl, rfl, rfl⟩ ht

theorem tbEmpty_all (hP : EngineClosed P) {s : State} (h : P s) : (tbEmpty s).all P :=
  hP.setEng _ _ ⟨rfl, rfl, rfl, rfl, rfl⟩ h

theorem tbSingle_all (hP : EngineClosed P) {s : State} (h : P s) : (tbSingle s).all P :=
  Res.all_bind (pqTake_all hP h) fun _ _ _ ht => hP.setEng _ _ ⟨rfl, rfl, rfl, rfl, rfl⟩ ht

theorem tbMerge_all (hP : EngineClosed P) {s : State} (h : P s) : (tbMerge s).all P :=
  Res.all_bind (pqTake_all hP h) fun _ _ _ ht =>
    Res.all_bind (pqTake_all hP ht) fun _ _ _ hu => addQueued_all hP _ hu

theorem tbFinish_all (hP : EngineClosed P) {s : State} (h : P s) : (tbFinish s).all P :=
  Res.all_bind (pqTake_all hP h) fun _ _ _ ht => hP.setEng _ _ ⟨rfl, rfl, rfl, rfl, rfl⟩ ht

theorem cgLoop_all (hP : EngineClosed P) (n : Nat) : ∀ {s : State}, P s → (cgLoop n s).all P := by
  induction n with
  | zero =>
    intro s h
    unfold cgLoop
    split
    · exact h
    · trivial
  | succ n ih =>
    intro s h
    unfold cgLoop
    split
    · exact h
    · dsimp only
      split
      · exact ih (hP.setEng _ _ ⟨rfl, rfl, rfl, rfl, rfl⟩ h)
      · split
        · split
          · trivial
          · exact ih (hP.setEng _ _ ⟨rfl, rfl, rfl, rfl, rfl⟩ h)
        · trivial

theorem cgWalk_all (hP : EngineClosed P) {s : State} (h : P s) : (cgWalk s).all P := by
  unfold cgWalk
  dsimp only
  split
  · exact hP.setEng _ _ ⟨rfl, rfl, rfl, rfl, rfl⟩ h
  · exact cgLoop_all hP _ (hP.setEng _ _ ⟨rfl, rfl, rfl, rfl, rfl⟩ h)

theorem flushAcc_all (hP : EngineClosed P) {s : State} (h : P s) : (flushAcc s).all P :=
  Res.all_bind (memWrite_all hP _ _ h) fun _ _ _ ht => hP.setEng _ _ ⟨rfl, rfl, rfl, rfl, rfl⟩ ht

theorem bwPutBit_all (hP : EngineClosed P) (b : Bool) {s : State} (h : P s) :
    (bwPutBit b s).all P := by
  have hs : P (s.setEng (s.eng.putAcc b)) := hP.setEng _ _ ⟨rfl, rfl, rfl, rfl, rfl⟩ h
  unfold bwPutBit
  dsimp only
  split
  · exact flushAcc_all hP hs
  · exact hs

theorem bwPutBits_all (hP : EngineClosed P) (bs : List Bool) :
    ∀ {s : State}, P s → (bwPutBits bs s).all P := by
  induction bs with
  | nil => exact fun h => h
  | cons b bs ih => exact fun h => Res.all_bind (bwPutBit_all hP b h) fun _ _ _ ht => ih ht

theorem bwFinish_all (hP : EngineClosed P) {s : State} (h : P s) : (bwFinish s).all P := by
  unfold bwFinish
  split
  · exact flushAcc_all hP h
  · exact h

theorem brReadBit_all (hP : EngineClosed P) {s : State} (h : P s) : (brReadBit s).all P := by
  unfold brReadBit
  split
  · exact hP.error _ _ _ h
  · exact Res.all_bind (memRead_all hP _ h) fun _ _ _ ht =>
      hP.setEng _ _ ⟨rfl, rfl, rfl, rfl, rfl⟩ ht

theorem eHeaderSize_all (hP : EngineClosed P) {s : State} (h : P s) : (eHeaderSize s).all P := by
  unfold eHeaderSize
  generalize totalBits s.eng = n
  dsimp only
  split
  · exact hP.error _ _ _ (hP.setEng _ _ ⟨rfl, rfl, rfl, rfl, rfl⟩ h)
  · have hs : P (s.setEng (s.eng.sized n)) := hP.setEng _ _ ⟨rfl, rfl, rfl, rfl, rfl⟩ h
    split
    · exact hP.error _ _ _ hs
    · exact hP.setEng _ _ ⟨rfl, rfl, rfl, rfl, rfl⟩ hs

theorem eHeaderByte_all (hP : EngineClosed P) {s : State} (h : P s) : (eHeaderByte s).all P := by
  unfold eHeaderByte
  split
  · trivial
  · refine Res.all_bind (memWrite_all hP _ _ h) fun _ t _ ht => ?_
    have hu : P (t.setEng t.eng.nextHpos) :=
      hP.setEng _ _ ⟨rfl, rfl, rfl, rfl, rfl⟩ ht
    dsimp only
    split
    · exact hP.setEng _ _ ⟨rfl, rfl, rfl, rfl, rfl⟩ hu
    · exact hu

theorem ePayloadStep_all (hP : EngineClosed P) {s : State} (h : P s) : (ePayloadStep s).all P := by
  unfold ePayloadStep
  split
  · exact Res.all_bind (memRead_all hP _ h) fun _ _ _ ht =>
      Res.all_bind (bwPutBits_all hP _ ht) fun _ _ _ hu =>
        hP.setEng _ _ ⟨rfl, rfl, rfl, rfl, rfl⟩ hu
  · exact Res.all_bind (bwFinish_all hP h) fun _ _ _ ht => hP.complete _ _ _ ht

theorem readField_all (hP : EngineClosed P) (off n : Nat) {s : State} (h : P s) :
    (readField off n s).all P := by
  unfold readField
  split
  · exact hP.error _ _ _ h
  · exact memReadBytes_kept hP _ _ h

theorem headerEntryIn_all (hP : EngineClosed P) (off : Nat) (v : Byte) (f : Nat) {s : State}
    (h : P s) : (headerEntryIn off v f s).all P := by
  unfold headerEntryIn
  split
  · exact hP.error _ _ _ h
  · split
    · exact hP.error _ _ _ h
    · exact hP.setEng _ _ ⟨rfl, rfl, rfl, rfl, rfl⟩ h

theorem dHeaderField_all (hP : EngineClosed P) {s : State} (h : P s) : (dHeaderField s).all P := by
  unfold dHeaderField
  split
  · refine Res.all_bind (readField_all hP _ _ h) fun _ _ _ ht => ?_
    split
    · exact hP.setEng _ _ ⟨rfl, rfl, rfl, rfl, rfl⟩ ht
    · exact hP.error _ _ _ ht
  · split
    · exact Res.all_bind (readField_all hP _ _ h) fun _ _ _ ht =>
        hP.setEng _ _ ⟨rfl, rfl, rfl, rfl, rfl⟩ ht
    · split
      · refine Res.all_bind (readField_all hP _ _ h) fun _ _ _ ht => ?_
        split
        · exact hP.error _ _ _ ht
        · exact hP.setEng _ _ ⟨rfl, rfl, rfl, rfl, rfl⟩ ht
      · split
        · unfold headerEntryStep
          split
          · exact Res.all_bind (readField_all hP _ _ h) fun _ _ _ ht =>
              headerEntryIn_all hP _ _ _ ht
          · exact hP.setEng _ _ ⟨rfl, rfl, rfl, rfl, rfl⟩ h
        · split
          · exact Res.all_bind (readField_all hP _ _ h) fun _ _ _ ht =>
              hP.setEng _ _ ⟨rfl, rfl, rfl, rfl, rfl⟩ ht
          · trivial

theorem dHeaderCheck_all (hP : EngineClosed P) {s : State} (h : P s) : (dHeaderCheck s).all P := by
  unfold dHeaderCheck
  dsimp only
  split
  · exact hP.error _ _ _ h
  · split
    · exact hP.error _ _ _ h
    · split
      · exact hP.error _ _ _ h
      · split
        · exact hP.error _ _ _ h
        · exact hP.setEng _ _ ⟨rfl, rfl, rfl, rfl, rfl⟩ h

theorem thenPhase_all (hP : EngineClosed P) (p : BitVec 3) {r : Res Unit} (h : r.all P) :
    (thenPhase p r).all P :=
  Res.all_bind h fun _ _ _ ht => hP.setEng _ _ ⟨rfl, rfl, rfl, rfl, rfl⟩ ht

theorem dRebuildStep_all (hP : EngineClosed P) {s : State} (h : P s) : (dRebuildStep s).all P := by
  unfold dRebuildStep
  split
  · exact thenPhase_all hP _ (tbLeaves_all hP h)
  · split
    · split
      · exact thenPhase_all hP _ (tbEmpty_all hP h)
      · split
        · exact thenPhase_all hP _ (tbSingle_all hP h)
        · split
          · exact tbMerge_all hP h
          · exact thenPhase_all hP _ (tbFinish_all hP h)
    · exact hP.setEng _ _ ⟨rfl, rfl, rfl, rfl, rfl⟩ h

theorem soEmit_all (hP : EngineClosed P) (v : Byte) {s : State} (h : P s) : (soEmit v s).all P :=
  Res.all_bind (memWrite_all hP _ _ h) fun _ _ _ ht => hP.setEng _ _ ⟨rfl, rfl, rfl, rfl, rfl⟩ ht

theorem twStep_all (hP : EngineClosed P) {s : State} (h : P s) : (twStep s).all P := by
  refine Res.all_bind (brReadBit_all hP h) fun _ _ _ ht => ?_
  split
  · trivial
  · split
    · exact hP.error _ _ _ ht
    · split
      · exact Res.all_bind (soEmit_all hP _ ht) fun _ _ _ hu =>
          hP.setEng _ _ ⟨rfl, rfl, rfl, rfl, rfl⟩ hu
      · exact hP.setEng _ _ ⟨rfl, rfl, rfl, rfl, rfl⟩ ht

theorem dPayloadEnd_all (hP : EngineClosed P) {s : State} (h : P s) : (dPayloadEnd s).all P := by
  unfold dPayloadEnd
  split
  · exact hP.error _ _ _ h
  · exact hP.complete _ _ _ h

/-- Every micro-operation keeps what the engine's updates keep. -/
theorem exec_keeps (hP : EngineClosed P) {i : Instr} {s t : State} (hi : i.hostVisible = false)
    (h : P s) (ht : exec i s = .next t) : P t := by
  cases i <;> simp only [Instr.hostVisible, Bool.true_eq_false] at hi
  case ftClear =>
    cases ht
    exact hP.setEng _ _ ⟨rfl, rfl, rfl, rfl, rfl⟩ h
  case ftCount => exact Res.all_outcome (ftCount_all hP h) ht
  case pqInsert n => exact Res.all_outcome (pqInsert_all hP n h) ht
  case pqExtractMin =>
    refine Res.all_outcome (Res.all_bind (pqExtractMin_all hP h) fun _ _ _ hu => ?_) ht
    exact hP.setEng _ _ ⟨rfl, rfl, rfl, rfl, rfl⟩ hu
  case tbLeaves => exact Res.all_outcome (tbLeaves_all hP h) ht
  case tbEmpty => exact Res.all_outcome (tbEmpty_all hP h) ht
  case tbSingle => exact Res.all_outcome (tbSingle_all hP h) ht
  case tbMerge => exact Res.all_outcome (tbMerge_all hP h) ht
  case tbFinish => exact Res.all_outcome (tbFinish_all hP h) ht
  case cgWalk => exact Res.all_outcome (cgWalk_all hP h) ht
  case eHeaderSize => exact Res.all_outcome (eHeaderSize_all hP h) ht
  case eHeaderByte => exact Res.all_outcome (eHeaderByte_all hP h) ht
  case ePayloadStep => exact Res.all_outcome (ePayloadStep_all hP h) ht
  case bwInit =>
    cases ht
    exact hP.setEng _ _ ⟨rfl, rfl, rfl, rfl, rfl⟩ h
  case bwPutBit b => exact Res.all_outcome (bwPutBit_all hP b h) ht
  case bwWriteBits v => exact Res.all_outcome (bwPutBits_all hP _ h) ht
  case bwFinish =>
    refine Res.all_outcome (Res.all_bind (bwFinish_all hP h) fun _ _ _ hu => ?_) ht
    exact hP.setEng _ _ ⟨rfl, rfl, rfl, rfl, rfl⟩ hu
  case dHeaderField => exact Res.all_outcome (dHeaderField_all hP h) ht
  case dHeaderCheck => exact Res.all_outcome (dHeaderCheck_all hP h) ht
  case dRebuildStep => exact Res.all_outcome (dRebuildStep_all hP h) ht
  case brInit =>
    cases ht
    exact hP.setEng _ _ ⟨rfl, rfl, rfl, rfl, rfl⟩ h
  case brReadBit =>
    refine Res.all_outcome (Res.all_bind (brReadBit_all hP h) fun _ _ _ hu => ?_) ht
    exact hP.setEng _ _ ⟨rfl, rfl, rfl, rfl, rfl⟩ hu
  case twStep => exact Res.all_outcome (twStep_all hP h) ht
  case soEmit v => exact Res.all_outcome (soEmit_all hP v h) ht
  case dPayloadEnd => exact Res.all_outcome (dPayloadEnd_all hP h) ht

end Kept

end Sys2Proof.Machine
end

