-- ==== Sys2Proof/Laws/PerInstr.lean ====
section
/-! SUPPORT. Statements about every instruction as syntax, one lemma a constructor. -/

namespace Sys2Proof.Laws.EncodesAligned

/-- A well-formed instruction that a host access selects has an encoding, which is an aligned 32-bit
access (20_memory.md R68); a micro-operation has none (40_frequency_table.md). -/
def Statement (i : Instr) : Prop :=
  (i.wf = true → i.hostVisible = true →
    (∃ off, encode i = some (.read off) ∧ alignedOffset off = true)
      ∨ ∃ off v, encode i = some (.write off v) ∧ alignedOffset off = true)
    ∧ (i.hostVisible = false → encode i = none)

theorem nop : Statement .nop :=
  ⟨fun _ _ => .inr ⟨_, _, rfl, rfl⟩, fun h => nomatch h⟩
theorem encode : Statement .encode :=
  ⟨fun _ _ => .inr ⟨_, _, rfl, rfl⟩, fun h => nomatch h⟩
theorem decode : Statement .decode :=
  ⟨fun _ _ => .inr ⟨_, _, rfl, rfl⟩, fun h => nomatch h⟩
theorem illegal (w : Word) : Statement (.illegal w) :=
  ⟨fun _ _ => .inr ⟨_, _, rfl, rfl⟩, fun h => nomatch h⟩
theorem cmdWhileBusy (w : Word) : Statement (.cmdWhileBusy w) :=
  ⟨fun _ _ => .inr ⟨_, _, rfl, rfl⟩, fun h => nomatch h⟩
theorem mmioRead (off : Byte) : Statement (.mmioRead off) :=
  ⟨fun h _ => .inl ⟨off, rfl, h⟩, fun h => nomatch h⟩
theorem mmioWriteCtrl (v : Word) : Statement (.mmioWriteCtrl v) :=
  ⟨fun _ _ => .inr ⟨_, _, rfl, rfl⟩, fun h => nomatch h⟩
theorem mmioWriteStatus (v : Word) : Statement (.mmioWriteStatus v) :=
  ⟨fun _ _ => .inr ⟨_, _, rfl, rfl⟩, fun h => nomatch h⟩
theorem mmioWriteOperand (r : OperandReg) (v : Word) : Statement (.mmioWriteOperand r v) :=
  ⟨fun _ _ => .inr ⟨_, _, rfl, by cases r <;> rfl⟩, fun h => nomatch h⟩
theorem mmioWriteIgnored (off : Byte) (v : Word) : Statement (.mmioWriteIgnored off v) :=
  ⟨fun h _ => .inr ⟨_, _, rfl, (Bool.and_eq_true _ _ ▸ h : _ ∧ _).1⟩, fun h => nomatch h⟩
theorem ftClear : Statement .ftClear := ⟨fun _ h => (nomatch h), fun _ => rfl⟩
theorem ftCount : Statement .ftCount := ⟨fun _ h => (nomatch h), fun _ => rfl⟩
theorem pqInsert (n : NodeRef) : Statement (.pqInsert n) := ⟨fun _ h => (nomatch h), fun _ => rfl⟩
theorem pqExtractMin : Statement .pqExtractMin := ⟨fun _ h => (nomatch h), fun _ => rfl⟩
theorem tbLeaves : Statement .tbLeaves := ⟨fun _ h => (nomatch h), fun _ => rfl⟩
theorem tbEmpty : Statement .tbEmpty := ⟨fun _ h => (nomatch h), fun _ => rfl⟩
theorem tbSingle : Statement .tbSingle := ⟨fun _ h => (nomatch h), fun _ => rfl⟩
theorem tbMerge : Statement .tbMerge := ⟨fun _ h => (nomatch h), fun _ => rfl⟩
theorem tbFinish : Statement .tbFinish := ⟨fun _ h => (nomatch h), fun _ => rfl⟩
theorem cgWalk : Statement .cgWalk := ⟨fun _ h => (nomatch h), fun _ => rfl⟩
theorem eHeaderSize : Statement .eHeaderSize := ⟨fun _ h => (nomatch h), fun _ => rfl⟩
theorem eHeaderByte : Statement .eHeaderByte := ⟨fun _ h => (nomatch h), fun _ => rfl⟩
theorem ePayloadStep : Statement .ePayloadStep := ⟨fun _ h => (nomatch h), fun _ => rfl⟩
theorem bwInit (base : DWord) : Statement (.bwInit base) := ⟨fun _ h => (nomatch h), fun _ => rfl⟩
theorem bwPutBit (b : Bool) : Statement (.bwPutBit b) := ⟨fun _ h => (nomatch h), fun _ => rfl⟩
theorem bwWriteBits (v : Byte) : Statement (.bwWriteBits v) := ⟨fun _ h => (nomatch h), fun _ => rfl⟩
theorem bwFinish : Statement .bwFinish := ⟨fun _ h => (nomatch h), fun _ => rfl⟩
theorem dHeaderField : Statement .dHeaderField := ⟨fun _ h => (nomatch h), fun _ => rfl⟩
theorem dHeaderCheck : Statement .dHeaderCheck := ⟨fun _ h => (nomatch h), fun _ => rfl⟩
theorem dRebuildStep : Statement .dRebuildStep := ⟨fun _ h => (nomatch h), fun _ => rfl⟩
theorem brInit (base : DWord) (n : Word) : Statement (.brInit base n) :=
  ⟨fun _ h => (nomatch h), fun _ => rfl⟩
theorem brReadBit : Statement .brReadBit := ⟨fun _ h => (nomatch h), fun _ => rfl⟩
theorem twStep : Statement .twStep := ⟨fun _ h => (nomatch h), fun _ => rfl⟩
theorem soEmit (v : Byte) : Statement (.soEmit v) := ⟨fun _ h => (nomatch h), fun _ => rfl⟩
theorem dPayloadEnd : Statement .dPayloadEnd := ⟨fun _ h => (nomatch h), fun _ => rfl⟩

end Sys2Proof.Laws.EncodesAligned
end

