-- ==== Sys2Proof/Laws/Tables.lean ====
section
/-! SUPPORT. The tables of the engine: the frequency table, the arena and the code table read back
what is written to them; the symbols; the nodes the tree builder adds and takes. -/

namespace Sys2Proof.Machine

theorem symIdx_inj {u v : Byte} : (symIdx u).val = (symIdx v).val ↔ u = v :=
  ⟨fun h => BitVec.eq_of_toNat_eq h, fun h => by rw [h]⟩

/-- The frequency table after one entry is written. -/
theorem freqOf_setFreq (g : Engine) (v u : Byte) (f : DWord) :
    (g.setFreq v f).freqOf u = if u = v then f else g.freqOf u := by
  simp only [Engine.freqOf, Engine.setFreq, Fin.getElem_fin, Vector.getElem_set]
  by_cases h : u = v
  · subst h
    simp
  · rw [if_neg h, if_neg fun e => h (symIdx_inj.1 e.symm)]

/-- The arena after one node is written. -/
theorem nodeAt_setNode (g : Engine) (n m : NodeRef) (x : Node) :
    (g.setNode n x).nodeAt m = if m = n then x else g.nodeAt m := by
  simp only [Engine.nodeAt, Engine.setNode, Fin.getElem_fin, Vector.getElem_set]
  by_cases h : m = n
  · subst h
    simp
  · rw [if_neg h, if_neg fun e => h (Fin.ext e.symm)]

/-- The code lengths after one codeword is written. -/
theorem codelenOf_setCode (g : Engine) (v u len : Byte) (pat : Pattern) :
    (g.setCode v len pat).codelenOf u = if u = v then len else g.codelenOf u := by
  simp only [Engine.codelenOf, Engine.setCode, Fin.getElem_fin, Vector.getElem_set]
  by_cases h : u = v
  · subst h
    simp
  · rw [if_neg h, if_neg fun e => h (symIdx_inj.1 e.symm)]

/-- The codeword patterns after one codeword is written. -/
theorem codepatOf_setCode (g : Engine) (v u len : Byte) (pat : Pattern) :
    (g.setCode v len pat).codepatOf u = if u = v then pat else g.codepatOf u := by
  simp only [Engine.codepatOf, Engine.setCode, Fin.getElem_fin, Vector.getElem_set]
  by_cases h : u = v
  · subst h
    simp
  · rw [if_neg h, if_neg fun e => h (symIdx_inj.1 e.symm)]

/-- The cleared table holds zero for every symbol (40_frequency_table.md R130). -/
theorem freqOf_clearTable (g : Engine) (v : Byte) : g.clearTable.freqOf v = 0 := by
  simp [Engine.freqOf, Engine.clearTable]

theorem mem_allSymbols (v : Byte) : v ∈ allSymbols :=
  List.mem_map.2 ⟨v.toNat, List.mem_range.2 v.isLt, by simp⟩

theorem length_allSymbols : allSymbols.length = 256 := by simp [allSymbols]

theorem getElem_allSymbols {n : Nat} (h : n < allSymbols.length) :
    allSymbols[n] = BitVec.ofNat 8 n := by simp [allSymbols]

/-- Each symbol stands once among all of them. -/
theorem nodup_allSymbols : allSymbols.Nodup := by
  refine (List.nodup_map_iff_inj_on List.nodup_range).2 fun a ha b hb h => ?_
  have hx := congrArg BitVec.toNat h
  simp only [BitVec.toNat_ofNat] at hx
  rw [List.mem_range] at ha hb
  omega

/-- A symbol is present exactly when its counter is not zero (10_state.md R41). -/
theorem mem_present (g : Engine) (v : Byte) : v ∈ g.present ↔ g.freqOf v ≠ 0 := by
  simp [Engine.present, mem_allSymbols]

theorem nodup_present (g : Engine) : g.present.Nodup := nodup_allSymbols.filter _

/-- There are at most 256 present symbols (00_scope.md, k). -/
theorem length_present_le (g : Engine) : g.present.length ≤ 256 := by
  have h := List.length_filter_le (fun v => g.freqOf v != 0) allSymbols
  rwa [length_allSymbols] at h

/-- A node written at the next arena index and queued (42_tree_builder.md R170, R173). -/
def Engine.queued (g : Engine) (n : NodeRef) (x : Node) : Engine :=
  ((g.setNode n x).setPq (insertRef n g.pq)).nextNn

theorem nextNode_eq {g : Engine} {n : NodeRef} (h : g.nn.toNat = n.val) : g.nextNode = some n := by
  simp [Engine.nextNode, h, n.isLt]

/-- Adding a node completes while the arena and the queue have room. -/
theorem addQueued_ok {s : State} {n : NodeRef} (x : Node) (hn : s.eng.nn.toNat = n.val)
    (hq : s.eng.pq.length < 256) : addQueued x s = .ok () (s.setEng (s.eng.queued n x)) := by
  unfold addQueued
  rw [nextNode_eq hn]
  rcases pqInsert_cases n (s.setEng (s.eng.setNode n x)) with ⟨-, e⟩ | ⟨h, -⟩
  · dsimp only
    rw [e]
    rfl
  · exact absurd h (by simp; omega)

/-- The builder's extraction from a queue of distinct keys takes the smallest node
(41_priority_queue.md R153). -/
theorem pqTake_least {s : State} {m : NodeRef} (hd : s.eng.distinctKeys s.eng.pq)
    (h : s.eng.isLeast m s.eng.pq) :
    pqTake s = .ok m (s.setEng (s.eng.setPq (removeRef m s.eng.pq))) := by
  rcases pqTake_cases s with ⟨h', -⟩ | ⟨k, hk, e⟩
  · exact absurd h.1 (by simp [h'])
  · have hl := pqLeast_isLeast hd hk
    by_cases hmk : m = k
    · rw [hmk]
      exact e
    · have h1 := h.2 k hl.1 fun e => hmk e.symm
      have h2 := hl.2 m h.1 hmk
      rw [pqLess_asymm h1] at h2
      cases h2

/-- The builder's extraction from a queue of one node takes it. -/
theorem pqTake_single {s : State} {m : NodeRef} (h : s.eng.pq = [m]) :
    pqTake s = .ok m (s.setEng (s.eng.setPq [])) := by
  rcases pqTake_cases s with ⟨h', -⟩ | ⟨k, hk, e⟩
  · simp [h] at h'
  · simp only [h, Engine.pqLeast, Option.some.injEq] at hk
    subst hk
    rw [e, h]
    simp [removeRef]

/-- Taking a queued node out makes the queue shorter. -/
theorem length_removeRef_lt {n : NodeRef} {l : List NodeRef} (h : n ∈ l) :
    (removeRef n l).length < l.length := by
  unfold removeRef
  rw [List.length_filter_lt_length_iff_exists]
  exact ⟨n, h, by simp⟩

/-- A merge of a queue of distinct keys joins its two smallest nodes (42_tree_builder.md R173). -/
theorem tbMerge_least {s : State} {l r n : NodeRef} (hd : s.eng.distinctKeys s.eng.pq)
    (hlen : s.eng.pq.length ≤ 256) (hl : s.eng.isLeast l s.eng.pq)
    (hr : s.eng.isLeast r (removeRef l s.eng.pq)) (hn : s.eng.nn.toNat = n.val) :
    tbMerge s = .ok () (s.setEng ((s.eng.setPq (removeRef r (removeRef l s.eng.pq))).queued n
      (Node.merged l r (s.eng.nodeAt l) (s.eng.nodeAt r)))) := by
  have hd' : s.eng.distinctKeys (removeRef l s.eng.pq) := fun a ha b hb =>
    hd a ((mem_removeRef _ _ _).1 ha).1 b ((mem_removeRef _ _ _).1 hb).1
  unfold tbMerge
  rw [pqTake_least hd hl, Res.bind_ok,
    pqTake_least (s := s.setEng (s.eng.setPq (removeRef l s.eng.pq))) hd' hr, Res.bind_ok,
    addQueued_ok]
  · rfl
  · exact hn
  · exact lt_of_le_of_lt (removeRef_length r _) (lt_of_lt_of_le (length_removeRef_lt hl.1) hlen)

end Sys2Proof.Machine
end

