-- ==== Sys2Proof/Laws/Step.lean ====
section
/-! SUPPORT. What one step can do: an engine step keeps what the engine's updates keep, and a step of
the machine is an engine step or an input. -/

namespace Sys2Proof.Machine

theorem onNext_next_inv {o : Host.Outcome State Fault Refusal}
    {k : State → Host.Outcome State Fault Refusal} {t : State} (h : onNext o k = .next t) :
    ∃ u, o = .next u ∧ k u = .next t := by
  cases o with
  | next u => exact ⟨u, rfl, h⟩
  | fault f => cases h
  | refused r => cases h

theorem moveTo_keeps {P : State → Prop} (hP : EngineClosed P) {f : Fsm} {s t : State} (h : P s)
    (ht : moveTo f s = .next t) : P t := by
  cases ht
  exact hP.setEng _ _ ⟨rfl, rfl, rfl, rfl, rfl⟩ h

/-- A micro-operation and the move to the next FSM state together. -/
theorem exec_moveTo_keeps {P : State → Prop} (hP : EngineClosed P) {i : Instr} {f : Fsm}
    {s t : State} (hi : i.hostVisible = false) (h : P s)
    (ht : onNext (exec i s) (moveTo f) = .next t) : P t := by
  obtain ⟨u, hu, hm⟩ := onNext_next_inv ht
  exact moveTo_keeps hP (exec_keeps hP hi h hu) hm

/-- An engine step keeps what the engine's updates keep. -/
theorem engineStep_keeps {P : State → Prop} (hP : EngineClosed P) {s t : State} (h : P s)
    (ht : engineStep s = .next t) : P t := by
  unfold engineStep at ht
  split at ht
  · cases ht
    exact h
  · unfold stepCount at ht
    split at ht
    · exact exec_keeps hP rfl h ht
    · exact moveTo_keeps hP h ht
  · unfold stepBuild at ht
    split at ht
    · obtain ⟨u, hu, hm⟩ := onNext_next_inv ht
      cases hm
      exact hP.setEng _ _ ⟨rfl, rfl, rfl, rfl, rfl⟩ (exec_keeps hP (t := u) rfl h hu)
    · split at ht
      · exact exec_moveTo_keeps hP rfl h ht
      · split at ht
        · exact exec_moveTo_keeps hP rfl h ht
        · split at ht
          · exact exec_keeps hP rfl h ht
          · exact exec_moveTo_keeps hP rfl h ht
  · exact exec_moveTo_keeps hP rfl h ht
  · unfold stepHeader at ht
    split at ht
    · exact exec_keeps hP rfl h ht
    · split at ht
      · exact exec_keeps hP rfl h ht
      · cases ht
  · exact exec_keeps hP rfl h ht
  · unfold stepDHeader at ht
    split at ht <;> exact exec_keeps hP rfl h ht
  · exact exec_keeps hP rfl h ht
  · unfold stepDPayload at ht
    split at ht <;> exact exec_keeps hP rfl h ht

/-- On the engine's turn a step is an engine step. -/
theorem step_of_turn {s u : State} (h : s.engineTurn u) : step s = engineStep u := by
  rcases h with ⟨h, rfl⟩ | ⟨n, x, rest, h, rfl⟩
  · simp only [step, h]
  · simp only [step, h]
    rfl

/-- An input that is due is what a step does. -/
theorem step_of_input {s : State} {x : Input} {rest : List Timed} (h : s.inputs = ⟨0, x⟩ :: rest) :
    step s = applyInput x (s.setInputs rest) := by
  simp only [step, h]

/-- A step is the engine's turn or the input that is due. -/
theorem step_cases (s : State) :
    (∃ u, s.engineTurn u ∧ step s = engineStep u)
      ∨ ∃ x rest, s.inputs = ⟨0, x⟩ :: rest ∧ step s = applyInput x (s.setInputs rest) := by
  cases h : s.inputs with
  | nil => exact .inl ⟨s, .inl ⟨h, rfl⟩, step_of_turn (.inl ⟨h, rfl⟩)⟩
  | cons a rest =>
    obtain ⟨n, x⟩ := a
    cases n with
    | zero => exact .inr ⟨x, rest, rfl, step_of_input h⟩
    | succ n =>
      have ht : s.engineTurn { s with inputs := ⟨n, x⟩ :: rest } := .inr ⟨n, x, rest, h, rfl⟩
      exact .inl ⟨_, ht, step_of_turn ht⟩

/-- The address a transaction touches is the only one whose byte it can change. -/
theorem read_land_ne (m : List Host.Cell) (x : BusAccess) {a : Nat} (h : ∀ v, x ≠ .write a v) :
    Memory.read (BusAccess.land m x) a = Memory.read m a := by
  cases x with
  | write b v => exact Memory.read_write_ne m v fun e => h v (by rw [e])
  | read b v => rfl
  | readError b => rfl
  | writeError b => rfl

end Sys2Proof.Machine
end

