-- ==== Sys2Proof/Tests/Slice0.lean ====
section
/-! SUPPORT. Small tests: what well-formedness refuses, words written out from the spec's encodings,
one step of each instruction with the values the spec's examples give, and for every obligation with
hypotheses a state and operands that meet them. -/

namespace Sys2Proof.Tests

open Sys2Proof Sys2Proof.Machine

section

/- One theorem at a time: each kernel evaluation would otherwise hold a thread of its own. -/
set_option Elab.async false

/-! ### Well-formedness refuses each ill-formed term -/

theorem test_wf_illegal_not_nop : (Instr.illegal 0).wf = false := by decide
theorem test_wf_illegal_not_encode : (Instr.illegal 1).wf = false := by decide
theorem test_wf_illegal_not_decode : (Instr.illegal 2).wf = false := by decide
theorem test_wf_read_misaligned : (Instr.mmioRead 0x0E).wf = false := by decide
theorem test_wf_ignored_misaligned : (Instr.mmioWriteIgnored 0x39 0).wf = false := by decide
theorem test_wf_ignored_ctrl : (Instr.mmioWriteIgnored 0x04 0).wf = false := by decide
theorem test_wf_ignored_cmd : (Instr.mmioWriteIgnored 0x08 0).wf = false := by decide
theorem test_wf_ignored_operand : (Instr.mmioWriteIgnored 0x34 0).wf = false := by decide
theorem test_wf_ignored_reserved : (Instr.mmioWriteIgnored 0xFC 0).wf = true := by decide

/-! ### Decoding: words written out from 30_encoding.md R91, R93 and 10_state.md R23 -/

theorem test_decode_nop : decodeBytes [0x00, 0x00, 0x00, 0x00] = .ok .nop := by decide
theorem test_decode_encode : decodeBytes [0x01, 0x00, 0x00, 0x00] = .ok .encode := by decide
theorem test_decode_decode : decodeBytes [0x02, 0x00, 0x00, 0x00] = .ok .decode := by decide
theorem test_decode_reserved_op : decodeBytes [0x03, 0x00, 0x00, 0x00] = .ok (.illegal 3) := by
  decide
theorem test_decode_reserved_z : decodeBytes [0x01, 0x00, 0x00, 0x80] = .ok (.illegal 0x80000001) := by
  decide
theorem test_decode_short : decodeBytes [0x01, 0x00, 0x00] = .error .length := by decide
theorem test_decode_read : decodeAccess false (.read 0x0C) = .ok (.mmioRead 0x0C) := by decide
theorem test_decode_ctrl : decodeAccess true (.write 0x04 1) = .ok (.mmioWriteCtrl 1) := by decide
theorem test_decode_status : decodeAccess true (.write 0x0C 0xE) = .ok (.mmioWriteStatus 0xE) := by
  decide
theorem test_decode_src_addr_lo :
    decodeAccess false (.write 0x18 7) = .ok (.mmioWriteOperand .srcAddrLo 7) := by decide
theorem test_decode_dst_cap_hi :
    decodeAccess false (.write 0x34 7) = .ok (.mmioWriteOperand .dstCapHi 7) := by decide
theorem test_decode_id_write : decodeAccess false (.write 0x00 7) = .ok (.mmioWriteIgnored 0 7) := by
  decide
theorem test_decode_busy : decodeAccess true (.write 0x08 1) = .ok (.cmdWhileBusy 1) := by decide
theorem test_decode_misaligned : decodeAccess false (.read 0x0D) = .error .misaligned := by decide
theorem test_decode_width : decodeAccess false (.other 0x0C 1 false) = .error .width := by decide
theorem test_table_word_encode : decodeTableWord 32 1 = some .encode := by decide

/-! ### Small states -/

/-- The reset state with another engine. -/
def eng (f : Engine → Engine) : State := State.reset.setEng (f State.reset.eng)

/-- The reset state with other registers. -/
def reg (f : Regs → Regs) : State := State.reset.setRegs (f State.reset.regs)

/-- Some bytes in memory. -/
def mem (a : Nat) (bs : List Byte) (s : State) : State :=
  { s with mem := Memory.writeBytes s.mem a bs }

/-- Some inputs to come. -/
def inp (l : List Timed) (s : State) : State := s.setInputs l

/-- The platform with a device at 0x4000. -/
def dev (s : State) : State := { s with plat := { s.plat with devices := [⟨0x4000, 16⟩] } }

/-- The platform with faults on reads at 0x3000 and on writes at 0x3800. -/
def flt (s : State) : State :=
  { s with plat := { s.plat with
      busFaults := [⟨⟨0x3000, 1⟩, true, false⟩, ⟨⟨0x3800, 1⟩, false, true⟩] } }

/-- Whether the outcome is a next state with this property. -/
def nextIs (o : Host.Outcome State Fault Refusal) (p : State → Bool) : Bool :=
  match o with
  | .next t => p t
  | .fault _ => false
  | .refused _ => false

/-- A leaf. -/
def lf (v : Byte) (w : DWord) : Node := Node.leafOf v w

/-- An internal node. -/
def nd (w : DWord) (m : Byte) (l : NodeRef) (r : Option NodeRef) : Node :=
  { kind := .internal, sym := 0, w := w, minsym := m, left := some l, right := r }

/-- The arena of 42_tree_builder.md R173's example after all its merges (95_test_vectors.md). -/
def fiveTree (g : Engine) : Engine :=
  (((((((((g.setNode 0 (lf 0x41 1)).setNode 1 (lf 0x42 2)).setNode 2 (lf 0x43 3)).setNode 3
    (lf 0x44 4)).setNode 4 (lf 0x45 5)).setNode 5 (nd 3 0x41 0 (some 1))).setNode 6
    (nd 6 0x41 5 (some 2))).setNode 7 (nd 9 0x44 3 (some 4))).setNode 8
    (nd 15 0x41 6 (some 7))).setRoot (some 8)

/-- The arena of a one-symbol container (42_tree_builder.md R172). -/
def oneTree (g : Engine) : Engine :=
  (((g.setNode 0 (lf 0x41 5)).setNode 1 (nd 5 0x41 0 none)).setRoot (some 1)).setCur (some 1)

/-! ### One step of each instruction, by the spec's examples -/

/-- 47_host_interface.md R313: `NOP` after a successful command leaves `STATUS = 0x00000002`. -/
theorem test_nop : nextIs (exec .nop (reg fun r => { r with done := true }))
    (fun t => readReg t 0x0C == 0x00000002) = true := by decide +kernel

/-- 47_host_interface.md R312's example of `OVERLAP`. -/
def overlapping : State := reg fun r =>
  { r with srcAddr := 0x1000, srcLen := 0x20, dstAddr := 0x1010, dstCap := 0x100 }

theorem test_encode_overlap : nextIs (exec .encode overlapping)
    (fun t => readReg t 0x0C == 0x00000004 && readReg t 0x10 == 0x00002306
      && readReg t 0x40 == 0x1010) = true := by decide +kernel

/-- A source range ending exactly at 2^64 is legal (47_host_interface.md R312). -/
theorem test_encode_top_of_memory :
    nextIs (exec .encode (reg fun r => { r with srcAddr := 0xFFFFFFFFFFFFFFF0, srcLen := 0x10 }))
      (fun t => readReg t 0x0C == 0x00000101) = true := by decide +kernel

theorem test_decode_accepted : nextIs (exec .decode State.reset)
    (fun t => readReg t 0x0C == 0x00000801 && t.eng.op == 2) = true := by decide +kernel

theorem test_decode_src_range :
    nextIs (exec .decode (reg fun r => { r with srcAddr := 0xFFFFFFFFFFFFFFF0, srcLen := 0x11 }))
      (fun t => readReg t 0x0C == 0x00000004 && readReg t 0x10 == 0x00002106
        && readReg t 0x44 == 0xFFFFFFFF) = true := by decide +kernel

/-- 47_host_interface.md R314's example. -/
theorem test_illegal : nextIs (exec (.illegal 3) State.reset)
    (fun t => readReg t 0x0C == 0x00000004 && readReg t 0x10 == 0x00002006
      && readReg t 0x40 == 3) = true := by decide +kernel

/-- 47_host_interface.md R315: the running command goes on, `REJ` is set. -/
theorem test_cmd_while_busy :
    nextIs (exec (.cmdWhileBusy 2) (eng fun g => g.goto .eCodes))
      (fun t => readReg t 0x0C == 0x00000309) = true := by decide +kernel

/-- 10_state.md R24. -/
theorem test_mmio_read : nextIs (exec (.mmioRead 0x00) State.reset)
    (fun t => t.hostLog == [.reg 0x00 0x31465548]) = true := by decide +kernel

/-- 47_host_interface.md R318, R319: only bit 0 is stored, and `irq` rises at once. -/
theorem test_ctrl : nextIs (exec (.mmioWriteCtrl 0xFFFFFFFF) (reg fun r => { r with err := true }))
    (fun t => readReg t 0x04 == 1 && t.irq) = true := by decide +kernel

/-- 47_host_interface.md R317: bit 1 clears `DONE` alone. -/
theorem test_status :
    nextIs (exec (.mmioWriteStatus 2) (reg fun r => { r with done := true, rej := true }))
      (fun t => readReg t 0x0C == 0x00000008) = true := by decide +kernel

/-- 47_host_interface.md R316: the other half of the pair keeps its value. -/
theorem test_operand :
    nextIs (exec (.mmioWriteOperand .srcLenHi 1) (reg fun r => { r with srcLen := 0x7FFFFFFFF }))
      (fun t => t.regs.srcLen == 0x1FFFFFFFF) = true := by decide +kernel

theorem test_ignored : exec (.mmioWriteIgnored 0x38 5) State.reset = .next State.reset := rfl

theorem test_ft_clear : nextIs (exec .ftClear (eng fun g => g.setFreq 0x41 9))
    (fun t => t.eng.freqOf 0x41 == 0) = true := by decide +kernel

/-- 40_frequency_table.md R131's example, third step. -/
theorem test_ft_count :
    nextIs (exec .ftCount (mem 0x1000 [0x41, 0x42, 0x41]
        (eng fun g => { (g.setFreq 0x41 1).setFreq 0x42 1 with src := 0x1000, len := 3, i := 2 })))
      (fun t => t.eng.freqOf 0x41 == 2 && t.eng.freqOf 0x42 == 1 && t.eng.i == 3) = true := by
  decide +kernel

/-- 41_priority_queue.md R152's example: the insertion, and the extraction that follows it. -/
def twoQueued : State :=
  eng fun g => ((g.setNode 2 (lf 0x43 3)).setNode 5 (nd 3 0x41 0 (some 1))).setPq [2, 5]

theorem test_pq_insert :
    nextIs (exec (.pqInsert 5) (twoQueued.setEng (twoQueued.eng.setPq [2])))
      (fun t => t.eng.pq == [2, 5]) = true := by decide +kernel

theorem test_pq_extract_min : nextIs (exec .pqExtractMin twoQueued)
    (fun t => t.eng.ret == .node (some 5) && t.eng.pq == [2]) = true := by decide +kernel

/-- 42_tree_builder.md R170's example. -/
theorem test_tb_leaves :
    nextIs (exec .tbLeaves (eng fun g => (g.setFreq 0x42 2).setFreq 0x41 1))
      (fun t => t.eng.k == 2 && t.eng.nodeAt 0 == lf 0x41 1 && t.eng.nodeAt 1 == lf 0x42 2
        && t.eng.pq == [0, 1]) = true := by decide +kernel

theorem test_tb_empty : nextIs (exec .tbEmpty (eng fun g => g.setRoot (some 3)))
    (fun t => t.eng.root == none) = true := by decide +kernel

/-- 42_tree_builder.md R172's example. -/
theorem test_tb_single :
    nextIs (exec .tbSingle (eng fun g => (g.setNode 0 (lf 0x41 5)).setPq [0]))
      (fun t => t.eng.nodeAt 1 == nd 5 0x41 0 none && t.eng.root == some 1 && t.eng.nn == 2) = true := by
  decide +kernel

/-- 42_tree_builder.md R173's example, second merge: the internal node goes before 'C'. -/
def secondMerge : State :=
  eng fun g => { (fiveTree g).setPq [2, 3, 4, 5] with nn := 6 }

theorem test_tb_merge : nextIs (exec .tbMerge secondMerge)
    (fun t => t.eng.nodeAt 6 == nd 6 0x41 5 (some 2) && t.eng.pq == [3, 4, 6]) = true := by
  decide +kernel

theorem test_tb_finish : nextIs (exec .tbFinish (eng fun g => g.setPq [8]))
    (fun t => t.eng.root == some 8 && t.eng.pq == []) = true := by decide +kernel

/-- 95_test_vectors.md V-CG-1: A = 000, B = 001, C = 01, D = 10, E = 11. -/
theorem test_cg_walk : nextIs (exec .cgWalk (eng fiveTree))
    (fun t => t.eng.codeword 0x41 == [false, false, false]
      && t.eng.codeword 0x42 == [false, false, true] && t.eng.codeword 0x43 == [false, true]
      && t.eng.codeword 0x44 == [true, false] && t.eng.codeword 0x45 == [true, true]) = true := by
  decide +kernel

/-- 45_encoder.md R240's example "AAAAA": 5 bits, 24 bytes. -/
def sizing (cap : DWord) : State :=
  eng fun g => { (g.setFreq 0x41 5).setCode 0x41 1 0 with k := 1, len := 5, cap := cap }

theorem test_e_header_size : nextIs (exec .eHeaderSize (sizing 24))
    (fun t => t.eng.total == 5 && t.eng.hsize == 23 && t.eng.csize == 24 && t.eng.phase == 1) = true := by
  decide +kernel

/-- 44_bitstream.md R210's example: the last header byte of an empty input opens the writer at 0x1012. -/
theorem test_e_header_byte :
    nextIs (exec .eHeaderByte (eng fun g => { g with dst := 0x1000, cap := 18, hpos := 17, hsize := 18 }))
      (fun t => t.eng.wbase == 0x1012 && t.eng.fsm == .ePayload) = true := by decide +kernel

/-- 45_encoder.md R248: an empty input completes with `OUT_LEN = 18`. -/
theorem test_e_payload_end :
    nextIs (exec .ePayloadStep (eng fun g => { g with fsm := .ePayload, hsize := 18 }))
      (fun t => readReg t 0x38 == 18 && readReg t 0x0C == 2) = true := by decide +kernel

theorem test_bw_init : nextIs (exec (.bwInit 0x1012) (eng fun g => { g with wpos := 3, nacc := 2 }))
    (fun t => t.eng.wbase == 0x1012 && t.eng.wpos == 0 && t.eng.nacc == 0) = true := by decide +kernel

/-- The state before the eighth bit of 44_bitstream.md R211's example. -/
def seventhBit : State :=
  eng fun g => { g with dst := 0x1000, cap := 64, wbase := 0x1012, acc := 0x04, nacc := 7, nbits := 7 }

theorem test_bw_put_bit : nextIs (exec (.bwPutBit true) seventhBit)
    (fun t => Memory.read t.mem 0x1012 == 0x05 && t.eng.nacc == 0 && t.eng.nbits == 8) = true := by
  decide +kernel

/-- 44_bitstream.md R212's example: "001" with `s.nacc = 6`. -/
def sixBits : State :=
  eng fun g => { g.setCode 0x42 3 1 with
    dst := 0x1000, cap := 64, wbase := 0x1012, acc := 0xFC, nacc := 6, nbits := 6 }

theorem test_bw_write_bits : nextIs (exec (.bwWriteBits 0x42) sixBits)
    (fun t => Memory.read t.mem 0x1012 == 0xFC && t.eng.nacc == 1 && t.eng.acc == 0x80) = true := by
  decide +kernel

/-- 44_bitstream.md R213's example: (33, 5). -/
theorem test_bw_finish :
    nextIs (exec .bwFinish (eng fun g => { g with
        dst := 0x1000, cap := 64, wbase := 0x1012, wpos := 4, acc := 0x80, nacc := 1, nbits := 33 }))
      (fun t => t.eng.ret == .finish 33 5 && Memory.read t.mem 0x1016 == 0x80) = true := by
  decide +kernel

/-- 46_decoder.md R270: L = 0 fails `SHORT_HEADER`, info 0. -/
theorem test_d_header_short : nextIs (exec .dHeaderField State.reset)
    (fun t => readReg t 0x10 == 0x00000101 && readReg t 0x40 == 0) = true := by decide +kernel

/-- The container of "AAAAA" (46_decoder.md R270) at 0x2000, in some phase of `D_HEADER`. -/
def container (p : BitVec 3) : State :=
  mem 0x2000 [0x48, 0x55, 0x46, 0x31, 5, 0, 0, 0, 0, 0, 0, 0, 1, 0, 0x41, 5, 0, 0, 0, 5, 0, 0, 0, 0]
    (eng fun g => { g with
      fsm := .dHeader, phase := p, src := 0x2000, len := 24, dst := 0x3000, cap := 5
      k := 1, sum := 5, origlen := 5, bitlen := 5, hsize := 23 })

theorem test_d_header_entry : nextIs (exec .dHeaderField (container 3))
    (fun t => t.eng.freqOf 0x41 == 5 && t.eng.e == 1) = true := by decide +kernel

theorem test_d_header_check : nextIs (exec .dHeaderCheck (container 5))
    (fun t => t.eng.fsm == .dRebuild) = true := by decide +kernel

/-- 46_decoder.md R281: one byte short is `PAYLOAD_SHORT`, info 0. -/
theorem test_d_header_check_short :
    nextIs (exec .dHeaderCheck ((container 5).setEng { (container 5).eng with len := 23 }))
      (fun t => readReg t 0x10 == 0x00000702 && readReg t 0x40 == 0) = true := by decide +kernel

/-- 44_bitstream.md R214's example: `BR_INIT 0x2017, 5`. -/
theorem test_d_rebuild_step :
    nextIs (exec .dRebuildStep (container 2))
      (fun t => t.eng.rbase == 0x2017 && t.eng.bitlen == 5 && t.eng.fsm == .dPayload) = true := by
  decide +kernel

theorem test_br_init : nextIs (exec (.brInit 0x2017 5) (eng fun g => { g with rpos := 9 }))
    (fun t => t.eng.rbase == 0x2017 && t.eng.rpos == 0 && t.eng.bitlen == 5) = true := by
  decide +kernel

/-- 44_bitstream.md R215's example: byte 0x2C, `s.rpos = 2` returns 1. -/
def reading : State := mem 0x2017 [0x2C] (eng fun g => { g with rbase := 0x2017, rpos := 2, bitlen := 8 })

theorem test_br_read_bit : nextIs (exec .brReadBit reading)
    (fun t => t.eng.ret == .bit true && t.eng.rpos == 3) = true := by decide +kernel

/-- 46_decoder.md R275's example: payload byte 0x08, bit 4 selects the placeholder. -/
def walking (p : DWord) : State :=
  mem 0x2017 [0x08] (eng fun g => { oneTree g with
    fsm := .dPayload, rbase := 0x2017, bitlen := 5, rpos := p, origlen := 5, j := p
    dst := 0x3000, cap := 5 })

theorem test_tw_step_placeholder : nextIs (exec .twStep (walking 4))
    (fun t => readReg t 0x10 == 0x00000B03 && readReg t 0x40 == 4) = true := by decide +kernel

theorem test_tw_step_leaf : nextIs (exec .twStep (walking 3))
    (fun t => Memory.read t.mem 0x3003 == 0x41 && t.eng.j == 4 && t.eng.cur == some 1) = true := by
  decide +kernel

theorem test_so_emit :
    nextIs (exec (.soEmit 0x41) (eng fun g => { g with dst := 0x3000, cap := 5 }))
      (fun t => Memory.read t.mem 0x3000 == 0x41 && t.eng.j == 1) = true := by decide +kernel

/-- 46_decoder.md R278: the empty container completes with all results 0. -/
theorem test_d_payload_end : nextIs (exec .dPayloadEnd (eng fun g => { g with fsm := .dPayload }))
    (fun t => readReg t 0x0C == 2 && readReg t 0x38 == 0 && readReg t 0x48 == 0) = true := by
  decide +kernel

theorem test_d_payload_bits_left :
    nextIs (exec .dPayloadEnd (eng fun g => { g with fsm := .dPayload, bitlen := 5, rpos := 4 }))
      (fun t => readReg t 0x10 == 0x00000C01 && readReg t 0x40 == 4) = true := by decide +kernel

/-- The first step after reset runs the command word that is put before it. -/
theorem test_fetch_word : step (State.reset.withFetchWord 32 1) = exec .encode State.reset := rfl

/-! ### The host script (30_encoding.md R110, R111) -/

theorem test_script_mem : memActions 0x1000 [7, 8] = [.store 0x1000 [7], .store 0x1001 [8]] := rfl

/-- Each action has its own number of engine steps before it, and each read of a poll too. -/
theorem test_script_inputs :
    scriptInputs (fun n => ⟨n, [n]⟩) [.mem 0x10 [7], .encode, .wait] =
      [⟨0, .store 0x10 [7]⟩, ⟨1, .mmio (.write 0x08 1)⟩, ⟨2, .poll 0x0C 1 0 [2]⟩] := rfl

/-- R111: `v = t1 * 2^32 + t0`, after a `WAIT` whose second read ends it. -/
theorem test_script_rd64 :
    scriptVars [] [1, 2, 0x11, 0x22] [.wait, .rd64 .outLen 7] = some [(7, 0x0000002200000011)] := by
  decide

theorem test_script_read_missing : scriptVars [] [0x11] [.rd64 .outLen 7] = none := rfl

/-! ### A witness for every obligation with hypotheses -/

theorem nextIs_exists {o : Host.Outcome State Fault Refusal} {p : State → Bool}
    (h : nextIs o p = true) : ∃ t, o = .next t ∧ p t = true := by
  cases o with
  | next t => exact ⟨t, rfl, h⟩
  | fault f => exact absurd h (by simp [nextIs])
  | refused r => exact absurd h (by simp [nextIs])

theorem self_turn {s : State} (h : s.inputs = []) : s.engineTurn s := .inl ⟨h, rfl⟩

theorem witness_DecodeOfEncode :
    (∃ i busy a, i.wf = true ∧ i.selectedWhen busy = true ∧ encode i = some a ∧ i = .illegal 3)
      ∧ ∃ i a, i.wf = true ∧ i.selectedWhen true = true ∧ encode i = some a
        ∧ i = .mmioWriteIgnored 0xFC 7 :=
  ⟨⟨_, false, _, rfl, rfl, rfl, rfl⟩, ⟨_, _, rfl, rfl, rfl, rfl⟩⟩

theorem witness_EncodeOfDecode :
    decodeAccess false (.write 0x08 0xFFFFFFFF) = .ok (.illegal 0xFFFFFFFF)
      ∧ decodeAccess true (.read 0xFC) = .ok (.mmioRead 0xFC) := by decide

theorem witness_HostAccessStepRunsInstruction :
    (∃ (s : State) (i : Instr), s.inputs = [⟨0, .mmio (.write 0x08 1)⟩]
        ∧ decodeAccess s.busy (.write 0x08 1) = .ok i)
      ∧ ∃ (s : State) (e : Reject), s.inputs = [⟨0, .mmio (.read 0x0D)⟩] ∧ decodeAccess s.busy (.read 0x0D) = .error e :=
  ⟨⟨State.reset.withFetchWord 32 1, _, rfl, rfl⟩,
    ⟨inp [⟨0, .mmio (.read 0x0D)⟩] State.reset, _, rfl, rfl⟩⟩

theorem witness_UnsupportedAccessRefused :
    (∃ s : State, s.inputs = [⟨0, .mmio (.other 0x0C 1 false)⟩])
      ∧ (∃ s : State, (0x0D : Byte).toNat % 4 ≠ 0 ∧ s.inputs = [⟨0, .mmio (.read 0x0D)⟩])
      ∧ ∃ s : State, (0xFF : Byte).toNat % 4 ≠ 0 ∧ s.inputs = [⟨0, .mmio (.write 0xFF 1)⟩] :=
  ⟨⟨inp [⟨0, .mmio (.other 0x0C 1 false)⟩] State.reset, rfl⟩,
    ⟨inp [⟨0, .mmio (.read 0x0D)⟩] State.reset, by decide, rfl⟩,
    ⟨inp [⟨0, .mmio (.write 0xFF 1)⟩] State.reset, by decide, rfl⟩⟩

/-- An engine in one FSM state and phase. -/
def at_ (f : Fsm) (p : BitVec 3) (k : BitVec 9) (q : List NodeRef) : State :=
  eng fun g => { g with fsm := f, phase := p, k := k, pq := q, len := 1 }

theorem witness_EngineStepEncoder :
    (∃ s u : State, s.engineTurn u ∧ s.inputs ≠ [] ∧ u.eng.fsm = .eCount
      ∧ u.eng.i.toNat < u.eng.len.toNat)
    ∧ (∃ s u : State, s.engineTurn u ∧ u.eng.fsm = .idle)
    ∧ (∃ s u : State, s.engineTurn u ∧ u.eng.fsm = .eCount ∧ u.eng.len.toNat ≤ u.eng.i.toNat)
    ∧ (∃ s u : State, s.engineTurn u ∧ u.eng.fsm = .eBuild ∧ u.eng.phase = 0
      ∧ ∃ t, exec .tbLeaves u = .next t)
    ∧ (∃ s u : State, s.engineTurn u ∧ u.eng.fsm = .eBuild ∧ u.eng.phase ≠ 0 ∧ u.eng.k = 0
      ∧ ∃ t, exec .tbEmpty u = .next t)
    ∧ (∃ s u : State, s.engineTurn u ∧ u.eng.fsm = .eBuild ∧ u.eng.phase ≠ 0 ∧ u.eng.k = 1
      ∧ ∃ t, exec .tbSingle u = .next t)
    ∧ (∃ s u : State, s.engineTurn u ∧ u.eng.fsm = .eBuild ∧ u.eng.phase ≠ 0
      ∧ 2 ≤ u.eng.k.toNat ∧ 1 < u.eng.pq.length)
    ∧ (∃ s u : State, s.engineTurn u ∧ u.eng.fsm = .eBuild ∧ u.eng.phase ≠ 0
      ∧ 2 ≤ u.eng.k.toNat ∧ u.eng.pq.length ≤ 1 ∧ ∃ t, exec .tbFinish u = .next t)
    ∧ (∃ s u : State, s.engineTurn u ∧ u.eng.fsm = .eCodes ∧ ∃ t, exec .cgWalk u = .next t)
    ∧ (∃ s u : State, s.engineTurn u ∧ u.eng.fsm = .eHeader ∧ u.eng.phase = 0)
    ∧ (∃ s u : State, s.engineTurn u ∧ u.eng.fsm = .eHeader ∧ u.eng.phase = 1)
    ∧ ∃ s u : State, s.engineTurn u ∧ u.eng.fsm = .ePayload := by
  refine ⟨⟨inp [⟨1, .load 0⟩] (at_ .eCount 0 0 []), _, .inr ⟨0, _, _, rfl, rfl⟩, by simp [inp], rfl,
    by decide⟩, ⟨State.reset, _, self_turn rfl, rfl⟩,
    ⟨eng fun g => { g with fsm := .eCount }, _, self_turn rfl, rfl, by decide⟩,
    ⟨at_ .eBuild 0 0 [], _, self_turn rfl, rfl, rfl, ?_⟩,
    ⟨at_ .eBuild 1 0 [], _, self_turn rfl, rfl, by decide, rfl, _, rfl⟩,
    ⟨at_ .eBuild 1 1 [0], _, self_turn rfl, rfl, by decide, rfl, ?_⟩,
    ⟨at_ .eBuild 1 2 [0, 1], _, self_turn rfl, rfl, by decide, by decide, by decide⟩,
    ⟨at_ .eBuild 1 2 [2], _, self_turn rfl, rfl, by decide, by decide, by decide, ?_⟩,
    ⟨at_ .eCodes 0 0 [], _, self_turn rfl, rfl, _, rfl⟩,
    ⟨at_ .eHeader 0 0 [], _, self_turn rfl, rfl, rfl⟩,
    ⟨at_ .eHeader 1 0 [], _, self_turn rfl, rfl, rfl⟩,
    ⟨at_ .ePayload 0 0 [], _, self_turn rfl, rfl⟩⟩
  · obtain ⟨t, h, -⟩ := nextIs_exists
      (show nextIs (exec .tbLeaves (at_ .eBuild 0 0 [])) (fun _ => true) = true by decide +kernel)
    exact ⟨t, h⟩
  · obtain ⟨t, h, -⟩ := nextIs_exists
      (show nextIs (exec .tbSingle (at_ .eBuild 1 1 [0])) (fun _ => true) = true by decide +kernel)
    exact ⟨t, h⟩
  · obtain ⟨t, h, -⟩ := nextIs_exists
      (show nextIs (exec .tbFinish (at_ .eBuild 1 2 [2])) (fun _ => true) = true by decide +kernel)
    exact ⟨t, h⟩

theorem witness_EngineStepDecoder :
    (∃ s u : State, s.engineTurn u ∧ u.eng.fsm = .dHeader ∧ u.eng.phase ≠ 5)
    ∧ (∃ s u : State, s.engineTurn u ∧ u.eng.fsm = .dHeader ∧ u.eng.phase = 5)
    ∧ (∃ s u : State, s.engineTurn u ∧ u.eng.fsm = .dRebuild)
    ∧ (∃ s u : State, s.engineTurn u ∧ u.eng.fsm = .dPayload
      ∧ u.eng.j.toNat < u.eng.origlen.toNat)
    ∧ ∃ s u : State, s.engineTurn u ∧ u.eng.fsm = .dPayload
      ∧ u.eng.origlen.toNat ≤ u.eng.j.toNat :=
  ⟨⟨container 4, _, self_turn rfl, rfl, by decide⟩, ⟨container 5, _, self_turn rfl, rfl, rfl⟩,
    ⟨at_ .dRebuild 0 0 [], _, self_turn rfl, rfl⟩, ⟨walking 4, _, self_turn rfl, rfl, by decide⟩,
    ⟨walking 5, _, self_turn rfl, rfl, by decide⟩⟩

/-- A write in flight when reset is asserted: the read before it is made and it is not, or both are. -/
theorem witness_ResetEventAbandonsCommand :
    (∃ s u : State, s.inputs = [⟨0, .reset 1⟩] ∧ engineStep { s with inputs := [] } = .next u
      ∧ u.busLog.length = 2)
    ∧ ∃ (s t : State) (v w : Byte), s.inputs = [⟨0, .reset 2⟩] ∧ Memory.wf s.mem = true
      ∧ step s = .next t ∧ t.busLog = [.write 0x3003 v] ++ .read 0x2017 w :: s.busLog := by
  refine ⟨?_, ?_⟩
  · obtain ⟨u, h, hl⟩ := nextIs_exists (show nextIs (engineStep (walking 3))
      (fun t => t.busLog.length == 2) = true by decide +kernel)
    exact ⟨inp [⟨0, .reset 1⟩] (walking 3), u, rfl, h, by simpa using hl⟩
  · obtain ⟨t, h, hl⟩ := nextIs_exists (show nextIs (step (inp [⟨0, .reset 2⟩] (walking 3)))
      (fun t => t.busLog == [.write 0x3003 0x41, .read 0x2017 0x08]) = true by decide +kernel)
    exact ⟨_, t, 0x41, 0x08, rfl, by decide +kernel, h, eq_of_beq hl⟩

theorem witness_NopChangesNothing :
    State.reset.busy = false ∧ (at_ .eCodes 0 0 []).busy = true := by decide

theorem witness_CommandWordNamesItsCommand : State.reset.busy = false := by decide

/-- The longest input that `ENCODE` accepts, ending at the top of memory, into an empty range. -/
def longest : State :=
  reg fun r => { r with srcAddr := 0xFFFFFFFF00000001, srcLen := 0xFFFFFFFF, dstAddr := 0x1000 }

theorem witness_EncodeAccepted :
    longest.busy = false ∧ longest.regs.rangesOk ∧ longest.regs.srcLen.toNat ≤ 2 ^ 32 - 1
      ∧ longest.operandsOrdinary := by
  refine ⟨by decide, ?_, by decide, ?_⟩
  · unfold Regs.rangesOk
    decide
  · unfold State.operandsOrdinary
    decide +kernel

theorem witness_DecodeAccepted :
    longest.busy = false ∧ longest.regs.rangesOk ∧ longest.operandsOrdinary :=
  ⟨witness_EncodeAccepted.1, witness_EncodeAccepted.2.1, witness_EncodeAccepted.2.2.2⟩

theorem witness_AcceptanceErrorsInOrder :
    (∃ s : State, s.busy = false ∧ 2 ^ 64 < s.regs.srcAddr.toNat + s.regs.srcLen.toNat)
    ∧ (∃ s : State, s.busy = false ∧ s.regs.srcAddr.toNat + s.regs.srcLen.toNat ≤ 2 ^ 64
      ∧ 2 ^ 64 < s.regs.dstAddr.toNat + s.regs.dstCap.toNat)
    ∧ (overlapping.busy = false
      ∧ overlapping.regs.srcAddr.toNat + overlapping.regs.srcLen.toNat ≤ 2 ^ 64
      ∧ overlapping.regs.dstAddr.toNat + overlapping.regs.dstCap.toNat ≤ 2 ^ 64
      ∧ 0 < overlapping.regs.srcLen.toNat ∧ 0 < overlapping.regs.dstCap.toNat
      ∧ overlapping.regs.srcAddr.toNat < overlapping.regs.dstAddr.toNat + overlapping.regs.dstCap.toNat
      ∧ overlapping.regs.dstAddr.toNat < overlapping.regs.srcAddr.toNat + overlapping.regs.srcLen.toNat)
    ∧ ∃ s : State, s.busy = false ∧ s.regs.rangesOk ∧ 2 ^ 32 - 1 < s.regs.srcLen.toNat := by
  refine ⟨⟨reg fun r => { r with srcAddr := 0xFFFFFFFFFFFFFFFF, srcLen := 2 }, by decide, by decide⟩,
    ⟨reg fun r => { r with
      srcAddr := 0xFFFFFFFFFFFFFFFF, srcLen := 1, dstAddr := 0xFFFFFFFFFFFFFFFF, dstCap := 2 },
      by decide, by decide, by decide⟩, by decide,
    ⟨reg fun r => { r with srcLen := 0x100000000 }, by decide, ?_, by decide⟩⟩
  unfold Regs.rangesOk
  decide

theorem witness_IllegalWordReports :
    State.reset.busy = false ∧ (3 : Word) ≠ 0 ∧ (3 : Word) ≠ 1 ∧ (3 : Word) ≠ 2 := by decide

theorem witness_CommandWhileBusyRejected :
    ∃ (s : State) (w : Word) (i : Instr), s.busy = true ∧ i.wf = true ∧ commandWord i = some w
      ∧ i = .decode :=
  ⟨at_ .eCodes 0 0 [], 2, .decode, by decide, rfl, rfl, rfl⟩

theorem witness_ReadReturnsRegister :
    ∀ off ∈ ([0x00, 0x04, 0x08, 0x0C, 0x10, 0x14, 0x18, 0x1C, 0x20, 0x24, 0x28, 0x2C, 0x30, 0x34,
      0x38, 0x3C, 0x40, 0x44, 0x48, 0x4C, 0x50, 0xFC] : List Byte), off.toNat % 4 = 0 := by decide

theorem witness_OperandWriteStoresOrRejects :
    State.reset.busy = false ∧ (at_ .dHeader 0 0 []).busy = true := by decide

theorem witness_IgnoredWriteChangesNothing :
    ∀ off ∈ ([0x00, 0x10, 0x14, 0x38, 0x4C, 0x50, 0xFC] : List Byte), off.toNat % 4 = 0 ∧
      (off = 0x00 ∨ off = 0x10 ∨ off = 0x14 ∨ 0x38 ≤ off.toNat) := by decide

theorem witness_RejIsSticky :
    (∃ s t : State, exec (.cmdWhileBusy 1) s = .next t ∧ s.busy = true ∧ s.regs.rej = false)
      ∧ ∃ s t : State, exec .bwFinish s = .next t ∧ s.regs.rej = true :=
  ⟨⟨at_ .eCodes 0 0 [], _, rfl, rfl, rfl⟩, ⟨reg fun r => { r with rej := true }, _, rfl, rfl⟩⟩

theorem witness_HostRegistersOnlyByHostWrites :
    ∃ s t : State, exec .nop s = .next t ∧ (∀ v, Instr.nop ≠ .mmioWriteCtrl v)
      ∧ ∀ r v, Instr.nop ≠ .mmioWriteOperand r v :=
  ⟨State.reset, State.reset, rfl, ⟨(fun _ h => by cases h), (fun _ _ h => by cases h)⟩⟩

theorem witness_IrqLevel :
    (∃ s t : State, s.busy = false ∧ (exec .encode s = .next t ∨ exec .decode s = .next t)
      ∧ t.busy = true)
    ∧ (∃ s t : State, s.busy = true ∧ engineStep s = .next t ∧ t.busy = false)
    ∧ ∃ s t : State, ∃ v : Word, exec (.mmioWriteStatus v) s = .next t ∧ v.getLsbD 1 = true
      ∧ v.getLsbD 2 = true := by
  refine ⟨?_, ?_, ⟨State.reset, _, 6, rfl, by decide, by decide⟩⟩
  · obtain ⟨t, h, hb⟩ := nextIs_exists
      (show nextIs (exec .decode State.reset) (fun t => t.busy) = true by decide +kernel)
    exact ⟨State.reset, t, by decide, .inr h, hb⟩
  · obtain ⟨t, h, hb⟩ := nextIs_exists (show nextIs (engineStep (at_ .dPayload 0 0 []))
      (fun t => !t.busy) = true by decide +kernel)
    exact ⟨_, t, by decide, h, by simpa using hb⟩

theorem witness_FtCountCountsOneByte :
    (∃ (s : State) (a : Nat), a = s.eng.src.toNat + s.eng.i.toNat ∧ a < 2 ^ 64
      ∧ s.plat.readFaults a = false ∧ a = 2 ^ 64 - 1)
    ∧ ∃ (s : State) (a : Nat), a = s.eng.src.toNat + s.eng.i.toNat ∧ a < 2 ^ 64
      ∧ s.plat.readFaults a = true :=
  ⟨⟨eng fun g => { g with src := 0xFFFFFFFFFFFFFFFE, i := 1 }, _, rfl, by decide, by decide,
      by decide⟩,
    ⟨flt (eng fun g => { g with src := 0x3000 }), _, rfl, by decide, by decide⟩⟩

theorem witness_PqInsertAddsNode : twoQueued.eng.pq.length < 256 := by decide

theorem twoQueued_distinct : twoQueued.eng.distinctKeys twoQueued.eng.pq := by
  unfold Engine.distinctKeys
  decide +kernel

theorem witness_PqExtractMinTakesSmallest :
    State.reset.eng.pq = [] ∧ twoQueued.eng.pq ≠ []
      ∧ twoQueued.eng.distinctKeys twoQueued.eng.pq :=
  ⟨rfl, by decide, twoQueued_distinct⟩

theorem witness_TbRootSteps : (eng fun g => g.setPq [510]).eng.pq = [510] := rfl

theorem witness_TbMergeJoinsTwoSmallest :
    secondMerge.eng.distinctKeys secondMerge.eng.pq ∧ secondMerge.eng.pq.length ≤ 256
      ∧ secondMerge.eng.isLeast 5 secondMerge.eng.pq
      ∧ secondMerge.eng.isLeast 2 (secondMerge.eng.pq.filter (· ≠ 5))
      ∧ secondMerge.eng.nn.toNat = (6 : NodeRef).val := by
  unfold Engine.distinctKeys Engine.isLeast
  exact ⟨by decide +kernel, by decide +kernel, by decide +kernel, by decide +kernel,
    by decide +kernel⟩

/-- The table of 42_tree_builder.md R170's example. -/
def twoCounted : State := eng fun g => (g.setFreq 0x42 2).setFreq 0x41 1

theorem witness_TreeBuilderBuildsTheTree :
    2 ≤ twoCounted.eng.present.length ∧ twoCounted.eng.freqSum < 2 ^ 64 := by decide +kernel

/-- The tree of `fiveTree`. -/
def fiveLeaves : Machine.Tree :=
  .node (.node (.node (.leaf 0x41 1) (.leaf 0x42 2)) (.leaf 0x43 3))
    (.node (.leaf 0x44 4) (.leaf 0x45 5))

theorem fiveTree_rootTree : (eng fiveTree).eng.rootTree fiveLeaves := by
  refine ⟨⟨8, rfl, ?_⟩, by decide, by decide, by decide⟩
  have h : ∀ n, (eng fiveTree).eng.nodeAt n = (fiveTree State.reset.eng).nodeAt n := fun _ => rfl
  simp only [fiveLeaves, Engine.holdsTree, h]
  refine ⟨by decide +kernel, ⟨6, by decide +kernel, by decide +kernel,
    ⟨5, by decide +kernel, by decide +kernel, ⟨0, by decide +kernel, by decide +kernel⟩,
      ⟨1, by decide +kernel, by decide +kernel⟩⟩, ⟨2, by decide +kernel, by decide +kernel⟩⟩,
    ⟨7, by decide +kernel, by decide +kernel, ⟨3, by decide +kernel, by decide +kernel⟩,
      ⟨4, by decide +kernel, by decide +kernel⟩⟩⟩

theorem oneTree_rootTree : (eng oneTree).eng.rootTree (.single (.leaf 0x41 5)) := by
  refine ⟨⟨1, rfl, ?_⟩, by decide, by decide, by decide⟩
  simp only [Engine.holdsTree]
  exact ⟨by decide +kernel, by decide +kernel, 0, by decide +kernel, by decide +kernel⟩

theorem witness_CgWalkAssignsPaths :
    (∃ (s : State) (t : Machine.Tree), s.eng.rootTree t ∧ (0x41, [false]) ∈ t.codes
      ∧ (0x42 : Byte) ∉ t.leaves.map Prod.fst)
      ∧ State.reset.eng.root = none :=
  ⟨⟨_, _, oneTree_rootTree, by decide, by decide⟩, rfl⟩

theorem witness_CodewordsArePrefixFree :
    ∃ (s u : State) (t : Machine.Tree) (v w : Byte), s.eng.rootTree t ∧ exec .cgWalk s = .next u
      ∧ v ∈ t.leaves.map Prod.fst ∧ w ∈ t.leaves.map Prod.fst ∧ v ≠ w := by
  obtain ⟨u, h, -⟩ := nextIs_exists test_cg_walk
  exact ⟨_, u, fiveLeaves, 0x41, 0x45, fiveTree_rootTree, h, by decide, by decide, by decide⟩

theorem witness_BitWriterPacksBits :
    (Memory.wf seventhBit.mem = true ∧ seventhBit.eng.accClean ∧ seventhBit.bitsWritable [true])
      ∧ Memory.wf sixBits.mem = true ∧ sixBits.eng.accClean
      ∧ sixBits.bitsWritable (sixBits.eng.codeword 0x42) := by
  unfold Engine.accClean State.bitsWritable State.writable
  decide +kernel

/-- Two complete bytes in the output range at 0x37FF, the second of which cannot be written: beyond
the range, or on a bus fault. -/
def failing (cap : DWord) : State :=
  flt (eng fun g => { g.setCode 0x42 12 0xABC with
    dst := 0x37FF, cap := cap, wbase := 0x37FF, acc := 0xF0, nacc := 4, nbits := 4 })

theorem failing_bits (cap : DWord) : (failing cap).eng.codeword 0x42 =
    [true, false, true, false, true, false, true, true, true, true, false, false] := by
  have h : (failing cap).eng.codeword 0x42 = (failing 0).eng.codeword 0x42 := rfl
  rw [h]
  decide +kernel

theorem failing_byteFails (bs : List Bool) (h : bs.length = 12) :
    (failing 1).byteFails bs 1 ∧ (failing 2).byteFails bs 1 := by
  unfold State.byteFails Engine.bytesDone State.writable State.unwritable
  simp only [List.length_append, h]
  decide +kernel

theorem witness_BitWriterWriteErrors :
    (∃ s : State, s.eng.nacc = 7 ∧ s.unwritable s.eng.writeAddr
      ∧ s.eng.dst.toNat + s.eng.cap.toNat ≤ s.eng.writeAddr)
    ∧ (∃ s : State, s.eng.nacc = 7 ∧ s.unwritable s.eng.writeAddr
      ∧ s.eng.writeAddr < s.eng.dst.toNat + s.eng.cap.toNat)
    ∧ ∀ s ∈ [failing 1, failing 2], Memory.wf s.mem = true ∧ s.eng.accClean
      ∧ s.byteFails (s.eng.codeword 0x42) 1 := by
  refine ⟨⟨eng fun g => { g with nacc := 7, dst := 0x1000, cap := 16, wbase := 0x1010 }, ?_⟩,
    ⟨flt (eng fun g => { g with nacc := 7, dst := 0x3800, cap := 1, wbase := 0x3800 }), ?_⟩, ?_⟩
  · unfold State.unwritable
    decide +kernel
  · unfold State.unwritable
    decide +kernel
  · have hb := failing_byteFails ((failing 1).eng.codeword 0x42) (by rw [failing_bits]; rfl)
    unfold Engine.accClean
    simp only [List.mem_cons, List.not_mem_nil, or_false, forall_eq_or_imp, forall_eq]
    exact ⟨⟨by decide +kernel, by decide +kernel, hb.1⟩, by decide +kernel, by decide +kernel, hb.2⟩

theorem witness_BwFinishFlushes :
    State.reset.eng.nacc = 0
      ∧ (0 < sixBits.eng.nacc.toNat ∧ Memory.wf sixBits.mem = true ∧ sixBits.eng.accClean
        ∧ sixBits.writable sixBits.eng.writeAddr)
      ∧ ∃ s : State, 0 < s.eng.nacc.toNat ∧ s.unwritable s.eng.writeAddr := by
  unfold State.writable State.unwritable Engine.accClean
  exact ⟨by decide +kernel, by decide +kernel,
    ⟨eng fun g => { g with nacc := 1, dst := 0x1000, cap := 16, wbase := 0x1010 }, by decide +kernel⟩⟩

theorem witness_BrReadBitReturnsBit :
    (∃ s : State, s.eng.bitlen.toNat ≤ s.eng.rpos.toNat)
    ∧ (∃ (s : State) (a : Nat), a = s.eng.rbase.toNat + s.eng.rpos.toNat / 8
      ∧ s.eng.rpos.toNat < s.eng.bitlen.toNat ∧ s.readable a)
    ∧ ∃ (s : State) (a : Nat), a = s.eng.rbase.toNat + s.eng.rpos.toNat / 8
      ∧ s.eng.rpos.toNat < s.eng.bitlen.toNat ∧ a < 2 ^ 64 ∧ s.plat.readFaults a = true := by
  unfold State.readable
  exact ⟨⟨State.reset, by decide⟩, ⟨reading, _, rfl, by decide, by decide +kernel⟩,
    ⟨flt (eng fun g => { g with rbase := 0x2FFF, rpos := 8, bitlen := 9 }), _, rfl, by decide,
      by decide, by decide⟩⟩

theorem witness_ReaderInvertsWriter :
    ∃ (s : State) (base : DWord) (bs : List Bool), Memory.wf s.mem = true ∧ bs.length = 9
      ∧ bs.length < 2 ^ 32 ∧ ∀ q < (bs.length + 7) / 8,
        s.writable (base.toNat + q) ∧ s.plat.readFaults (base.toNat + q) = false := by
  unfold State.writable
  exact ⟨eng fun g => { g with dst := 0x1000, cap := 2 }, 0x1000,
    [true, false, true, true, false, true, false, false, true], by decide +kernel⟩

theorem getD_zeros (n v : Nat) : (List.replicate n (0 : DWord)).getD v 0 = 0 := by
  rw [List.getD_eq_getElem?_getD, List.getElem?_replicate]
  split <;> rfl

theorem zero_total (v : Nat) : (State.reset.eng.freq.toList.getD v 0).toNat
    * (State.reset.eng.codelen.toList.getD v 0).toNat = 0 := by
  have h : State.reset.eng.freq.toList = List.replicate 256 0 := rfl
  rw [h, getD_zeros]
  exact Nat.zero_mul _

/-- One symbol counted 2^32 times with a one-bit codeword. -/
def tooMany : State := eng fun g => (g.setFreq 0x41 0x100000000).setCode 0x41 1 0

theorem witness_EHeaderSizeChecks :
    (∃ s : State, 2 ^ 32 - 1 < ((List.range 256).map fun v => (s.eng.freq.toList.getD v 0).toNat
      * (s.eng.codelen.toList.getD v 0).toNat).sum)
    ∧ (∃ (s : State) (total size : Nat),
      total = ((List.range 256).map fun v => (s.eng.freq.toList.getD v 0).toNat
        * (s.eng.codelen.toList.getD v 0).toNat).sum
      ∧ size = 18 + 5 * s.eng.k.toNat + (total + 7) / 8 ∧ total ≤ 2 ^ 32 - 1
      ∧ s.eng.cap.toNat < size)
    ∧ ∃ (s : State) (total size : Nat),
      total = ((List.range 256).map fun v => (s.eng.freq.toList.getD v 0).toNat
        * (s.eng.codelen.toList.getD v 0).toNat).sum
      ∧ size = 18 + 5 * s.eng.k.toNat + (total + 7) / 8 ∧ total ≤ 2 ^ 32 - 1
      ∧ size ≤ s.eng.cap.toNat := by
  refine ⟨⟨tooMany, ?_⟩, ⟨eng fun g => { g with cap := 17 }, 0, 18, ?_, by decide, by decide, by decide⟩,
    ⟨eng fun g => { g with cap := 18 }, 0, 18, ?_, by decide, by decide, by decide⟩⟩
  · refine lt_of_lt_of_le (b := 2 ^ 32) (by decide) ?_
    refine List.single_le_sum (fun _ _ => Nat.zero_le _) _ (List.mem_map.2 ⟨0x41, by decide, ?_⟩)
    decide +kernel
  · exact (List.sum_eq_zero fun x hx => by
      obtain ⟨v, -, rfl⟩ := List.mem_map.1 hx
      exact zero_total v).symm
  · exact (List.sum_eq_zero fun x hx => by
      obtain ⟨v, -, rfl⟩ := List.mem_map.1 hx
      exact zero_total v).symm

theorem witness_HeaderBytesLayout :
    ∃ (g : Engine) (e : Nat) (v : Byte), (∀ v, (g.freqOf v).toNat < 2 ^ 32) ∧ g.total.toNat < 2 ^ 32
      ∧ g.present[e]? = some v := by
  have hz : ∀ v, State.reset.eng.freqOf v = 0 := fun v => by
    simp [Engine.freqOf, State.reset, Engine.reset]
  have hm : 0x41 ∈ (State.reset.eng.setFreq 0x41 5).present := by
    rw [mem_present, freqOf_setFreq]
    decide
  obtain ⟨e, he⟩ := List.getElem?_of_mem hm
  refine ⟨State.reset.eng.setFreq 0x41 5, e, 0x41, fun v => ?_, by decide, he⟩
  rw [freqOf_setFreq, hz]
  split <;> decide

theorem witness_EHeaderByteWritesOne :
    (∃ (s : State) (b : Byte), (headerBytes s.eng)[s.eng.hpos.toNat]? = some b
      ∧ Memory.wf s.mem = true ∧ s.writable (s.eng.dst.toNat + s.eng.hpos.toNat)
      ∧ s.eng.hpos + 1 ≠ s.eng.hsize)
    ∧ (∃ (s : State) (b : Byte), (headerBytes s.eng)[s.eng.hpos.toNat]? = some b
      ∧ Memory.wf s.mem = true ∧ s.writable (s.eng.dst.toNat + s.eng.hpos.toNat)
      ∧ s.eng.hpos + 1 = s.eng.hsize)
    ∧ (∃ (s : State) (b : Byte), (headerBytes s.eng)[s.eng.hpos.toNat]? = some b
      ∧ s.unwritable (s.eng.dst.toNat + s.eng.hpos.toNat) ∧ s.eng.hpos.toNat = s.eng.cap.toNat)
    ∧ ∃ (s : State) (b : Byte), (headerBytes s.eng)[s.eng.hpos.toNat]? = some b
      ∧ s.unwritable (s.eng.dst.toNat + s.eng.hpos.toNat) ∧ s.eng.hpos.toNat < s.eng.cap.toNat := by
  unfold State.writable State.unwritable
  exact ⟨⟨eng fun g => { g with dst := 0x1000, cap := 18, hsize := 18 }, 0x48, by decide +kernel⟩,
    ⟨eng fun g => { g with dst := 0x1000, cap := 18, hsize := 18, hpos := 17 }, 0x00,
      by decide +kernel⟩,
    ⟨eng fun g => { g with dst := 0x1000, cap := 3, hsize := 18, hpos := 3 }, 0x31, by decide +kernel⟩,
    ⟨flt (eng fun g => { g with dst := 0x37FF, cap := 18, hsize := 18, hpos := 1 }), 0x55,
      by decide +kernel⟩⟩

/-- `sixBits` with an input byte 'B' at 0x2000, and after it. -/
def encoding (i : DWord) : State :=
  mem 0x2000 [0x42] (sixBits.setEng { sixBits.eng with src := 0x2000, len := 1, i := i })

theorem witness_EPayloadStepEncodesOrCompletes :
    ((encoding 0).eng.i.toNat < (encoding 0).eng.len.toNat ∧ (encoding 0).readable 0x2000
      ∧ Memory.wf (encoding 0).mem = true ∧ (encoding 0).eng.accClean
      ∧ (encoding 0).bitsWritable ((encoding 0).eng.codeword (Memory.read (encoding 0).mem 0x2000)))
    ∧ (∃ s : State, Memory.wf s.mem = true ∧ s.eng.accClean ∧ s.eng.len.toNat ≤ s.eng.i.toNat
      ∧ s.eng.nacc = 0)
    ∧ ((encoding 1).eng.accClean ∧ (encoding 1).eng.len.toNat ≤ (encoding 1).eng.i.toNat
      ∧ 0 < (encoding 1).eng.nacc.toNat ∧ (encoding 1).writable (encoding 1).eng.writeAddr)
    ∧ (∃ s : State, Memory.wf s.mem = true ∧ s.eng.accClean ∧ s.eng.i.toNat < s.eng.len.toNat
      ∧ s.unreadable (s.eng.src.toNat + s.eng.i.toNat))
    ∧ (∃ s : State, Memory.wf s.mem = true ∧ s.eng.accClean ∧ s.eng.i.toNat < s.eng.len.toNat
      ∧ s.readable 0x2000 ∧ s.byteFails (s.eng.codeword (Memory.read s.mem 0x2000)) 0)
    ∧ ∃ s : State, Memory.wf s.mem = true ∧ s.eng.accClean ∧ s.eng.len.toNat ≤ s.eng.i.toNat
      ∧ 0 < s.eng.nacc.toNat ∧ s.unwritable s.eng.writeAddr := by
  unfold Engine.accClean State.bitsWritable State.byteFails State.writable State.unwritable
    State.readable State.unreadable
  exact ⟨by decide +kernel, ⟨State.reset, by decide +kernel⟩, by decide +kernel,
    ⟨flt (eng fun g => { g with src := 0x2FFF, i := 1, len := 2 }), by decide +kernel⟩,
    ⟨(encoding 0).setEng { (encoding 0).eng with cap := 0x12 }, by decide +kernel⟩,
    ⟨(encoding 1).setEng { (encoding 1).eng with cap := 0x12 }, by decide +kernel⟩⟩

theorem witness_DHeaderFieldAcceptsField :
    ((container 0).eng.phase = 0 ∧ 4 ≤ (container 0).eng.len.toNat
      ∧ (∀ q < 4, (container 0).readable ((container 0).eng.src.toNat + q))
      ∧ bytesAt (container 0).mem (container 0).eng.src.toNat 4 = [0x48, 0x55, 0x46, 0x31])
    ∧ ((container 1).eng.phase = 1 ∧ 12 ≤ (container 1).eng.len.toNat
      ∧ ∀ q < 8, (container 1).readable ((container 1).eng.src.toNat + 4 + q))
    ∧ ((container 2).eng.phase = 2 ∧ 14 ≤ (container 2).eng.len.toNat
      ∧ (∀ q < 2, (container 2).readable ((container 2).eng.src.toNat + 12 + q))
      ∧ leNat (bytesAt (container 2).mem ((container 2).eng.src.toNat + 12) 2) ≤ 256)
    ∧ ((container 3).eng.phase = 3 ∧ (container 3).eng.e.toNat < (container 3).eng.k.toNat
      ∧ 14 + 5 * (container 3).eng.e.toNat + 5 ≤ (container 3).eng.len.toNat
      ∧ (∀ q < 5, (container 3).readable (0x200E + q))
      ∧ Memory.read (container 3).mem 0x200E = 0x41
      ∧ (container 3).eng.freqOf 0x41 = 0 ∧ leNat (bytesAt (container 3).mem 0x200F 4) ≠ 0)
    ∧ (∃ s : State, s.eng.phase = 3 ∧ s.eng.k.toNat ≤ s.eng.e.toNat)
    ∧ (container 4).eng.phase = 4 ∧ 14 + 5 * (container 4).eng.k.toNat + 4 ≤ (container 4).eng.len.toNat
      ∧ ∀ q < 4, (container 4).readable
        ((container 4).eng.src.toNat + (14 + 5 * (container 4).eng.k.toNat) + q) := by
  unfold State.readable
  exact ⟨by decide +kernel, by decide +kernel, by decide +kernel, by decide +kernel,
    ⟨eng fun g => g.setPhase 3, by decide⟩, by decide +kernel⟩

/-- A header that is wrong in a field: at 0x2000 the bytes are all `b`. -/
def wrong (p : BitVec 3) (b : Byte) : State :=
  mem 0x2000 (List.replicate 24 b)
    (eng fun g => { g with fsm := .dHeader, phase := p, src := 0x2000, len := 24, k := 1 })

theorem witness_DHeaderFieldErrors :
    (∃ (s : State) (off n : Nat), s.eng.headerField off n ∧ off = 19 ∧ n = 5
      ∧ s.eng.len.toNat < off + n)
    ∧ (∀ p ∈ ([0, 1, 2, 4] : List (BitVec 3)), ∃ (s : State) (off n : Nat), s.eng.phase = p
      ∧ s.eng.headerField off n ∧ s.eng.len.toNat < off + n)
    ∧ (∃ (s : State) (off n q : Nat), s.eng.headerField off n ∧ q < n ∧ q = 3
      ∧ off + n ≤ s.eng.len.toNat ∧ (∀ p < q, s.readable (s.eng.src.toNat + off + p))
      ∧ s.unreadable (s.eng.src.toNat + off + q))
    ∧ ((wrong 0 1).eng.phase = 0 ∧ 4 ≤ (wrong 0 1).eng.len.toNat
      ∧ (∀ q < 4, (wrong 0 1).readable ((wrong 0 1).eng.src.toNat + q))
      ∧ bytesAt (wrong 0 1).mem (wrong 0 1).eng.src.toNat 4 ≠ [0x48, 0x55, 0x46, 0x31])
    ∧ ((wrong 2 1).eng.phase = 2 ∧ 14 ≤ (wrong 2 1).eng.len.toNat
      ∧ (∀ q < 2, (wrong 2 1).readable ((wrong 2 1).eng.src.toNat + 12 + q))
      ∧ 256 < leNat (bytesAt (wrong 2 1).mem ((wrong 2 1).eng.src.toNat + 12) 2))
    ∧ (∃ s : State, s.eng.phase = 3 ∧ s.eng.e.toNat < s.eng.k.toNat ∧ 19 ≤ s.eng.len.toNat
      ∧ (∀ q < 5, s.readable (s.eng.src.toNat + 14 + q))
      ∧ s.eng.freqOf (Memory.read s.mem (s.eng.src.toNat + 14)) ≠ 0)
    ∧ (wrong 3 0).eng.phase = 3 ∧ (wrong 3 0).eng.e.toNat < (wrong 3 0).eng.k.toNat
      ∧ 19 ≤ (wrong 3 0).eng.len.toNat
      ∧ (wrong 3 0).eng.freqOf (Memory.read (wrong 3 0).mem 0x200E) = 0
      ∧ leNat (bytesAt (wrong 3 0).mem 0x200F 4) = 0 := by
  unfold State.readable State.unreadable Engine.headerField
  refine ⟨⟨eng fun g => { g with phase := 3, k := 2, e := 1, len := 23 }, 19, 5, by decide⟩, ?_,
    ⟨flt (eng fun g => { g with phase := 1, src := 0x2FF9, len := 12 }), 4, 8, 3, by decide⟩,
    by decide +kernel, by decide +kernel,
    ⟨(wrong 3 1).setEng ((wrong 3 1).eng.setFreq 1 7), by decide +kernel⟩, by decide +kernel⟩
  simp only [List.mem_cons, List.not_mem_nil, or_false, forall_eq_or_imp, forall_eq]
  exact ⟨⟨eng fun g => g.setPhase 0, 0, 4, by decide⟩, ⟨eng fun g => g.setPhase 1, 4, 8, by decide⟩,
    ⟨eng fun g => g.setPhase 2, 12, 2, by decide⟩, ⟨eng fun g => g.setPhase 4, 14, 4, by decide⟩⟩

theorem witness_DHeaderCheckInOrder :
    ∃ (s : State) (p : Nat), p = s.eng.len.toNat - s.eng.hsize.toNat ∧ p = 1 :=
  ⟨container 5, 1, by decide, rfl⟩

theorem witness_DRebuildStepByPhase :
    (at_ .dRebuild 0 0 []).eng.phase = 0
    ∧ ((at_ .dRebuild 1 0 []).eng.phase = 1 ∧ (at_ .dRebuild 1 0 []).eng.k = 0)
    ∧ ((at_ .dRebuild 1 1 [0]).eng.k = 1 ∧ (at_ .dRebuild 1 1 [0]).eng.pq = [0])
    ∧ (2 ≤ (at_ .dRebuild 1 2 [0, 1]).eng.k.toNat ∧ 2 ≤ (at_ .dRebuild 1 2 [0, 1]).eng.pq.length
      ∧ (at_ .dRebuild 1 2 [0, 1]).eng.pq.length ≤ 256 ∧ (at_ .dRebuild 1 2 [0, 1]).eng.pq.Nodup
      ∧ (at_ .dRebuild 1 2 [0, 1]).eng.nn.toNat < 511)
    ∧ (2 ≤ (at_ .dRebuild 1 2 [2]).eng.k.toNat ∧ (at_ .dRebuild 1 2 [2]).eng.pq = [2])
    ∧ 2 ≤ (at_ .dRebuild 2 0 []).eng.phase.toNat := by decide

theorem witness_TwStepWalks :
    (∃ s : State, s.eng.cur = some 1 ∧ s.eng.bitlen.toNat ≤ s.eng.rpos.toNat)
    ∧ ((walking 4).eng.cur = some 1 ∧ (walking 4).readable 0x2017
      ∧ (walking 4).eng.rpos.toNat < (walking 4).eng.bitlen.toNat
      ∧ (Memory.read (walking 4).mem 0x2017).getLsbD (7 - (walking 4).eng.rpos.toNat % 8) = true
      ∧ (walking 4).eng.node[(1 : NodeRef)].right = none)
    ∧ ((walking 3).readable 0x2017
      ∧ (Memory.read (walking 3).mem 0x2017).getLsbD (7 - (walking 3).eng.rpos.toNat % 8) = false
      ∧ (walking 3).eng.node[(1 : NodeRef)].left = some 0
      ∧ (walking 3).eng.node[(0 : NodeRef)].kind = .leaf ∧ Memory.wf (walking 3).mem = true
      ∧ (walking 3).writable ((walking 3).eng.dst.toNat + (walking 3).eng.j.toNat))
    ∧ (∃ s : State, s.eng.cur = some 1 ∧ s.eng.rpos.toNat < s.eng.bitlen.toNat
      ∧ s.unreadable (s.eng.rbase.toNat + s.eng.rpos.toNat / 8))
    ∧ (∃ s : State, s.eng.cur = some 1 ∧ s.readable 0x2017
      ∧ s.eng.rpos.toNat < s.eng.bitlen.toNat
      ∧ (Memory.read s.mem 0x2017).getLsbD (7 - s.eng.rpos.toNat % 8) = false
      ∧ s.eng.node[(1 : NodeRef)].left = some 0 ∧ s.eng.node[(0 : NodeRef)].kind = .leaf
      ∧ s.unwritable (s.eng.dst.toNat + s.eng.j.toNat))
    ∧ ∃ s : State, s.eng.cur = some 8 ∧ s.readable (s.eng.rbase.toNat + s.eng.rpos.toNat / 8)
      ∧ s.eng.rpos.toNat < s.eng.bitlen.toNat
      ∧ (Memory.read s.mem (s.eng.rbase.toNat + s.eng.rpos.toNat / 8)).getLsbD
        (7 - s.eng.rpos.toNat % 8) = false
      ∧ s.eng.node[(8 : NodeRef)].left = some 6 ∧ s.eng.node[(6 : NodeRef)].kind = .internal := by
  unfold State.readable State.unreadable State.writable State.unwritable
  exact ⟨⟨walking 5, by decide +kernel⟩, by decide +kernel, by decide +kernel,
    ⟨flt ((walking 3).setEng { (walking 3).eng with rbase := 0x3000 }), by decide +kernel⟩,
    ⟨(walking 3).setEng { (walking 3).eng with cap := 3 }, by decide +kernel⟩,
    ⟨eng fun g => { (fiveTree g).setCur (some 8) with bitlen := 33 }, by decide +kernel⟩⟩

theorem witness_SoEmitWritesSymbol :
    (∃ s : State, Memory.wf s.mem = true ∧ s.writable (s.eng.dst.toNat + s.eng.j.toNat))
    ∧ (∃ s : State, s.eng.cap.toNat ≤ s.eng.j.toNat)
    ∧ ∃ s : State, s.eng.j.toNat < s.eng.cap.toNat ∧ s.eng.dst.toNat + s.eng.j.toNat < 2 ^ 64
      ∧ s.plat.writeFaults (s.eng.dst.toNat + s.eng.j.toNat) = true := by
  unfold State.writable
  exact ⟨⟨walking 4, by decide +kernel⟩, ⟨State.reset, by decide⟩,
    ⟨flt (eng fun g => { g with dst := 0x37FF, cap := 2, j := 1 }), by decide⟩⟩

theorem witness_RangesMustBeOrdinaryMemory :
    ∃ s : State, s.busy = false ∧ s.regs.rangesOk ∧ ¬ s.operandsOrdinary
      ∧ s.regs.srcLen.toNat ≤ 2 ^ 32 - 1 := by
  refine ⟨dev (reg fun r => { r with srcAddr := 0x3FFF, srcLen := 2 }), by decide, ?_, ?_, by decide⟩
  · unfold Regs.rangesOk
    decide
  · unfold State.operandsOrdinary
    decide

theorem witness_ImpossibleFormsStopByName :
    256 ≤ (eng fun g => g.setPq (List.replicate 256 0)).eng.pq.length
    ∧ (0x03 : Byte).toNat % 4 ≠ 0 ∧ (0x34 : Byte).toNat % 4 = 0
    ∧ 5 ≤ (container 5).eng.phase.toNat
    ∧ (headerBytes (eng fun g => { g with hpos := 18 }).eng).length ≤
      (eng fun g => { g with hpos := 18 }).eng.hpos.toNat
    ∧ 2 ^ 64 ≤ (eng fun g => { g with src := 0xFFFFFFFFFFFFFFFF, i := 1 }).eng.src.toNat
      + (eng fun g => { g with src := 0xFFFFFFFFFFFFFFFF, i := 1 }).eng.i.toNat
    ∧ (∃ s : State, s.eng.rpos.toNat < s.eng.bitlen.toNat
      ∧ 2 ^ 64 ≤ s.eng.rbase.toNat + s.eng.rpos.toNat / 8)
    ∧ State.reset.eng.pq = [] := by
  refine ⟨by decide +kernel, by decide, by decide, by decide, by decide +kernel, by decide,
    ⟨eng fun g => { g with rbase := 0xFFFFFFFFFFFFFFFF, rpos := 8, bitlen := 9 }, by decide⟩, rfl⟩

theorem witness_OnlyLegalTransitions : ∃ s t : State, step s = .next t ∧ s.eng.fsm = .eCount
    ∧ t.eng.fsm = .eBuild :=
  ⟨eng fun g => { g with fsm := .eCount }, _, rfl, rfl, rfl⟩

theorem witness_EngineWritesOnlyOutputRange :
    ∃ (s t : State) (a : Nat), exec (.soEmit 0x41) s = .next t
      ∧ ¬(s.eng.dst.toNat ≤ a ∧ a < s.eng.dst.toNat + s.eng.cap.toNat) ∧ s.eng.cap = 5 := by
  obtain ⟨t, h, -⟩ := nextIs_exists test_so_emit
  exact ⟨_, t, 0x3005, h, by decide, rfl⟩

/-- An `ENCODE` of one byte 'A' in its first step. -/
def counting : State :=
  mem 0x1000 [0x41] (eng fun g => { g with
    fsm := .eCount, op := 1, src := 0x1000, len := 1, dst := 0x2000, cap := 24 })

theorem counting_inv : Inv counting where
  memory := by decide +kernel
  queue := ⟨List.Pairwise.nil, by decide⟩
  notBoth := by decide
  errReported := by decide
  counts := by decide
  busyClear := fun _ => by decide
  busyRanges := fun _ => by decide +kernel
  command := by decide
  progress := by
    refine ⟨by decide, ?_⟩
    have h : ∀ v, counting.eng.freqOf v = 0 := fun v => by
      simp [Engine.freqOf, counting, mem, eng, State.reset, Engine.reset]
    simp [Engine.freqSum, h]
    decide

theorem witness_StatusWriteClears : ∃ s : State, Inv s ∧ s.busy = true :=
  ⟨counting, counting_inv, by decide⟩

theorem witness_EngineAccessesInRange :
    ∃ s t : State, Inv s ∧ engineStep s = .next t ∧ t.busLog ≠ [] := by
  obtain ⟨t, h, hb⟩ := nextIs_exists (show nextIs (engineStep counting)
    (fun t => t.busLog != []) = true by decide +kernel)
  exact ⟨_, t, counting_inv, h, by simpa using hb⟩

theorem witness_StepKeepsInvariant : ∃ s t : State, Inv s ∧ step s = .next t ∧ s.busy = true := by
  obtain ⟨t, h, -⟩ := nextIs_exists (show nextIs (step counting) (fun _ => true) = true by
    decide +kernel)
  exact ⟨_, t, counting_inv, h, by decide⟩

theorem witness_BuffersBelongToEngineWhileBusy :
    (∃ s : State, s.inputs = [⟨0, .store 0xFFFFFFFFFFFFFFFF [7, 8]⟩])
    ∧ (∃ s : State, s.plat.ordinary 0xFFF 2 = true ∧ s.inputs = [⟨0, .store 0xFFF [7, 8]⟩]
      ∧ s.busy = true ∧ s.eng.src.toNat ≤ 0x1000 ∧ 0x1000 < s.eng.src.toNat + s.eng.len.toNat)
    ∧ (∃ s : State, s.plat.ordinary 0x2017 2 = true ∧ s.inputs = [⟨0, .store 0x2017 [7, 8]⟩]
      ∧ s.busy = true ∧ s.eng.dst.toNat ≤ 0x2017 ∧ 0x2017 < s.eng.dst.toNat + s.eng.cap.toNat)
    ∧ (∃ s : State, s.plat.ordinary 0x1001 2 = true ∧ s.inputs = [⟨0, .store 0x1001 [7, 8]⟩]
      ∧ Memory.wf s.mem = true ∧ s.busy = true ∧ s.eng.src.toNat + s.eng.len.toNat ≤ 0x1001
      ∧ 0x1002 < s.eng.dst.toNat)
    ∧ (∃ s : State, s.plat.ordinary 0x1000 1 = true ∧ s.inputs = [⟨0, .store 0x1000 [7]⟩]
      ∧ Memory.wf s.mem = true ∧ s.busy = false)
    ∧ ∃ s : State, s.plat.ordinary 0x2017 1 = true ∧ s.inputs = [⟨0, .load 0x2017⟩]
      ∧ s.busy = true ∧ s.eng.dst.toNat ≤ 0x2017 ∧ 0x2017 < s.eng.dst.toNat + s.eng.cap.toNat :=
  ⟨⟨inp [⟨0, .store 0xFFFFFFFFFFFFFFFF [7, 8]⟩] State.reset, rfl⟩,
    ⟨inp [⟨0, .store 0xFFF [7, 8]⟩] counting, by decide, rfl, by decide, by decide, by decide⟩,
    ⟨inp [⟨0, .store 0x2017 [7, 8]⟩] counting, by decide, rfl, by decide, by decide, by decide⟩,
    ⟨inp [⟨0, .store 0x1001 [7, 8]⟩] counting, by decide, rfl, by decide +kernel, by decide,
      by decide, by decide⟩,
    ⟨inp [⟨0, .store 0x1000 [7]⟩] State.reset, by decide, rfl, by decide, by decide⟩,
    ⟨inp [⟨0, .load 0x2017⟩] counting, by decide, rfl, by decide, by decide, by decide⟩⟩

theorem witness_PollRepeatsItsRead :
    (0x0C : Byte).toNat % 4 = 0 ∧ (∃ s : State, s.inputs = [⟨0, .poll 0x0C 1 0 [3, 0]⟩]
        ∧ readReg s 0x0C &&& 1 ≠ 0)
      ∧ ∃ s : State, s.inputs = [⟨0, .poll 0x0C 1 0 []⟩] ∧ readReg s 0x0C &&& 1 = 0 :=
  ⟨by decide, ⟨inp [⟨0, .poll 0x0C 1 0 [3, 0]⟩] (at_ .eCodes 0 0 []), rfl, by decide +kernel⟩,
    inp _ State.reset, rfl, by decide +kernel⟩

end

end Sys2Proof.Tests
end

section
/-! Host accesses that are not aligned 32-bit ones (20_memory.md R68): the decoder rejects each of
them, and a step whose due input the decoder rejects is refused. -/

namespace Sys2Proof.Machine

/-- The model's bit test for alignment is divisibility by 4. -/
theorem alignedOffset_iff (off : Byte) : alignedOffset off = true ↔ off.toNat % 4 = 0 := by
  have hmask : (off &&& 3#8).toNat = off.toNat % 4 := Nat.and_two_pow_sub_one_eq_mod off.toNat 2
  rw [alignedOffset, beq_iff_eq, ← BitVec.toNat_inj, hmask, BitVec.toNat_zero]

theorem decodeAccess_read_of_misaligned (busy : Bool) {off : Byte} (h : off.toNat % 4 ≠ 0) :
    decodeAccess busy (.read off) = .error .misaligned :=
  if_neg (mt (alignedOffset_iff off).1 h)

theorem decodeAccess_write_of_misaligned (busy : Bool) {off : Byte} (v : Word)
    (h : off.toNat % 4 ≠ 0) : decodeAccess busy (.write off v) = .error .misaligned :=
  if_neg (mt (alignedOffset_iff off).1 h)

theorem hostAccess_of_decode_error {s : State} {a : Access} {e : Reject}
    (h : decodeAccess s.busy a = .error e) : hostAccess a s = .refused .unsupportedAccess := by
  rw [hostAccess, h]

/-- A due access that the decoder rejects is refused: taking the input off the list leaves `BUSY`,
and so the decoding, as it was. -/
theorem step_of_decode_error {s : State} {a : Access} {rest : List Timed} {e : Reject}
    (hin : s.inputs = ⟨0, .mmio a⟩ :: rest) (h : decodeAccess s.busy a = .error e) :
    step s = .refused .unsupportedAccess :=
  (step_of_input hin).trans (hostAccess_of_decode_error (s := s.setInputs rest) h)

/-- Settles O5: each access decodes to an error, so the step that meets it is refused. -/
theorem unsupportedAccessRefused : Obligations.UnsupportedAccessRefused := by
  intro s rest off v n w
  refine ⟨fun hin => ?width, fun hoff hin => ?read, fun hoff hin => ?write⟩
  case width => exact step_of_decode_error (e := .width) hin rfl
  case read => exact step_of_decode_error hin (decodeAccess_read_of_misaligned s.busy hoff)
  case write => exact step_of_decode_error hin (decodeAccess_write_of_misaligned s.busy v hoff)

end Sys2Proof.Machine
end

section
/-! The frequency counter's two micro-operations (40_frequency_table.md R130, R131). -/

namespace Sys2Proof.Machine

/-- A counter after `FT_CLEAR`. -/
theorem clearTable_freq_getElem (g : Engine) (v : Fin 256) : g.clearTable.freq[v] = 0 :=
  Vector.getElem_replicate v.isLt

/-- A counter after one counted byte. -/
theorem countByte_freqOf (g : Engine) (b v : Byte) :
    (g.countByte b).freqOf v = if v = b then g.freqOf v + 1 else g.freqOf v := by
  have hset : (g.countByte b).freqOf v = if v = b then g.freqOf b + 1 else g.freqOf v :=
    freqOf_setFreq g b v (g.freqOf b + 1)
  rw [hset]
  by_cases h : v = b
  · rw [if_pos h, if_pos h, h]
  · rw [if_neg h, if_neg h]

/-- `FT_COUNT` on a byte the platform answers. -/
theorem ftCount_ok {s : State} {a : Nat} (ha : a = s.eng.src.toNat + s.eng.i.toNat)
    (h : s.readable a) :
    ftCount s = .ok () ((s.logBus (.read a (Memory.read s.mem a))).setEng
      (s.eng.countByte (Memory.read s.mem a))) := by
  rw [ftCount, ← ha, memRead_ok h, Res.bind_ok]
  rfl

/-- `FT_COUNT` on a byte the platform answers with an error. -/
theorem ftCount_raised {s : State} {a : Nat} (ha : a = s.eng.src.toNat + s.eng.i.toNat)
    (h : s.unreadable a) : ftCount s = .raised (s.readFailed a) := by
  rw [ftCount, ← ha, memRead_failed h, Res.bind_raised]

/-- Settles O25: the table is `clearTable`'s. -/
theorem ftClearZeroesTable : Obligations.FtClearZeroesTable :=
  fun s => ⟨s.eng.clearTable.freq, rfl, clearTable_freq_getElem s.eng⟩

/-- Settles O26: by the platform's answer to the read at `a`. -/
theorem ftCountCountsOneByte : Obligations.FtCountCountsOneByte := by
  intro s a ha hsize
  refine ⟨fun hanswer => ?counted, fun hfault => ?failed⟩
  case counted =>
    have hcount := ftCount_ok ha ⟨hsize, hanswer⟩
    exact ⟨(s.eng.countByte (Memory.read s.mem a)).freq, congrArg Res.outcome hcount,
      countByte_freqOf s.eng (Memory.read s.mem a)⟩
  case failed => exact congrArg Res.outcome (ftCount_raised ha ⟨hsize, hfault⟩)

end Sys2Proof.Machine
end

section
/-! The priority queue's insertion (41_priority_queue.md R152). -/

namespace Sys2Proof.Machine

/-- `PQ_INSERT` into a queue with room for one more node. -/
theorem pqInsert_ok (n : NodeRef) {s : State} (h : s.eng.pq.length < 256) :
    pqInsert n s = .ok () (s.setEng (s.eng.setPq (insertRef n s.eng.pq))) := by
  rcases pqInsert_cases n s with ⟨-, hok⟩ | ⟨hfull, -⟩
  · exact hok
  · exact absurd h hfull.not_gt

/-- Settles O27: the queue is `insertRef`'s. -/
theorem pqInsertAddsNode : Obligations.PqInsertAddsNode :=
  fun s n hroom => ⟨insertRef n s.eng.pq, congrArg Res.outcome (pqInsert_ok n hroom),
    fun m => mem_insertRef n m s.eng.pq⟩

end Sys2Proof.Machine
end

section
/-! The tree builder's micro-operations (42_tree_builder.md R170 to R174). -/

namespace Sys2Proof.Machine

/-- The engine with this arena, this queue and this number of nodes. -/
def Engine.withTree (g : Engine) (nodes : Vector Node 511) (q : List NodeRef) (n : Nat) : Engine :=
  { g with node := nodes, pq := q, nn := BitVec.ofNat 9 n }

/-- The arena `nodes` is `g`'s with the leaves of the symbols `us` from node 0 on, and the queue `q`
holds exactly these leaves (42_tree_builder.md R170). -/
structure Engine.LeavesMade (g : Engine) (us : List Byte) (nodes : Vector Node 511)
    (q : List NodeRef) : Prop where
  queue_length : q.length ≤ us.length
  mem_queue : ∀ n, n ∈ q ↔ n.val < us.length
  node : ∀ n : NodeRef, nodes[n] =
    (us[n.val]?.map fun v => Node.leafOf v (g.freqOf v)).getD (g.nodeAt n)

/-- Before the first leaf the queue is empty and the arena is as it was. -/
theorem Engine.leavesMade_nil (g : Engine) : g.LeavesMade [] g.node [] where
  queue_length := Nat.le_refl 0
  mem_queue _ := by simp
  node _ := rfl

/-- One more leaf, written at the next node and queued. -/
theorem Engine.LeavesMade.snoc {g : Engine} {us : List Byte} {nodes : Vector Node 511}
    {q : List NodeRef} (h : g.LeavesMade us nodes q) (v : Byte) {n : NodeRef}
    (hn : n.val = us.length) :
    g.LeavesMade (us ++ [v]) (nodes.set n.val (Node.leafOf v (g.freqOf v)) n.isLt)
      (insertRef n q) where
  queue_length := by
    have hins := insertRef_length n q
    have hq := h.queue_length
    rw [List.length_append, List.length_singleton]
    omega
  mem_queue m := by
    rw [mem_insertRef, h.mem_queue, Fin.ext_iff, List.length_append, List.length_singleton]
    omega
  node m := by
    refine (nodeAt_setNode (g.withTree nodes q 0) n m (Node.leafOf v (g.freqOf v))).trans ?_
    by_cases hm : m = n
    · rw [if_pos hm, hm, hn, List.getElem?_concat_length]
      rfl
    · have hne : m.val ≠ us.length := fun e => hm (Fin.ext (e.trans hn.symm))
      have hget : (us ++ [v])[m.val]? = us[m.val]? := by
        rcases Nat.lt_or_gt_of_ne hne with hlt | hgt
        · exact List.getElem?_append_left hlt
        · rw [List.getElem?_eq_none hgt.le, List.getElem?_eq_none (by simpa using hgt)]
      rw [if_neg hm, hget]
      exact h.node m

/-- What `queued` changes: the arena, the queue and the number of nodes. -/
theorem Engine.queued_eq (g : Engine) (n : NodeRef) (x : Node) :
    g.queued n x = { g with
      node := (g.setNode n x).node, pq := insertRef n g.pq, nn := g.nn + 1 } := rfl

/-- One node added to an engine whose nodes are those before `n`. -/
theorem addQueued_withTree (x : Node) (s : State) (g : Engine) (nodes : Vector Node 511)
    {q : List NodeRef} {n : NodeRef} (hq : q.length < 256) :
    addQueued x (s.setEng (g.withTree nodes q n.val)) =
      .ok () (s.setEng (g.withTree (nodes.set n.val x n.isLt) (insertRef n q) (n.val + 1))) := by
  have hn : (BitVec.ofNat 9 n.val).toNat = n.val := Nat.mod_eq_of_lt (n.isLt.trans (by decide))
  rw [addQueued_ok x hn hq, Engine.queued_eq, Engine.withTree, Engine.withTree, BitVec.ofNat_add]
  rfl

/-- The loop of `TB_LEAVES` passes over a symbol that is not present. -/
theorem leavesLoop_absent {v : Byte} (vs : List Byte) {s : State} (h : s.eng.freqOf v = 0) :
    leavesLoop (v :: vs) s = leavesLoop vs s := if_pos h

/-- The loop of `TB_LEAVES` adds the leaf of a present symbol and goes on. -/
theorem leavesLoop_present {v : Byte} (vs : List Byte) {s : State} (h : s.eng.freqOf v ≠ 0) :
    leavesLoop (v :: vs) s =
      (addQueued (Node.leafOf v (s.eng.freqOf v)) s).bind fun _ s => leavesLoop vs s := if_neg h

/-- The loop of `TB_LEAVES` adds the leaves of the present ones among its symbols to those made so
far: in the end, the leaves of `ps`. -/
theorem leavesLoop_ok (s : State) (g : Engine) {ps : List Byte} (hlen : ps.length ≤ 256)
    (vs : List Byte) :
    ∀ {us : List Byte} {nodes : Vector Node 511} {q : List NodeRef},
      (us ++ vs.filter fun v => g.freqOf v != 0) = ps → g.LeavesMade us nodes q →
      ∃ (nodes' : Vector Node 511) (q' : List NodeRef),
        leavesLoop vs (s.setEng (g.withTree nodes q us.length)) =
            .ok () (s.setEng (g.withTree nodes' q' ps.length))
          ∧ g.LeavesMade ps nodes' q' := by
  induction vs with
  | nil =>
    intro us nodes q hps hmade
    rw [List.filter_nil, List.append_nil] at hps
    subst hps
    exact ⟨nodes, q, rfl, hmade⟩
  | cons v vs ih =>
    intro us nodes q hps hmade
    by_cases hv : g.freqOf v = 0
    case pos =>
      rw [List.filter_cons_of_neg (by simpa using hv)] at hps
      rw [leavesLoop_absent vs (s := s.setEng (g.withTree nodes q us.length)) hv]
      exact ih hps hmade
    case neg =>
      rw [List.filter_cons_of_pos (by simpa using hv), List.append_cons] at hps
      have hroom : us.length < 256 := by
        rw [← hps, List.length_append, List.length_append, List.length_singleton] at hlen
        omega
      have hadd := addQueued_withTree (Node.leafOf v (g.freqOf v)) s g nodes
        (n := ⟨us.length, by omega⟩) (hmade.queue_length.trans_lt hroom)
      have hmake := (leavesLoop_present vs (s := s.setEng (g.withTree nodes q us.length)) hv).trans
        (congrArg (Res.bind · fun _ s => leavesLoop vs s) hadd)
      have hrest := ih hps (hmade.snoc v (n := ⟨us.length, by omega⟩) rfl)
      rw [List.length_append, List.length_singleton] at hrest
      rw [hmake, Res.bind_ok]
      exact hrest

/-- `TB_LEAVES` completes with the leaves of the present symbols. -/
theorem tbLeaves_ok (s : State) : ∃ (nodes : Vector Node 511) (q : List NodeRef),
    tbLeaves s = .ok () (s.setEng
        ((s.eng.clearTree.withTree nodes q s.eng.present.length).setK
          (BitVec.ofNat 9 s.eng.present.length)))
      ∧ s.eng.LeavesMade s.eng.present nodes q := by
  obtain ⟨nodes, q, hloop, hmade⟩ := leavesLoop_ok s s.eng.clearTree (length_present_le s.eng)
    allSymbols (us := []) rfl s.eng.clearTree.leavesMade_nil
  exact ⟨nodes, q, congrArg (Res.bind · _) hloop, hmade.queue_length, hmade.mem_queue, hmade.node⟩

/-- The smaller symbol, as a number. -/
theorem minSym_eq (a b : Byte) : minSym a b = BitVec.ofNat 8 (min a.toNat b.toNat) := by
  unfold minSym
  by_cases h : a < b
  · rw [if_pos h, Nat.min_eq_left (BitVec.lt_def.1 h).le, BitVec.ofNat_toNat, BitVec.setWidth_eq]
  · rw [if_neg h, Nat.min_eq_right (Nat.not_lt.1 (mt BitVec.lt_def.2 h)), BitVec.ofNat_toNat,
      BitVec.setWidth_eq]

/-- `TB_SINGLE` with one leaf queued. -/
theorem tbSingle_ok {s : State} {l : NodeRef} (h : s.eng.pq = [l]) :
    tbSingle s = .ok () (s.setEng ((s.eng.setPq []).singleRoot l)) := by
  rw [tbSingle, pqTake_single h, Res.bind_ok]
  rfl

/-- `TB_FINISH` with one node queued. -/
theorem tbFinish_ok {s : State} {n : NodeRef} (h : s.eng.pq = [n]) :
    tbFinish s = .ok () (s.setEng ((s.eng.setPq []).setRoot (some n))) := by
  rw [tbFinish, pqTake_single h, Res.bind_ok]
  rfl

/-- Settles O29: arena and queue are those the loop of `TB_LEAVES` makes. -/
theorem tbLeavesMakesLeaves : Obligations.TbLeavesMakesLeaves := by
  intro s
  obtain ⟨nodes, q, hleaves, hmade⟩ := tbLeaves_ok s
  refine ⟨nodes, q, congrArg Res.outcome hleaves, length_present_le s.eng, hmade.mem_queue,
    fun n => ?_⟩
  rw [hmade.node n]
  cases s.eng.present[n.val]? <;> rfl

/-- Settles O30: `TB_SINGLE` and `TB_FINISH` take the one queued node. -/
theorem tbRootSteps : Obligations.TbRootSteps := by
  intro s
  refine ⟨rfl, fun l hpq => ?single, fun n hpq => congrArg Res.outcome (tbFinish_ok hpq)⟩
  case single =>
    exact ⟨(s.eng.singleRoot l).node, congrArg Res.outcome (tbSingle_ok hpq),
      fun n => nodeAt_setNode s.eng 1 n (Node.single l (s.eng.nodeAt l))⟩

/-- Settles O31: the arena gets the merged node of the two extracted ones, and the queue loses them
before it gains it. -/
theorem tbMergeJoinsTwoSmallest : Obligations.TbMergeJoinsTwoSmallest := by
  intro s l r n hdistinct hlen hl hr hn
  have hrest : s.eng.pq.filter (· ≠ l) = removeRef l s.eng.pq :=
    List.filter_congr fun _ _ => decide_not
  rw [hrest] at hr
  refine ⟨(s.eng.setNode n (Node.merged l r (s.eng.nodeAt l) (s.eng.nodeAt r))).node,
    insertRef n (removeRef r (removeRef l s.eng.pq)),
    ?step, fun m => ?queue, fun m => ?arena⟩
  case step =>
    have hexec : exec .tbMerge s = (tbMerge s).outcome := rfl
    rw [hexec, tbMerge_least hdistinct hlen hl hr hn, Engine.queued_eq]
    rfl
  case queue => rw [mem_insertRef, mem_removeRef, mem_removeRef, and_assoc]
  case arena =>
    rw [← minSym_eq]
    exact nodeAt_setNode s.eng n m (Node.merged l r (s.eng.nodeAt l) (s.eng.nodeAt r))

end Sys2Proof.Machine
end

section
/-! The code table generator (43_code_generator.md R190): the walk of a tree writes the codewords
the tree has, in the order of its leaves. -/

namespace Sys2Proof.Machine

/-- The pattern of a path: its first bit is the most significant (43_code_generator.md R190). -/
def pathPattern (p : List Bool) : Pattern :=
  p.foldl (fun pat b => (pat <<< 1) ||| (if b then 1 else 0)) 0

/-- The stack entry of a node that the path `p` leads to. -/
def CgEntry.atPath (n : NodeRef) (p : List Bool) : CgEntry :=
  { node := n, len := BitVec.ofNat 8 p.length, pat := pathPattern p }

@[simp] theorem CgEntry.atPath_node (n : NodeRef) (p : List Bool) :
    (CgEntry.atPath n p).node = n := rfl

/-- The engine with the codeword of each of these symbols written. -/
def Engine.giveCodes (g : Engine) (cs : List (Byte × List Bool)) : Engine :=
  cs.foldl (fun g c => g.setCode c.1 (BitVec.ofNat 8 c.2.length) (pathPattern c.2)) g

/-- The codewords of a tree that the path `p` leads to. -/
def Tree.codesFrom (t : Tree) (p : List Bool) : List (Byte × List Bool) :=
  t.codes.map fun c => (c.1, p ++ c.2)

/-! ### Paths -/

theorem pathPattern_concat (p : List Bool) (b : Bool) :
    pathPattern (p ++ [b]) = (pathPattern p <<< 1) ||| (if b then 1 else 0) := by
  simp only [pathPattern, List.foldl_append, List.foldl_cons, List.foldl_nil]

/-- A step to a child lengthens the path by the child's bit. -/
theorem CgEntry.child_atPath (n m : NodeRef) (p : List Bool) (b : Bool) :
    (CgEntry.atPath n p).child m b = CgEntry.atPath m (p ++ [b]) := by
  simp only [CgEntry.child, CgEntry.atPath, pathPattern_concat, List.length_append,
    List.length_singleton, BitVec.ofNat_add]
  rfl

theorem CgEntry.atPath_len_lt (n : NodeRef) {p : List Bool} (hp : p.length < 255) :
    (CgEntry.atPath n p).len.toNat < 255 :=
  (Nat.mod_le _ _).trans_lt hp

/-- Bit `i` of a path's pattern is the path's bit `i` from the end. -/
theorem getLsbD_pathPattern (p : List Bool) :
    ∀ {i : Nat}, i < 255 → (pathPattern p).getLsbD i = p.reverse.getD i false := by
  induction p using List.reverseRecOn with
  | nil =>
    intro i _
    exact BitVec.getLsbD_zero
  | append_singleton p b ih =>
    intro i hi
    rw [pathPattern_concat, List.reverse_concat, BitVec.getLsbD_or, BitVec.getLsbD_shiftLeft]
    cases i with
    | zero => cases b <;> rfl
    | succ i =>
      have hlow : (if b then 1 else 0 : Pattern).getLsbD (i + 1) = false := by
        cases b <;> simp
      rw [hlow, List.getD_cons_succ, ← ih (by omega)]
      simp [hi]

/-- The codeword's bit `q` (30_encoding.md R103) is bit `q` of the path. -/
theorem getLsbD_pathPattern_rev {p : List Bool} (hp : p.length ≤ 255) {q : Nat}
    (hq : q < p.length) :
    (pathPattern p).getLsbD (p.length - 1 - q) = p.getD q false := by
  have hback : p.length - 1 - (p.length - 1 - q) = q := by omega
  rw [getLsbD_pathPattern p (by omega), List.getD_eq_getElem?_getD, List.getD_eq_getElem?_getD,
    List.getElem?_reverse (by omega), hback]

/-! ### Trees -/

theorem Tree.codesFrom_nil (t : Tree) : t.codesFrom [] = t.codes := by
  simp [Tree.codesFrom]

theorem Tree.codesFrom_leaf (v : Byte) (w : Nat) (p : List Bool) :
    (Tree.leaf v w).codesFrom p = [(v, p)] := by
  simp [Tree.codesFrom, Tree.codes]

theorem Tree.codesFrom_single (l : Tree) (p : List Bool) :
    (Tree.single l).codesFrom p = l.codesFrom (p ++ [false]) := by
  simp [Tree.codesFrom, Tree.codes]

theorem Tree.codesFrom_node (l r : Tree) (p : List Bool) :
    (Tree.node l r).codesFrom p = l.codesFrom (p ++ [false]) ++ r.codesFrom (p ++ [true]) := by
  simp [Tree.codesFrom, Tree.codes, Function.comp_def]

/-- The symbols with a codeword are those of the leaves, in the same order. -/
theorem Tree.codes_map_fst (t : Tree) : t.codes.map Prod.fst = t.leaves.map Prod.fst := by
  induction t with
  | leaf v w => rfl
  | single l ih => simpa [Tree.codes, Tree.leaves, Function.comp_def] using ih
  | node l r ihl ihr => simp [Tree.codes, Tree.leaves, Function.comp_def, ← ihl, ← ihr]

/-- No codeword is longer than the tree is deep. -/
theorem Tree.length_le_depth {t : Tree} {c : Byte × List Bool} (h : c ∈ t.codes) :
    c.2.length ≤ t.depth := by
  induction t generalizing c with
  | leaf v w =>
    rw [List.mem_singleton.1 h]
    exact Nat.le_refl 0
  | single l ih =>
    obtain ⟨d, hd, rfl⟩ := List.mem_map.1 h
    exact Nat.succ_le_succ (ih hd)
  | node l r ihl ihr =>
    rcases List.mem_append.1 h with h | h
    · obtain ⟨d, hd, rfl⟩ := List.mem_map.1 h
      exact Nat.succ_le_succ ((ihl hd).trans (Nat.le_max_left _ _))
    · obtain ⟨d, hd, rfl⟩ := List.mem_map.1 h
      exact Nat.succ_le_succ ((ihr hd).trans (Nat.le_max_right _ _))

/-- Whether the arena holds a tree depends on the arena alone. -/
theorem Engine.holdsTree_congr {g h : Engine} (hnode : h.node = g.node) {t : Tree} {n : NodeRef}
    (ht : g.holdsTree t n) : h.holdsTree t n := by
  have hat : ∀ m, h.nodeAt m = g.nodeAt m := fun m => by rw [Engine.nodeAt, hnode, Engine.nodeAt]
  induction t generalizing n with
  | leaf v w => simpa only [Engine.holdsTree, hat] using ht
  | single l ih =>
    obtain ⟨hkind, hright, a, hleft, hl⟩ := ht
    exact ⟨by rw [hat, hkind], by rw [hat, hright], a, by rw [hat, hleft], ih hl⟩
  | node l r ihl ihr =>
    obtain ⟨hkind, ⟨a, hleft, hl⟩, b, hright, hr⟩ := ht
    exact ⟨by rw [hat, hkind], ⟨a, by rw [hat, hleft], ihl hl⟩, b, by rw [hat, hright], ihr hr⟩

/-! ### Written codewords -/

theorem Engine.giveCodes_cons (g : Engine) (c : Byte × List Bool) (cs : List (Byte × List Bool)) :
    g.giveCodes (c :: cs) =
      (g.setCode c.1 (BitVec.ofNat 8 c.2.length) (pathPattern c.2)).giveCodes cs := rfl

theorem Engine.giveCodes_append (g : Engine) (cs ds : List (Byte × List Bool)) :
    g.giveCodes (cs ++ ds) = (g.giveCodes cs).giveCodes ds := List.foldl_append

/-- Writing codewords changes the code table alone. -/
theorem Engine.giveCodes_eq (g : Engine) (cs : List (Byte × List Bool)) :
    g.giveCodes cs = { g with
      codelen := (g.giveCodes cs).codelen, codepat := (g.giveCodes cs).codepat } := by
  induction cs generalizing g with
  | nil => rfl
  | cons c cs ih => exact ih (g.setCode c.1 (BitVec.ofNat 8 c.2.length) (pathPattern c.2))

@[simp] theorem Engine.giveCodes_node (g : Engine) (cs : List (Byte × List Bool)) :
    (g.giveCodes cs).node = g.node := by rw [Engine.giveCodes_eq]

/-- A symbol without a codeword among those written keeps its own. -/
theorem giveCodes_of_not_mem {cs : List (Byte × List Bool)} {v : Byte}
    (hv : v ∉ cs.map Prod.fst) (g : Engine) :
    (g.giveCodes cs).codelenOf v = g.codelenOf v
      ∧ (g.giveCodes cs).codepatOf v = g.codepatOf v := by
  induction cs generalizing g with
  | nil => exact ⟨rfl, rfl⟩
  | cons c cs ih =>
    rw [List.map_cons, List.mem_cons, not_or] at hv
    obtain ⟨hne, hrest⟩ := hv
    rw [Engine.giveCodes_cons, (ih hrest _).1, (ih hrest _).2, codelenOf_setCode,
      codepatOf_setCode, if_neg hne, if_neg hne]
    exact ⟨rfl, rfl⟩

/-- A symbol that is given one codeword has it. -/
theorem giveCodes_of_mem {cs : List (Byte × List Bool)} (hcs : (cs.map Prod.fst).Nodup)
    {v : Byte} {p : List Bool} (hv : (v, p) ∈ cs) (g : Engine) :
    (g.giveCodes cs).codelenOf v = BitVec.ofNat 8 p.length
      ∧ (g.giveCodes cs).codepatOf v = pathPattern p := by
  induction cs generalizing g with
  | nil => exact absurd hv List.not_mem_nil
  | cons c cs ih =>
    rw [List.map_cons, List.nodup_cons] at hcs
    obtain ⟨hnew, hnodup⟩ := hcs
    rw [Engine.giveCodes_cons]
    rcases List.mem_cons.1 hv with rfl | hrest
    · rw [(giveCodes_of_not_mem hnew _).1, (giveCodes_of_not_mem hnew _).2, codelenOf_setCode,
        codepatOf_setCode, if_pos rfl, if_pos rfl]
      exact ⟨rfl, rfl⟩
    · exact ih hnodup hrest _

/-- After the clearing no symbol has a codeword (43_code_generator.md R190). -/
theorem codelenOf_clearCodes (g : Engine) (v : Byte) : g.clearCodes.codelenOf v = 0 :=
  Vector.getElem_replicate _

theorem codepatOf_clearCodes (g : Engine) (v : Byte) : g.clearCodes.codepatOf v = 0 :=
  Vector.getElem_replicate _

/-! ### The walk -/

@[simp] theorem Engine.nodeAt_setStack (g : Engine) (l : List CgEntry) (n : NodeRef) :
    (g.setStack l).nodeAt n = g.nodeAt n := rfl

section Loop

variable (fuel : Nat) (s : State) {g : Engine} {x : CgEntry} (st : List CgEntry)

/-- The walk is done when its stack is empty. -/
theorem cgLoop_done (g : Engine) :
    cgLoop fuel (s.setEng (g.setStack [])) = .ok () (s.setEng (g.setStack [])) := by
  rw [cgLoop.eq_def]
  rfl

/-- A popped leaf: its symbol gets the entry's codeword. -/
theorem cgLoop_leaf (hkind : (g.nodeAt x.node).kind = .leaf) :
    cgLoop (fuel + 1) (s.setEng (g.setStack (x :: st))) =
      cgLoop fuel (s.setEng ((g.setCode (g.nodeAt x.node).sym x.len x.pat).setStack st)) := by
  rw [cgLoop.eq_def]
  simp only [State.setEng_eng, Engine.setStack_cgstack, Engine.nodeAt_setStack, hkind]
  rfl

/-- A popped internal node: its children go on the stack. -/
theorem cgLoop_internal {l : NodeRef} (hkind : (g.nodeAt x.node).kind = .internal)
    (hleft : (g.nodeAt x.node).left = some l) (hlen : x.len.toNat < 255) :
    cgLoop (fuel + 1) (s.setEng (g.setStack (x :: st))) =
      cgLoop fuel (s.setEng (g.setStack (cgPush x l (g.nodeAt x.node).right st))) := by
  rw [cgLoop.eq_def]
  simp only [State.setEng_eng, Engine.setStack_cgstack, Engine.nodeAt_setStack, hkind, hleft]
  exact if_pos hlen

/-- A popped node with a left child alone, as the synthetic root of k = 1 has. -/
theorem cgLoop_oneChild {n a : NodeRef} {p : List Bool} (hkind : (g.nodeAt n).kind = .internal)
    (hleft : (g.nodeAt n).left = some a) (hright : (g.nodeAt n).right = none)
    (hp : p.length < 255) :
    cgLoop (fuel + 1) (s.setEng (g.setStack (.atPath n p :: st))) =
      cgLoop fuel (s.setEng (g.setStack (.atPath a (p ++ [false]) :: st))) := by
  have hpop := cgLoop_internal fuel s st (x := .atPath n p) hkind hleft
    (CgEntry.atPath_len_lt n hp)
  rw [hpop, CgEntry.atPath_node, hright, cgPush, CgEntry.child_atPath]

/-- A popped node with two children. -/
theorem cgLoop_twoChildren {n a b : NodeRef} {p : List Bool}
    (hkind : (g.nodeAt n).kind = .internal) (hleft : (g.nodeAt n).left = some a)
    (hright : (g.nodeAt n).right = some b) (hp : p.length < 255) :
    cgLoop (fuel + 1) (s.setEng (g.setStack (.atPath n p :: st))) =
      cgLoop fuel (s.setEng (g.setStack
        (.atPath a (p ++ [false]) :: .atPath b (p ++ [true]) :: st))) := by
  have hpop := cgLoop_internal fuel s st (x := .atPath n p) hkind hleft
    (CgEntry.atPath_len_lt n hp)
  rw [hpop, CgEntry.atPath_node, hright, cgPush, CgEntry.child_atPath, CgEntry.child_atPath]

end Loop

/-- The walk of a tree on top of the stack writes the tree's codewords and goes on below it. -/
theorem cgLoop_tree (s : State) {t : Tree} {n : NodeRef} {g : Engine} (ht : g.holdsTree t n)
    {p : List Bool} (hdepth : p.length + t.depth ≤ 255) (fuel : Nat) (st : List CgEntry) :
    cgLoop (t.size + fuel) (s.setEng (g.setStack (.atPath n p :: st))) =
      cgLoop fuel (s.setEng ((g.giveCodes (t.codesFrom p)).setStack st)) := by
  induction t generalizing n g p fuel st with
  | leaf v w =>
    obtain ⟨hkind, rfl, -⟩ := ht
    rw [Tree.codesFrom_leaf, Tree.size, Nat.add_comm]
    exact cgLoop_leaf fuel s st hkind
  | single l ih =>
    obtain ⟨hkind, hright, a, hleft, hl⟩ := ht
    rw [Tree.depth] at hdepth
    have hbelow : (p ++ [false]).length + l.depth ≤ 255 := by
      rw [List.length_append, List.length_singleton]
      omega
    rw [Tree.codesFrom_single, Tree.size, Nat.add_right_comm,
      cgLoop_oneChild _ _ _ hkind hleft hright (by omega), ih hl hbelow]
  | node l r ihl ihr =>
    obtain ⟨hkind, ⟨a, hleft, hl⟩, b, hright, hr⟩ := ht
    rw [Tree.depth] at hdepth
    have hbelow (c : Bool) : (p ++ [c]).length + max l.depth r.depth ≤ 255 := by
      rw [List.length_append, List.length_singleton]
      omega
    have hfuel : (Tree.node l r).size + fuel = l.size + (r.size + fuel) + 1 := by
      rw [Tree.size]
      omega
    have hr' : (g.giveCodes (l.codesFrom (p ++ [false]))).holdsTree r b :=
      Engine.holdsTree_congr (g.giveCodes_node _) hr
    rw [hfuel, cgLoop_twoChildren _ _ _ hkind hleft hright (by omega),
      ihl hl ((Nat.add_le_add_left (Nat.le_max_left _ _) _).trans (hbelow false)),
      ihr hr' ((Nat.add_le_add_left (Nat.le_max_right _ _) _).trans (hbelow true)),
      Tree.codesFrom_node, Engine.giveCodes_append]

/-- `CG_WALK` with a tree at the root. -/
theorem cgWalk_tree {s : State} {t : Tree} (h : s.eng.rootTree t) :
    cgWalk s = .ok () (s.setEng ((s.eng.clearCodes.giveCodes t.codes).setStack [])) := by
  obtain ⟨⟨n, hroot, ht⟩, hsize, hdepth, -⟩ := h
  have hfuel : Config.maxNodes = t.size + (511 - t.size) := (Nat.add_sub_of_le hsize).symm
  have hcleared : s.eng.clearCodes.holdsTree t n :=
    Engine.holdsTree_congr s.eng.clearCodes_node ht
  have hwalk := cgLoop_tree s hcleared (p := []) (by simpa using hdepth) (511 - t.size) []
  rw [cgLoop_done, Tree.codesFrom_nil, ← hfuel] at hwalk
  rw [cgWalk, Engine.clearCodes_root, hroot]
  exact hwalk

/-- `CG_WALK` with no root. -/
theorem cgWalk_noRoot {s : State} (h : s.eng.root = none) :
    cgWalk s = .ok () (s.setEng s.eng.clearCodes) := by
  rw [cgWalk, Engine.clearCodes_root, h]

/-- Settles O33: the code table is the cleared one with the tree's codewords written. -/
theorem cgWalkAssignsPaths : Obligations.CgWalkAssignsPaths := by
  intro s
  refine ⟨fun t ht => ?tree, fun hroot => ?noRoot⟩
  case tree =>
    have hwalk := congrArg Res.outcome (cgWalk_tree ht)
    obtain ⟨-, -, hdepth, hleaves⟩ := ht
    rw [← Tree.codes_map_fst] at hleaves ⊢
    refine ⟨(s.eng.clearCodes.giveCodes t.codes).codelen,
      (s.eng.clearCodes.giveCodes t.codes).codepat, ?step, fun v path hv => ?leaf,
      fun v hv => ?absent⟩
    case step =>
      rw [Engine.giveCodes_eq] at hwalk
      exact hwalk
    case leaf =>
      have hlen : path.length ≤ 255 := (Tree.length_le_depth hv).trans hdepth
      obtain ⟨hcodelen, hcodepat⟩ := giveCodes_of_mem hleaves hv s.eng.clearCodes
      refine ⟨?_, fun q hq => ?_⟩
      · exact (congrArg BitVec.toNat hcodelen).trans (Nat.mod_eq_of_lt (by omega))
      · exact (congrArg (BitVec.getLsbD · _) hcodepat).trans (getLsbD_pathPattern_rev hlen hq)
    case absent =>
      obtain ⟨hcodelen, hcodepat⟩ := giveCodes_of_not_mem hv s.eng.clearCodes
      exact ⟨hcodelen.trans (codelenOf_clearCodes _ v), hcodepat.trans (codepatOf_clearCodes _ v)⟩
  case noRoot =>
    exact ⟨s.eng.clearCodes.codelen, s.eng.clearCodes.codepat,
      congrArg Res.outcome (cgWalk_noRoot hroot),
      fun v => ⟨Vector.getElem_replicate v.isLt, Vector.getElem_replicate v.isLt⟩⟩

end Sys2Proof.Machine
end

section
/-! Opening a writer and a reader (44_bitstream.md R210, R214). -/

namespace Sys2Proof.Machine

/-- Settles O35: both sides are the same record update. -/
theorem bitstreamsOpen : Obligations.BitstreamsOpen :=
  fun _ _ _ => ⟨rfl, rfl⟩

end Sys2Proof.Machine
end

section
/-! The bitstream writer (44_bitstream.md R210 to R213). `WriterHolds` says that memory and the
accumulator together hold a string of bits; putting a bit extends the string, writing the accumulator
only moves its bits to memory. -/

namespace Sys2Proof.Machine

/-- The `n` bytes from `base` on can be written and read by the engine: a condition on the output range
and the platform alone, which no bit put or read changes. -/
def State.usableBytes (s : State) (base n : Nat) : Prop :=
  ∀ q < n, s.writable (base + q) ∧ s.plat.readFaults (base + q) = false

/-- The bits `bs` were put into a writer opened at `base`: the completed bytes are in memory, the byte
in progress is in the accumulator, with zeros behind the last bit (20_memory.md R65). -/
structure State.WriterHolds (s : State) (base : DWord) (bs : List Bool) : Prop where
  wf : Memory.wf s.mem = true
  wbase : s.eng.wbase = base
  nbits : s.eng.nbits.toNat = bs.length
  stored : ∀ i, i / 8 < s.eng.wpos.toNat →
    payloadBit (Memory.read s.mem (base.toNat + i / 8)) i = bs.getD i false
  waiting : ∀ i, i / 8 = s.eng.wpos.toNat → payloadBit s.eng.acc i = bs.getD i false

/-- Between two bits fewer than eight bits wait, and the other ones fill whole bytes
(44_bitstream.md R211). -/
structure State.Writing (s : State) (base : DWord) (bs : List Bool) : Prop
    extends s.WriterHolds base bs where
  nacc_lt : s.eng.nacc.toNat < 8
  length_eq : bs.length = 8 * s.eng.wpos.toNat + s.eng.nacc.toNat

theorem payloadBit_zero (i : Nat) : payloadBit 0 i = false := BitVec.getLsbD_zero

/-- A bit shifted to its place in the accumulator is alone there (44_bitstream.md R211). -/
theorem payloadBit_bitAt (b : Bool) {nacc : BitVec 4} (h : nacc.toNat < 8) (i : Nat) :
    payloadBit (bitAt b nacc) i = (b && decide (i % 8 = nacc.toNat)) := by
  cases b with
  | false => exact payloadBit_zero i
  | true =>
    have hone : bitAt true nacc = BitVec.twoPow 8 (7 - nacc.toNat) :=
      (BitVec.twoPow_eq _ _).symm
    rw [payloadBit, hone, BitVec.getLsbD_twoPow, Bool.true_and, ← Bool.decide_and,
      decide_eq_decide]
    omega

/-- A string past its end reads as zeros, so one more bit is added to a zero. -/
theorem getD_concat (bs : List Bool) (b : Bool) (i : Nat) :
    (bs ++ [b]).getD i false = (bs.getD i false || (b && decide (i = bs.length))) := by
  grind

section Writer

variable {s : State} {base : DWord} {bs : List Bool}

/-- The next bit goes into the accumulator behind the waiting ones. -/
theorem State.Writing.putAcc (h : s.Writing base bs) (b : Bool) (hlen : bs.length + 1 < 2 ^ 64) :
    (s.setEng (s.eng.putAcc b)).WriterHolds base (bs ++ [b]) where
  wf := h.wf
  wbase := h.wbase
  nbits := by
    have hcount : (s.eng.nbits + 1).toNat = s.eng.nbits.toNat + 1 :=
      BitVec.toNat_add_of_lt (by rw [h.nbits]; exact hlen)
    exact hcount.trans (by rw [h.nbits, List.length_append, List.length_singleton])
  stored i hi := by
    have hi : i / 8 < s.eng.wpos.toNat := hi
    have hne : i ≠ bs.length := by have := h.length_eq; omega
    rw [getD_concat, decide_eq_false hne, Bool.and_false, Bool.or_false]
    exact h.stored i hi
  waiting i hi := by
    have hi : i / 8 = s.eng.wpos.toNat := hi
    have hiff : i % 8 = s.eng.nacc.toNat ↔ i = bs.length := by
      have := h.length_eq
      have := h.nacc_lt
      omega
    rw [getD_concat, ← h.waiting i hi, ← decide_eq_decide.2 hiff, ← payloadBit_bitAt b h.nacc_lt]
    exact BitVec.getLsbD_or

/-- `flushAcc` where the platform answers the write. -/
theorem flushAcc_store (h : s.writable s.eng.writeAddr) :
    flushAcc s = .ok () ((s.store s.eng.writeAddr s.eng.acc).setEng s.eng.nextByte) := by
  rw [flushAcc, ← Engine.writeAddr, memWrite_ok _ h, Res.bind_ok, State.store_eng]

/-- Writing the accumulator moves the last bits to memory, zero padded when they fill no byte. -/
theorem State.WriterHolds.flushed (h : s.WriterHolds base bs)
    (hlen : bs.length ≤ 8 * (s.eng.wpos.toNat + 1)) (hmem : s.eng.writeAddr < Config.memorySize)
    (hpos : (s.eng.wpos + 1).toNat = s.eng.wpos.toNat + 1) :
    ((s.store s.eng.writeAddr s.eng.acc).setEng s.eng.nextByte).WriterHolds base bs where
  wf := Memory.wf_write _ h.wf hmem
  wbase := h.wbase
  nbits := h.nbits
  stored i hi := by
    have hi : i / 8 < s.eng.wpos.toNat + 1 := hpos ▸ hi
    rw [State.setEng_mem, State.store_mem, Engine.writeAddr, h.wbase]
    by_cases hlast : i / 8 = s.eng.wpos.toNat
    · rw [hlast, Memory.read_write_eq h.wf]
      exact h.waiting i hlast
    · rw [Memory.read_write_ne _ _ (by omega)]
      exact h.stored i (by omega)
  waiting i hi := by
    have hi : i / 8 = s.eng.wpos.toNat + 1 := hpos ▸ hi
    rw [List.getD_eq_default _ _ (by omega)]
    exact payloadBit_zero i

/-- The accumulator of a writer is written when the bits reach no further than its byte. -/
theorem State.WriterHolds.flushAcc_ok (h : s.WriterHolds base bs) {n : Nat}
    (hbuf : s.usableBytes base.toNat n) (hn : s.eng.wpos.toNat < n) (hsize : n < 2 ^ 64)
    (hlen : bs.length ≤ 8 * (s.eng.wpos.toNat + 1)) :
    ∃ t, flushAcc s = .ok () t ∧ t.WriterHolds base bs ∧ t.usableBytes base.toNat n
      ∧ t.eng.nacc = 0 ∧ t.eng.wpos.toNat = s.eng.wpos.toNat + 1 := by
  have hpos : (s.eng.wpos + 1).toNat = s.eng.wpos.toNat + 1 :=
    BitVec.toNat_add_of_lt (show s.eng.wpos.toNat + 1 < 2 ^ 64 by omega)
  have hw : s.writable s.eng.writeAddr := by
    rw [Engine.writeAddr, h.wbase]
    exact (hbuf _ hn).1
  exact ⟨_, flushAcc_store hw, h.flushed hlen hw.2.2.1 hpos, hbuf, rfl, hpos⟩

/-- `BW_PUT_BIT` while the bits put so far leave room in the buffer. -/
theorem State.Writing.bwPutBit_ok (h : s.Writing base bs) (b : Bool) {n : Nat}
    (hbuf : s.usableBytes base.toNat n) (hn : bs.length < 8 * n) (hsize : 8 * n < 2 ^ 64) :
    ∃ t, bwPutBit b s = .ok () t ∧ t.Writing base (bs ++ [b]) ∧ t.usableBytes base.toNat n := by
  have hput := h.putAcc b (by omega)
  have hlen := h.length_eq
  have hlt := h.nacc_lt
  have hnacc : (s.eng.nacc + 1).toNat = s.eng.nacc.toNat + 1 :=
    BitVec.toNat_add_of_lt (show s.eng.nacc.toNat + 1 < 2 ^ 4 by omega)
  have hlen' : (bs ++ [b]).length = bs.length + 1 := List.length_append
  unfold bwPutBit
  dsimp only
  split
  case isTrue hfull =>
    have hfull : s.eng.nacc.toNat + 1 = 8 := hnacc.symm.trans (congrArg BitVec.toNat hfull)
    obtain ⟨t, hok, ht, htbuf, hzero, hpos⟩ :=
      hput.flushAcc_ok (n := n) hbuf (show s.eng.wpos.toNat < n by omega) (by omega)
        (show _ ≤ 8 * (s.eng.wpos.toNat + 1) by omega)
    have hpos : t.eng.wpos.toNat = s.eng.wpos.toNat + 1 := hpos
    have hzero : t.eng.nacc.toNat = 0 := congrArg BitVec.toNat hzero
    exact ⟨t, hok, ⟨ht, by omega, by omega⟩, htbuf⟩
  case isFalse hfull =>
    have hfull : s.eng.nacc.toNat + 1 ≠ 8 := fun e =>
      hfull (BitVec.eq_of_toNat_eq (hnacc.trans e))
    refine ⟨_, rfl, ⟨hput, hnacc.trans_lt (by omega), ?_⟩, hbuf⟩
    rw [State.setEng_eng, Engine.putAcc_nacc, Engine.putAcc_wpos, hnacc]
    omega

/-- A `BW_PUT_BIT` of each bit. -/
theorem State.Writing.bwPutBits_ok {n : Nat} (hsize : 8 * n < 2 ^ 64) (cs : List Bool) :
    ∀ {s : State} {bs : List Bool}, s.Writing base bs → s.usableBytes base.toNat n →
      bs.length + cs.length ≤ 8 * n →
      ∃ t, bwPutBits cs s = .ok () t ∧ t.Writing base (bs ++ cs)
        ∧ t.usableBytes base.toNat n := by
  induction cs with
  | nil =>
    intro s bs h hbuf _
    exact ⟨s, rfl, by rwa [List.append_nil], hbuf⟩
  | cons b cs ih =>
    intro s bs h hbuf hlen
    rw [List.length_cons] at hlen
    obtain ⟨t, hok, ht, htbuf⟩ := h.bwPutBit_ok b hbuf (by omega) hsize
    rw [bwPutBits, hok, Res.bind_ok, List.append_cons]
    exact ih ht htbuf (by rw [List.length_append, List.length_singleton]; omega)

/-- `BW_FINISH`: every bit is in memory, in as many bytes as they need. -/
theorem State.Writing.bwFinish_ok (h : s.Writing base bs) {n : Nat}
    (hbuf : s.usableBytes base.toNat n) (hn : bs.length ≤ 8 * n) (hsize : n < 2 ^ 64) :
    ∃ u, bwFinish s = .ok () u ∧ u.WriterHolds base bs ∧ u.usableBytes base.toNat n
      ∧ u.eng.wpos.toNat = (bs.length + 7) / 8 := by
  have hlen := h.length_eq
  have hlt := h.nacc_lt
  unfold bwFinish
  split
  case isTrue hpos =>
    have hpos : 0 < s.eng.nacc.toNat := hpos
    obtain ⟨u, hok, hu, hubuf, -, hwpos⟩ :=
      h.toWriterHolds.flushAcc_ok hbuf (by omega) hsize (by omega)
    exact ⟨u, hok, hu, hubuf, by omega⟩
  case isFalse hpos =>
    have hpos : ¬ 0 < s.eng.nacc.toNat := hpos
    exact ⟨s, rfl, h.toWriterHolds, hbuf, by omega⟩

end Writer

/-- `BW_INIT` opens a writer that holds no bits. -/
theorem bwInit_writing {s : State} (hmem : Memory.wf s.mem = true) (base : DWord) :
    (s.setEng (s.eng.bwInit base)).Writing base [] where
  wf := hmem
  wbase := rfl
  nbits := rfl
  stored _ hi := absurd hi (Nat.not_lt_zero _)
  waiting i _ := payloadBit_zero i
  nacc_lt := Nat.zero_lt_succ 7
  length_eq := rfl

end Sys2Proof.Machine
end

section
/-! The bitstream reader (44_bitstream.md R214 to R216). -/

namespace Sys2Proof.Machine

/-- A reader opened at `base` on the bits `bs`, of which it has read `p`: the bytes that hold them can
be read, and hold them MSB first (20_memory.md R65). -/
structure State.Reading (s : State) (base : DWord) (bs : List Bool) (p : Nat) : Prop where
  rbase : s.eng.rbase = base
  bitlen : s.eng.bitlen.toNat = bs.length
  rpos : s.eng.rpos.toNat = p
  readable : ∀ i < bs.length, s.readable (base.toNat + i / 8)
  bits : ∀ i < bs.length,
    payloadBit (Memory.read s.mem (base.toNat + i / 8)) i = bs.getD i false

section Reader

variable {s : State} {base : DWord} {bs : List Bool} {p : Nat}

/-- `BR_READ_BIT` before the declared count. -/
theorem State.Reading.brReadBit_ok (h : s.Reading base bs p) (hp : p < bs.length) :
    ∃ t, brReadBit s = .ok bs[p] t ∧ t.Reading base bs (p + 1) := by
  have hmore : ¬ s.eng.bitlen.toNat ≤ s.eng.rpos.toNat := by rw [h.bitlen, h.rpos]; omega
  have hnext : (s.eng.rpos + 1).toNat = s.eng.rpos.toNat + 1 :=
    BitVec.toNat_add_of_lt (show s.eng.rpos.toNat + 1 < 2 ^ 64 by omega)
  rw [brReadBit, if_neg hmore, h.rbase, h.rpos, memRead_ok (h.readable p hp), Res.bind_ok,
    State.logBus_eng, h.rpos, h.bits p hp, List.getD_eq_getElem _ _ hp]
  exact ⟨_, rfl, h.rbase, h.bitlen, hnext.trans (by rw [h.rpos]), h.readable, h.bits⟩

/-- `BR_READ_BIT` at the declared count. -/
theorem State.Reading.brReadBit_raised (h : s.Reading base bs bs.length) :
    brReadBit s = .raised (s.errorEntry .readPastEnd s.eng.rpos) :=
  if_pos (by rw [h.bitlen, h.rpos])

/-- Reads up to the declared count return the bits not read yet, in order. -/
theorem State.Reading.readBits_ok (n : Nat) : ∀ {s : State} {p : Nat}, s.Reading base bs p →
    p + n = bs.length →
    ∃ w, readBits n s = .ok (bs.drop p) w ∧ w.Reading base bs bs.length := by
  induction n with
  | zero =>
    intro s p h hp
    have hp : p = bs.length := hp
    exact ⟨s, by rw [hp, List.drop_length]; rfl, hp ▸ h⟩
  | succ n ih =>
    intro s p h hp
    have hlt : p < bs.length := by omega
    obtain ⟨t, hbit, ht⟩ := h.brReadBit_ok hlt
    obtain ⟨w, hrest, hw⟩ := ih ht (by omega)
    exact ⟨w, by rw [readBits, hbit, Res.bind_ok, hrest, Res.bind_ok, List.cons_getElem_drop_succ],
      hw⟩

/-- `BR_INIT` on the bytes a writer has completed. -/
theorem State.WriterHolds.brInit_reading (h : s.WriterHolds base bs)
    (hbuf : s.usableBytes base.toNat ((bs.length + 7) / 8))
    (hwpos : s.eng.wpos.toNat = (bs.length + 7) / 8) (hlen : bs.length < 2 ^ 32) :
    (s.setEng (s.eng.brInit base (BitVec.ofNat 32 bs.length))).Reading base bs 0 where
  rbase := rfl
  bitlen := Nat.mod_eq_of_lt hlen
  rpos := rfl
  readable i hi := by
    obtain ⟨⟨-, -, hsize, -⟩, hread⟩ := hbuf (i / 8) (by omega)
    exact ⟨hsize, hread⟩
  bits i hi := h.stored i (by omega)

end Reader

/-- Settles O40: the writer leaves a memory that holds the bits, and a reader of it returns them. -/
theorem readerInvertsWriter : Obligations.ReaderInvertsWriter := by
  intro s base bs hmem hlen hbuf
  obtain ⟨t, hput, ht, htbuf⟩ := State.Writing.bwPutBits_ok
    (n := (bs.length + 7) / 8) (by omega) bs (bwInit_writing hmem base) hbuf
    (by rw [List.length_nil]; omega)
  rw [List.nil_append] at ht
  obtain ⟨u, hfinish, hu, hubuf, hwpos⟩ := ht.bwFinish_ok htbuf (by omega) (by omega)
  obtain ⟨w, hread, hw⟩ :=
    State.Reading.readBits_ok bs.length (hu.brInit_reading hubuf hwpos hlen) (Nat.zero_add _)
  exact ⟨u, w, _, by rw [hput, Res.bind_ok, hfinish], hu.nbits, hwpos, hread,
    hw.brReadBit_raised, rfl, rfl, hw.rpos⟩

end Sys2Proof.Machine
end

section
/-! The encoder's sizes (45_encoder.md R245): the bit total, then the container size, each checked
before the header is written. -/

namespace Sys2Proof.Machine

/-- A table read at a symbol's number, as a list and as the model reads it. -/
theorem toList_getD_eq_symIdx {α : Type} (t : Vector α 256) (d : α) {v : Nat} (h : v < 256) :
    t.toList.getD v d = t[symIdx (BitVec.ofNat 8 v)] := by
  have hidx : (symIdx (BitVec.ofNat 8 v)).val = v := Nat.mod_eq_of_lt h
  simp [h, hidx]

/-- The bit total as a sum over the symbols' numbers. -/
theorem totalBits_eq_sum_range (g : Engine) :
    totalBits g = ((List.range 256).map fun v =>
      (g.freq.toList.getD v 0).toNat * (g.codelen.toList.getD v 0).toNat).sum := by
  unfold totalBits
  rw [allSymbols, List.map_map]
  refine congrArg List.sum (List.map_congr_left fun v hv => ?_)
  have hlt := List.mem_range.1 hv
  rw [toList_getD_eq_symIdx _ _ hlt, toList_getD_eq_symIdx _ _ hlt]
  rfl

/-- A container size fits its 64-bit field when the bit total fits 32 bits. -/
theorem Engine.sized_csize_toNat (g : Engine) {total : Nat} (h : total ≤ 2 ^ 32 - 1) :
    (g.sized total).csize.toNat = headerSize g.k.toNat + ceilDiv8 total := by
  have hk := g.k.isLt
  refine Nat.mod_eq_of_lt ?_
  unfold headerSize ceilDiv8
  omega

/-- `E_HEADER_SIZE` on a bit total over 32 bits. -/
theorem eHeaderSize_bitsTooMany {s : State} (h : 2 ^ 32 - 1 < totalBits s.eng) :
    eHeaderSize s = raise .bitsTooMany (BitVec.ofNat 64 (totalBits s.eng))
      (s.setEng (s.eng.setTotal (BitVec.ofNat 64 (totalBits s.eng)))) := if_pos h

/-- `E_HEADER_SIZE` on a container that is larger than the output range. -/
theorem eHeaderSize_encDstSmall {s : State} (h : totalBits s.eng ≤ 2 ^ 32 - 1)
    (hcap : s.eng.cap.toNat < headerSize s.eng.k.toNat + ceilDiv8 (totalBits s.eng)) :
    eHeaderSize s = raise .encDstSmall (s.eng.sized (totalBits s.eng)).csize
      (s.setEng (s.eng.sized (totalBits s.eng))) := by
  rw [← s.eng.sized_csize_toNat h] at hcap
  exact (if_neg h.not_gt).trans (if_pos hcap)

/-- `E_HEADER_SIZE` on a container that fits. -/
theorem eHeaderSize_ok {s : State} (h : totalBits s.eng ≤ 2 ^ 32 - 1)
    (hcap : headerSize s.eng.k.toNat + ceilDiv8 (totalBits s.eng) ≤ s.eng.cap.toNat) :
    eHeaderSize s = .ok () (s.setEng (s.eng.sized (totalBits s.eng)).startHeader) := by
  rw [← s.eng.sized_csize_toNat h] at hcap
  exact (if_neg h.not_gt).trans (if_neg hcap.not_gt)

/-- Settles O41: the stated total is `totalBits`, and the three clauses are the outcomes of its two
checks. -/
theorem eHeaderSizeChecks : Obligations.EHeaderSizeChecks := by
  intro s total size htotal hsize
  obtain rfl : totalBits s.eng = total := (totalBits_eq_sum_range s.eng).trans htotal.symm
  subst hsize
  refine ⟨fun hbits => ?tooMany, fun hbits hcap => ?tooSmall, fun hbits hcap => ?fits⟩
  case tooMany => exact congrArg Res.outcome (eHeaderSize_bitsTooMany hbits)
  case tooSmall => exact congrArg Res.outcome (eHeaderSize_encDstSmall hbits hcap)
  case fits => exact congrArg Res.outcome (eHeaderSize_ok hbits hcap)

end Sys2Proof.Machine
end

section
/-! The decoder's whole-header checks, rebuild, output and end (46_decoder.md R273, R274, R276 to
R278). -/

namespace Sys2Proof.Machine

/-- The error entry of a check, with the code and the sub-code of 30_encoding.md R108. -/
theorem raise_outcome_failed {α : Type} (e : ErrSub) (info : DWord) (s : State) :
    (raise e info s : Res α).outcome = .next (s.failed e.kind.code e.code info) := rfl

/-- An operation that makes a check and goes on with a next state either way. -/
theorem Res.outcome_ite {α : Type} {c : Prop} [Decidable c] {r r' : Res α} {t t' : State}
    (h : r.outcome = .next t) (h' : r'.outcome = .next t') :
    (if c then r else r').outcome = .next (if c then t else t') := by
  by_cases hc : c
  · rw [if_pos hc, if_pos hc, h]
  · rw [if_neg hc, if_neg hc, h']

/-! ### The rebuild of the tree -/

/-- In a queue without repetition, taking a node out makes the queue one shorter. -/
theorem length_removeRef_of_nodup {n : NodeRef} {l : List NodeRef} (hnd : l.Nodup) (h : n ∈ l) :
    (removeRef n l).length = l.length - 1 := by
  rw [removeRef, ← hnd.erase_eq_filter, List.length_erase_of_mem h]

/-- The builder's extraction from a queue that is not empty takes one of its nodes out. -/
theorem pqTake_ok {s : State} (h : 0 < s.eng.pq.length) :
    ∃ m ∈ s.eng.pq, pqTake s = .ok m (s.setEng (s.eng.setPq (removeRef m s.eng.pq))) := by
  rcases pqTake_cases s with ⟨hempty, -⟩ | ⟨m, hm, htake⟩
  · exact absurd hempty (List.ne_nil_of_length_pos h)
  · exact ⟨m, pqLeast_mem hm, htake⟩

/-- A merge completes from a queue of at least two nodes while the arena has room. -/
theorem tbMerge_ok {s : State} (htwo : 2 ≤ s.eng.pq.length) (hlen : s.eng.pq.length ≤ 256)
    (hnd : s.eng.pq.Nodup) (hnn : s.eng.nn.toNat < 511) : ∃ t, tbMerge s = .ok () t := by
  obtain ⟨l, hl, htakeL⟩ := pqTake_ok (s := s) (by omega)
  have hone := length_removeRef_of_nodup hnd hl
  obtain ⟨r, -, htakeR⟩ := pqTake_ok (s := s.setEng (s.eng.setPq (removeRef l s.eng.pq)))
    (show 0 < (removeRef l s.eng.pq).length by omega)
  have hroom : (removeRef r (removeRef l s.eng.pq)).length < 256 := by
    have := removeRef_length r (removeRef l s.eng.pq)
    omega
  rw [tbMerge, htakeL, Res.bind_ok, htakeR, Res.bind_ok]
  exact ⟨_, addQueued_ok (n := ⟨s.eng.nn.toNat, hnn⟩) _ rfl hroom⟩

section Rebuild

variable {s : State}

theorem dRebuildStep_leaves (h : s.eng.phase = 0) :
    dRebuildStep s = thenPhase 1 (tbLeaves s) := if_pos h

/-- In phase 1 the number of symbols and the queue select the builder's step. -/
theorem dRebuildStep_build (h : s.eng.phase = 1) :
    dRebuildStep s =
      if s.eng.k = 0 then thenPhase 2 (tbEmpty s)
      else if s.eng.k = 1 then thenPhase 2 (tbSingle s)
      else if 1 < s.eng.pq.length then tbMerge s
      else thenPhase 2 (tbFinish s) := by
  rw [dRebuildStep, if_neg (by rw [h]; decide), if_pos h]

theorem dRebuildStep_empty (h : s.eng.phase = 1) (hk : s.eng.k = 0) :
    dRebuildStep s = thenPhase 2 (tbEmpty s) := by
  rw [dRebuildStep_build h, if_pos hk]

theorem dRebuildStep_single (h : s.eng.phase = 1) (hk : s.eng.k = 1) :
    dRebuildStep s = thenPhase 2 (tbSingle s) := by
  rw [dRebuildStep_build h, if_neg (by rw [hk]; decide), if_pos hk]

/-- With two symbols or more the queue's length decides between a merge and the finish. -/
theorem dRebuildStep_many (h : s.eng.phase = 1) (hk : 2 ≤ s.eng.k.toNat) :
    dRebuildStep s =
      if 1 < s.eng.pq.length then tbMerge s else thenPhase 2 (tbFinish s) := by
  have hne {n : BitVec 9} (hn : n.toNat < 2) : s.eng.k ≠ n := fun e => by rw [e] at hk; omega
  rw [dRebuildStep_build h, if_neg (hne (by decide)), if_neg (hne (by decide))]

theorem dRebuildStep_walk (h : 2 ≤ s.eng.phase.toNat) :
    dRebuildStep s = .ok () (s.setEng s.eng.startWalk) := by
  have hne {n : BitVec 3} (hn : n.toNat < 2) : s.eng.phase ≠ n := fun e => by rw [e] at h; omega
  rw [dRebuildStep, if_neg (hne (by decide)), if_neg (hne (by decide))]

/-- A builder's step that completes is followed by the phase. -/
theorem exec_dRebuildStep_thenPhase {p : BitVec 3} {r : Res Unit} {t : State}
    (hstep : dRebuildStep s = thenPhase p r) (hr : r = .ok () t) :
    exec .dRebuildStep s = .next { t with eng := { t.eng with phase := p } } := by
  rw [hr] at hstep
  exact congrArg Res.outcome hstep

end Rebuild

/-- Settles O48: phase, symbol count and queue select the step; each builder step completes. -/
theorem dRebuildStepByPhase : Obligations.DRebuildStepByPhase := by
  intro s
  refine ⟨fun hphase => ?leaves, fun hphase hk => ?empty, fun l hphase hk hpq => ?single,
    fun hphase hk htwo hlen hnd hnn => ?merge, fun n hphase hk hpq => ?finish, fun hphase => ?walk⟩
  case leaves =>
    obtain ⟨nodes, q, hleaves, -⟩ := tbLeaves_ok s
    exact ⟨_, congrArg Res.outcome hleaves,
      exec_dRebuildStep_thenPhase (dRebuildStep_leaves hphase) hleaves⟩
  case empty => exact exec_dRebuildStep_thenPhase (dRebuildStep_empty hphase hk) rfl
  case single =>
    have hsingle := tbSingle_ok hpq
    exact ⟨_, congrArg Res.outcome hsingle,
      exec_dRebuildStep_thenPhase (dRebuildStep_single hphase hk) hsingle⟩
  case merge =>
    obtain ⟨t, hmerge⟩ := tbMerge_ok htwo hlen hnd hnn
    have hstep := (dRebuildStep_many hphase hk).trans (if_pos htwo)
    exact ⟨t, congrArg Res.outcome hmerge, congrArg Res.outcome (hstep.trans hmerge)⟩
  case finish =>
    have hone : ¬ 1 < s.eng.pq.length := by rw [hpq, List.length_singleton]; omega
    have hstep := (dRebuildStep_many hphase hk).trans (if_neg hone)
    exact exec_dRebuildStep_thenPhase hstep (tbFinish_ok hpq)
  case walk => exact congrArg Res.outcome (dRebuildStep_walk hphase)

/-! ### The checks of the whole header -/

/-- Settles O47: the model makes the stated checks in the stated order, each with its error. -/
theorem dHeaderCheckInOrder : Obligations.DHeaderCheckInOrder := by
  rintro s p rfl
  exact
    Res.outcome_ite (raise_outcome_failed .lenSum _ s) <|
    Res.outcome_ite (raise_outcome_failed .payloadShort _ s) <|
    Res.outcome_ite (raise_outcome_failed .payloadLong _ s) <|
    Res.outcome_ite (raise_outcome_failed .decDstSmall _ s) <|
    Res.outcome_ok () (s.setEng (s.eng.goto .dRebuild))

/-! ### The output of a symbol -/

/-- Memory after one byte is written. -/
theorem Memory.read_write {m : List Host.Cell} (hm : Memory.wf m = true) (a : Nat) (v : Byte)
    (d : Nat) : Memory.read (Memory.write m a v) d = if d = a then v else Memory.read m d := by
  by_cases h : d = a
  · rw [if_pos h, h, Memory.read_write_eq hm]
  · rw [if_neg h, Memory.read_write_ne m v h]

/-- A write beyond the output range is refused with `WRITE_BOUND` (20_memory.md R73). -/
theorem State.writeFailed_beyond {s : State} {a : Nat}
    (h : s.eng.dst.toNat + s.eng.cap.toNat ≤ a) :
    s.writeFailed a = s.failed 5 0x12 (BitVec.ofNat 64 (a - s.eng.dst.toNat)) := if_pos h

/-- A write inside the output range fails with `WRITE_FAULT` (20_memory.md R74). -/
theorem State.writeFailed_inside {s : State} {a : Nat}
    (h : a < s.eng.dst.toNat + s.eng.cap.toNat) :
    s.writeFailed a =
      { s with busLog := .writeError a :: s.busLog }.failed 7 0x31 (BitVec.ofNat 64 a) :=
  if_neg h.not_ge

/-- `SO_EMIT` at an address that can be written. -/
theorem soEmit_ok {s : State} {a : Nat} (v : Byte) (ha : a = s.eng.dst.toNat + s.eng.j.toNat)
    (h : s.writable a) : soEmit v s = .ok () ((s.store a v).setEng s.eng.nextJ) := by
  rw [soEmit, ← ha, memWrite_ok v h, Res.bind_ok, State.store_eng]

/-- `SO_EMIT` at an address whose write fails. -/
theorem soEmit_raised {s : State} {a : Nat} (v : Byte) (ha : a = s.eng.dst.toNat + s.eng.j.toNat)
    (h : s.unwritable a) : soEmit v s = .raised (s.writeFailed a) := by
  rw [soEmit, ← ha, memWrite_failed v h, Res.bind_raised]

/-- Settles O50: the write at the output address completes, lies beyond the range, or fails. -/
theorem soEmitWritesSymbol : Obligations.SoEmitWritesSymbol := by
  intro s v a ha
  have hlow : s.eng.dst.toNat ≤ a := by omega
  refine ⟨fun hmem hw => ?written, fun hcap => ?beyond, fun hcap hsize hfault => ?failed⟩
  case written =>
    exact ⟨Memory.write s.mem a v, congrArg Res.outcome (soEmit_ok v ha hw),
      Memory.read_write hmem a v⟩
  case beyond =>
    have hout : s.eng.dst.toNat + s.eng.cap.toNat ≤ a := by omega
    rw [ofNat_sub_toNat hlow, ← State.writeFailed_beyond hout]
    exact congrArg Res.outcome (soEmit_raised v ha ⟨hlow, .inl hout⟩)
  case failed =>
    have hin : a < s.eng.dst.toNat + s.eng.cap.toNat := by omega
    rw [← State.writeFailed_inside hin]
    exact congrArg Res.outcome (soEmit_raised v ha ⟨hlow, .inr ⟨hsize, hfault⟩⟩)

/-! ### The end of the payload -/

/-- Settles O51: one check, then the completion. -/
theorem dPayloadEndCompletes : Obligations.DPayloadEndCompletes := fun s =>
  Res.outcome_ite (raise_outcome_failed .bitsLeft _ s)
    (Res.outcome_ok () (s.complete s.eng.origlen s.eng.bitlen))

end Sys2Proof.Machine
end

section
/-! The command words and the control writes (47_host_interface.md R313 to R318). -/

namespace Sys2Proof.Machine

/-- A command written while idle has its effect. -/
theorem whenIdle_of_idle {s : State} (h : s.busy = false)
    (effect : Host.Outcome State Fault Refusal) : whenIdle s effect = effect := by
  rw [whenIdle, h]
  rfl

/-- A command written while busy is turned away (47_host_interface.md R315). -/
theorem whenIdle_of_busy {s : State} (h : s.busy = true)
    (effect : Host.Outcome State Fault Refusal) : whenIdle s effect = .next s.reject := if_pos h

/-- Settles O10: `NOP`'s effect is nothing, and a busy core turns it away. -/
theorem nopChangesNothing : Obligations.NopChangesNothing :=
  fun _ => ⟨fun hidle => whenIdle_of_idle hidle _, fun hbusy => whenIdle_of_busy hbusy _⟩

theorem legalCommand_eq_false {w : Word} (hnop : w ≠ 0#32) (hencode : w ≠ 1#32)
    (hdecode : w ≠ 2#32) : legalCommand w = false := by
  rw [legalCommand, beq_false_of_ne hnop, beq_false_of_ne hencode, beq_false_of_ne hdecode]
  rfl

/-- `ILLEGAL` of an illegal word. -/
theorem execIllegal_eq {w : Word} (h : legalCommand w = false) (s : State) :
    execIllegal w s = whenIdle s (illegalEffect w s).outcome := by
  rw [execIllegal, h]
  rfl

/-- Settles O14: the word is none of the legal ones, and its effect is the error entry of
`BAD_OPCODE`. -/
theorem illegalWordReports : Obligations.IllegalWordReports := by
  intro s w hidle hnop hencode hdecode
  have hillegal : legalCommand w = false := legalCommand_eq_false hnop hencode hdecode
  calc exec (.illegal w) s
      = whenIdle s (illegalEffect w s).outcome := execIllegal_eq hillegal s
    _ = (illegalEffect w s).outcome := whenIdle_of_idle hidle _
    _ = .next (s.failed 6 0x20 (w.setWidth 64)) := raise_outcome_failed .badOpcode _ s

/-- A busy core turns away every instruction that is a `CMD` write. -/
theorem exec_command_of_busy {s : State} (hbusy : s.busy = true) {i : Instr} {w : Word}
    (hwf : i.wf = true) (hword : commandWord i = some w) : exec i s = .next s.reject := by
  cases i
  case nop => exact whenIdle_of_busy hbusy _
  case encode => exact whenIdle_of_busy hbusy _
  case decode => exact whenIdle_of_busy hbusy _
  case illegal v =>
    have hillegal : legalCommand v = false := (Bool.not_eq_true' _).mp hwf
    exact (execIllegal_eq hillegal s).trans (whenIdle_of_busy hbusy _)
  case cmdWhileBusy => exact whenIdle_of_busy hbusy _
  all_goals exact nomatch hword

/-- Settles O15: `CMD_WHILE_BUSY` and the command instructions are all `CMD` writes. -/
theorem commandWhileBusyRejected : Obligations.CommandWhileBusyRejected :=
  fun _ _ hbusy =>
    ⟨exec_command_of_busy hbusy rfl rfl, fun _ hwf hword => exec_command_of_busy hbusy hwf hword⟩

/-- With `DONE` and `ERR` clear a `STATUS` write can only clear `REJ`. -/
theorem Regs.w1c_of_clear {r : Regs} (hdone : r.done = false) (herr : r.err = false) (v : Word) :
    r.w1c v = { r with rej := r.rej && !v.getLsbD 3 } := by
  rw [Regs.w1c, hdone, herr, Bool.false_and, Bool.false_and]

/-- Settles O18: `w1c` written out; while busy the invariant has `DONE` and `ERR` clear. -/
theorem statusWriteClears : Obligations.StatusWriteClears := by
  intro s v
  refine ⟨rfl, fun hinv hbusy => ?busy⟩
  case busy =>
    obtain ⟨hdone, herr, -⟩ := hinv.busyClear hbusy
    have hw1c := Regs.w1c_of_clear hdone herr v
    exact congrArg (fun r => Host.Outcome.next (s.setRegs r)) hw1c

/-- Settles O19: the register is written out, and `irq` is a view of it. -/
theorem ctrlWriteStoresIe : Obligations.CtrlWriteStoresIe :=
  fun s v => ⟨s.setRegs (s.regs.setCtrl v), rfl, rfl, rfl⟩

end Sys2Proof.Machine
end

section
/-! The interrupt output (47_host_interface.md R319): an accepted command starts with `DONE` and
`ERR` clear, and an engine step that goes to `IDLE` sets one of them. -/

namespace Sys2Proof.Machine

/-! ### Acceptance -/

/-- A running command has not raised the interrupt. -/
def State.quietWhileBusy (s : State) : Prop := s.busy = true → s.irq = false

/-- The error entry leaves no command running. -/
theorem raise_quietWhileBusy {α : Type} (e : ErrSub) (info : DWord) (s : State) :
    (raise e info s : Res α).all State.quietWhileBusy :=
  fun hbusy => absurd hbusy Bool.false_ne_true

theorem State.latched_irq (s : State) (op : BitVec 4) : (s.latched op).irq = false :=
  Bool.and_false s.regs.ie

/-- Acceptance stops with an error, or goes on from the latched state. -/
theorem acceptCommand_bind_quietWhileBusy {op : BitVec 4} {s : State}
    {k : Unit → State → Res Unit} (hk : (k () (s.latched op)).all State.quietWhileBusy) :
    ((acceptCommand op s).bind k).all State.quietWhileBusy := by
  rcases acceptCommand_cases op s with ⟨-, e⟩ | ⟨-, -, e⟩ | ⟨-, -, -, e⟩ | ⟨-, -, -, e⟩ <;> rw [e]
  · exact raise_quietWhileBusy _ _ _
  · exact raise_quietWhileBusy _ _ _
  · exact raise_quietWhileBusy _ _ _
  · exact hk

theorem startCommand_quietWhileBusy (f : Fsm) {s : State} (h : s.irq = false) :
    (startCommand f s).all State.quietWhileBusy := by
  rcases startCommand_cases f s with ⟨-, e⟩ | ⟨-, e⟩ <;> rw [e]
  · exact fun _ => h
  · trivial

theorem encodeEffect_quietWhileBusy (s : State) : (encodeEffect s).all State.quietWhileBusy := by
  refine acceptCommand_bind_quietWhileBusy ?_
  split
  · exact raise_quietWhileBusy _ _ _
  · exact startCommand_quietWhileBusy _ (s.latched_irq 1)

theorem decodeEffect_quietWhileBusy (s : State) : (decodeEffect s).all State.quietWhileBusy :=
  acceptCommand_bind_quietWhileBusy (startCommand_quietWhileBusy _ (s.latched_irq 2))

/-! ### The end of a command

`EngineClosed` says nothing of the FSM state, so the operations are gone through once more: each
keeps the FSM state, goes on to another state of the command, or ends it with a report. -/

/-- The end of the last command is on report: the engine is idle only with `DONE` or `ERR` set. -/
def State.endReported (s : State) : Prop := s.busy = false → (s.regs.done || s.regs.err) = true

/-- The FSM state is all of the engine that matters. -/
theorem State.endReported_setEng {s : State} {g : Engine} (hg : g.fsm = s.eng.fsm)
    (h : s.endReported) : (s.setEng g).endReported := by
  have hbusy : (s.setEng g).busy = s.busy := congrArg (· != Fsm.idle) hg
  exact fun hidle => h (hbusy.symm.trans hidle)

/-- A move to a state of the command, from whatever state. -/
theorem State.endReported_goto (s : State) (g : Engine) {f : Fsm} (hf : f ≠ .idle) :
    (s.setEng (g.goto f)).endReported := by
  have hbusy : (s.setEng (g.goto f)).busy = true := bne_iff_ne.2 hf
  exact fun hidle => absurd (hbusy.symm.trans hidle) (by decide)

theorem State.endReported_errorEntry (s : State) (e : ErrSub) (info : DWord) :
    (s.errorEntry e info).endReported := fun _ => rfl

theorem State.endReported_complete (s : State) (outLen : DWord) (payloadBits : Word) :
    (s.complete outLen payloadBits).endReported := fun _ => rfl

section EndReported

variable {s : State}

theorem memRead_endReported (a : Nat) (h : s.endReported) :
    (memRead a s).all State.endReported := by
  rcases memRead_cases a s with ⟨-, -, e⟩ | ⟨-, -, e⟩ | ⟨-, e⟩ <;> rw [e]
  · exact h
  · exact State.endReported_errorEntry _ _ _
  · trivial

theorem memWrite_endReported (a : Nat) (v : Byte) (h : s.endReported) :
    (memWrite a v s).all State.endReported := by
  rcases memWrite_cases a v s with ⟨-, -, -, e⟩ | ⟨-, -, -, e⟩ | ⟨-, -, e⟩ | ⟨-, e⟩ <;> rw [e]
  · exact h
  · exact State.endReported_errorEntry _ _ _
  · trivial
  · exact State.endReported_errorEntry _ _ _

theorem readField_endReported (off n : Nat) (h : s.endReported) :
    (readField off n s).all State.endReported := by
  unfold readField
  split
  · exact State.endReported_errorEntry _ _ _
  · exact memReadBytes_all (fun _ _ ht => ht) (fun t e i _ => t.endReported_errorEntry e i) _ _ s h

theorem ftCount_endReported (h : s.endReported) : (ftCount s).all State.endReported :=
  Res.all_bind (memRead_endReported _ h) fun _ _ _ ht => State.endReported_setEng rfl ht

/-! #### The tree builder -/

theorem pqTake_endReported (h : s.endReported) : (pqTake s).all State.endReported := by
  rcases pqTake_cases s with ⟨-, e⟩ | ⟨m, -, e⟩ <;> rw [e]
  · trivial
  · exact State.endReported_setEng rfl h

theorem pqInsert_endReported (n : NodeRef) (h : s.endReported) :
    (pqInsert n s).all State.endReported := by
  rcases pqInsert_cases n s with ⟨-, e⟩ | ⟨-, e⟩ <;> rw [e]
  · exact State.endReported_setEng rfl h
  · trivial

theorem addQueued_endReported (x : Node) (h : s.endReported) :
    (addQueued x s).all State.endReported := by
  unfold addQueued
  split
  · trivial
  · exact Res.all_bind (pqInsert_endReported _ (State.endReported_setEng rfl h))
      fun _ _ _ ht => State.endReported_setEng rfl ht

theorem tbLeaves_endReported (h : s.endReported) : (tbLeaves s).all State.endReported := by
  obtain ⟨nodes, q, hleaves, -⟩ := tbLeaves_ok s
  rw [hleaves]
  exact State.endReported_setEng rfl h

theorem tbSingle_endReported (h : s.endReported) : (tbSingle s).all State.endReported :=
  Res.all_bind (pqTake_endReported h) fun _ _ _ ht => State.endReported_setEng rfl ht

theorem tbMerge_endReported (h : s.endReported) : (tbMerge s).all State.endReported :=
  Res.all_bind (pqTake_endReported h) fun _ _ _ ht =>
    Res.all_bind (pqTake_endReported ht) fun _ _ _ hu => addQueued_endReported _ hu

theorem tbFinish_endReported (h : s.endReported) : (tbFinish s).all State.endReported :=
  Res.all_bind (pqTake_endReported h) fun _ _ _ ht => State.endReported_setEng rfl ht

/-! #### The bit streams -/

theorem flushAcc_endReported (h : s.endReported) : (flushAcc s).all State.endReported :=
  Res.all_bind (memWrite_endReported _ _ h) fun _ _ _ ht => State.endReported_setEng rfl ht

theorem bwPutBit_endReported (b : Bool) (h : s.endReported) :
    (bwPutBit b s).all State.endReported := by
  have hput : (s.setEng (s.eng.putAcc b)).endReported := State.endReported_setEng rfl h
  unfold bwPutBit
  dsimp only
  split
  · exact flushAcc_endReported hput
  · exact hput

theorem bwPutBits_endReported (bs : List Bool) :
    ∀ {s : State}, s.endReported → (bwPutBits bs s).all State.endReported := by
  induction bs with
  | nil => exact fun h => h
  | cons b bs ih => exact fun h => Res.all_bind (bwPutBit_endReported b h) fun _ _ _ ht => ih ht

theorem brReadBit_endReported (h : s.endReported) : (brReadBit s).all State.endReported := by
  unfold brReadBit
  split
  · exact State.endReported_errorEntry _ _ _
  · exact Res.all_bind (memRead_endReported _ h) fun _ _ _ ht => State.endReported_setEng rfl ht

/-! #### The encoder -/

theorem eHeaderSize_endReported (h : s.endReported) : (eHeaderSize s).all State.endReported := by
  unfold eHeaderSize
  generalize totalBits s.eng = total
  dsimp only
  split
  · exact State.endReported_errorEntry _ _ _
  · split
    · exact State.endReported_errorEntry _ _ _
    · exact State.endReported_setEng rfl h

theorem eHeaderByte_endReported (h : s.endReported) : (eHeaderByte s).all State.endReported := by
  unfold eHeaderByte
  split
  · trivial
  · refine Res.all_bind (memWrite_endReported _ _ h) fun _ t _ ht => ?_
    dsimp only
    split
    · exact State.endReported_goto _ _ (by decide)
    · exact State.endReported_setEng rfl ht

theorem ePayloadStep_endReported (h : s.endReported) :
    (ePayloadStep s).all State.endReported := by
  unfold ePayloadStep
  split
  · exact Res.all_bind (memRead_endReported _ h) fun _ _ _ ht =>
      Res.all_bind (bwPutBits_endReported _ ht) fun _ _ _ hu => State.endReported_setEng rfl hu
  · refine Res.all_bind ?_ fun _ t _ _ => t.endReported_complete _ _
    unfold bwFinish
    split
    · exact flushAcc_endReported h
    · exact h

/-! #### The decoder -/

theorem headerEntryIn_endReported (off : Nat) (v : Byte) (f : Nat) (h : s.endReported) :
    (headerEntryIn off v f s).all State.endReported := by
  unfold headerEntryIn
  split
  · exact State.endReported_errorEntry _ _ _
  · split
    · exact State.endReported_errorEntry _ _ _
    · exact State.endReported_setEng rfl h

theorem headerMagic_endReported (h : s.endReported) : (headerMagic s).all State.endReported := by
  refine Res.all_bind (readField_endReported _ _ h) fun _ _ _ ht => ?_
  split
  · exact State.endReported_setEng rfl ht
  · exact State.endReported_errorEntry _ _ _

theorem headerOrigLen_endReported (h : s.endReported) :
    (headerOrigLen s).all State.endReported :=
  Res.all_bind (readField_endReported _ _ h) fun _ _ _ ht => State.endReported_setEng rfl ht

theorem headerCount_endReported (h : s.endReported) : (headerCount s).all State.endReported := by
  refine Res.all_bind (readField_endReported _ _ h) fun _ _ _ ht => ?_
  split
  · exact State.endReported_errorEntry _ _ _
  · exact State.endReported_setEng rfl ht

theorem headerEntryStep_endReported (h : s.endReported) :
    (headerEntryStep s).all State.endReported := by
  unfold headerEntryStep
  split
  · exact Res.all_bind (readField_endReported _ _ h) fun _ _ _ ht =>
      headerEntryIn_endReported _ _ _ ht
  · exact State.endReported_setEng rfl h

theorem headerBitLen_endReported (h : s.endReported) : (headerBitLen s).all State.endReported :=
  Res.all_bind (readField_endReported _ _ h) fun _ _ _ ht => State.endReported_setEng rfl ht

theorem dHeaderField_endReported (h : s.endReported) :
    (dHeaderField s).all State.endReported := by
  unfold dHeaderField
  split
  · exact headerMagic_endReported h
  split
  · exact headerOrigLen_endReported h
  split
  · exact headerCount_endReported h
  split
  · exact headerEntryStep_endReported h
  split
  · exact headerBitLen_endReported h
  · trivial

theorem dHeaderCheck_endReported (s : State) : (dHeaderCheck s).all State.endReported := by
  unfold dHeaderCheck
  dsimp only
  split
  · exact State.endReported_errorEntry _ _ _
  split
  · exact State.endReported_errorEntry _ _ _
  split
  · exact State.endReported_errorEntry _ _ _
  split
  · exact State.endReported_errorEntry _ _ _
  · exact State.endReported_goto _ _ (by decide)

theorem thenPhase_endReported (p : BitVec 3) {r : Res Unit} (h : r.all State.endReported) :
    (thenPhase p r).all State.endReported :=
  Res.all_bind h fun _ _ _ ht => State.endReported_setEng rfl ht

theorem dRebuildStep_endReported (h : s.endReported) :
    (dRebuildStep s).all State.endReported := by
  unfold dRebuildStep
  split
  · exact thenPhase_endReported 1 (tbLeaves_endReported h)
  split
  · split
    · exact thenPhase_endReported 2 (r := tbEmpty s) (State.endReported_setEng rfl h)
    split
    · exact thenPhase_endReported 2 (tbSingle_endReported h)
    split
    · exact tbMerge_endReported h
    · exact thenPhase_endReported 2 (tbFinish_endReported h)
  · exact State.endReported_goto _ _ (by decide)

theorem twStep_endReported (h : s.endReported) : (twStep s).all State.endReported := by
  refine Res.all_bind (brReadBit_endReported h) fun _ _ _ ht => ?_
  split
  · trivial
  split
  · exact State.endReported_errorEntry _ _ _
  split
  · exact Res.all_bind (Res.all_bind (memWrite_endReported _ _ ht)
      fun _ _ _ hu => State.endReported_setEng rfl hu)
      fun _ _ _ hu => State.endReported_setEng rfl hu
  · exact State.endReported_setEng rfl ht

theorem dPayloadEnd_endReported (s : State) : (dPayloadEnd s).all State.endReported := by
  unfold dPayloadEnd
  split
  · exact State.endReported_errorEntry _ _ _
  · exact State.endReported_complete _ _ _

/-! #### The engine's steps -/

variable {t : State}

theorem moveTo_endReported {f : Fsm} (hf : f ≠ .idle) (ht : moveTo f s = .next t) :
    t.endReported := by
  cases ht
  exact State.endReported_goto _ _ hf

/-- Whatever precedes a move to a state of the command. -/
theorem onNext_moveTo_endReported {o : Host.Outcome State Fault Refusal} {f : Fsm}
    (hf : f ≠ .idle) (ht : onNext o (moveTo f) = .next t) : t.endReported := by
  obtain ⟨u, -, hu⟩ := onNext_next_inv ht
  exact moveTo_endReported hf hu

theorem stepCount_endReported (h : s.endReported) (ht : stepCount s = .next t) :
    t.endReported := by
  unfold stepCount at ht
  split at ht
  · exact Res.all_outcome (ftCount_endReported h) ht
  · exact moveTo_endReported (by decide) ht

theorem stepBuild_endReported (h : s.endReported) (ht : stepBuild s = .next t) :
    t.endReported := by
  unfold stepBuild at ht
  split at ht
  · obtain ⟨u, hu, hphase⟩ := onNext_next_inv ht
    cases hphase
    exact State.endReported_setEng rfl (Res.all_outcome (tbLeaves_endReported h) hu)
  split at ht
  · exact onNext_moveTo_endReported (by decide) ht
  split at ht
  · exact onNext_moveTo_endReported (by decide) ht
  split at ht
  · exact Res.all_outcome (tbMerge_endReported h) ht
  · exact onNext_moveTo_endReported (by decide) ht

theorem stepHeader_endReported (h : s.endReported) (ht : stepHeader s = .next t) :
    t.endReported := by
  unfold stepHeader at ht
  split at ht
  · exact Res.all_outcome (eHeaderSize_endReported h) ht
  split at ht
  · exact Res.all_outcome (eHeaderByte_endReported h) ht
  · cases ht

theorem stepDHeader_endReported (h : s.endReported) (ht : stepDHeader s = .next t) :
    t.endReported := by
  unfold stepDHeader at ht
  split at ht
  · exact Res.all_outcome (dHeaderCheck_endReported s) ht
  · exact Res.all_outcome (dHeaderField_endReported h) ht

theorem stepDPayload_endReported (h : s.endReported) (ht : stepDPayload s = .next t) :
    t.endReported := by
  unfold stepDPayload at ht
  split at ht
  · exact Res.all_outcome (twStep_endReported h) ht
  · exact Res.all_outcome (dPayloadEnd_endReported s) ht

/-- An engine step ends a command only with a report. -/
theorem engineStep_endReported (h : s.endReported) (ht : engineStep s = .next t) :
    t.endReported := by
  cases hfsm : s.eng.fsm <;> simp only [engineStep, hfsm] at ht
  case idle =>
    cases ht
    exact h
  case eCount => exact stepCount_endReported h ht
  case eBuild => exact stepBuild_endReported h ht
  case eCodes => exact onNext_moveTo_endReported (by decide) ht
  case eHeader => exact stepHeader_endReported h ht
  case ePayload => exact Res.all_outcome (ePayloadStep_endReported h) ht
  case dHeader => exact stepDHeader_endReported h ht
  case dRebuild => exact Res.all_outcome (dRebuildStep_endReported h) ht
  case dPayload => exact stepDPayload_endReported h ht

end EndReported

/-- The engine's updates leave `CTRL.IE`. -/
theorem engineClosed_ie (b : Bool) : EngineClosed fun s => s.regs.ie = b where
  setEng _ _ _ h := h
  logBus _ _ h := h
  error _ _ _ h := h
  store _ _ _ _ _ h := h
  complete _ _ _ h := h

/-- After a `STATUS` write (47_host_interface.md R317) the level is that of the bits it leaves. -/
theorem State.acknowledge_irq (s : State) (v : Word) :
    (s.acknowledge v).irq =
      (s.regs.ie && (s.regs.done && !v.getLsbD 1 || s.regs.err && !v.getLsbD 2)) := rfl

/-- Settles O24: acceptance clears both bits, the end of a command sets one, a `STATUS` write masks
them. -/
theorem irqLevel : Obligations.IrqLevel := by
  intro s
  refine ⟨rfl, fun t hidle hexec hbusy => ?accepted, fun t hbusy hstep hidle => ?ended,
    fun t v hexec hdone herr => ?acknowledged⟩
  case accepted =>
    rcases hexec with hencode | hdecode
    · have heffect := (whenIdle_of_idle hidle _).symm.trans hencode
      exact Res.all_outcome (encodeEffect_quietWhileBusy s) heffect hbusy
    · have heffect := (whenIdle_of_idle hidle _).symm.trans hdecode
      exact Res.all_outcome (decodeEffect_quietWhileBusy s) heffect hbusy
  case ended =>
    have hstart : s.endReported := fun h => absurd (hbusy.symm.trans h) (by decide)
    have hreport := engineStep_endReported hstart hstep hidle
    have hie : t.regs.ie = s.regs.ie := engineStep_keeps (engineClosed_ie s.regs.ie) rfl hstep
    rw [State.irq, hreport, Bool.and_true, hie]
  case acknowledged =>
    cases hexec
    rw [State.acknowledge_irq, hdone, herr]
    simp

end Sys2Proof.Machine
end

section
/-! The state right after reset (70_reset_and_hazards.md R381). -/

namespace Sys2Proof.Machine

/-- The register map's lookup answers with a register of that offset. -/
theorem offset_of_regAt_eq_some {off : Byte} {r : RegName} (h : regAt off = some r) :
    r.offset = off :=
  eq_of_beq (List.find?_some (p := fun r : RegName => r.offset == off) h)

/-- Offset 0 is not reserved: `ID` is there. -/
theorem ne_zero_of_regAt_eq_none {off : Byte} (h : regAt off = none) : off ≠ 0x00 := by
  rintro rfl
  have hid : regAt 0x00 = some .id := by decide
  exact Option.some_ne_none _ (hid.symm.trans h)

/-- The reset values of R381, register by register: `ID` is hardwired, every other field is 0. -/
theorem regValue_reset (r : RegName) :
    regValue State.reset r = if r.offset = 0x00 then idWord else 0 := by
  cases r <;> rfl

/-- What a read of each offset returns after reset; the reserved ones read 0. -/
theorem readReg_reset (off : Byte) :
    readReg State.reset off = if off = 0x00 then idWord else 0 := by
  unfold readReg
  cases h : regAt off with
  | none => exact (if_neg (ne_zero_of_regAt_eq_none h)).symm
  | some r =>
    rw [← offset_of_regAt_eq_some h]
    exact regValue_reset r

/-- In `IDLE` the engine waits. -/
theorem engineStep_of_idle {s : State} (h : s.eng.fsm = .idle) : engineStep s = .next s := by
  rw [engineStep, h]

/-- With no input to come, an idle machine's step leaves it as it is. -/
theorem step_of_idle_of_noInputs {s : State} (hidle : s.eng.fsm = .idle) (hnone : s.inputs = []) :
    step s = .next s :=
  (step_of_turn (.inl ⟨hnone, rfl⟩)).trans (engineStep_of_idle hidle)

/-- Settles O8: register by register, and the engine is idle with no input to come. -/
theorem resetRegistersAndIdle : Obligations.ResetRegistersAndIdle :=
  ⟨readReg_reset, rfl, rfl, rfl, step_of_idle_of_noInputs rfl rfl⟩

end Sys2Proof.Machine
end

section
/-! The encoding of host accesses (30_encoding.md R91, R93; 47_host_interface.md R310, R311): the
decoder inverts the encoder. -/

namespace Sys2Proof.Machine

/-! ### The offsets -/

theorem operandAt_offset (r : OperandReg) : operandAt r.offset = some r := by cases r <;> rfl

theorem OperandReg.mem_all (r : OperandReg) : r ∈ OperandReg.all := by cases r <;> decide

theorem offset_of_operandAt_eq_some {off : Byte} {r : OperandReg} (h : operandAt off = some r) :
    r.offset = off :=
  eq_of_beq (List.find?_some (p := fun r : OperandReg => r.offset == off) h)

theorem operandAt_eq_none {off : Byte} :
    operandAt off = none ↔ ∀ r : OperandReg, r.offset ≠ off := by
  simp [operandAt, OperandReg.mem_all]

/-- The offsets whose write has an effect (47_host_interface.md R311). -/
def effectOffset (off : Byte) : Prop :=
  off = ctrlOffset ∨ off = cmdOffset ∨ off = statusOffset ∨ ∃ r : OperandReg, r.offset = off

theorem ignoredOffset_iff_toNat (off : Byte) :
    ignoredOffset off = true ↔
      off = 0x00#8 ∨ off = 0x10#8 ∨ off = 0x14#8 ∨ 0x38 ≤ off.toNat := by
  simp [ignoredOffset, BitVec.ule, or_assoc]

/-- Among the aligned offsets, a write is ignored exactly where it has no effect. -/
theorem ignoredOffset_iff {off : Byte} (h : alignedOffset off = true) :
    ignoredOffset off = true ↔ ¬ effectOffset off := by
  rw [ignoredOffset_iff_toNat]
  constructor
  · rintro hign (rfl | rfl | rfl | ⟨r, rfl⟩)
    · exact absurd hign (by decide)
    · exact absurd hign (by decide)
    · exact absurd hign (by decide)
    · revert hign
      cases r <;> decide
  · intro heff
    rw [alignedOffset_iff] at h
    simp only [effectOffset, not_or, not_exists] at heff
    obtain ⟨hctrl, hcmd, hstatus, hoperand⟩ := heff
    have hne (r : OperandReg) : off.toNat ≠ r.offset.toNat := fun e =>
      hoperand r (BitVec.eq_of_toNat_eq e.symm)
    have h18 := hne .srcAddrLo
    have h1c := hne .srcAddrHi
    have h20 := hne .srcLenLo
    have h24 := hne .srcLenHi
    have h28 := hne .dstAddrLo
    have h2c := hne .dstAddrHi
    have h30 := hne .dstCapLo
    have h34 := hne .dstCapHi
    simp only [ctrlOffset, cmdOffset, statusOffset, OperandReg.offset, BitVec.reduceToNat] at *
    bv_omega

/-! ### The decoder at each kind of write -/

theorem decodeWrite_cmd (busy : Bool) (w : Word) :
    decodeWrite busy cmdOffset w = if busy then .cmdWhileBusy w else decodeCommand w := rfl

theorem decodeWrite_operand (busy : Bool) (r : OperandReg) (v : Word) :
    decodeWrite busy r.offset v = .mmioWriteOperand r v := by
  cases r <;> rfl

theorem decodeWrite_ignored (busy : Bool) {off : Byte} (v : Word) (h : ¬ effectOffset off) :
    decodeWrite busy off v = .mmioWriteIgnored off v := by
  simp only [effectOffset, not_or, not_exists] at h
  obtain ⟨hctrl, hcmd, hstatus, hoperand⟩ := h
  rw [decodeWrite, if_neg hctrl, if_neg hcmd, if_neg hstatus, operandAt_eq_none.2 hoperand]

theorem decodeCommand_illegal {w : Word} (h : legalCommand w = false) :
    decodeCommand w = .illegal w := by
  simp only [legalCommand, Bool.or_eq_false_iff, beq_eq_false_iff_ne] at h
  obtain ⟨⟨hnop, hencode⟩, hdecode⟩ := h
  rw [decodeCommand, if_neg hnop, if_neg hencode, if_neg hdecode]

/-- A write at an aligned offset is what the write dispatch says. -/
theorem decodeAccess_write {busy : Bool} {off : Byte} {v : Word} {i : Instr}
    (h : alignedOffset off = true) (hi : decodeWrite busy off v = i) :
    decodeAccess busy (.write off v) = .ok i := by
  rw [decodeAccess, if_pos h, hi]

/-- A `CMD` write while idle is the command of its word. -/
theorem decodeAccess_command {busy : Bool} (h : (!busy) = true) {w : Word} {i : Instr}
    (hi : decodeCommand w = i) : decodeAccess busy (.write cmdOffset w) = .ok i := by
  refine decodeAccess_write rfl ?_
  rw [decodeWrite_cmd, (Bool.not_eq_true' busy).mp h]
  exact hi

/-- Settles O2, instruction by instruction: the encoder's offset and word lead the decoder back. -/
theorem decodeOfEncode : Obligations.DecodeOfEncode := by
  intro i busy a hwf hsel henc
  cases i <;> cases henc
  case nop => exact decodeAccess_command hsel rfl
  case encode => exact decodeAccess_command hsel rfl
  case decode => exact decodeAccess_command hsel rfl
  case illegal w =>
    exact decodeAccess_command hsel (decodeCommand_illegal ((Bool.not_eq_true' _).mp hwf))
  case cmdWhileBusy w => exact decodeAccess_write rfl (if_pos hsel)
  case mmioRead off => exact if_pos hwf
  case mmioWriteCtrl v => exact decodeAccess_write rfl rfl
  case mmioWriteStatus v => exact decodeAccess_write rfl rfl
  case mmioWriteOperand r v =>
    exact decodeAccess_write (by cases r <;> rfl) (decodeWrite_operand busy r v)
  case mmioWriteIgnored off v =>
    obtain ⟨halign, hign⟩ := (Bool.and_eq_true _ _).mp hwf
    exact decodeAccess_write halign (decodeWrite_ignored busy v ((ignoredOffset_iff halign).1 hign))

/-! ### What the decoder answers -/

/-- The access `a` at this value of `BUSY` selects `i`, which is well formed and encoded as `a`. -/
def Selects (busy : Bool) (a : Access) (i : Instr) : Prop :=
  i.wf = true ∧ i.selectedWhen busy = true ∧ encode i = some a

/-- A command word's instruction while idle. -/
theorem selects_decodeCommand (w : Word) :
    Selects false (.write cmdOffset w) (decodeCommand w) := by
  unfold decodeCommand
  split
  case isTrue h => exact ⟨rfl, rfl, by rw [h]; rfl⟩
  split
  case isTrue h => exact ⟨rfl, rfl, by rw [h]; rfl⟩
  split
  case isTrue h => exact ⟨rfl, rfl, by rw [h]; rfl⟩
  case isFalse hnop hencode hdecode =>
    exact ⟨(Bool.not_eq_true' _).mpr (legalCommand_eq_false hnop hencode hdecode), rfl, rfl⟩

/-- The write dispatch at an aligned offset, by the branches of 47_host_interface.md R311. -/
theorem selects_decodeWrite (busy : Bool) {off : Byte} (v : Word)
    (h : alignedOffset off = true) : Selects busy (.write off v) (decodeWrite busy off v) := by
  by_cases heff : effectOffset off
  case neg =>
    rw [decodeWrite_ignored busy v heff]
    exact ⟨(Bool.and_eq_true _ _).mpr ⟨h, (ignoredOffset_iff h).2 heff⟩, rfl, rfl⟩
  case pos =>
    rcases heff with rfl | rfl | rfl | ⟨r, rfl⟩
    · exact ⟨rfl, rfl, rfl⟩
    · rw [decodeWrite_cmd]
      cases busy
      · exact selects_decodeCommand v
      · exact ⟨rfl, rfl, rfl⟩
    · exact ⟨rfl, rfl, rfl⟩
    · rw [decodeWrite_operand]
      exact ⟨rfl, rfl, rfl⟩

/-- Settles O3, by the shape of the access: an access that is decoded is an aligned 32-bit one. -/
theorem encodeOfDecode : Obligations.EncodeOfDecode := by
  intro i busy a h
  cases a with
  | read off =>
    by_cases halign : alignedOffset off = true
    · cases (if_pos halign).symm.trans h
      exact ⟨halign, rfl, rfl⟩
    · exact nomatch (if_neg halign).symm.trans h
  | write off v =>
    by_cases halign : alignedOffset off = true
    · cases (if_pos halign).symm.trans h
      exact selects_decodeWrite busy v halign
    · exact nomatch (if_neg halign).symm.trans h
  | other off n w => exact nomatch h

/-- Settles O1: each word and each access is decoded by the table's lines. -/
theorem tableWordsDecode : Obligations.TableWordsDecode := by
  unfold Obligations.TableWordsDecode
  decide

end Sys2Proof.Machine
end

section
/-! What the engine's operations can come to. `State.Works` says what any of them may change on its
way; `Engine.book` forgets the tree and the writer, which no rule of progress speaks of, so that an
operation on them leaves the rest of the engine as it was. -/

namespace Sys2Proof.Machine

/-! ### Transactions -/

/-- A transaction the engine may make: a read at an address of `R`, or a write that passed the bound
check (20_memory.md R73) at an address that exists. -/
def BusAccess.allowed (R : Nat → Prop) (g : Engine) : BusAccess → Prop
  | .read a _ => R a
  | .readError a => R a
  | .write a _ => g.inBound a = true ∧ a < Config.memorySize
  | .writeError a => g.inBound a = true ∧ a < Config.memorySize

theorem Engine.inBound_congr {g h : Engine} (hop : g.sameOperands h) (a : Nat) :
    g.inBound a = h.inBound a := by
  obtain ⟨-, -, -, hdst, hcap⟩ := hop
  rw [Engine.inBound, Engine.dstRange, hdst, hcap, Engine.inBound, Engine.dstRange]

theorem BusAccess.allowed_congr {R : Nat → Prop} {g h : Engine} (hop : g.sameOperands h)
    {x : BusAccess} (hx : x.allowed R g) : x.allowed R h := by
  cases x <;> simpa only [BusAccess.allowed, Engine.inBound_congr hop] using hx

/-- Allowed writes keep the canonical form of memory. -/
theorem wf_foldl_land {R : Nat → Prop} {g : Engine} (log : List BusAccess) :
    ∀ {m : List Host.Cell}, (∀ x ∈ log, x.allowed R g) → Memory.wf m = true →
      Memory.wf (log.foldl BusAccess.land m) = true := by
  induction log with
  | nil => exact fun _ hm => hm
  | cons x log ih =>
    intro m hx hm
    refine ih (fun y hy => hx y (List.mem_cons_of_mem _ hy)) ?_
    have hfirst := hx x List.mem_cons_self
    cases x with
    | write a v => exact Memory.wf_write v hm hfirst.2
    | read a v => exact hm
    | readError a => exact hm
    | writeError a => exact hm

/-! ### The engine at work -/

/-- `u` is `s` after some work of the engine: the registers, the platform, the host's side and the
latched operands are the same, the queue and k stay in their range, and the memory port has made
allowed transactions, whose writes are in memory. -/
structure State.Works (R : Nat → Prop) (s u : State) : Prop where
  regs : u.regs = s.regs
  plat : u.plat = s.plat
  inputs : u.inputs = s.inputs
  hostLog : u.hostLog = s.hostLog
  operands : u.eng.sameOperands s.eng
  queue : s.eng.queueWf → u.eng.queueWf
  count : s.eng.k.toNat ≤ 256 → u.eng.k.toNat ≤ 256
  port : ∃ log : List BusAccess, u.busLog = log ++ s.busLog
    ∧ u.mem = log.reverse.foldl BusAccess.land s.mem ∧ ∀ x ∈ log, x.allowed R s.eng

/-- The engine without its tree, its code table and its writer. -/
def Engine.book (g : Engine) : Engine :=
  { g with
    node := Engine.reset.node, nn := 0, pq := [], root := none
    codelen := Engine.reset.codelen, codepat := Engine.reset.codepat, cgstack := []
    acc := 0, nacc := 0, nbits := 0, wbase := 0, wpos := 0, cur := none, ret := .none }

/-- After some work of the engine from `s`, its state is `g` but for the tree and the writer. -/
structure State.Reaches (R : Nat → Prop) (s : State) (g : Engine) (t : State) : Prop where
  works : s.Works R t
  book : t.eng.book = g.book

section Work

variable {R : Nat → Prop} {s t u : State} {g : Engine}

theorem Engine.sameOperands_trans {f g h : Engine} (hfg : f.sameOperands g)
    (hgh : g.sameOperands h) : f.sameOperands h := by
  obtain ⟨h1, h2, h3, h4, h5⟩ := hfg
  obtain ⟨h1', h2', h3', h4', h5'⟩ := hgh
  exact ⟨h1.trans h1', h2.trans h2', h3.trans h3', h4.trans h4', h5.trans h5'⟩

/-- What can be told without the tree and the writer is the same of two engines that agree without
them. -/
theorem Engine.congr_book {α : Sort*} {g h : Engine} (hbook : g.book = h.book) (f : Engine → α)
    (hf : ∀ g : Engine, f g.book = f g) : f g = f h := by
  rw [← hf g, hbook, hf]

theorem Engine.sameOperands_of_book {g h : Engine} (hbook : g.book = h.book) :
    g.sameOperands h :=
  ⟨Engine.congr_book hbook Engine.op fun _ => rfl, Engine.congr_book hbook Engine.src fun _ => rfl,
    Engine.congr_book hbook Engine.len fun _ => rfl,
    Engine.congr_book hbook Engine.dst fun _ => rfl,
    Engine.congr_book hbook Engine.cap fun _ => rfl⟩

theorem State.Works.refl (R : Nat → Prop) (s : State) : s.Works R s where
  regs := rfl
  plat := rfl
  inputs := rfl
  hostLog := rfl
  operands := s.eng.sameOperands_refl
  queue := id
  count := id
  port := ⟨[], rfl, rfl, fun _ h => absurd h List.not_mem_nil⟩

theorem State.Reaches.refl (R : Nat → Prop) (s : State) : s.Reaches R s.eng s :=
  ⟨.refl R s, rfl⟩

/-- An update of the working state. -/
theorem State.Works.setEng (h : s.Works R u) (hop : g.sameOperands u.eng)
    (hqueue : u.eng.queueWf → g.queueWf) (hcount : u.eng.k.toNat ≤ 256 → g.k.toNat ≤ 256) :
    s.Works R (u.setEng g) where
  regs := h.regs
  plat := h.plat
  inputs := h.inputs
  hostLog := h.hostLog
  operands := Engine.sameOperands_trans hop h.operands
  queue hs := hqueue (h.queue hs)
  count hs := hcount (h.count hs)
  port := h.port

/-- One more transaction, with its effect on memory. -/
theorem State.Works.access (h : s.Works R u) {x : BusAccess} {v : State}
    (hv : v = { u with mem := BusAccess.land u.mem x, busLog := x :: u.busLog })
    (hx : x.allowed R u.eng) : s.Works R v := by
  subst hv
  obtain ⟨log, hlog, hmem, hall⟩ := h.port
  refine ⟨h.regs, h.plat, h.inputs, h.hostLog, h.operands, h.queue, h.count, x :: log, ?_, ?_, ?_⟩
  · exact congrArg (x :: ·) hlog
  · rw [List.reverse_cons, List.foldl_append, ← hmem]
    rfl
  · intro y hy
    rcases List.mem_cons.1 hy with rfl | hy
    · exact BusAccess.allowed_congr h.operands hx
    · exact hall y hy

/-- An update of the tree or the writer. -/
theorem State.Reaches.setEng {g' : Engine} (h : s.Reaches R g t) (hbook : g'.book = t.eng.book)
    (hqueue : t.eng.queueWf → g'.queueWf) : s.Reaches R g (t.setEng g') where
  works := h.works.setEng (Engine.sameOperands_of_book hbook) hqueue
    fun hk => Engine.congr_book hbook Engine.k (fun _ => rfl) ▸ hk
  book := hbook.trans h.book

/-- An update of the other working state: it commutes with forgetting the tree and the writer. -/
theorem State.Reaches.update (h : s.Reaches R g t) (f : Engine → Engine)
    (hf : ∀ g : Engine, (f g).book = (f g.book).book)
    (hop : (f t.eng).sameOperands t.eng) (hqueue : t.eng.queueWf → (f t.eng).queueWf)
    (hcount : t.eng.k.toNat ≤ 256 → (f t.eng).k.toNat ≤ 256) :
    s.Reaches R (f g) (t.setEng (f t.eng)) where
  works := h.works.setEng hop hqueue hcount
  book := by rw [State.setEng_eng, hf, h.book, ← hf]

/-! ### How an operation ends -/

/-- Where an operation that begins at `s` can end: at a result of which `Q` holds, or at the error
entry of a state the engine's work leads to. -/
def Res.ends {α : Type} (R : Nat → Prop) (s : State) (Q : α → State → Prop) : Res α → Prop
  | .ok a t => Q a t
  | .raised t => ∃ u e i, s.Works R u ∧ t = u.errorEntry e i
  | .fault _ => True

theorem Res.ends_bind {α β : Type} {r : Res α} {k : α → State → Res β}
    {P : α → State → Prop} {Q : β → State → Prop} (hr : r.ends R s P)
    (hk : ∀ a t, P a t → (k a t).ends R s Q) : (r.bind k).ends R s Q := by
  cases r with
  | ok a t => exact hk a t hr
  | raised t => exact hr
  | fault f => trivial

theorem Res.ends_mono {α : Type} {r : Res α} {P Q : α → State → Prop} (hr : r.ends R s P)
    (h : ∀ a t, P a t → Q a t) : r.ends R s Q := by
  cases r with
  | ok a t => exact h a t hr
  | raised t => exact hr
  | fault f => trivial

theorem Res.ends_raise {α : Type} (e : ErrSub) (i : DWord) {Q : α → State → Prop}
    (h : s.Works R u) : (raise e i u : Res α).ends R s Q := ⟨u, e, i, h, rfl⟩

/-- An operation that raises no error ends with a result of which `Q` holds, or with a fault. -/
def Res.yields {α : Type} (Q : α → State → Prop) : Res α → Prop
  | .ok a t => Q a t
  | .raised _ => False
  | .fault _ => True

theorem Res.yields_bind {α β : Type} {r : Res α} {k : α → State → Res β}
    {P : α → State → Prop} {Q : β → State → Prop} (hr : r.yields P)
    (hk : ∀ a t, P a t → (k a t).yields Q) : (r.bind k).yields Q := by
  cases r with
  | ok a t => exact hk a t hr
  | raised t => exact hr.elim
  | fault f => trivial

theorem Res.yields.ends {α : Type} {r : Res α} {Q : α → State → Prop} (hr : r.yields Q) :
    r.ends R s Q := by
  cases r with
  | ok a t => exact hr
  | raised t => exact hr.elim
  | fault f => trivial

theorem Res.yields_outcome {α : Type} {r : Res α} {Q : α → State → Prop} (hr : r.yields Q)
    (ht : r.outcome = .next t) : ∃ a, Q a t := by
  rcases Res.outcome_next_inv ht with ⟨a, rfl⟩ | rfl
  · exact ⟨a, hr⟩
  · exact hr.elim

/-! ### The memory port -/

theorem memRead_ends {a : Nat} (ha : R a) (h : s.Reaches R g t) :
    (memRead a t).ends R s fun _ u => s.Reaches R g u := by
  rcases memRead_cases a t with ⟨-, -, e⟩ | ⟨-, -, e⟩ | ⟨-, e⟩ <;> rw [e]
  · exact ⟨h.works.access (x := .read a _) rfl ha, h.book⟩
  · exact Res.ends_raise _ _ (h.works.access (x := .readError a) rfl ha)
  · trivial

theorem memReadBytes_ends (n : Nat) : ∀ {a : Nat} {t : State}, (∀ q < n, R (a + q)) →
    s.Reaches R g t →
    (memReadBytes n a t).ends R s fun bs u => bs.length = n ∧ s.Reaches R g u := by
  induction n with
  | zero => exact fun _ h => ⟨rfl, h⟩
  | succ n ih =>
    intro a t ha h
    refine Res.ends_bind (memRead_ends (ha 0 n.succ_pos) h) fun b u hu => ?_
    have hrest : ∀ q < n, R (a + 1 + q) := fun q hq => by
      rw [Nat.add_assoc, Nat.add_comm 1]
      exact ha (q + 1) (Nat.succ_lt_succ hq)
    exact Res.ends_bind (ih hrest hu) fun bs v hv => ⟨congrArg (· + 1) hv.1, hv.2⟩

theorem memWrite_ends (a : Nat) (v : Byte) (h : s.Reaches R g t) :
    (memWrite a v t).ends R s fun _ u => s.Reaches R g u := by
  rcases memWrite_cases a v t with ⟨hb, hs, -, e⟩ | ⟨hb, hs, -, e⟩ | ⟨-, -, e⟩ | ⟨-, e⟩ <;> rw [e]
  · exact ⟨h.works.access (x := .write a v) rfl ⟨hb, hs⟩, h.book⟩
  · exact Res.ends_raise _ _ (h.works.access (x := .writeError a) rfl ⟨hb, hs⟩)
  · trivial
  · exact Res.ends_raise _ _ h.works

/-! ### The writer -/

theorem flushAcc_ends (h : s.Reaches R g t) :
    (flushAcc t).ends R s fun _ u => s.Reaches R g u :=
  Res.ends_bind (memWrite_ends _ _ h) fun _ _ hu => hu.setEng rfl id

theorem bwPutBit_ends (b : Bool) (h : s.Reaches R g t) :
    (bwPutBit b t).ends R s fun _ u => s.Reaches R g u := by
  have hput : s.Reaches R g (t.setEng (t.eng.putAcc b)) := h.setEng rfl id
  unfold bwPutBit
  dsimp only
  split
  · exact flushAcc_ends hput
  · exact hput

theorem bwPutBits_ends (bs : List Bool) : ∀ {t : State}, s.Reaches R g t →
    (bwPutBits bs t).ends R s fun _ u => s.Reaches R g u := by
  induction bs with
  | nil => exact fun h => h
  | cons b bs ih => exact fun h => Res.ends_bind (bwPutBit_ends b h) fun _ _ hu => ih hu

theorem bwFinish_ends (h : s.Reaches R g t) :
    (bwFinish t).ends R s fun _ u => s.Reaches R g u := by
  unfold bwFinish
  split
  · exact flushAcc_ends h
  · exact h

/-! ### The tree builder and the code generator -/

theorem insertRef_queueWf {n : NodeRef} {h : Engine} (hq : g.queueWf) (hlen : g.pq.length < 256)
    (hpq : h.pq = insertRef n g.pq) : h.queueWf := by
  have hins := insertRef_length n g.pq
  exact ⟨hpq ▸ insertRef_sorted n hq.1, by rw [hpq]; omega⟩

theorem removeRef_queueWf {n : NodeRef} {h : Engine} (hq : g.queueWf)
    (hpq : h.pq = removeRef n g.pq) : h.queueWf :=
  ⟨hpq ▸ removeRef_sorted n hq.1, hpq ▸ (removeRef_length n g.pq).trans hq.2⟩

theorem pqTake_yields (h : s.Reaches R g t) :
    (pqTake t).yields fun _ u => s.Reaches R g u := by
  rcases pqTake_cases t with ⟨-, e⟩ | ⟨m, -, e⟩ <;> rw [e]
  · trivial
  · exact h.setEng rfl fun hq => removeRef_queueWf hq rfl

theorem pqInsert_yields (n : NodeRef) (h : s.Reaches R g t) :
    (pqInsert n t).yields fun _ u => s.Reaches R g u := by
  rcases pqInsert_cases n t with ⟨hlen, e⟩ | ⟨-, e⟩ <;> rw [e]
  · exact h.setEng rfl fun hq => insertRef_queueWf hq hlen rfl
  · trivial

theorem addQueued_yields (x : Node) (h : s.Reaches R g t) :
    (addQueued x t).yields fun _ u => s.Reaches R g u := by
  unfold addQueued
  split
  · trivial
  · exact Res.yields_bind (pqInsert_yields _ (h.setEng rfl id)) fun _ _ hu => hu.setEng rfl id

theorem leavesLoop_yields (vs : List Byte) : ∀ {t : State}, s.Reaches R g t →
    (leavesLoop vs t).yields fun _ u => s.Reaches R g u := by
  induction vs with
  | nil => exact fun h => h
  | cons v vs ih =>
    intro t h
    unfold leavesLoop
    split
    · exact ih h
    · exact Res.yields_bind (addQueued_yields _ h) fun _ _ hu => ih hu

/-- `TB_LEAVES`: k is the number of present symbols. -/
theorem tbLeaves_yields (R : Nat → Prop) (s : State) : (tbLeaves s).yields fun _ t =>
    s.Reaches R (s.eng.setK (BitVec.ofNat 9 s.eng.present.length)) t := by
  have hcleared : s.Reaches R s.eng (s.setEng s.eng.clearTree) :=
    (State.Reaches.refl R s).setEng rfl fun _ => ⟨List.Pairwise.nil, Nat.zero_le _⟩
  have hloop : (tbLeaves s).yields fun _ t =>
      ∃ u, s.Reaches R s.eng u ∧ t = u.setEng (u.eng.setK u.eng.nn) :=
    Res.yields_bind (leavesLoop_yields allSymbols hcleared) fun _ u hu => ⟨u, hu, rfl⟩
  obtain ⟨nodes, q, hleaves, -⟩ := tbLeaves_ok s
  rw [hleaves] at hloop ⊢
  obtain ⟨u, hu, ht⟩ := hloop
  have hnn : u.eng.nn = BitVec.ofNat 9 s.eng.present.length :=
    (congrArg (fun t : State => t.eng.k) ht).symm
  have hk : (BitVec.ofNat 9 s.eng.present.length).toNat ≤ 256 := by
    have := length_present_le s.eng
    rw [BitVec.toNat_ofNat]
    omega
  rw [hnn] at ht
  exact ht ▸ hu.update (fun g => g.setK (BitVec.ofNat 9 s.eng.present.length)) (fun _ => rfl)
    ⟨rfl, rfl, rfl, rfl, rfl⟩ id fun _ => hk

theorem tbSingle_yields (h : s.Reaches R g t) :
    (tbSingle t).yields fun _ u => s.Reaches R g u :=
  Res.yields_bind (pqTake_yields h) fun _ _ hu => hu.setEng rfl id

theorem tbMerge_yields (h : s.Reaches R g t) :
    (tbMerge t).yields fun _ u => s.Reaches R g u :=
  Res.yields_bind (pqTake_yields h) fun _ _ hu =>
    Res.yields_bind (pqTake_yields hu) fun _ _ hv => addQueued_yields _ hv

theorem tbFinish_yields (h : s.Reaches R g t) :
    (tbFinish t).yields fun _ u => s.Reaches R g u :=
  Res.yields_bind (pqTake_yields h) fun _ _ hu => hu.setEng rfl id

theorem cgLoop_yields (fuel : Nat) : ∀ {t : State}, s.Reaches R g t →
    (cgLoop fuel t).yields fun _ u => s.Reaches R g u := by
  induction fuel with
  | zero =>
    intro t h
    unfold cgLoop
    split
    · exact h
    · trivial
  | succ fuel ih =>
    intro t h
    unfold cgLoop
    split
    · exact h
    dsimp only
    split
    · exact ih (h.setEng rfl id)
    split
    · split
      · trivial
      · exact ih (h.setEng rfl id)
    · trivial

theorem cgWalk_yields (h : s.Reaches R g t) :
    (cgWalk t).yields fun _ u => s.Reaches R g u := by
  unfold cgWalk
  dsimp only
  split
  · exact h.setEng rfl id
  · exact cgLoop_yields _ (h.setEng rfl id)

end Work

end Sys2Proof.Machine
end

section
/-! What one step of the engine can do: `Engine.Advances` lists how it moves the working state on,
with the condition the rules attach to each move; a step that does not move on has ended the
command. -/

namespace Sys2Proof.Machine

/-- How a step moves a busy engine on, the tree and the writer left aside. -/
inductive Engine.Advances (g : Engine) : Engine → Prop
  /-- 40_frequency_table.md R131 -/
  | counted (b : Byte) (hfsm : g.fsm = .eCount) (hmore : g.i < g.len) : g.Advances (g.countByte b)
  /-- 45_encoder.md R242 -/
  | countDone (hfsm : g.fsm = .eCount) (hdone : ¬ g.i < g.len) : g.Advances (g.goto .eBuild)
  /-- 42_tree_builder.md R170 -/
  | leaves (hfsm : g.fsm = .eBuild ∨ g.fsm = .dRebuild) (hphase : g.phase = 0) :
    g.Advances ((g.setK (BitVec.ofNat 9 g.present.length)).setPhase 1)
  /-- 42_tree_builder.md R173 -/
  | merged (hfsm : g.fsm = .eBuild ∨ g.fsm = .dRebuild) : g.Advances g
  /-- 45_encoder.md R243 -/
  | treeDone (hfsm : g.fsm = .eBuild) (hphase : g.phase ≠ 0) : g.Advances (g.goto .eCodes)
  /-- 45_encoder.md R244 -/
  | codesDone (hfsm : g.fsm = .eCodes) : g.Advances (g.goto .eHeader)
  /-- 45_encoder.md R245 -/
  | sized (total : Nat) (hfsm : g.fsm = .eHeader) (hphase : g.phase = 0)
    (htotal : total ≤ Config.maxPayloadBits)
    (hcap : ¬ (g.sized total).cap < (g.sized total).csize) :
    g.Advances (g.sized total).startHeader
  /-- 45_encoder.md R246 -/
  | headerByte (hfsm : g.fsm = .eHeader) (hphase : g.phase = 1)
    (hmore : g.nextHpos.hpos ≠ g.nextHpos.hsize) : g.Advances g.nextHpos
  /-- 45_encoder.md R246 -/
  | headerDone (hfsm : g.fsm = .eHeader) (hphase : g.phase = 1) :
    g.Advances g.nextHpos.startPayload
  /-- 45_encoder.md R247 -/
  | coded (hfsm : g.fsm = .ePayload) (hmore : g.i < g.len) : g.Advances g.nextI
  /-- 46_decoder.md R272, phase 0 -/
  | magicRead (hfsm : g.fsm = .dHeader) (hphase : g.phase = 0) : g.Advances (g.setPhase 1)
  /-- 46_decoder.md R272, phase 1 -/
  | origLenRead (n : Nat) (hfsm : g.fsm = .dHeader) (hphase : g.phase = 1) :
    g.Advances (g.setOrigLen n)
  /-- 46_decoder.md R272, phase 2 -/
  | countRead (n : Nat) (hfsm : g.fsm = .dHeader) (hphase : g.phase = 2) (hn : n ≤ 256) :
    g.Advances (g.setCount n)
  /-- 46_decoder.md R272, phase 3 -/
  | entryRead (v : Byte) (f : Nat) (hfsm : g.fsm = .dHeader) (hphase : g.phase = 3)
    (hmore : g.e.toNat < g.k.toNat) (hnew : g.freqOf v = 0) (hf : f ≠ 0) (hlt : f < 2 ^ 32) :
    g.Advances (g.enterFreq v (BitVec.ofNat 64 f))
  /-- 46_decoder.md R272, phase 3 -/
  | entriesDone (hfsm : g.fsm = .dHeader) (hphase : g.phase = 3)
    (hdone : ¬ g.e.toNat < g.k.toNat) : g.Advances (g.setPhase 4)
  /-- 46_decoder.md R272, phase 4 -/
  | bitLenRead (n : Nat) (hfsm : g.fsm = .dHeader) (hphase : g.phase = 4)
    (hfits : entryOffset g.k.toNat + 4 ≤ g.len.toNat) : g.Advances (g.setBitLen n)
  /-- 46_decoder.md R273 -/
  | headerChecked (hfsm : g.fsm = .dHeader) (hphase : g.phase = 5) (hsum : g.sum = g.origlen)
    (hpayload : g.payloadPresent = ceilDiv8 g.bitlen.toNat) (hcap : ¬ g.cap < g.origlen) :
    g.Advances (g.goto .dRebuild)
  /-- 46_decoder.md R274 -/
  | rebuilt (hfsm : g.fsm = .dRebuild) (hphase : g.phase = 1) : g.Advances (g.setPhase 2)
  /-- 46_decoder.md R274 -/
  | walkStarts (hfsm : g.fsm = .dRebuild) : g.Advances g.startWalk
  /-- 46_decoder.md R275 -/
  | walked (hfsm : g.fsm = .dPayload) (hmore : g.rpos.toNat < g.bitlen.toNat) :
    g.Advances g.nextRpos
  /-- 46_decoder.md R275, R276 -/
  | emitted (hfsm : g.fsm = .dPayload) (hmore : g.rpos.toNat < g.bitlen.toNat)
    (hleft : g.j < g.origlen) : g.Advances g.nextRpos.nextJ

/-- What an engine step from `s` can come to. -/
inductive State.EngineStepped (R : Nat → Prop) (s : State) : State → Prop
  | waits (hidle : s.eng.fsm = .idle) : s.EngineStepped R s
  | raises {u : State} (e : ErrSub) (info : DWord) (h : s.Works R u) :
    s.EngineStepped R (u.errorEntry e info)
  | completes {u : State} (outLen : DWord) (payloadBits : Word) (hbusy : s.eng.fsm ≠ .idle)
    (h : s.Works R u) : s.EngineStepped R (u.complete outLen payloadBits)
  | advances {g : Engine} {t : State} (hg : s.eng.Advances g) (h : s.Reaches R g t) :
    s.EngineStepped R t

/-- The addresses the step from `s` may read are in `R`: those of the input range, and in
`D_PAYLOAD` those of the declared bits (44_bitstream.md R215). -/
def State.readsIn (R : Nat → Prop) (s : State) : Prop :=
  (∀ a, s.eng.srcRange.holds a = true → R a)
    ∧ (s.eng.fsm = .dPayload →
      ∀ p < s.eng.bitlen.toNat, R (s.eng.rbase.toNat + p / 8))

/-- An operation that begins at `s` ends as an engine step can. -/
def Res.isStep (R : Nat → Prop) (s : State) (r : Res Unit) : Prop :=
  r.ends R s fun _ t => s.EngineStepped R t

section Steps

variable {R : Nat → Prop} {s t : State}

theorem Res.isStep_outcome {r : Res Unit} (hr : r.isStep R s) (ht : r.outcome = .next t) :
    s.EngineStepped R t := by
  rcases Res.outcome_next_inv ht with ⟨a, rfl⟩ | rfl
  · exact hr
  · obtain ⟨u, e, i, hu, rfl⟩ := hr
    exact .raises e i hu

/-- An address of the input range. -/
theorem State.readsIn.source (h : s.readsIn R) {n : Nat} (hn : n < s.eng.len.toNat) :
    R (s.eng.src.toNat + n) :=
  h.1 _ (decide_eq_true ⟨Nat.le_add_right _ _, Nat.add_lt_add_left hn _⟩)

/-! ### The encoder -/

theorem ftCount_isStep (hR : s.readsIn R) (hfsm : s.eng.fsm = .eCount)
    (hmore : s.eng.i < s.eng.len) : (ftCount s).isStep R s :=
  Res.ends_bind (memRead_ends (hR.source hmore) (.refl R s)) fun b _ hu =>
    .advances (.counted b hfsm hmore)
      (hu.update (fun g => g.countByte b) (fun _ => rfl) ⟨rfl, rfl, rfl, rfl, rfl⟩ id id)

theorem eHeaderSize_isStep (hfsm : s.eng.fsm = .eHeader) (hphase : s.eng.phase = 0) :
    (eHeaderSize s).isStep R s := by
  unfold eHeaderSize
  generalize totalBits s.eng = total
  dsimp only
  have hwork (g : Engine) (hop : g.sameOperands s.eng) (hpq : g.pq = s.eng.pq)
      (hk : g.k = s.eng.k) : s.Works R (s.setEng g) :=
    (State.Works.refl R s).setEng hop (by simp [Engine.queueWf, hpq]) (by simp [hk])
  split
  · exact Res.ends_raise _ _ (hwork _ ⟨rfl, rfl, rfl, rfl, rfl⟩ rfl rfl)
  case isFalse htotal =>
    split
    · exact Res.ends_raise _ _ (hwork _ ⟨rfl, rfl, rfl, rfl, rfl⟩ rfl rfl)
    case isFalse hcap =>
      exact
        .advances (.sized total hfsm hphase (Nat.le_of_not_lt htotal) hcap)
        ⟨hwork _ ⟨rfl, rfl, rfl, rfl, rfl⟩ rfl rfl, rfl⟩

theorem eHeaderByte_isStep (hfsm : s.eng.fsm = .eHeader) (hphase : s.eng.phase = 1) :
    (eHeaderByte s).isStep R s := by
  unfold eHeaderByte
  split
  · trivial
  refine Res.ends_bind (memWrite_ends _ _ (.refl R s)) fun _ u hu => ?_
  have hnext : s.Reaches R s.eng.nextHpos (u.setEng u.eng.nextHpos) :=
    hu.update Engine.nextHpos (fun _ => rfl) ⟨rfl, rfl, rfl, rfl, rfl⟩ id id
  dsimp only
  split
  · exact .advances (.headerDone hfsm hphase)
      (hnext.update Engine.startPayload (fun _ => rfl) ⟨rfl, rfl, rfl, rfl, rfl⟩ id id)
  case isFalse hmore =>
    have hiff : (u.eng.nextHpos.hpos = u.eng.nextHpos.hsize)
        = (s.eng.nextHpos.hpos = s.eng.nextHpos.hsize) :=
      Engine.congr_book hnext.book (fun g => g.hpos = g.hsize) fun _ => rfl
    exact .advances (.headerByte hfsm hphase fun h => hmore (hiff.mpr h)) hnext

theorem ePayloadStep_isStep (hR : s.readsIn R) (hfsm : s.eng.fsm = .ePayload) :
    (ePayloadStep s).isStep R s := by
  unfold ePayloadStep
  split
  case isTrue hmore =>
    exact Res.ends_bind (memRead_ends (hR.source hmore) (.refl R s)) fun _ _ hu =>
      Res.ends_bind (bwPutBits_ends _ hu) fun _ _ hv => .advances (.coded hfsm hmore)
        (hv.update Engine.nextI (fun _ => rfl) ⟨rfl, rfl, rfl, rfl, rfl⟩ id id)
  case isFalse =>
    exact Res.ends_bind (bwFinish_ends (.refl R s)) fun _ _ hu =>
      .completes _ _ (by rw [hfsm]; decide) hu.works

/-! ### The decoder's header -/

/-- `need`, then `rd`: a field that fits, read in the input range. -/
theorem readField_ends (hR : s.readsIn R) (off n : Nat) :
    (readField off n s).ends R s fun bs u =>
      bs.length = n ∧ off + n ≤ s.eng.len.toNat ∧ s.Reaches R s.eng u := by
  unfold readField
  split
  · exact Res.ends_raise _ _ (.refl R s)
  case isFalse hfits =>
    have hread : ∀ q < n, R (s.eng.src.toNat + off + q) := fun q hq => by
      rw [Nat.add_assoc]
      exact hR.source (by omega)
    exact Res.ends_mono (memReadBytes_ends n hread (.refl R s)) fun _ _ h =>
      ⟨h.1, Nat.le_of_not_lt hfits, h.2⟩

/-- The value of some bytes. -/
theorem leNat_lt (bs : List Byte) : leNat bs < 256 ^ bs.length := by
  induction bs with
  | nil => exact Nat.one_pos
  | cons b bs ih =>
    have hb := b.isLt
    rw [leNat, List.length_cons, Nat.pow_succ]
    omega

theorem headerMagic_isStep (hR : s.readsIn R) (hfsm : s.eng.fsm = .dHeader)
    (hphase : s.eng.phase = 0) : (headerMagic s).isStep R s := by
  refine Res.ends_bind (readField_ends hR 0 4) fun bs u hu => ?_
  split
  · exact .advances (.magicRead hfsm hphase)
      (hu.2.2.update (fun g => g.setPhase 1) (fun _ => rfl) ⟨rfl, rfl, rfl, rfl, rfl⟩ id id)
  · exact Res.ends_raise _ _ hu.2.2.works

theorem headerOrigLen_isStep (hR : s.readsIn R) (hfsm : s.eng.fsm = .dHeader)
    (hphase : s.eng.phase = 1) : (headerOrigLen s).isStep R s :=
  Res.ends_bind (readField_ends hR 4 8) fun bs _ hu =>
    .advances (.origLenRead (leNat bs) hfsm hphase)
      (hu.2.2.update (fun g => g.setOrigLen (leNat bs)) (fun _ => rfl)
        ⟨rfl, rfl, rfl, rfl, rfl⟩ id id)

theorem headerCount_isStep (hR : s.readsIn R) (hfsm : s.eng.fsm = .dHeader)
    (hphase : s.eng.phase = 2) : (headerCount s).isStep R s := by
  refine Res.ends_bind (readField_ends hR 12 2) fun bs u hu => ?_
  split
  · exact Res.ends_raise _ _ hu.2.2.works
  case isFalse hn =>
    have hn : leNat bs ≤ 256 := Nat.le_of_not_lt hn
    have hk : (BitVec.ofNat 9 (leNat bs)).toNat ≤ 256 := (Nat.mod_le _ _).trans hn
    exact .advances (.countRead (leNat bs) hfsm hphase hn)
      (hu.2.2.update (fun g => g.setCount (leNat bs)) (fun _ => rfl)
        ⟨rfl, rfl, rfl, rfl, rfl⟩ id fun _ => hk)

theorem headerEntryStep_isStep (hR : s.readsIn R) (hfsm : s.eng.fsm = .dHeader)
    (hphase : s.eng.phase = 3) : (headerEntryStep s).isStep R s := by
  unfold headerEntryStep
  split
  case isTrue hmore =>
    refine Res.ends_bind (readField_ends hR (entryOffset s.eng.e.toNat) 5) fun bs u hu => ?_
    obtain ⟨hlen, -, hu⟩ := hu
    have hfreq (v : Byte) : u.eng.freqOf v = s.eng.freqOf v :=
      Engine.congr_book hu.book (fun g => g.freqOf v) fun _ => rfl
    have hlt : leNat (bs.drop 1) < 2 ^ 32 := by
      have := leNat_lt (bs.drop 1)
      rwa [List.length_drop, hlen] at this
    unfold headerEntryIn
    split
    · exact Res.ends_raise _ _ hu.works
    case isFalse hnew =>
      split
      · exact Res.ends_raise _ _ hu.works
      case isFalse hf =>
        rw [ne_eq, not_not, hfreq] at hnew
        exact .advances (.entryRead _ _ hfsm hphase hmore hnew hf hlt)
          (hu.update (fun g => g.enterFreq (bs.headD 0) (BitVec.ofNat 64 (leNat (bs.drop 1))))
            (fun _ => rfl) ⟨rfl, rfl, rfl, rfl, rfl⟩ id id)
  case isFalse hdone =>
    exact .advances (.entriesDone hfsm hphase hdone)
      ((State.Reaches.refl R s).update (fun g => g.setPhase 4) (fun _ => rfl)
        ⟨rfl, rfl, rfl, rfl, rfl⟩ id id)

theorem headerBitLen_isStep (hR : s.readsIn R) (hfsm : s.eng.fsm = .dHeader)
    (hphase : s.eng.phase = 4) : (headerBitLen s).isStep R s :=
  Res.ends_bind (readField_ends hR (entryOffset s.eng.k.toNat) 4) fun bs _ hu =>
    .advances (.bitLenRead (leNat bs) hfsm hphase hu.2.1)
      (hu.2.2.update (fun g => g.setBitLen (leNat bs)) (fun _ => rfl)
        ⟨rfl, rfl, rfl, rfl, rfl⟩ id id)

theorem dHeaderField_isStep (hR : s.readsIn R) (hfsm : s.eng.fsm = .dHeader) :
    (dHeaderField s).isStep R s := by
  unfold dHeaderField
  split
  case isTrue hphase => exact headerMagic_isStep hR hfsm hphase
  split
  case isTrue hphase => exact headerOrigLen_isStep hR hfsm hphase
  split
  case isTrue hphase => exact headerCount_isStep hR hfsm hphase
  split
  case isTrue hphase => exact headerEntryStep_isStep hR hfsm hphase
  split
  case isTrue hphase => exact headerBitLen_isStep hR hfsm hphase
  trivial

theorem dHeaderCheck_isStep (hfsm : s.eng.fsm = .dHeader) (hphase : s.eng.phase = 5) :
    (dHeaderCheck s).isStep R s := by
  unfold dHeaderCheck
  dsimp only
  split
  · exact Res.ends_raise _ _ (.refl R s)
  split
  · exact Res.ends_raise _ _ (.refl R s)
  split
  · exact Res.ends_raise _ _ (.refl R s)
  split
  · exact Res.ends_raise _ _ (.refl R s)
  case isFalse hsum hshort hlong hcap =>
    exact .advances (.headerChecked hfsm hphase (not_not.1 hsum) (by omega) hcap)
      ((State.Reaches.refl R s).update (fun g => g.goto .dRebuild) (fun _ => rfl)
        ⟨rfl, rfl, rfl, rfl, rfl⟩ id id)

/-! ### The decoder's tree and payload -/

theorem thenPhase_ends {g : Engine} {p : BitVec 3} {r : Res Unit}
    (hr : r.yields fun _ t => s.Reaches R g t) :
    (thenPhase p r).ends R s fun _ t => s.Reaches R (g.setPhase p) t :=
  Res.ends_bind hr.ends fun _ _ hu =>
    hu.update (fun g => g.setPhase p) (fun _ => rfl) ⟨rfl, rfl, rfl, rfl, rfl⟩ id id

theorem dRebuildStep_isStep (hfsm : s.eng.fsm = .dRebuild) : (dRebuildStep s).isStep R s := by
  unfold dRebuildStep
  split
  case isTrue hphase =>
    exact Res.ends_mono (thenPhase_ends (tbLeaves_yields R s)) fun _ _ h =>
      .advances (.leaves (.inr hfsm) hphase) h
  split
  case isTrue hphase =>
    have hbuilt {r : Res Unit} (hr : r.yields fun _ t => s.Reaches R s.eng t) :
        (thenPhase 2 r).isStep R s :=
      Res.ends_mono (thenPhase_ends hr) fun _ _ h => .advances (.rebuilt hfsm hphase) h
    split
    · exact hbuilt (r := tbEmpty s) ((State.Reaches.refl R s).setEng rfl id)
    split
    · exact hbuilt (tbSingle_yields (.refl R s))
    split
    · exact Res.ends_mono (tbMerge_yields (.refl R s)).ends fun _ _ h =>
        .advances (.merged (.inr hfsm)) h
    · exact hbuilt (tbFinish_yields (.refl R s))
  case isFalse =>
    exact .advances (.walkStarts hfsm)
      ((State.Reaches.refl R s).update Engine.startWalk (fun _ => rfl)
        ⟨rfl, rfl, rfl, rfl, rfl⟩ id id)

theorem brReadBit_ends (hR : s.readsIn R) (hfsm : s.eng.fsm = .dPayload) :
    (brReadBit s).ends R s fun _ t =>
      s.eng.rpos.toNat < s.eng.bitlen.toNat ∧ s.Reaches R s.eng.nextRpos t := by
  unfold brReadBit
  split
  · exact Res.ends_raise _ _ (.refl R s)
  case isFalse hmore =>
    have hmore := Nat.lt_of_not_le hmore
    exact Res.ends_bind (memRead_ends (hR.2 hfsm _ hmore) (.refl R s)) fun _ _ hu =>
      ⟨hmore, hu.update Engine.nextRpos (fun _ => rfl) ⟨rfl, rfl, rfl, rfl, rfl⟩ id id⟩

theorem soEmit_ends {g : Engine} (v : Byte) (h : s.Reaches R g t) :
    (soEmit v t).ends R s fun _ u => s.Reaches R g.nextJ u :=
  Res.ends_bind (memWrite_ends _ _ h) fun _ _ hu =>
    hu.update Engine.nextJ (fun _ => rfl) ⟨rfl, rfl, rfl, rfl, rfl⟩ id id

theorem twStep_isStep (hR : s.readsIn R) (hfsm : s.eng.fsm = .dPayload)
    (hleft : s.eng.j < s.eng.origlen) : (twStep s).isStep R s := by
  refine Res.ends_bind (brReadBit_ends hR hfsm) fun b u hu => ?_
  obtain ⟨hmore, hu⟩ := hu
  split
  · trivial
  split
  · exact Res.ends_raise _ _ hu.works
  split
  · exact Res.ends_bind (soEmit_ends _ hu) fun _ _ hv =>
      .advances (.emitted hfsm hmore hleft) (hv.setEng rfl id)
  · exact .advances (.walked hfsm hmore) (hu.setEng rfl id)

theorem dPayloadEnd_isStep (hfsm : s.eng.fsm = .dPayload) : (dPayloadEnd s).isStep R s := by
  unfold dPayloadEnd
  split
  · exact Res.ends_raise _ _ (.refl R s)
  · exact .completes _ _ (by rw [hfsm]; decide) (.refl R s)

/-! ### The sequencer -/

/-- A builder's step or the code generator's walk, then the move to the next FSM state. -/
theorem onNext_moveTo_reaches {r : Res Unit} {f : Fsm}
    (hr : r.yields fun _ t => s.Reaches R s.eng t) (h : onNext r.outcome (moveTo f) = .next t) :
    s.Reaches R (s.eng.goto f) t := by
  obtain ⟨u, hu, hmove⟩ := onNext_next_inv h
  obtain ⟨-, hreach⟩ := Res.yields_outcome hr hu
  cases hmove
  exact hreach.update (fun g => g.goto f) (fun _ => rfl) ⟨rfl, rfl, rfl, rfl, rfl⟩ id id

theorem stepCount_stepped (hR : s.readsIn R) (hfsm : s.eng.fsm = .eCount)
    (ht : stepCount s = .next t) : s.EngineStepped R t := by
  unfold stepCount at ht
  split at ht
  case isTrue hmore => exact Res.isStep_outcome (ftCount_isStep hR hfsm hmore) ht
  case isFalse hdone =>
    cases ht
    exact .advances (.countDone hfsm hdone)
      ((State.Reaches.refl R s).update (fun g => g.goto .eBuild) (fun _ => rfl)
        ⟨rfl, rfl, rfl, rfl, rfl⟩ id id)

theorem stepBuild_stepped (hfsm : s.eng.fsm = .eBuild) (ht : stepBuild s = .next t) :
    s.EngineStepped R t := by
  unfold stepBuild at ht
  split at ht
  case isTrue hphase =>
    obtain ⟨u, hu, hnext⟩ := onNext_next_inv ht
    obtain ⟨-, hleaves⟩ := Res.yields_outcome (tbLeaves_yields R s) hu
    cases hnext
    exact .advances (.leaves (.inl hfsm) hphase)
      (hleaves.update (fun g => g.setPhase 1) (fun _ => rfl) ⟨rfl, rfl, rfl, rfl, rfl⟩ id id)
  case isFalse hphase =>
    have hdone {r : Res Unit} (hr : r.yields fun _ t => s.Reaches R s.eng t)
        (h : onNext r.outcome (moveTo .eCodes) = .next t) : s.EngineStepped R t :=
      .advances (.treeDone hfsm hphase) (onNext_moveTo_reaches hr h)
    split at ht
    · exact hdone (r := tbEmpty s) ((State.Reaches.refl R s).setEng rfl id) ht
    split at ht
    · exact hdone (tbSingle_yields (.refl R s)) ht
    split at ht
    · obtain ⟨-, hmerged⟩ := Res.yields_outcome (tbMerge_yields (.refl R s)) ht
      exact .advances (.merged (.inl hfsm)) hmerged
    · exact hdone (tbFinish_yields (.refl R s)) ht

theorem stepHeader_stepped (hfsm : s.eng.fsm = .eHeader) (ht : stepHeader s = .next t) :
    s.EngineStepped R t := by
  unfold stepHeader at ht
  split at ht
  case isTrue hphase => exact Res.isStep_outcome (eHeaderSize_isStep hfsm hphase) ht
  split at ht
  case isTrue hphase => exact Res.isStep_outcome (eHeaderByte_isStep hfsm hphase) ht
  case isFalse => exact nomatch ht

theorem stepDHeader_stepped (hR : s.readsIn R) (hfsm : s.eng.fsm = .dHeader)
    (ht : stepDHeader s = .next t) : s.EngineStepped R t := by
  unfold stepDHeader at ht
  split at ht
  case isTrue hphase => exact Res.isStep_outcome (dHeaderCheck_isStep hfsm hphase) ht
  case isFalse => exact Res.isStep_outcome (dHeaderField_isStep hR hfsm) ht

theorem stepDPayload_stepped (hR : s.readsIn R) (hfsm : s.eng.fsm = .dPayload)
    (ht : stepDPayload s = .next t) : s.EngineStepped R t := by
  unfold stepDPayload at ht
  split at ht
  case isTrue hleft => exact Res.isStep_outcome (twStep_isStep hR hfsm hleft) ht
  case isFalse => exact Res.isStep_outcome (dPayloadEnd_isStep hfsm) ht

/-- What an engine step comes to, state by state. -/
theorem engineStep_stepped (hR : s.readsIn R) (ht : engineStep s = .next t) :
    s.EngineStepped R t := by
  cases hfsm : s.eng.fsm <;> simp only [engineStep, hfsm] at ht
  case idle =>
    cases ht
    exact .waits hfsm
  case eCount => exact stepCount_stepped hR hfsm ht
  case eBuild => exact stepBuild_stepped hfsm ht
  case eCodes =>
    exact .advances (.codesDone hfsm) (onNext_moveTo_reaches (cgWalk_yields (.refl R s)) ht)
  case eHeader => exact stepHeader_stepped hfsm ht
  case ePayload => exact Res.isStep_outcome (ePayloadStep_isStep hR hfsm) ht
  case dHeader => exact stepDHeader_stepped hR hfsm ht
  case dRebuild => exact Res.isStep_outcome (dRebuildStep_isStep hfsm) ht
  case dPayload => exact stepDPayload_stepped hR hfsm ht

end Steps

end Sys2Proof.Machine
end

section
/-! The invariant along every step (10_state.md R22, 20_memory.md R72, R73): how each move of the
engine keeps the progress indices, and how each input keeps the rest. -/

namespace Sys2Proof.Machine

/-! ### The sum of the counters and the present symbols -/

/-- A counter apart from the others in the sum. -/
theorem freqSum_eq_add_erase (g : Engine) (v : Byte) :
    g.freqSum = (g.freqOf v).toNat
      + ((allSymbols.erase v).map fun u => (g.freqOf u).toNat).sum :=
  (List.sum_map_erase _ (mem_allSymbols v)).symm

theorem freqOf_le_freqSum (g : Engine) (v : Byte) : (g.freqOf v).toNat ≤ g.freqSum := by
  rw [freqSum_eq_add_erase g v]
  exact Nat.le_add_right _ _

/-- The sum after one counter is written. -/
theorem freqSum_setFreq (g : Engine) (v : Byte) (f : DWord) :
    (g.setFreq v f).freqSum + (g.freqOf v).toNat = g.freqSum + f.toNat := by
  have hothers : (allSymbols.erase v).map (fun u => ((g.setFreq v f).freqOf u).toNat)
      = (allSymbols.erase v).map fun u => (g.freqOf u).toNat :=
    List.map_congr_left fun u hu => by
      rw [freqOf_setFreq, if_neg ((nodup_allSymbols.mem_erase_iff).1 hu).1]
  rw [freqSum_eq_add_erase (g.setFreq v f) v, freqSum_eq_add_erase g v, hothers, freqOf_setFreq,
    if_pos rfl]
  omega

/-- Counters that sum to 0 are all 0: no symbol is present. -/
theorem present_of_freqSum_eq_zero {g : Engine} (h : g.freqSum = 0) : g.present = [] := by
  refine List.eq_nil_iff_forall_not_mem.2 fun v hv => (mem_present g v).1 hv ?_
  have := freqOf_le_freqSum g v
  exact BitVec.eq_of_toNat_eq (show (g.freqOf v).toNat = 0 by omega)

/-- A new counter makes one more symbol present. -/
theorem length_present_setFreq {g : Engine} {v : Byte} {f : DWord} (hnew : g.freqOf v = 0)
    (hf : f ≠ 0) : (g.setFreq v f).present.length = g.present.length + 1 := by
  have habsent : v ∉ g.present := fun h => (mem_present g v).1 h hnew
  have hperm : (g.setFreq v f).present.Perm (v :: g.present) := by
    refine (List.perm_ext_iff_of_nodup (nodup_present _)
      (List.nodup_cons.2 ⟨habsent, nodup_present g⟩)).2 fun u => ?_
    rw [mem_present, freqOf_setFreq, List.mem_cons, mem_present]
    by_cases hu : u = v
    · rw [if_pos hu]
      exact iff_of_true hf (.inl hu)
    · rw [if_neg hu]
      exact (or_iff_right hu).symm
  rw [hperm.length_eq, List.length_cons]

/-! ### The progress indices -/

theorem Engine.progress_of_book {g h : Engine} (hbook : g.book = h.book) :
    g.progress ↔ h.progress :=
  iff_of_eq (Engine.congr_book hbook Engine.progress fun _ => rfl)

/-- The conditions of the FSM state that the engine is in. -/
theorem Engine.progress_iff {g : Engine} {f : Fsm} (h : g.fsm = f) :
    g.progress ↔ { g with fsm := f }.progress := by
  rw [← h]

/-- A counter below a value of its own width is counted without wrapping (log entry 14). -/
theorem toNat_add_one {x : DWord} {n : Nat} (h : x.toNat < n) (hn : n < 2 ^ 64) :
    (x + 1).toNat = x.toNat + 1 :=
  BitVec.toNat_add_of_lt (show x.toNat + 1 < 2 ^ 64 by omega)

/-! The conditions of the FSM states that have phases, phase by phase. -/

section Phases

variable {g : Engine}

/-- The entries read so far are in the table (46_decoder.md R272). -/
def Engine.entriesRead (g : Engine) : Prop :=
  g.e.toNat ≤ g.k.toNat ∧ g.e.toNat = g.present.length ∧ g.sum.toNat = g.freqSum
    ∧ g.freqSum ≤ g.e.toNat * (2 ^ 32 - 1)

/-- The header's size is known, and the container holds it (46_decoder.md R272, phase 4). -/
def Engine.headerSized (g : Engine) : Prop :=
  g.hsize.toNat = 18 + 5 * g.k.toNat ∧ g.hsize.toNat ≤ g.len.toNat

theorem progress_fields (hfsm : g.fsm = .dHeader)
    (hphase : g.phase = 0 ∨ g.phase = 1 ∨ g.phase = 2) :
    g.progress ↔ g.freqSum = 0 := by
  rcases hphase with h | h | h <;> simp [Engine.progress, hfsm, h]

theorem progress_entries (hfsm : g.fsm = .dHeader) (hphase : g.phase = 3) :
    g.progress ↔ g.entriesRead := by
  simp [Engine.progress, hfsm, hphase, Engine.entriesRead]

theorem progress_entriesDone (hfsm : g.fsm = .dHeader) (hphase : g.phase = 4) :
    g.progress ↔ g.entriesRead ∧ g.e.toNat = g.k.toNat := by
  simp [Engine.progress, hfsm, hphase, Engine.entriesRead]

theorem progress_headerRead (hfsm : g.fsm = .dHeader) (hphase : g.phase = 5) :
    g.progress ↔ g.entriesRead ∧ g.e.toNat = g.k.toNat ∧ g.headerSized := by
  simp [Engine.progress, hfsm, hphase, Engine.entriesRead, Engine.headerSized]

/-- The container's sizes are known, and it fits the output range (45_encoder.md R245). -/
def Engine.containerSized (g : Engine) : Prop :=
  g.hsize.toNat = 18 + 5 * g.k.toNat ∧ g.hpos.toNat < g.hsize.toNat
    ∧ g.csize.toNat = g.hsize.toNat + (g.total.toNat + 7) / 8
    ∧ g.csize.toNat ≤ g.cap.toNat ∧ g.total.toNat < 2 ^ 32

theorem progress_sizing (hfsm : g.fsm = .eHeader) (hphase : g.phase = 0) :
    g.progress ↔ g.k.toNat = g.present.length := by
  simp [Engine.progress, hfsm, hphase]

theorem progress_headerBytes (hfsm : g.fsm = .eHeader) (hphase : g.phase = 1) :
    g.progress ↔ g.k.toNat = g.present.length ∧ g.containerSized := by
  simp [Engine.progress, hfsm, hphase, Engine.containerSized]

/-- The header's checks have passed (46_decoder.md R273). -/
def Engine.headerFits (g : Engine) : Prop :=
  g.freqSum = g.origlen.toNat ∧ g.origlen.toNat ≤ g.cap.toNat
    ∧ g.hsize.toNat + (g.bitlen.toNat + 7) / 8 = g.len.toNat

theorem progress_rebuild (hfsm : g.fsm = .dRebuild) :
    g.progress ↔ g.phase.toNat ≤ 2 ∧ g.k.toNat = g.present.length ∧ g.headerFits := by
  simp [Engine.progress, hfsm, Engine.headerFits]

end Phases

/-! ### The moves -/

section Moves

variable {g : Engine}

theorem progress_counted (b : Byte) (hfsm : g.fsm = .eCount) (hmore : g.i < g.len)
    (hp : g.progress) : (g.countByte b).progress := by
  simp only [Engine.progress, hfsm] at hp
  obtain ⟨hi, hsum⟩ := hp
  have hlen := g.len.isLt
  have hmore : g.i.toNat < g.len.toNat := hmore
  have hfreq := freqOf_le_freqSum g b
  have hset := freqSum_setFreq g b (g.freqOf b + 1)
  rw [toNat_add_one (n := g.len.toNat) (by omega) hlen] at hset
  have hnext : (g.i + 1).toNat = g.i.toNat + 1 := toNat_add_one hmore hlen
  have hcounted : (g.setFreq b (g.freqOf b + 1)).freqSum = (g.i + 1).toNat := by omega
  exact (Engine.progress_iff (g := g.countByte b) hfsm).2 ⟨hnext.trans_le hmore, hcounted⟩

/-- The leaves are made: k is known (42_tree_builder.md R170). -/
theorem progress_leaves (hfsm : g.fsm = .eBuild ∨ g.fsm = .dRebuild) (hp : g.progress) :
    ((g.setK (BitVec.ofNat 9 g.present.length)).setPhase 1).progress := by
  have hpresent := length_present_le g
  have hcount : (BitVec.ofNat 9 g.present.length).toNat = g.present.length :=
    Nat.mod_eq_of_lt (by omega)
  rcases hfsm with hfsm | hfsm
  · simp only [Engine.progress, hfsm] at hp
    exact (Engine.progress_iff
      (g := (g.setK (BitVec.ofNat 9 g.present.length)).setPhase 1) hfsm).2 ⟨hp.1, fun _ => hcount⟩
  · obtain ⟨-, -, hfits⟩ := (progress_rebuild hfsm).1 hp
    exact (progress_rebuild
      (g := (g.setK (BitVec.ofNat 9 g.present.length)).setPhase 1) hfsm).2
      ⟨Nat.le_succ 1, hcount, hfits⟩

theorem progress_sized {total : Nat} (hfsm : g.fsm = .eHeader) (hphase : g.phase = 0)
    (htotal : total ≤ Config.maxPayloadBits) (hcap : ¬ (g.sized total).cap < (g.sized total).csize)
    (hp : g.progress) : (g.sized total).startHeader.progress := by
  have hk := g.k.isLt
  have htotal' : total ≤ 2 ^ 32 - 1 := htotal
  have hhsize : (g.sized total).hsize.toNat = 18 + 5 * g.k.toNat :=
    Nat.mod_eq_of_lt (by unfold headerSize; omega)
  have hbits : (g.sized total).total.toNat = total := Nat.mod_eq_of_lt (by omega)
  have hcsize : (g.sized total).csize.toNat
      = (g.sized total).hsize.toNat + ((g.sized total).total.toNat + 7) / 8 := by
    rw [g.sized_csize_toNat htotal', hhsize, hbits]
    rfl
  have hpos : 0 < (g.sized total).hsize.toNat := by omega
  exact (progress_headerBytes (g := (g.sized total).startHeader) hfsm rfl).2
    ⟨(progress_sizing hfsm hphase).1 hp, hhsize, hpos, hcsize,
      Nat.le_of_not_lt hcap, show (g.sized total).total.toNat < 2 ^ 32 by omega⟩

theorem progress_headerByte (hfsm : g.fsm = .eHeader) (hphase : g.phase = 1)
    (hmore : g.nextHpos.hpos ≠ g.nextHpos.hsize) (hp : g.progress) : g.nextHpos.progress := by
  obtain ⟨hcount, hhsize, hpos, hrest⟩ := (progress_headerBytes hfsm hphase).1 hp
  have hnext : (g.hpos + 1).toNat = g.hpos.toNat + 1 := toNat_add_one hpos g.hsize.isLt
  have hne : (g.hpos + 1).toNat ≠ g.hsize.toNat := fun h => hmore (BitVec.eq_of_toNat_eq h)
  exact (progress_headerBytes (g := g.nextHpos) hfsm hphase).2
    ⟨hcount, hhsize, show (g.hpos + 1).toNat < g.hsize.toNat by omega, hrest⟩

/-- With at most 256 counters of 32 bits the sum of the header's entries never wraps. -/
theorem progress_entryRead {v : Byte} {f : Nat} (hfsm : g.fsm = .dHeader) (hphase : g.phase = 3)
    (hmore : g.e.toNat < g.k.toNat) (hnew : g.freqOf v = 0) (hf : f ≠ 0) (hlt : f < 2 ^ 32)
    (hk : g.k.toNat ≤ 256) (hp : g.progress) :
    (g.enterFreq v (BitVec.ofNat 64 f)).progress := by
  obtain ⟨-, hpresent, hsum, hbound⟩ := (progress_entries hfsm hphase).1 hp
  have hvalue : (BitVec.ofNat 64 f).toNat = f := Nat.mod_eq_of_lt (by omega)
  have hne : BitVec.ofNat 64 f ≠ 0 := fun h => hf (hvalue.symm.trans (congrArg BitVec.toNat h))
  have hset := freqSum_setFreq g v (BitVec.ofNat 64 f)
  have hzero : (g.freqOf v).toNat = 0 := congrArg BitVec.toNat hnew
  have he : (g.e + 1).toNat = g.e.toNat + 1 := toNat_add_one hmore (by omega)
  have hadd : (g.sum + BitVec.ofNat 64 f).toNat = g.sum.toNat + f := by
    rw [BitVec.toNat_add_of_lt (by omega), hvalue]
  have hwritten : (g.setFreq v (BitVec.ofNat 64 f)).freqSum = g.freqSum + f := by omega
  have hlength := length_present_setFreq hnew hne
  have hbound' : (g.setFreq v (BitVec.ofNat 64 f)).freqSum ≤ (g.e + 1).toNat * (2 ^ 32 - 1) := by
    rw [hwritten, he]
    omega
  exact (progress_entries (g := g.enterFreq v (BitVec.ofNat 64 f)) hfsm hphase).2
    ⟨he.trans_le hmore, he.trans (by rw [hpresent]; exact hlength.symm),
      hadd.trans (by rw [hsum]; exact hwritten.symm), hbound'⟩

theorem progress_bitLenRead (n : Nat) (hfsm : g.fsm = .dHeader) (hphase : g.phase = 4)
    (hfits : entryOffset g.k.toNat + 4 ≤ g.len.toNat) (hp : g.progress) :
    (g.setBitLen n).progress := by
  obtain ⟨hentries, hall⟩ := (progress_entriesDone hfsm hphase).1 hp
  have hk := g.k.isLt
  have hhsize : (g.setBitLen n).hsize.toNat = 18 + 5 * g.k.toNat :=
    Nat.mod_eq_of_lt (by unfold headerSize; omega)
  have hle : (g.setBitLen n).hsize.toNat ≤ g.len.toNat := by
    unfold entryOffset at hfits
    omega
  exact (progress_headerRead (g := g.setBitLen n) hfsm rfl).2 ⟨hentries, hall, hhsize, hle⟩

theorem progress_headerChecked (hfsm : g.fsm = .dHeader) (hphase : g.phase = 5)
    (hsum : g.sum = g.origlen) (hpayload : g.payloadPresent = ceilDiv8 g.bitlen.toNat)
    (hcap : ¬ g.cap < g.origlen) (hp : g.progress) : (g.goto .dRebuild).progress := by
  obtain ⟨⟨-, hcount, hsumEq, -⟩, hall, -, hfits⟩ := (progress_headerRead hfsm hphase).1 hp
  have hpayload : g.len.toNat - g.hsize.toNat = (g.bitlen.toNat + 7) / 8 := hpayload
  have hsize : g.hsize.toNat + (g.bitlen.toNat + 7) / 8 = g.len.toNat := by omega
  exact (progress_rebuild (g := g.goto .dRebuild) rfl).2
    ⟨Nat.zero_le _, hall.symm.trans hcount, hsumEq.symm.trans (congrArg BitVec.toNat hsum),
      Nat.le_of_not_lt hcap, hsize⟩

/-- Every move of the engine keeps the progress indices. -/
theorem Engine.Advances.progress {h : Engine} (hmove : g.Advances h) (hk : g.k.toNat ≤ 256)
    (hp : g.progress) : h.progress := by
  have hlen := g.len.isLt
  cases hmove
  case counted b hfsm hmore => exact progress_counted b hfsm hmore hp
  case countDone hfsm hdone =>
    simp only [Engine.progress, hfsm] at hp
    have hend : g.i.toNat = g.len.toNat := Nat.le_antisymm hp.1 (Nat.le_of_not_lt hdone)
    exact ⟨hp.2.trans hend, fun h => absurd rfl h⟩
  case leaves hfsm hphase => exact progress_leaves hfsm hp
  case merged => exact hp
  case treeDone hfsm hphase =>
    simp only [Engine.progress, hfsm] at hp
    exact ⟨hp.1, hp.2 hphase⟩
  case codesDone hfsm =>
    simp only [Engine.progress, hfsm] at hp
    exact (progress_sizing (g := g.goto .eHeader) rfl rfl).2 hp.2
  case sized total hfsm hphase htotal hcap => exact progress_sized hfsm hphase htotal hcap hp
  case headerByte hfsm hphase hmore => exact progress_headerByte hfsm hphase hmore hp
  case headerDone hfsm hphase =>
    obtain ⟨-, hhsize, -, -, hcap, -⟩ := (progress_headerBytes hfsm hphase).1 hp
    exact ⟨Nat.zero_le _, hhsize, hcap⟩
  case coded hfsm hmore =>
    simp only [Engine.progress, hfsm] at hp
    have hmore : g.i.toNat < g.len.toNat := hmore
    have hnext : (g.i + 1).toNat = g.i.toNat + 1 := toNat_add_one hmore hlen
    exact (Engine.progress_iff (g := g.nextI) hfsm).2 ⟨hnext.trans_le hmore, hp.2⟩
  case magicRead hfsm hphase =>
    exact (progress_fields (g := g.setPhase 1) hfsm (.inr (.inl rfl))).2
      ((progress_fields hfsm (.inl hphase)).1 hp)
  case origLenRead n hfsm hphase =>
    exact (progress_fields (g := g.setOrigLen n) hfsm (.inr (.inr rfl))).2
      ((progress_fields hfsm (.inr (.inl hphase))).1 hp)
  case countRead n hfsm hphase hn =>
    have hsum : g.freqSum = 0 := (progress_fields hfsm (.inr (.inr hphase))).1 hp
    have hnone : g.present.length = 0 := congrArg List.length (present_of_freqSum_eq_zero hsum)
    exact (progress_entries (g := g.setCount n) hfsm rfl).2
      ⟨Nat.zero_le _, hnone.symm, hsum.symm, hsum.le.trans (Nat.zero_le _)⟩
  case entryRead v f hfsm hphase hmore hnew hf hlt =>
    exact progress_entryRead hfsm hphase hmore hnew hf hlt hk hp
  case entriesDone hfsm hphase hdone =>
    have hentries := (progress_entries hfsm hphase).1 hp
    exact (progress_entriesDone (g := g.setPhase 4) hfsm rfl).2
      ⟨hentries, Nat.le_antisymm hentries.1 (Nat.le_of_not_lt hdone)⟩
  case bitLenRead n hfsm hphase hfits => exact progress_bitLenRead n hfsm hphase hfits hp
  case headerChecked hfsm hphase hsum hpayload hcap =>
    exact progress_headerChecked hfsm hphase hsum hpayload hcap hp
  case rebuilt hfsm hphase =>
    obtain ⟨-, hrest⟩ := (progress_rebuild hfsm).1 hp
    exact (progress_rebuild (g := g.setPhase 2) hfsm).2 ⟨Nat.le_refl 2, hrest⟩
  case walkStarts hfsm =>
    obtain ⟨-, -, -, hcap, hsize⟩ := (progress_rebuild hfsm).1 hp
    exact ⟨Nat.zero_le _, hcap, Nat.zero_le _, rfl, hsize⟩
  case walked hfsm hmore =>
    simp only [Engine.progress, hfsm] at hp
    obtain ⟨hj, hcap, -, hrest⟩ := hp
    have hnext : (g.rpos + 1).toNat = g.rpos.toNat + 1 :=
      toNat_add_one hmore (g.bitlen.isLt.trans (by decide))
    exact (Engine.progress_iff (g := g.nextRpos) hfsm).2
      ⟨hj, hcap, hnext.trans_le hmore, hrest⟩
  case emitted hfsm hmore hleft =>
    simp only [Engine.progress, hfsm] at hp
    obtain ⟨-, hcap, -, hrest⟩ := hp
    have hj : (g.j + 1).toNat = g.j.toNat + 1 := toNat_add_one hleft g.origlen.isLt
    have hnext : (g.rpos + 1).toNat = g.rpos.toNat + 1 :=
      toNat_add_one hmore (g.bitlen.isLt.trans (by decide))
    exact (Engine.progress_iff (g := g.nextRpos.nextJ) hfsm).2
      ⟨hj.trans_le hleft, hcap, hnext.trans_le hmore, hrest⟩

end Moves

/-! ### Each step -/

section Moves

variable {g h : Engine}

/-- A move of the engine is a transition of 10_state.md R22. -/
theorem Engine.Advances.mayMove (hmove : g.Advances h) : g.fsm.mayMove h.fsm = true := by
  have hstays {f : Fsm} (hf : f = g.fsm) : g.fsm.mayMove f = true := by
    rw [hf]
    cases g.fsm <;> rfl
  cases hmove
  case countDone hfsm _ => rw [hfsm]; rfl
  case treeDone hfsm _ => rw [hfsm]; rfl
  case codesDone hfsm => rw [hfsm]; rfl
  case headerDone hfsm _ => rw [hfsm]; rfl
  case headerChecked hfsm _ _ _ _ => rw [hfsm]; rfl
  case walkStarts hfsm => rw [hfsm]; rfl
  all_goals exact hstays rfl

/-- A move stays with its command, which goes on. -/
theorem Engine.Advances.sameCommand (hmove : g.Advances h) :
    h.fsm.isEncoder = g.fsm.isEncoder ∧ h.fsm.isDecoder = g.fsm.isDecoder := by
  cases hmove
  case countDone hfsm _ => rw [hfsm]; exact ⟨rfl, rfl⟩
  case treeDone hfsm _ => rw [hfsm]; exact ⟨rfl, rfl⟩
  case codesDone hfsm => rw [hfsm]; exact ⟨rfl, rfl⟩
  case headerDone hfsm _ => rw [hfsm]; exact ⟨rfl, rfl⟩
  case headerChecked hfsm _ _ _ _ => rw [hfsm]; exact ⟨rfl, rfl⟩
  case walkStarts hfsm => rw [hfsm]; exact ⟨rfl, rfl⟩
  all_goals exact ⟨rfl, rfl⟩

/-- Only a busy engine moves on. -/
theorem Engine.Advances.busy (hmove : g.Advances h) : g.fsm ≠ .idle := by
  cases hmove
  case leaves hfsm _ => rcases hfsm with hfsm | hfsm <;> rw [hfsm] <;> decide
  case merged hfsm => rcases hfsm with hfsm | hfsm <;> rw [hfsm] <;> decide
  all_goals
    rw [‹g.fsm = _›]
    decide

end Moves

section Invariant

variable {R : Nat → Prop} {s t u : State}

theorem Inv.memory_of_works (hinv : Inv s) (h : s.Works R u) : Memory.wf u.mem = true := by
  obtain ⟨log, -, hmem, hallowed⟩ := h.port
  rw [hmem]
  exact wf_foldl_land log.reverse (fun x hx => hallowed x (List.mem_reverse.1 hx)) hinv.memory

/-- The codes of 30_encoding.md R107. -/
theorem ErrKind.code_legal (k : ErrKind) : k.code.toNat ≤ 7 ∧ k.code ≠ 0 := by
  cases k <;> decide

/-- What the invariant says of an idle core. -/
theorem Inv.of_idle (hidle : u.eng.fsm = .idle) (hmem : Memory.wf u.mem = true)
    (hqueue : u.eng.queueWf) (hboth : ¬(u.regs.done = true ∧ u.regs.err = true))
    (herr : u.regs.errCode.toNat ≤ 7 ∧ (u.regs.err = true → u.regs.errCode ≠ 0))
    (hcounts : u.eng.k.toNat ≤ 256 ∧ u.regs.symbols.toNat ≤ 256) : Inv u := by
  have hbusy : ¬ u.busy = true := by simp [State.busy, hidle]
  have hencoder : ¬ u.eng.fsm.isEncoder = true := by rw [hidle]; decide
  have hdecoder : ¬ u.eng.fsm.isDecoder = true := by rw [hidle]; decide
  refine ⟨hmem, hqueue, hboth, herr, hcounts, fun h => absurd h hbusy, fun h => absurd h hbusy,
    ⟨fun h => absurd h hencoder, fun h => absurd h hdecoder⟩,
    (Engine.progress_iff hidle).2 trivial⟩

theorem Inv.errorEntry (e : ErrSub) (info : DWord) (hmem : Memory.wf u.mem = true)
    (hqueue : u.eng.queueWf) (hk : u.eng.k.toNat ≤ 256) : Inv (u.errorEntry e info) :=
  Inv.of_idle rfl hmem hqueue (fun h => nomatch h.1)
    ⟨e.kind.code_legal.1, fun _ => e.kind.code_legal.2⟩ ⟨hk, Nat.zero_le _⟩

theorem Inv.complete (hinv : Inv s) (hbusy : s.eng.fsm ≠ .idle) (h : s.Works R u)
    (outLen : DWord) (payloadBits : Word) : Inv (u.complete outLen payloadBits) := by
  obtain ⟨-, herr, -⟩ := hinv.busyClear (bne_iff_ne.2 hbusy)
  have hregs : u.regs.err = false ∧ u.regs.errCode = s.regs.errCode := by
    rw [h.regs]
    exact ⟨herr, rfl⟩
  have hk := h.count hinv.counts.1
  exact Inv.of_idle (u := u.complete outLen payloadBits) rfl (hinv.memory_of_works h :)
    (h.queue hinv.queue)
    (fun hboth => nomatch hregs.1.symm.trans hboth.2)
    ⟨hregs.2 ▸ hinv.errReported.1, fun herr' => nomatch hregs.1.symm.trans herr'⟩ ⟨hk, hk⟩

theorem Inv.advances {g : Engine} (hinv : Inv s) (hmove : s.eng.Advances g)
    (h : s.Reaches R g t) : Inv t := by
  obtain ⟨hop, hsrc, hlen, hdst, hcap⟩ := h.works.operands
  have hfsm : t.eng.fsm = g.fsm := Engine.congr_book h.book Engine.fsm fun _ => rfl
  have hbusy : s.busy = true := bne_iff_ne.2 hmove.busy
  obtain ⟨henc, hdec⟩ := hmove.sameCommand
  obtain ⟨hencoder, hdecoder⟩ := hinv.command
  refine ⟨hinv.memory_of_works h.works, h.works.queue hinv.queue, ?_, ?_,
    ⟨h.works.count hinv.counts.1, ?_⟩, fun _ => ?_, fun _ => ?_, ⟨fun he => ?_, fun hd => ?_⟩,
    (Engine.progress_of_book h.book).2 (hmove.progress hinv.counts.1 hinv.progress)⟩
  · rw [h.works.regs]
    exact hinv.notBoth
  · rw [h.works.regs]
    exact hinv.errReported
  · rw [h.works.regs]
    exact hinv.counts.2
  · rw [h.works.regs]
    exact hinv.busyClear hbusy
  · have hranges := hinv.busyRanges hbusy
    unfold Engine.overlap State.rangesOrdinary at hranges ⊢
    rwa [h.works.plat, hsrc, hlen, hdst, hcap]
  · rw [hop, hlen]
    exact hencoder (henc ▸ hfsm ▸ he)
  · rw [hop]
    exact hdecoder (hdec ▸ hfsm ▸ hd)

/-- Every engine step keeps the invariant. -/
theorem Inv.engineStep (hinv : Inv s) (ht : engineStep s = .next t) : Inv t := by
  cases engineStep_stepped (R := fun _ => True) ⟨fun _ _ => trivial, fun _ _ _ => trivial⟩ ht with
  | waits => exact hinv
  | raises e info h =>
    exact Inv.errorEntry e info (hinv.memory_of_works h) (h.queue hinv.queue)
      (h.count hinv.counts.1)
  | completes outLen payloadBits hbusy h => exact hinv.complete hbusy h outLen payloadBits
  | advances hmove h => exact hinv.advances hmove h

end Invariant

end Sys2Proof.Machine
end

section
/-! Command acceptance (47_host_interface.md R312): the checks in their order, then the first state
of the command. -/

namespace Sys2Proof.Machine

section Acceptance

variable {s : State} {op : BitVec 4}

theorem latched_overlap (s : State) (op : BitVec 4) :
    (s.latched op).eng.overlap = true ↔
      0 < s.regs.srcLen.toNat ∧ 0 < s.regs.dstCap.toNat
        ∧ s.regs.srcAddr.toNat < s.regs.dstAddr.toNat + s.regs.dstCap.toNat
        ∧ s.regs.dstAddr.toNat < s.regs.srcAddr.toNat + s.regs.srcLen.toNat :=
  decide_eq_true_iff

theorem rangesOrdinary_latched (s : State) (op : BitVec 4) :
    (s.latched op).rangesOrdinary = true ↔ s.operandsOrdinary :=
  Iff.of_eq (Bool.and_eq_true _ _)

/-- What acceptance comes to: it goes on exactly from ranges that pass its checks. -/
theorem acceptCommand_ends (op : BitVec 4) (s : State) :
    (s.regs.rangesOk ∧ acceptCommand op s = .ok () (s.latched op))
      ∨ ∃ e info, acceptCommand op s = raise e info (s.latched op) := by
  rcases acceptCommand_cases op s with ⟨-, h⟩ | ⟨-, -, h⟩ | ⟨-, -, -, h⟩ | ⟨hsrc, hdst, hno, h⟩
  · exact .inr ⟨_, _, h⟩
  · exact .inr ⟨_, _, h⟩
  · exact .inr ⟨_, _, h⟩
  · refine .inl ⟨⟨hsrc, hdst, fun hoverlap => ?_⟩, h⟩
    exact nomatch hno.symm.trans ((latched_overlap s op).2 hoverlap)

/-- Ranges that pass the checks of R312. -/
theorem acceptCommand_ok (op : BitVec 4) (h : s.regs.rangesOk) :
    acceptCommand op s = .ok () (s.latched op) := by
  obtain ⟨hsrc, hdst, hno⟩ := h
  rcases acceptCommand_cases op s with
    ⟨hwrap, -⟩ | ⟨-, hwrap, -⟩ | ⟨-, -, hoverlap, -⟩ | ⟨-, -, -, h⟩
  · omega
  · omega
  · exact absurd ((latched_overlap s op).1 hoverlap) hno
  · exact h

theorem acceptCommand_srcRange (op : BitVec 4)
    (h : 2 ^ 64 < s.regs.srcAddr.toNat + s.regs.srcLen.toNat) :
    acceptCommand op s = raise .srcRange s.regs.srcAddr (s.latched op) := if_pos h

theorem acceptCommand_dstRange (op : BitVec 4)
    (hsrc : s.regs.srcAddr.toNat + s.regs.srcLen.toNat ≤ 2 ^ 64)
    (h : 2 ^ 64 < s.regs.dstAddr.toNat + s.regs.dstCap.toNat) :
    acceptCommand op s = raise .dstRange s.regs.dstAddr (s.latched op) :=
  (if_neg (Nat.not_lt.2 hsrc)).trans (if_pos h)

theorem acceptCommand_overlap (op : BitVec 4)
    (hsrc : s.regs.srcAddr.toNat + s.regs.srcLen.toNat ≤ 2 ^ 64)
    (hdst : s.regs.dstAddr.toNat + s.regs.dstCap.toNat ≤ 2 ^ 64)
    (h : (s.latched op).eng.overlap = true) :
    acceptCommand op s = raise .overlap s.regs.dstAddr (s.latched op) :=
  (if_neg (Nat.not_lt.2 hsrc)).trans ((if_neg (Nat.not_lt.2 hdst)).trans (if_pos h))

theorem startCommand_ok (f : Fsm) (h : s.operandsOrdinary) :
    startCommand f (s.latched op)
      = .ok () ((s.latched op).setEng ((s.latched op).eng.clearTable.goto f)) :=
  if_pos ((rangesOrdinary_latched s op).2 h)

theorem startCommand_fault (f : Fsm) (h : ¬ s.operandsOrdinary) :
    startCommand f (s.latched op) = .fault .notOrdinaryMemory :=
  if_neg (mt (rangesOrdinary_latched s op).1 h)

/-- `ENCODE` past the checks of R312: the length is checked next (45_encoder.md R240). -/
theorem encodeEffect_of_rangesOk (h : s.regs.rangesOk) :
    encodeEffect s =
      if 2 ^ 32 - 1 < s.regs.srcLen.toNat then raise .inputTooLong s.regs.srcLen (s.latched 1)
      else startCommand .eCount (s.latched 1) := by
  rw [encodeEffect, acceptCommand_ok 1 h]
  rfl

theorem decodeEffect_of_rangesOk (h : s.regs.rangesOk) :
    decodeEffect s = startCommand .dHeader (s.latched 2) := by
  rw [decodeEffect, acceptCommand_ok 2 h]
  rfl

theorem encodeEffect_raise {e : ErrSub} {info : DWord}
    (h : acceptCommand 1 s = raise e info (s.latched 1)) :
    encodeEffect s = raise e info (s.latched 1) := by
  rw [encodeEffect, h]
  rfl

theorem decodeEffect_raise {e : ErrSub} {info : DWord}
    (h : acceptCommand 2 s = raise e info (s.latched 2)) :
    decodeEffect s = raise e info (s.latched 2) := by
  rw [decodeEffect, h]
  rfl

/-- `ENCODE` and `DECODE` of an idle core have their effect. -/
theorem exec_encode_of_idle (hidle : s.busy = false) {r : Res Unit} (h : encodeEffect s = r) :
    exec .encode s = r.outcome :=
  (whenIdle_of_idle hidle _).trans (congrArg Res.outcome h)

theorem exec_decode_of_idle (hidle : s.busy = false) {r : Res Unit} (h : decodeEffect s = r) :
    exec .decode s = r.outcome :=
  (whenIdle_of_idle hidle _).trans (congrArg Res.outcome h)

end Acceptance

/-- Settles O11: every check passes, and the state is the one `startCommand` leaves. -/
theorem encodeAccepted : Obligations.EncodeAccepted := by
  intro s hidle hranges hlen hordinary
  have heffect := (encodeEffect_of_rangesOk hranges).trans (if_neg hlen.not_gt)
  exact exec_encode_of_idle hidle (heffect.trans (startCommand_ok .eCount hordinary))

/-- Settles O12: as for `ENCODE`, with no check of the length. -/
theorem decodeAccepted : Obligations.DecodeAccepted := by
  intro s hidle hranges hordinary
  exact exec_decode_of_idle hidle
    ((decodeEffect_of_rangesOk hranges).trans (startCommand_ok .dHeader hordinary))

/-- Settles O13: each clause is the first check of R312, or of `ENCODE`'s length, that fails. -/
theorem acceptanceErrorsInOrder : Obligations.AcceptanceErrorsInOrder := by
  intro s hidle
  refine ⟨fun hsrc => ⟨?_, ?_⟩, fun hsrc hdst => ⟨?_, ?_⟩,
    fun hsrc hdst hlen hcap hlow hhigh => ⟨?_, ?_⟩, fun hranges hlong => ?_⟩
  · exact exec_encode_of_idle hidle (encodeEffect_raise (acceptCommand_srcRange 1 hsrc))
  · exact exec_decode_of_idle hidle (decodeEffect_raise (acceptCommand_srcRange 2 hsrc))
  · exact exec_encode_of_idle hidle (encodeEffect_raise (acceptCommand_dstRange 1 hsrc hdst))
  · exact exec_decode_of_idle hidle (decodeEffect_raise (acceptCommand_dstRange 2 hsrc hdst))
  · exact exec_encode_of_idle hidle (encodeEffect_raise (acceptCommand_overlap 1 hsrc hdst
      ((latched_overlap s 1).2 ⟨hlen, hcap, hlow, hhigh⟩)))
  · exact exec_decode_of_idle hidle (decodeEffect_raise (acceptCommand_overlap 2 hsrc hdst
      ((latched_overlap s 2).2 ⟨hlen, hcap, hlow, hhigh⟩)))
  · exact exec_encode_of_idle hidle ((encodeEffect_of_rangesOk hranges).trans (if_pos hlong))

/-- Settles O52: the checks of acceptance pass, and `startCommand` finds a range that is not
ordinary memory. -/
theorem rangesMustBeOrdinaryMemory : Obligations.RangesMustBeOrdinaryMemory := by
  intro s hidle hranges hordinary
  refine ⟨fun hlen => ?encode, ?decode⟩
  case encode =>
    have heffect := (encodeEffect_of_rangesOk hranges).trans (if_neg hlen.not_gt)
    exact exec_encode_of_idle hidle (heffect.trans (startCommand_fault .eCount hordinary))
  case decode =>
    exact exec_decode_of_idle hidle
      ((decodeEffect_of_rangesOk hranges).trans (startCommand_fault .dHeader hordinary))

/-! ### The command words -/

/-- Each well-formed command instruction is a `CMD` write of its word (30_encoding.md R91). -/
theorem exec_command {i : Instr} {w : Word} (hwf : i.wf = true) (hword : commandWord i = some w)
    (s : State) : exec i s = whenIdle s (commandEffect w s).outcome := by
  cases i <;> cases hword
  case nop => rfl
  case encode => rfl
  case decode => rfl
  case cmdWhileBusy => rfl
  case illegal =>
    have hillegal : legalCommand w = false := (Bool.not_eq_true' _).mp hwf
    have heffect : commandEffect w s = illegalEffect w s := by
      simp only [legalCommand, Bool.or_eq_false_iff, beq_eq_false_iff_ne] at hillegal
      obtain ⟨⟨hnop, hencode⟩, hdecode⟩ := hillegal
      rw [commandEffect, if_neg hnop, if_neg hencode, if_neg hdecode]
    exact (execIllegal_eq hillegal s).trans (by rw [heffect])

theorem commandWord_decodeCommand (w : Word) : commandWord (decodeCommand w) = some w := by
  unfold decodeCommand
  split
  case isTrue h => rw [h]; rfl
  split
  case isTrue h => rw [h]; rfl
  split
  case isTrue h => rw [h]; rfl
  rfl

/-- Settles O16: both are the `CMD` write of the word. -/
theorem commandWordNamesItsCommand : Obligations.CommandWordNamesItsCommand := by
  intro s w hidle
  obtain ⟨hwf, -, -⟩ := selects_decodeCommand w
  exact (exec_command hwf (commandWord_decodeCommand w) s).symm

end Sys2Proof.Machine
end

section
/-! What a host access can do to the machine, instruction by instruction. -/

namespace Sys2Proof.Machine

/-- What a `CMD` write comes to (47_host_interface.md R312 to R315). -/
inductive State.CommandStepped (s : State) : State → Prop
  | rejected (hbusy : s.busy = true) : s.CommandStepped s.reject
  | nothing (hidle : s.busy = false) : s.CommandStepped s
  | illegal (hidle : s.busy = false) (w : Word) :
    s.CommandStepped (s.errorEntry .badOpcode (w.setWidth 64))
  | failed (hidle : s.busy = false) (op : BitVec 4) (e : ErrSub) (info : DWord) :
    s.CommandStepped ((s.latched op).errorEntry e info)
  | encoding (hidle : s.busy = false) (hranges : s.regs.rangesOk)
    (hlen : s.regs.srcLen.toNat ≤ 2 ^ 32 - 1) (hordinary : s.operandsOrdinary) :
    s.CommandStepped ((s.latched 1).setEng ((s.latched 1).eng.clearTable.goto .eCount))
  | decoding (hidle : s.busy = false) (hranges : s.regs.rangesOk)
    (hordinary : s.operandsOrdinary) :
    s.CommandStepped ((s.latched 2).setEng ((s.latched 2).eng.clearTable.goto .dHeader))

/-- What the instruction of a host access comes to (47_host_interface.md R310 to R318). -/
inductive State.HostStepped (s : State) : Instr → State → Prop
  | read (off : Byte) : s.HostStepped (.mmioRead off) (s.logHost (.reg off (readReg s off)))
  | ctrl (v : Word) : s.HostStepped (.mmioWriteCtrl v) (s.setRegs (s.regs.setCtrl v))
  | status (v : Word) : s.HostStepped (.mmioWriteStatus v) (s.acknowledge v)
  | operand (r : OperandReg) (v : Word) (hidle : s.busy = false) :
    s.HostStepped (.mmioWriteOperand r v) (s.setRegs (s.regs.setOperand r v))
  | operandRejected (r : OperandReg) (v : Word) (hbusy : s.busy = true) :
    s.HostStepped (.mmioWriteOperand r v) s.reject
  | ignored (off : Byte) (v : Word) : s.HostStepped (.mmioWriteIgnored off v) s
  | command {i : Instr} {w : Word} {t : State} (hword : commandWord i = some w)
    (h : s.CommandStepped t) : s.HostStepped i t

section HostStep

variable {s t : State} {i : Instr} {w : Word}

theorem encodeEffect_commandStepped (hidle : s.busy = false) :
    (encodeEffect s).all s.CommandStepped := by
  rcases acceptCommand_ends 1 s with ⟨hranges, -⟩ | ⟨e, info, hraise⟩
  · rw [encodeEffect_of_rangesOk hranges]
    split
    · exact .failed hidle 1 _ _
    case isFalse hlen =>
      by_cases hordinary : s.operandsOrdinary
      · rw [startCommand_ok .eCount hordinary]
        exact .encoding hidle hranges (Nat.le_of_not_lt hlen) hordinary
      · rw [startCommand_fault .eCount hordinary]
        trivial
  · rw [encodeEffect_raise hraise]
    exact .failed hidle 1 e info

theorem decodeEffect_commandStepped (hidle : s.busy = false) :
    (decodeEffect s).all s.CommandStepped := by
  rcases acceptCommand_ends 2 s with ⟨hranges, -⟩ | ⟨e, info, hraise⟩
  · rw [decodeEffect_of_rangesOk hranges]
    by_cases hordinary : s.operandsOrdinary
    · rw [startCommand_ok .dHeader hordinary]
      exact .decoding hidle hranges hordinary
    · rw [startCommand_fault .dHeader hordinary]
      trivial
  · rw [decodeEffect_raise hraise]
    exact .failed hidle 2 e info

theorem commandEffect_commandStepped (hidle : s.busy = false) (w : Word) :
    (commandEffect w s).all s.CommandStepped := by
  unfold commandEffect
  split
  · exact .nothing hidle
  split
  · exact encodeEffect_commandStepped hidle
  split
  · exact decodeEffect_commandStepped hidle
  · exact .illegal hidle w

theorem whenIdle_commandStepped (ht : whenIdle s (commandEffect w s).outcome = .next t) :
    s.CommandStepped t := by
  cases hbusy : s.busy with
  | true =>
    rw [whenIdle_of_busy hbusy] at ht
    cases ht
    exact .rejected hbusy
  | false =>
    rw [whenIdle_of_idle hbusy] at ht
    exact Res.all_outcome (commandEffect_commandStepped hbusy w) ht

/-- An instruction that answers a next state is well formed, if it is a command's. -/
theorem wf_of_exec_next (hword : commandWord i = some w) (ht : exec i s = .next t) :
    i.wf = true := by
  cases i <;> cases hword
  case illegal =>
    refine (Bool.not_eq_true' _).mpr (Bool.eq_false_iff.2 fun hlegal => ?_)
    exact nomatch (if_pos hlegal).symm.trans ht
  all_goals rfl

theorem exec_commandStepped (hword : commandWord i = some w) (ht : exec i s = .next t) :
    s.CommandStepped t :=
  whenIdle_commandStepped ((exec_command (wf_of_exec_next hword ht) hword s).symm.trans ht)

/-- What the instruction of a host access can do. -/
theorem exec_hostStepped (hi : i.hostVisible = true) (ht : exec i s = .next t) :
    s.HostStepped i t := by
  have hcommand {w : Word} (hword : commandWord i = some w) : s.HostStepped i t :=
    .command hword (exec_commandStepped hword ht)
  cases i
  case nop => exact hcommand rfl
  case encode => exact hcommand rfl
  case decode => exact hcommand rfl
  case illegal => exact hcommand rfl
  case cmdWhileBusy => exact hcommand rfl
  case mmioRead off =>
    by_cases halign : alignedOffset off = true
    · cases (if_pos halign).symm.trans ht
      exact .read off
    · exact nomatch (if_neg halign).symm.trans ht
  case mmioWriteCtrl v =>
    cases ht
    exact .ctrl v
  case mmioWriteStatus v =>
    cases ht
    exact .status v
  case mmioWriteOperand r v =>
    by_cases hbusy : s.busy = true
    · cases (if_pos hbusy).symm.trans ht
      exact .operandRejected r v hbusy
    · cases (if_neg hbusy).symm.trans ht
      exact .operand r v (Bool.eq_false_iff.2 hbusy)
  case mmioWriteIgnored off v =>
    by_cases halign : alignedOffset off = true
    · have ht := (if_pos halign).symm.trans ht
      by_cases hign : ignoredOffset off = true
      · cases (if_pos hign).symm.trans ht
        exact .ignored off v
      · exact nomatch (if_neg hign).symm.trans ht
    · exact nomatch (if_neg halign).symm.trans ht
  all_goals exact nomatch hi

end HostStep

end Sys2Proof.Machine
end

section
/-! The whole machine: the invariant along every step, the transitions of the FSM, the addresses the
engine touches, and the reset event. -/

namespace Sys2Proof.Machine

/-! ### Host accesses keep the invariant -/

section HostInvariant

variable {s t : State}

/-- The invariant speaks of the registers, the engine, the platform and memory. -/
theorem Inv.of_eq (hinv : Inv s) (hregs : t.regs = s.regs) (heng : t.eng = s.eng)
    (hplat : t.plat = s.plat) (hmem : Memory.wf t.mem = true) : Inv t := by
  cases s
  cases t
  cases hregs
  cases heng
  cases hplat
  exact ⟨hmem, hinv.queue, hinv.notBoth, hinv.errReported, hinv.counts, hinv.busyClear,
    hinv.busyRanges, hinv.command, hinv.progress⟩

theorem Inv.setInputs (hinv : Inv s) (l : List Timed) : Inv (s.setInputs l) :=
  hinv.of_eq rfl rfl rfl hinv.memory

/-- Registers that report no more than before, with the codes and results as they were. -/
theorem Inv.setRegs (hinv : Inv s) {r : Regs} (hdone : r.done = true → s.regs.done = true)
    (herr : r.err = true → s.regs.err = true)
    (hreport : r.errCode = s.regs.errCode ∧ r.errSub = s.regs.errSub ∧ r.errInfo = s.regs.errInfo
      ∧ r.outLen = s.regs.outLen ∧ r.payloadBits = s.regs.payloadBits
      ∧ r.symbols = s.regs.symbols) : Inv (s.setRegs r) := by
  obtain ⟨hcode, hsub, hinfo, hlen, hbits, hsymbols⟩ := hreport
  refine ⟨hinv.memory, hinv.queue, fun h => hinv.notBoth ⟨hdone h.1, herr h.2⟩, ?_, ?_,
    fun hbusy => ?_, hinv.busyRanges, hinv.command, hinv.progress⟩
  · rw [State.setRegs_regs, hcode]
    exact ⟨hinv.errReported.1, fun h => hinv.errReported.2 (herr h)⟩
  · rw [State.setRegs_regs, hsymbols]
    exact hinv.counts
  · obtain ⟨hnotDone, hnotErr, hrest⟩ := hinv.busyClear hbusy
    rw [State.setRegs_regs, hcode, hsub, hinfo, hlen, hbits, hsymbols]
    rw [← Bool.not_eq_true] at hnotDone hnotErr
    exact ⟨Bool.eq_false_iff.2 (mt hdone hnotDone), Bool.eq_false_iff.2 (mt herr hnotErr), hrest⟩

theorem Inv.reject (hinv : Inv s) : Inv s.reject :=
  hinv.setRegs id id ⟨rfl, rfl, rfl, rfl, rfl, rfl⟩

/-- A cleared table sums to 0. -/
theorem freqSum_clearTable (g : Engine) : g.clearTable.freqSum = 0 := by
  unfold Engine.freqSum
  refine List.sum_eq_zero fun n hn => ?_
  obtain ⟨v, -, rfl⟩ := List.mem_map.1 hn
  exact congrArg BitVec.toNat (freqOf_clearTable g v)

/-- An accepted command begins with the ranges that acceptance checked (47_host_interface.md
R312). -/
theorem Inv.accepted (hinv : Inv s) (hranges : s.regs.rangesOk) (hordinary : s.operandsOrdinary)
    (op : BitVec 4) (f : Fsm)
    (hcommand : (f.isEncoder = true → op = 1 ∧ s.regs.srcLen.toNat ≤ 2 ^ 32 - 1)
      ∧ (f.isDecoder = true → op = 2))
    (hprogress : ((s.latched op).eng.clearTable.goto f).progress) :
    Inv ((s.latched op).setEng ((s.latched op).eng.clearTable.goto f)) := by
  obtain ⟨hsrc, hdst, hno⟩ := hranges
  have hoverlap : (s.latched op).eng.overlap = false :=
    Bool.eq_false_iff.2 fun h => hno ((latched_overlap s op).1 h)
  exact ⟨hinv.memory, hinv.queue, fun h => absurd h.1 Bool.false_ne_true,
    ⟨Nat.zero_le _, fun h => absurd h Bool.false_ne_true⟩,
    ⟨hinv.counts.1, Nat.zero_le _⟩, fun _ => ⟨rfl, rfl, rfl, rfl, rfl, rfl, rfl, rfl⟩,
    fun _ => ⟨hsrc, hdst, hoverlap, (rangesOrdinary_latched s op).2 hordinary⟩, hcommand,
    hprogress⟩

theorem Inv.commandStepped (hinv : Inv s) (h : s.CommandStepped t) : Inv t := by
  cases h with
  | rejected => exact hinv.reject
  | nothing => exact hinv
  | illegal => exact Inv.errorEntry _ _ hinv.memory hinv.queue hinv.counts.1
  | failed hidle op e info =>
    exact Inv.errorEntry (u := s.latched op) e info hinv.memory hinv.queue hinv.counts.1
  | encoding hidle hranges hlen hordinary =>
    exact hinv.accepted hranges hordinary 1 .eCount
      ⟨fun _ => ⟨rfl, hlen⟩, fun h => absurd h Bool.false_ne_true⟩
      ⟨Nat.zero_le _, freqSum_clearTable (s.latched 1).eng⟩
  | decoding hidle hranges hordinary =>
    exact hinv.accepted hranges hordinary 2 .dHeader
      ⟨fun h => absurd h Bool.false_ne_true, fun _ => rfl⟩
      ((progress_fields (g := (s.latched 2).eng.clearTable.goto .dHeader) rfl (.inl rfl)).2
        (freqSum_clearTable (s.latched 2).eng))

theorem Inv.hostStepped {i : Instr} (hinv : Inv s) (h : s.HostStepped i t) : Inv t := by
  cases h with
  | read off => exact hinv.of_eq rfl rfl rfl hinv.memory
  | ctrl v => exact hinv.setRegs id id ⟨rfl, rfl, rfl, rfl, rfl, rfl⟩
  | status v =>
    exact hinv.setRegs (r := s.regs.w1c v) (fun h => ((Bool.and_eq_true _ _).mp h).1)
      (fun h => ((Bool.and_eq_true _ _).mp h).1) ⟨rfl, rfl, rfl, rfl, rfl, rfl⟩
  | operand r v =>
    cases r <;> exact hinv.setRegs id id ⟨rfl, rfl, rfl, rfl, rfl, rfl⟩
  | operandRejected => exact hinv.reject
  | ignored => exact hinv
  | command hword h => exact hinv.commandStepped h

theorem hostVisible_of_encode {i : Instr} {a : Access} (h : encode i = some a) :
    i.hostVisible = true := by
  cases i <;> cases h <;> rfl

/-- A host access that answers a next state is the instruction it decodes to. -/
theorem hostAccess_hostStepped {a : Access} (ht : hostAccess a s = .next t) :
    ∃ i, s.HostStepped i t := by
  unfold hostAccess at ht
  split at ht
  case h_1 i hdecode =>
    obtain ⟨-, -, henc⟩ := encodeOfDecode i s.busy a hdecode
    exact ⟨i, exec_hostStepped (hostVisible_of_encode henc) ht⟩
  case h_2 => exact nomatch ht

end HostInvariant

end Sys2Proof.Machine
end

section
/-! The whole machine: the engine's transactions, the reset event, and what every step keeps. -/

namespace Sys2Proof.Machine

/-! ### The engine's transactions -/

section Port

variable {R : Nat → Prop} {s t u : State}

/-- A step's transactions: they are on record, their writes are in memory, and each is allowed. -/
theorem State.EngineStepped.port (h : s.EngineStepped R t) :
    ∃ log : List BusAccess, t.busLog = log ++ s.busLog
      ∧ t.mem = log.reverse.foldl BusAccess.land s.mem ∧ ∀ x ∈ log, x.allowed R s.eng := by
  cases h with
  | waits => exact (State.Works.refl R s).port
  | raises e info h => exact h.port
  | completes outLen payloadBits hbusy h => exact h.port
  | advances hmove h => exact h.works.port

/-- With no condition on the addresses read, every step's reads are in range. -/
theorem State.readsIn_any (s : State) : s.readsIn fun _ => True :=
  ⟨fun _ _ => trivial, fun _ _ _ => trivial⟩

/-- `nextAccesses` are the transactions of the step in progress. -/
theorem nextAccesses_of_next (ht : engineStep s = .next t) :
    t.busLog = (nextAccesses s).reverse ++ s.busLog
      ∧ t.mem = (nextAccesses s).foldl BusAccess.land s.mem := by
  obtain ⟨log, hlog, hmem, -⟩ := (engineStep_stepped s.readsIn_any ht).port
  have hnext : nextAccesses s = log.reverse := by
    rw [nextAccesses, ht]
    simp [hlog]
  rw [hnext, List.reverse_reverse]
  exact ⟨hlog, hmem⟩

theorem nextAccesses_allowed (s : State) :
    ∀ x ∈ nextAccesses s, x.allowed (fun _ => True) s.eng := by
  intro x hx
  cases hstep : engineStep s with
  | next t =>
    obtain ⟨log, hlog, -, hallowed⟩ := (engineStep_stepped s.readsIn_any hstep).port
    obtain ⟨hbus, -⟩ := nextAccesses_of_next hstep
    have hsame := List.append_cancel_right (hlog.symm.trans hbus)
    exact hallowed x (hsame ▸ List.mem_reverse.2 hx)
  | fault f => simp [nextAccesses, hstep] at hx
  | refused r => simp [nextAccesses, hstep] at hx

/-- In `D_PAYLOAD` the declared bits lie in the input range, behind the header (46_decoder.md
R273). -/
theorem Inv.readsIn (hinv : Inv s) : s.readsIn fun a => s.eng.srcRange.holds a = true := by
  refine ⟨fun _ h => h, fun hfsm p hp => ?_⟩
  have hprogress := hinv.progress
  simp only [Engine.progress, hfsm] at hprogress
  obtain ⟨-, -, -, hbase, hsize⟩ := hprogress
  obtain ⟨hsrc, -⟩ := hinv.busyRanges (bne_iff_ne.2 (by rw [hfsm]; decide))
  have hadd : (s.eng.src + s.eng.hsize).toNat = s.eng.src.toNat + s.eng.hsize.toNat :=
    BitVec.toNat_add_of_lt (by omega)
  rw [hbase, hadd]
  exact decide_eq_true ⟨show s.eng.src.toNat ≤ _ by omega,
    show _ < s.eng.src.toNat + s.eng.len.toNat by omega⟩

end Port

/-- Settles O56: the invariant puts the step's reads in the input range, and a write is made, or
answered with an error, only past the bound check. -/
theorem engineAccessesInRange : Obligations.EngineAccessesInRange := by
  intro s t hinv ht
  obtain ⟨log, hlog, -, hallowed⟩ := (engineStep_stepped hinv.readsIn ht).port
  refine ⟨log, hlog, fun a v hread => ?reads, fun a v hwrite => ?writes⟩
  case reads =>
    have hsource : s.eng.srcRange.holds a = true := by
      rcases hread with h | h
      · exact hallowed _ h
      · exact hallowed _ h
    exact of_decide_eq_true hsource
  case writes =>
    have hbound : s.eng.inBound a = true := by
      rcases hwrite with h | h
      · exact (hallowed _ h).1
      · exact (hallowed _ h).1
    exact (inBound_iff s.eng a).1 hbound

/-! ### The reset event -/

section Reset

/-- Transactions leave a byte that none of them writes. -/
theorem read_foldl_land_ne (log : List BusAccess) {a : Nat} :
    ∀ {m : List Host.Cell}, (∀ v, BusAccess.write a v ∉ log) →
      Memory.read (log.foldl BusAccess.land m) a = Memory.read m a := by
  induction log with
  | nil => exact fun _ => rfl
  | cons x log ih =>
    intro m h
    rw [List.foldl_cons, ih fun v hv => h v (List.mem_cons_of_mem _ hv)]
    exact read_land_ne m x fun v hx => h v (hx ▸ List.mem_cons_self)

/-- The last write made to a byte is the one it reads as. -/
theorem read_foldl_land_last {R : Nat → Prop} {g : Engine} {earlier later : List BusAccess}
    {a : Nat} {v : Byte} {m : List Host.Cell} (hm : Memory.wf m = true)
    (hallowed : ∀ x ∈ earlier, x.allowed R g) (hlast : ∀ w, BusAccess.write a w ∉ later) :
    Memory.read ((earlier ++ BusAccess.write a v :: later).foldl BusAccess.land m) a = v := by
  rw [List.foldl_append, List.foldl_cons, read_foldl_land_ne later hlast]
  exact Memory.read_write_eq (wf_foldl_land earlier hallowed hm) a v

end Reset

/-- Settles O9: the transactions made are the first `n` of those of the step in progress, and memory
is the old one with their writes. -/
theorem resetEventAbandonsCommand : Obligations.ResetEventAbandonsCommand := by
  intro s n rest hin
  have hallowed := nextAccesses_allowed (s.setInputs rest)
  have hmade : ∀ x ∈ (nextAccesses (s.setInputs rest)).take n, x.allowed (fun _ => True) s.eng :=
    fun x hx => hallowed x (List.mem_of_mem_take hx)
  refine ⟨resetEvent n (s.setInputs rest), ((nextAccesses (s.setInputs rest)).take n).reverse,
    step_of_input hin, rfl, rfl, rfl, rfl, rfl, rfl, rfl, rfl, ?_, ?_, ?_, ?_, ?_, ?_⟩
  · rw [List.length_reverse]
    exact List.length_take_le _ _
  · rintro rfl
    rfl
  · rw [List.reverse_reverse]
    rfl
  · intro hwf a v later earlier hsplit hlast
    have horder : (nextAccesses (s.setInputs rest)).take n
        = earlier.reverse ++ BusAccess.write a v :: later.reverse := by
      simpa using congrArg List.reverse hsplit
    rw [horder] at hmade
    show Memory.read (((nextAccesses (s.setInputs rest)).take n).foldl BusAccess.land s.mem) a = v
    rw [horder]
    exact read_foldl_land_last hwf (fun x hx => hmade x (List.mem_append_left _ hx))
      fun w hw => hlast w (List.mem_reverse.1 hw)
  · intro a hnone
    exact read_foldl_land_ne _ fun v hv => hnone v (List.mem_reverse.2 hv)
  · intro u hu
    obtain ⟨hbus, -⟩ := nextAccesses_of_next (s := s.setInputs rest) hu
    refine ⟨((nextAccesses (s.setInputs rest)).drop n).reverse, ?_, fun hlater => ?_⟩
    · rw [hbus, ← List.reverse_append, List.take_append_drop]
      rfl
    · rw [List.length_reverse, List.length_take]
      have hmore : (nextAccesses (s.setInputs rest)).drop n ≠ [] :=
          mt List.reverse_eq_nil_iff.2 hlater
      rw [ne_eq, List.drop_eq_nil_iff] at hmore
      omega

/-! ### What an input can do -/

section Inputs

variable {s t : State}

/-- A store that lands is inside memory, and changes memory alone. -/
theorem hostStore_next_inv {addr : Nat} {bytes : List Byte}
    (ht : hostStore addr bytes s = .next t) :
    addr + bytes.length ≤ Config.memorySize
      ∧ t = { s with mem := Memory.writeBytes s.mem addr bytes } := by
  unfold hostStore at ht
  split at ht
  · exact nomatch ht
  case isFalse hsize =>
    split at ht
    · exact nomatch ht
    split at ht
    · exact nomatch ht
    split at ht
    · exact nomatch ht
    cases ht
    exact ⟨Nat.le_of_not_lt hsize, rfl⟩

/-- A load that lands changes the host's record alone. -/
theorem hostLoad_next_inv {addr : DWord} (ht : hostLoad addr s = .next t) :
    t = s.logHost (.mem addr (Memory.read s.mem addr.toNat)) := by
  unfold hostLoad at ht
  split at ht
  · exact nomatch ht
  split at ht
  · exact nomatch ht
  split at ht
  · exact nomatch ht
  cases ht
  rfl

/-- An input is a host access, with other inputs to come after a poll; or it leaves the registers
and the engine; or it is a reset. -/
theorem applyInput_cases {x : Input} (ht : applyInput x s = .next t) :
    (∃ i u l, s.HostStepped i u ∧ t = u.setInputs l)
      ∨ (t.regs = s.regs ∧ t.eng = s.eng ∧ t.plat = s.plat
        ∧ (Memory.wf s.mem = true → Memory.wf t.mem = true))
      ∨ ∃ n, t = resetEvent n s := by
  cases x with
  | mmio a =>
    obtain ⟨i, hi⟩ := hostAccess_hostStepped ht
    exact .inl ⟨i, t, t.inputs, hi, rfl⟩
  | poll off mask val gaps =>
    obtain ⟨u, hu, hpoll⟩ := onNext_next_inv ht
    obtain ⟨i, hi⟩ := hostAccess_hostStepped hu
    split at hpoll <;> cases hpoll
    · exact .inl ⟨i, t, t.inputs, hi, rfl⟩
    · exact .inl ⟨i, u, _, hi, rfl⟩
  | store addr bytes =>
    obtain ⟨hsize, rfl⟩ := hostStore_next_inv ht
    exact .inr (.inl ⟨rfl, rfl, rfl, fun hmem => Memory.wf_writeBytes bytes hmem hsize⟩)
  | load addr =>
    obtain rfl := hostLoad_next_inv ht
    exact .inr (.inl ⟨rfl, rfl, rfl, id⟩)
  | reset n =>
    cases ht
    exact .inr (.inr ⟨n, rfl⟩)

end Inputs

/-! ### The invariant -/

/-- Right after reset, whatever memory holds. -/
theorem Inv.of_reset {u : State} (hregs : u.regs = Regs.reset) (heng : u.eng = Engine.reset)
    (hmem : Memory.wf u.mem = true) : Inv u := by
  refine Inv.of_idle (by rw [heng]; rfl) hmem ?_ ?_ ?_ ?_
  · rw [heng]
    exact ⟨List.Pairwise.nil, Nat.zero_le _⟩
  · rw [hregs]
    exact fun h => absurd h.1 Bool.false_ne_true
  · rw [hregs]
    exact ⟨Nat.zero_le _, fun h => absurd h Bool.false_ne_true⟩
  · rw [hregs, heng]
    exact ⟨Nat.zero_le _, Nat.zero_le _⟩

/-- Settles O57: nothing is listed, queued, reported or running. -/
theorem resetMeetsInvariant : Obligations.ResetMeetsInvariant :=
  Inv.of_reset rfl rfl Memory.wf_reset

theorem Inv.resetEvent {s : State} (hinv : Inv s) (n : Nat) : Inv (resetEvent n s) := by
  have hallowed := nextAccesses_allowed s
  exact Inv.of_reset rfl rfl (wf_foldl_land ((nextAccesses s).take n)
    (fun x hx => hallowed x (List.mem_of_mem_take hx)) hinv.memory)

/-- Every input keeps the invariant. -/
theorem Inv.applyInput {s t : State} (hinv : Inv s) {x : Input} (ht : applyInput x s = .next t) :
    Inv t := by
  rcases applyInput_cases ht with ⟨i, u, l, hi, rfl⟩ | ⟨hregs, heng, hplat, hmem⟩ | ⟨n, rfl⟩
  · exact (hinv.hostStepped hi).setInputs l
  · exact hinv.of_eq hregs heng hplat (hmem hinv.memory)
  · exact hinv.resetEvent n

/-- Settles O58: a step is the engine's or an input's. -/
theorem stepKeepsInvariant : Obligations.StepKeepsInvariant := by
  intro s t hinv ht
  rcases step_cases s with ⟨u, hturn, hstep⟩ | ⟨x, rest, -, hstep⟩
  · have hu : Inv u := by
      rcases hturn with ⟨-, rfl⟩ | ⟨n, x, rest, -, rfl⟩
      · exact hinv
      · exact hinv.setInputs (⟨n, x⟩ :: rest)
    exact hu.engineStep (hstep.symm.trans ht)
  · exact (hinv.setInputs rest).applyInput (hstep.symm.trans ht)

/-! ### The transitions of the FSM -/

section Transitions

variable {R : Nat → Prop} {s t : State}

theorem Fsm.mayMove_self (f : Fsm) : f.mayMove f = true := by cases f <;> rfl

theorem Fsm.mayMove_idle (f : Fsm) : f.mayMove .idle = true := by cases f <;> rfl

theorem State.EngineStepped.mayMove (h : s.EngineStepped R t) :
    s.eng.fsm.mayMove t.eng.fsm = true := by
  cases h with
  | waits => exact Fsm.mayMove_self _
  | raises => exact Fsm.mayMove_idle _
  | completes => exact Fsm.mayMove_idle _
  | advances hmove h =>
    rw [Engine.congr_book h.book Engine.fsm fun _ => rfl]
    exact hmove.mayMove

theorem fsm_of_not_busy (h : s.busy = false) : s.eng.fsm = .idle := by
  simpa [State.busy] using h

theorem State.CommandStepped.mayMove (h : s.CommandStepped t) :
    s.eng.fsm.mayMove t.eng.fsm = true := by
  cases h with
  | rejected => exact Fsm.mayMove_self _
  | nothing => exact Fsm.mayMove_self _
  | illegal => exact Fsm.mayMove_idle _
  | failed => exact Fsm.mayMove_idle _
  | encoding hidle =>
    rw [fsm_of_not_busy hidle]
    rfl
  | decoding hidle =>
    rw [fsm_of_not_busy hidle]
    rfl

theorem State.HostStepped.mayMove {i : Instr} (h : s.HostStepped i t) :
    s.eng.fsm.mayMove t.eng.fsm = true := by
  cases h with
  | command hword h => exact h.mayMove
  | _ => exact Fsm.mayMove_self _

end Transitions

/-- Settles O54: the moves of `Engine.Advances` and the starts of the two commands. -/
theorem onlyLegalTransitions : Obligations.OnlyLegalTransitions := by
  intro s t ht
  rcases step_cases s with ⟨u, hturn, hstep⟩ | ⟨x, rest, -, hstep⟩
  · have hmove := (engineStep_stepped u.readsIn_any (hstep.symm.trans ht)).mayMove
    rcases hturn with ⟨-, rfl⟩ | ⟨n, x, rest, -, rfl⟩ <;> exact hmove
  · rcases applyInput_cases (hstep.symm.trans ht) with
      ⟨i, u, l, hi, rfl⟩ | ⟨-, heng, -, -⟩ | ⟨n, rfl⟩
    · exact hi.mayMove
    · rw [heng]
      exact Fsm.mayMove_self _
    · exact Fsm.mayMove_idle _

/-! ### What every instruction keeps -/

section Registers

variable {s t : State}

/-- The registers' bits and words that the engine's updates leave. -/
theorem engineClosed_regs {α : Type} (f : Regs → α) (x : α)
    (hreport : ∀ r e info, f (Regs.report r e info) = f r)
    (hfinished : ∀ r outLen payloadBits k, f (Regs.finished r outLen payloadBits k) = f r) :
    EngineClosed fun s => f s.regs = x where
  setEng _ _ _ h := h
  logBus _ _ h := h
  error s e info h := (hreport s.regs e info).trans h
  store _ _ _ _ _ h := h
  complete s outLen payloadBits h := (hfinished s.regs outLen payloadBits s.eng.k).trans h

/-- `REJ` after a `CMD` write (47_host_interface.md R315). -/
theorem State.CommandStepped.rej (h : s.CommandStepped t) :
    t.regs.rej = (s.regs.rej || s.busy) := by
  cases h with
  | rejected hbusy => rw [hbusy, Bool.or_true]; rfl
  | nothing hidle => rw [hidle, Bool.or_false]
  | illegal hidle => rw [hidle, Bool.or_false]; rfl
  | failed hidle => rw [hidle, Bool.or_false]; rfl
  | encoding hidle => rw [hidle, Bool.or_false]; rfl
  | decoding hidle => rw [hidle, Bool.or_false]; rfl

/-- `REJ` after an operand write (47_host_interface.md R316). -/
theorem rej_of_operandWrite {r : OperandReg} {v : Word}
    (h : s.HostStepped (.mmioWriteOperand r v) t) : t.regs.rej = (s.regs.rej || s.busy) := by
  cases h with
  | operand r v hidle =>
    rw [hidle, Bool.or_false]
    cases r <;> rfl
  | operandRejected r v hbusy =>
    rw [hbusy, Bool.or_true]
    rfl
  | command hword h => exact nomatch hword

/-- Settles O22: a micro-operation leaves `REJ`; of the host's accesses a `CMD` or operand write
sets it where the core turns it away, a `STATUS` write masks it. -/
theorem rejIsSticky : Obligations.RejIsSticky := by
  intro i s t ht
  cases i
  case nop => exact (exec_commandStepped rfl ht).rej
  case encode => exact (exec_commandStepped rfl ht).rej
  case decode => exact (exec_commandStepped rfl ht).rej
  case illegal => exact (exec_commandStepped rfl ht).rej
  case cmdWhileBusy => exact (exec_commandStepped rfl ht).rej
  case mmioRead off =>
    cases exec_hostStepped rfl ht with
    | read => rfl
    | command hword => exact nomatch hword
  case mmioWriteCtrl v => cases ht; rfl
  case mmioWriteStatus v => cases ht; rfl
  case mmioWriteOperand r v => exact rej_of_operandWrite (exec_hostStepped rfl ht)
  case mmioWriteIgnored off v =>
    cases exec_hostStepped rfl ht with
    | ignored => rfl
    | command hword => exact nomatch hword
  all_goals
    exact exec_keeps (engineClosed_regs Regs.rej s.regs.rej (fun _ _ _ => rfl)
      fun _ _ _ _ => rfl) rfl rfl ht

/-- The operand registers (10_state.md R33, R34). -/
def Regs.operands (r : Regs) : DWord × DWord × DWord × DWord :=
  (r.srcAddr, r.srcLen, r.dstAddr, r.dstCap)

theorem State.CommandStepped.hostRegs (h : s.CommandStepped t) :
    t.regs.ie = s.regs.ie ∧ t.regs.operands = s.regs.operands := by
  cases h <;> exact ⟨rfl, rfl⟩

theorem State.HostStepped.ie {i : Instr} (h : s.HostStepped i t) (hi : ∀ v, i ≠ .mmioWriteCtrl v) :
    t.regs.ie = s.regs.ie := by
  cases h with
  | ctrl v => exact absurd rfl (hi v)
  | operand r v => cases r <;> rfl
  | command hword h => exact h.hostRegs.1
  | _ => rfl

theorem State.HostStepped.operands {i : Instr} (h : s.HostStepped i t)
    (hi : ∀ r v, i ≠ .mmioWriteOperand r v) : t.regs.operands = s.regs.operands := by
  cases h with
  | operand r v => exact absurd rfl (hi r v)
  | command hword h => exact h.hostRegs.2
  | _ => rfl

/-- Settles O23: the engine leaves these registers, and so does every host access but the one that
writes them. -/
theorem hostRegistersOnlyByHostWrites : Obligations.HostRegistersOnlyByHostWrites := by
  intro i s t ht
  have hkept : ((∀ v, i ≠ .mmioWriteCtrl v) → t.regs.ie = s.regs.ie)
      ∧ ((∀ r v, i ≠ .mmioWriteOperand r v) → t.regs.operands = s.regs.operands) := by
    by_cases hi : i.hostVisible = true
    · have hhost := exec_hostStepped hi ht
      exact ⟨hhost.ie, hhost.operands⟩
    · have hkeeps {α : Type} (f : Regs → α) (hf : ∀ r e info, f (Regs.report r e info) = f r)
          (hf' : ∀ r outLen bits k, f (Regs.finished r outLen bits k) = f r) :
          f t.regs = f s.regs :=
        exec_keeps (engineClosed_regs f (f s.regs) hf hf') (Bool.eq_false_iff.2 hi) rfl ht
      exact ⟨fun _ => hkeeps Regs.ie (fun _ _ _ => rfl) fun _ _ _ _ => rfl,
        fun _ => hkeeps Regs.operands (fun _ _ _ => rfl) fun _ _ _ _ => rfl⟩
  refine ⟨hkept.1, fun hi => ?_⟩
  have hoperands := hkept.2 hi
  simp only [Regs.operands, Prod.mk.injEq] at hoperands
  exact hoperands

end Registers

/-! ### The output range -/

/-- Bytes outside the latched output range (20_memory.md R73) read as in memory `m`. -/
def State.outsideKept (g : Engine) (m : List Host.Cell) (s : State) : Prop :=
  s.eng.sameOperands g
    ∧ ∀ a, g.inBound a = false → Memory.read s.mem a = Memory.read m a

theorem engineClosed_outsideKept (g : Engine) (m : List Host.Cell) :
    EngineClosed (State.outsideKept g m) where
  setEng _ _ hop h := ⟨Engine.sameOperands_trans hop h.1, h.2⟩
  logBus _ _ h := h
  error _ _ _ h := h
  complete _ _ _ h := h
  store s a v hbound _ h := by
    refine ⟨h.1, fun b hb => ?_⟩
    have hne : b ≠ a := fun e => by
      rw [e, ← Engine.inBound_congr h.1, hbound] at hb
      exact nomatch hb
    exact (Memory.read_write_ne s.mem v hne).trans (h.2 b hb)

theorem State.HostStepped.mem {i : Instr} {s t : State} (h : s.HostStepped i t) :
    t.mem = s.mem := by
  cases h with
  | command hword h => cases h <;> rfl
  | _ => rfl

/-- Settles O55: a micro-operation writes past the bound check alone, a host access
writes nothing. -/
theorem engineWritesOnlyOutputRange : Obligations.EngineWritesOnlyOutputRange := by
  intro i s t a ht hout
  by_cases hi : i.hostVisible = true
  · rw [(exec_hostStepped hi ht).mem]
  · have hkept : t.outsideKept s.eng s.mem :=
      exec_keeps (engineClosed_outsideKept s.eng s.mem) (Bool.eq_false_iff.2 hi)
        ⟨s.eng.sameOperands_refl, fun _ _ => rfl⟩ ht
    exact hkept.2 a (Bool.eq_false_iff.2 fun hb => hout ((inBound_iff s.eng a).1 hb))

end Sys2Proof.Machine
end

section
/-! The writer on any clean accumulator (44_bitstream.md R211 to R213): the waiting bits and the new
ones are one string, whose bytes go to memory as they fill. -/

namespace Sys2Proof.Machine

/-! ### Packed bytes -/

/-- The number that `n` bits make, the first one most significant. -/
def bitsNat (b : Nat → Bool) (n : Nat) : Nat :=
  ((List.range n).map fun q => if b q then 2 ^ (n - 1 - q) else 0).sum

theorem bitsNat_succ (b : Nat → Bool) (n : Nat) :
    bitsNat b (n + 1) = Nat.bit (b n) (bitsNat b n) := by
  have hdouble : (List.range n).map (fun q => if b q then 2 ^ (n + 1 - 1 - q) else 0)
      = (List.range n).map fun q => 2 * if b q then 2 ^ (n - 1 - q) else 0 := by
    refine List.map_congr_left fun q hq => ?_
    have hexp : n + 1 - 1 - q = n - 1 - q + 1 := by
      have := List.mem_range.1 hq
      omega
    rw [hexp, Nat.pow_succ, Nat.mul_comm, mul_ite, Nat.mul_zero]
  have hlast : n + 1 - 1 - n = 0 := by omega
  rw [bitsNat, List.range_succ, List.map_append, List.sum_append, hdouble, List.sum_map_mul_left,
    Nat.bit_val, List.map_singleton, List.sum_singleton, hlast]
  cases b n <;> rfl

theorem testBit_bitsNat (b : Nat → Bool) (n : Nat) :
    ∀ {q : Nat}, q < n → (bitsNat b n).testBit (n - 1 - q) = b q := by
  induction n with
  | zero => exact fun h => absurd h (Nat.not_lt_zero _)
  | succ n ih =>
    intro q hq
    rw [bitsNat_succ]
    by_cases hlast : q = n
    · rw [hlast, Nat.add_sub_cancel, Nat.sub_self, Nat.testBit_bit_zero]
    · have hexp : n + 1 - 1 - q = n - 1 - q + 1 := by omega
      rw [hexp, Nat.testBit_bit_succ]
      exact ih (by omega)

/-- A packed byte's bits, in the order of the payload (20_memory.md R65). -/
theorem payloadBit_packedByte (bs : List Bool) (q i : Nat) :
    payloadBit (packedByte bs q) i = bs.getD (8 * q + i % 8) false := by
  have hi : i % 8 < 8 := Nat.mod_lt _ (by decide)
  have hbit := testBit_bitsNat (fun p => (bs.drop (8 * q)).getD p false) 8 hi
  have hbyte : packedByte bs q
      = BitVec.ofNat 8 (bitsNat (fun p => (bs.drop (8 * q)).getD p false) 8) := rfl
  rw [payloadBit, hbyte, BitVec.getLsbD_ofNat, hbit, List.getD_eq_getElem?_getD,
    List.getElem?_drop, ← List.getD_eq_getElem?_getD]
  simp
  omega

/-- A byte is its payload bits. -/
theorem byte_ext {x y : Byte} (h : ∀ i < 8, payloadBit x i = payloadBit y i) : x = y := by
  refine BitVec.eq_of_getLsbD_eq fun j hj => ?_
  have hj' := h (7 - j) (by omega)
  have hback : 7 - (7 - j) % 8 = j := by omega
  rwa [payloadBit, payloadBit, hback] at hj'

/-- A byte that is full does not depend on the bits behind it. -/
theorem packedByte_append {bs : List Bool} (cs : List Bool) {q : Nat}
    (h : 8 * (q + 1) ≤ bs.length) : packedByte (bs ++ cs) q = packedByte bs q := by
  refine byte_ext fun i hi => ?_
  have hlt : 8 * q + i % 8 < bs.length := by omega
  rw [payloadBit_packedByte, payloadBit_packedByte, List.getD_append _ _ _ _ hlt]

/-- Behind the last bit there are zeros. -/
theorem packedByte_past {bs : List Bool} {q : Nat} (h : bs.length ≤ 8 * q) :
    packedByte bs q = 0 := by
  refine byte_ext fun i _ => ?_
  rw [payloadBit_packedByte, List.getD_eq_default _ _ (by omega), payloadBit_zero]

/-- One more bit goes into the byte in progress (44_bitstream.md R211). -/
theorem packedByte_concat (bs : List Bool) (b : Bool) {nacc : BitVec 4}
    (hnacc : nacc.toNat = bs.length % 8) :
    packedByte bs (bs.length / 8) ||| bitAt b nacc = packedByte (bs ++ [b]) (bs.length / 8) := by
  refine byte_ext fun i hi => ?_
  have hlast : i % 8 = nacc.toNat ↔ 8 * (bs.length / 8) + i % 8 = bs.length := by omega
  have hor : payloadBit (packedByte bs (bs.length / 8) ||| bitAt b nacc) i
      = (payloadBit (packedByte bs (bs.length / 8)) i || payloadBit (bitAt b nacc) i) :=
    BitVec.getLsbD_or
  rw [hor, payloadBit_packedByte, payloadBit_packedByte, payloadBit_bitAt b (by omega),
    getD_concat, decide_eq_decide.2 hlast]

/-! ### One bit -/

theorem add_one_eq_eight {n : BitVec 4} : n + 1 = 8 ↔ n.toNat = 7 := by
  bv_omega

section PutBit

variable {s : State}

theorem bwPutBit_waits (b : Bool) (h : s.eng.nacc + 1 ≠ 8) :
    bwPutBit b s = .ok () (s.setEng (s.eng.putAcc b)) := if_neg h

theorem bwPutBit_fills (b : Bool) (h : s.eng.nacc + 1 = 8) :
    bwPutBit b s = flushAcc (s.setEng (s.eng.putAcc b)) := if_pos h

/-- A byte of the writer whose write fails stays in the accumulator (60_exceptions.md R346). -/
theorem flushAcc_failed (h : s.unwritable s.eng.writeAddr) :
    flushAcc s = .raised (s.writeFailed s.eng.writeAddr) := by
  rw [flushAcc, ← Engine.writeAddr, memWrite_failed _ h, Res.bind_raised]

end PutBit

/-! ### Some bits -/

/-- The state after the bits `bs` were put into the writer of `s`, with memory `m` and the writes
`log` on record. -/
def State.afterPut (s : State) (bs : List Bool) (m : List Host.Cell) (log : List BusAccess) :
    State :=
  { s with mem := m, busLog := log ++ s.busLog, eng := s.eng.afterBits bs }

@[simp] theorem State.afterPut_eng (s : State) (bs : List Bool) (m : List Host.Cell)
    (log : List BusAccess) : (s.afterPut bs m log).eng = s.eng.afterBits bs := rfl

theorem Engine.length_waiting (g : Engine) : g.waiting.length = g.nacc.toNat := by
  simp [Engine.waiting]

/-- A clean accumulator is the byte in progress of its waiting bits. -/
theorem Engine.accClean.afterBits_nil {g : Engine} (h : g.accClean) : g.afterBits [] = g := by
  obtain ⟨hlt, hacc⟩ := h
  have hlen := g.length_waiting
  have hzero : g.waiting.length / 8 = 0 := by omega
  have hmod : g.waiting.length % 8 = g.nacc.toNat := by omega
  have hbyte : packedByte g.waiting 0 = g.acc := by rw [hacc]; rfl
  simp only [Engine.afterBits, List.append_nil, hzero, hmod, hbyte, List.length_nil]
  simp

theorem Engine.toNat_afterBits_nacc (g : Engine) (bs : List Bool) :
    (g.afterBits bs).nacc.toNat = (g.waiting ++ bs).length % 8 :=
  Nat.mod_eq_of_lt ((Nat.mod_lt _ (by decide)).trans (by decide : 8 < 2 ^ 4))

section AfterBits

variable {g : Engine} {bs : List Bool} {q : Nat}

theorem length_waiting_concat (g : Engine) (bs : List Bool) (b : Bool) :
    (g.waiting ++ (bs ++ [b])).length = (g.waiting ++ bs).length + 1 := by
  rw [← List.append_assoc, List.length_append, List.length_singleton]

/-- The accumulator after one more bit is the byte that the bit goes into. -/
theorem Engine.afterBits_putAcc_acc (g : Engine) (bs : List Bool) (b : Bool) :
    (g.afterBits bs).acc ||| bitAt b (g.afterBits bs).nacc
      = packedByte (g.waiting ++ (bs ++ [b])) ((g.waiting ++ bs).length / 8) := by
  rw [← List.append_assoc]
  exact packedByte_concat _ b (g.toNat_afterBits_nacc bs)

/-- A bit that completes no byte waits. -/
theorem Engine.afterBits_putAcc_waits (b : Bool) (h : (g.waiting ++ bs).length % 8 ≠ 7) :
    (g.afterBits bs).putAcc b = g.afterBits (bs ++ [b]) := by
  have hlen := length_waiting_concat g bs b
  have hnew : (bs ++ [b]).length = bs.length + 1 := List.length_append
  have hdiv : (g.waiting ++ (bs ++ [b])).length / 8 = (g.waiting ++ bs).length / 8 := by omega
  have hmod : (g.waiting ++ (bs ++ [b])).length % 8 = (g.waiting ++ bs).length % 8 + 1 := by omega
  rw [Engine.putAcc, g.afterBits_putAcc_acc bs b]
  simp only [Engine.afterBits, hdiv, hmod, hnew, BitVec.ofNat_add, BitVec.add_assoc]
  rfl

/-- The eighth bit fills its byte. -/
theorem Engine.afterBits_putAcc_fills (b : Bool) (h : (g.waiting ++ bs).length = 8 * q + 7) :
    (g.afterBits bs).putAcc b = g.fullByte (bs ++ [b]) q := by
  have hdiv : (g.waiting ++ bs).length / 8 = q := by omega
  have hmod : (g.waiting ++ bs).length % 8 = 7 := by omega
  have hbefore : g.bitsBefore q = bs.length := by
    have hwait := g.length_waiting
    rw [List.length_append] at h
    unfold Engine.bitsBefore
    omega
  rw [Engine.putAcc, g.afterBits_putAcc_acc bs b]
  simp only [Engine.afterBits, Engine.fullByte, hdiv, hmod, hbefore, BitVec.ofNat_add,
    BitVec.add_assoc]
  rfl

/-- A full byte does not depend on the bits behind it. -/
theorem Engine.fullByte_append (cs : List Bool) (h : (g.waiting ++ bs).length = 8 * (q + 1)) :
    g.fullByte (bs ++ cs) q = g.fullByte bs q := by
  rw [Engine.fullByte, ← List.append_assoc, packedByte_append cs h.ge, Engine.fullByte]

/-- The writer goes on behind a full byte. -/
theorem Engine.fullByte_nextByte (h : (g.waiting ++ bs).length = 8 * (q + 1))
    (hne : 0 < bs.length) :
    (g.fullByte bs q).nextByte = g.afterBits bs := by
  have hdiv : (g.waiting ++ bs).length / 8 = q + 1 := by omega
  have hmod : (g.waiting ++ bs).length % 8 = 0 := by omega
  have hbefore : g.bitsBefore q + 1 = bs.length := by
    have hwait := g.length_waiting
    rw [List.length_append] at h
    unfold Engine.bitsBefore
    omega
  simp only [Engine.afterBits, Engine.fullByte, Engine.nextByte, hdiv, hmod, hbefore,
    packedByte_past h.le, BitVec.ofNat_add, BitVec.add_assoc]
  rfl

/-- The address of a full byte does not wrap. -/
theorem Engine.fullByte_writeAddr (h : g.writeAddr + q < Config.memorySize) :
    (g.fullByte bs q).writeAddr = g.writeAddr + q := by
  have hsize : g.wbase.toNat + g.wpos.toNat + q < 2 ^ 64 := h
  have hq : (BitVec.ofNat 64 q).toNat = q := Nat.mod_eq_of_lt (by omega)
  have hpos : (g.wpos + BitVec.ofNat 64 q).toNat = g.wpos.toNat + q := by
    rw [BitVec.toNat_add_of_lt (by rw [hq]; omega), hq]
  rw [Engine.writeAddr, Engine.writeAddr, Nat.add_assoc]
  exact congrArg (g.wbase.toNat + ·) hpos

/-- How many bytes one more bit completes. -/
theorem Engine.bytesDone_concat (g : Engine) (bs : List Bool) (b : Bool) :
    g.bytesDone (bs ++ [b]) = ((g.waiting ++ bs).length + 1) / 8 := by
  rw [Engine.bytesDone, length_waiting_concat]

end AfterBits

theorem bwPutBits_concat (bs : List Bool) (b : Bool) :
    ∀ s, bwPutBits (bs ++ [b]) s = (bwPutBits bs s).bind fun _ t => bwPutBit b t := by
  induction bs with
  | nil =>
    intro s
    show (bwPutBit b s).bind _ = bwPutBit b s
    cases bwPutBit b s <;> rfl
  | cons c bs ih =>
    intro s
    rw [List.cons_append, bwPutBits, bwPutBits, Res.bind_assoc]
    exact congrArg _ (funext fun _ => funext ih)

theorem bwPutBits_append (bs cs : List Bool) :
    ∀ s, bwPutBits (bs ++ cs) s = (bwPutBits bs s).bind fun _ t => bwPutBits cs t := by
  induction bs with
  | nil => exact fun s => rfl
  | cons c bs ih =>
    intro s
    rw [List.cons_append, bwPutBits, bwPutBits, Res.bind_assoc]
    exact congrArg _ (funext fun _ => funext ih)

section BitsWritten

variable {s : State} {bs : List Bool} {m : List Host.Cell} {log : List BusAccess}

/-- A bit that completes no byte writes nothing. -/
theorem State.bitsWritten.waits (b : Bool) (h : s.bitsWritten bs m log)
    (hlen : (s.eng.waiting ++ bs).length % 8 ≠ 7) : s.bitsWritten (bs ++ [b]) m log := by
  obtain ⟨hbytes, hrest, hlog⟩ := h
  have hdone : s.eng.bytesDone (bs ++ [b]) = s.eng.bytesDone bs := by
    rw [Engine.bytesDone_concat, Engine.bytesDone]
    omega
  have hsame : ∀ q < s.eng.bytesDone bs,
      packedByte (s.eng.waiting ++ (bs ++ [b])) q = packedByte (s.eng.waiting ++ bs) q := by
    intro q hq
    rw [← List.append_assoc]
    unfold Engine.bytesDone at hq
    exact packedByte_append _ (by omega)
  unfold State.bitsWritten
  rw [hdone]
  refine ⟨fun q hq => (hbytes q hq).trans (hsame q hq).symm, hrest, hlog.trans ?_⟩
  refine congrArg List.reverse (List.map_congr_left fun q hq => ?_)
  rw [hsame q (List.mem_range.1 hq)]

/-- The eighth bit writes its byte behind the others. -/
theorem State.bitsWritten.fills (b : Bool) {q : Nat} (h : s.bitsWritten bs m log)
    (hm : Memory.wf m = true) (hlen : (s.eng.waiting ++ bs).length = 8 * q + 7) :
    s.bitsWritten (bs ++ [b])
      (Memory.write m (s.eng.writeAddr + q) (packedByte (s.eng.waiting ++ (bs ++ [b])) q))
      (.write (s.eng.writeAddr + q) (packedByte (s.eng.waiting ++ (bs ++ [b])) q) :: log) := by
  obtain ⟨hbytes, hrest, hlog⟩ := h
  have hbefore : s.eng.bytesDone bs = q := by
    unfold Engine.bytesDone
    omega
  have hdone : s.eng.bytesDone (bs ++ [b]) = q + 1 := by
    rw [Engine.bytesDone_concat]
    omega
  have hsame : ∀ p < q,
      packedByte (s.eng.waiting ++ (bs ++ [b])) p = packedByte (s.eng.waiting ++ bs) p := by
    intro p hp
    rw [← List.append_assoc]
    exact packedByte_append _ (by omega)
  unfold State.bitsWritten
  rw [hbefore] at hbytes hrest hlog
  rw [hdone]
  refine ⟨fun p hp => ?_, fun a ha => ?_, ?_⟩
  · rw [Memory.read_write hm]
    split
    · have hpq : p = q := by omega
      rw [hpq]
    · have hpq : p < q := by omega
      rw [hbytes p hpq, hsame p hpq]
  · rw [Memory.read_write_ne _ _ (by omega), hrest a (by omega)]
  · rw [hlog, List.range_succ, List.map_append, List.map_singleton, List.reverse_concat]
    refine congrArg _ (congrArg List.reverse (List.map_congr_left fun p hp => ?_))
    rw [hsame p (List.mem_range.1 hp)]

/-- Before the first bit nothing is written. -/
theorem Engine.accClean.bitsWritten_nil (h : s.eng.accClean) : s.bitsWritten [] s.mem [] := by
  have hdone : s.eng.bytesDone [] = 0 := by
    have hlen := s.eng.length_waiting
    have hlt := h.1
    rw [Engine.bytesDone, List.append_nil]
    omega
  unfold State.bitsWritten
  rw [hdone]
  exact ⟨fun q hq => absurd hq (Nat.not_lt_zero q), fun a _ => rfl, rfl⟩

/-- The writer puts one more bit that completes no byte. -/
theorem bwPutBit_afterPut_waits (b : Bool) (hlen : (s.eng.waiting ++ bs).length % 8 ≠ 7) :
    bwPutBit b (s.afterPut bs m log) = .ok () (s.afterPut (bs ++ [b]) m log) := by
  have hnacc := s.eng.toNat_afterBits_nacc bs
  have hwait : (s.eng.afterBits bs).nacc + 1 ≠ 8 := fun h =>
    hlen (hnacc.symm.trans (add_one_eq_eight.1 h))
  rw [bwPutBit_waits b (by rwa [State.afterPut_eng]), State.afterPut_eng]
  show Res.ok () { s.afterPut bs m log with eng := (s.eng.afterBits bs).putAcc b } = _
  rw [Engine.afterBits_putAcc_waits b hlen]
  rfl

/-- The writer puts the eighth bit of byte `q`. -/
theorem bwPutBit_afterPut_fills (b : Bool) {q : Nat}
    (hlen : (s.eng.waiting ++ bs).length = 8 * q + 7) :
    bwPutBit b (s.afterPut bs m log) = flushAcc { s with
      mem := m, busLog := log ++ s.busLog, eng := s.eng.fullByte (bs ++ [b]) q } := by
  have hnacc := s.eng.toNat_afterBits_nacc bs
  have hmod : (s.eng.waiting ++ bs).length % 8 = 7 := by omega
  have hfull : (s.eng.afterBits bs).nacc + 1 = 8 := add_one_eq_eight.2 (hnacc.trans hmod)
  rw [bwPutBit_fills b (by rwa [State.afterPut_eng]), State.afterPut_eng]
  show flushAcc { s.afterPut bs m log with eng := (s.eng.afterBits bs).putAcc b } = _
  rw [Engine.afterBits_putAcc_fills b hlen]
  rfl

/-- The bytes that the bits before the last complete are among those that all complete. -/
theorem State.bitsWritable.of_concat {b : Bool} (h : s.bitsWritable (bs ++ [b])) :
    s.bitsWritable bs := by
  intro q hq
  refine h q (hq.trans_le ?_)
  rw [Engine.bytesDone_concat]
  exact Nat.div_le_div_right (Nat.le_succ _)

/-- `BW_WRITE_BITS` where every completed byte can be written (44_bitstream.md R212). -/
theorem bwPutBits_afterPut (hm : Memory.wf s.mem = true) (hclean : s.eng.accClean) :
    ∀ bs, s.bitsWritable bs → ∃ (m : List Host.Cell) (log : List BusAccess),
      bwPutBits bs s = .ok () (s.afterPut bs m log) ∧ s.bitsWritten bs m log
        ∧ Memory.wf m = true := by
  intro bs
  induction bs using List.reverseRecOn with
  | nil =>
    refine fun _ => ⟨s.mem, [], ?_, hclean.bitsWritten_nil, hm⟩
    rw [State.afterPut, hclean.afterBits_nil]
    rfl
  | append_singleton bs b ih =>
    intro hw
    obtain ⟨m, log, hok, hput, hwf⟩ := ih hw.of_concat
    rw [bwPutBits_concat, hok, Res.bind_ok]
    by_cases hlen : (s.eng.waiting ++ bs).length % 8 = 7
    · obtain ⟨q, hq⟩ : ∃ q, (s.eng.waiting ++ bs).length = 8 * q + 7 :=
        ⟨(s.eng.waiting ++ bs).length / 8, by omega⟩
      have hfull : (s.eng.waiting ++ (bs ++ [b])).length = 8 * (q + 1) := by
        rw [length_waiting_concat]
        omega
      have hwq := hw q (by rw [Engine.bytesDone_concat]; omega)
      have haddr := Engine.fullByte_writeAddr (bs := bs ++ [b]) hwq.2.2.1
      refine ⟨_, _, ?_, hput.fills b hwf hq, Memory.wf_write _ hwf hwq.2.2.1⟩
      rw [bwPutBit_afterPut_fills b hq, flushAcc_store (by rw [haddr]; exact hwq), haddr]
      show Res.ok () { s with
        mem := _, busLog := _, eng := (s.eng.fullByte (bs ++ [b]) q).nextByte } = _
      rw [Engine.fullByte_nextByte hfull (by rw [List.length_append]; exact Nat.succ_pos _)]
      rfl
    · exact ⟨m, log, bwPutBit_afterPut_waits b hlen, hput.waits b hlen, hwf⟩

end BitsWritten

section ByteFails

variable {s : State} {bs : List Bool} {q : Nat}

/-- The bits before the one that completes a byte, that bit, and the bits behind it. -/
theorem Engine.split_at_byte (g : Engine) (hq : q < g.bytesDone bs) (hlt : g.nacc.toNat < 8) :
    ∃ b cs, bs = (bs.take (g.bitsBefore q) ++ [b]) ++ cs
      ∧ (g.waiting ++ bs.take (g.bitsBefore q)).length = 8 * q + 7 := by
  have hwait := g.length_waiting
  have hn : g.bitsBefore q < bs.length := by
    unfold Engine.bitsBefore
    rw [Engine.bytesDone, List.length_append] at hq
    omega
  refine ⟨bs[g.bitsBefore q], bs.drop (g.bitsBefore q + 1), ?_, ?_⟩
  · rw [List.append_assoc, List.singleton_append, List.getElem_cons_drop, List.take_append_drop]
  · rw [List.length_append, List.length_take, Nat.min_eq_left hn.le, Engine.bitsBefore, hwait]
    omega

/-- Some bits, the first byte of which that cannot be written is byte `q`. -/
theorem bwPutBits_byteFails (hm : Memory.wf s.mem = true) (hclean : s.eng.accClean)
    (h : s.byteFails bs q) : ∃ (m : List Host.Cell) (log : List BusAccess),
      bwPutBits bs s = .raised ({ s with
          mem := m, busLog := log ++ s.busLog
          eng := s.eng.fullByte bs q }.writeFailed (s.eng.writeAddr + q))
        ∧ s.bitsWritten (bs.take (s.eng.bitsBefore q)) m log := by
  obtain ⟨hq, hwritable, hsize, hfail⟩ := h
  obtain ⟨b, cs, hsplit, hlen⟩ := s.eng.split_at_byte hq hclean.1
  have hdone : s.eng.bytesDone (bs.take (s.eng.bitsBefore q)) = q := by
    unfold Engine.bytesDone
    omega
  obtain ⟨m, log, hok, hput, -⟩ := bwPutBits_afterPut hm hclean (bs.take (s.eng.bitsBefore q))
    fun p hp => hwritable p (hdone ▸ hp)
  have hfull : (s.eng.waiting ++ (bs.take (s.eng.bitsBefore q) ++ [b])).length = 8 * (q + 1) := by
    rw [length_waiting_concat]
    omega
  have heng : s.eng.fullByte (bs.take (s.eng.bitsBefore q) ++ [b]) q = s.eng.fullByte bs q := by
    rw [← Engine.fullByte_append cs hfull, ← hsplit]
  have haddr := Engine.fullByte_writeAddr (bs := bs) hsize
  have hraised : bwPutBits (bs.take (s.eng.bitsBefore q) ++ [b]) s = .raised ({ s with
      mem := m, busLog := log ++ s.busLog
      eng := s.eng.fullByte bs q }.writeFailed (s.eng.writeAddr + q)) := by
    rw [bwPutBits_concat, hok, Res.bind_ok, bwPutBit_afterPut_fills b hlen, heng,
      flushAcc_failed (by rw [haddr]; exact hfail), haddr]
  refine ⟨m, log, ?_, hput⟩
  rw [hsplit, bwPutBits_append, ← hsplit, hraised, Res.bind_raised]

end ByteFails

/-- Settles O37: `BW_PUT_BIT` fills the byte that cannot be written; `BW_WRITE_BITS` puts the bits
before it, fills it and stops. -/
theorem bitWriterWriteErrors : Obligations.BitWriterWriteErrors := by
  refine fun s => ⟨fun b hnacc hfail => ?_, fun v q hm hclean hfails => ?_⟩
  · have hbit : bitAt b s.eng.nacc = if b then 1 else 0 := by rw [hnacc]; rfl
    have hfull : s.eng.nacc + 1 = 8 := by rw [hnacc]; rfl
    have heng : s.eng.putAcc b = { s.eng with
        acc := s.eng.acc ||| (if b then 1 else 0), nacc := 8, nbits := s.eng.nbits + 1 } := by
      rw [Engine.putAcc, hbit, hfull]
    show (bwPutBit b s).outcome = _
    rw [bwPutBit_fills b hfull, flushAcc_failed (s := s.setEng (s.eng.putAcc b)) hfail, heng]
    rfl
  · obtain ⟨m, log, hraised, hput⟩ := bwPutBits_byteFails hm hclean hfails
    refine ⟨m, log, ?_, hput⟩
    show (bwPutBits (s.eng.codeword v) s).outcome = _
    rw [hraised, Res.outcome_raised]

/-- Settles O36: `BW_PUT_BIT` is the case of one bit. -/
theorem bitWriterPacksBits : Obligations.BitWriterPacksBits := by
  intro s i bs hi hm hclean hw
  obtain ⟨m, log, hok, hput, -⟩ := bwPutBits_afterPut hm hclean bs hw
  refine ⟨m, log, ?_, hput⟩
  rcases hi with ⟨b, rfl, rfl⟩ | ⟨v, rfl, rfl⟩
  · have hone : bwPutBit b s = bwPutBits [b] s := by
      rw [bwPutBits]
      cases bwPutBit b s <;> rfl
    show (bwPutBit b s).outcome = _
    rw [hone, hok]
    rfl
  · show (bwPutBits (s.eng.codeword v) s).outcome = _
    rw [hok]
    rfl

/-! ### The flush -/

section Finish

variable {s : State}

theorem bwFinish_empty (h : s.eng.nacc = 0) : bwFinish s = .ok () s :=
  if_neg (by rw [h]; decide)

theorem bwFinish_partial (h : 0 < s.eng.nacc.toNat) : bwFinish s = flushAcc s := if_pos h

/-- The bits behind the waiting ones are zeros (20_memory.md R65). -/
theorem Engine.accClean.acc_pad {g : Engine} (h : g.accClean) {q : Nat} (hq : q < 8)
    (hpad : g.nacc.toNat ≤ q) : g.acc.getLsbD (7 - q) = false := by
  have hlen := g.length_waiting
  have hbit := payloadBit_packedByte g.waiting 0 q
  rw [List.getD_eq_default _ _ (by omega), payloadBit, Nat.mod_eq_of_lt hq] at hbit
  rw [h.2]
  exact hbit

end Finish

/-- Settles O38: no bit, a flush that stores, a flush that fails. -/
theorem bwFinishFlushes : Obligations.BwFinishFlushes := by
  refine fun s => ⟨fun hnacc => ?_, fun hnacc hm hw => ?_, fun hnacc hfail => ?_⟩
  · show ((bwFinish s).bind fun _ u => _).outcome = _
    rw [bwFinish_empty hnacc]
    rfl
  · have hread := Memory.read_write hm s.eng.writeAddr s.eng.acc
    have hself := Memory.read_write_eq hm s.eng.writeAddr s.eng.acc
    refine ⟨_, ?_, hread, fun hclean => ⟨hself.trans hclean.2, fun q hq hpad => ?_⟩⟩
    · show ((bwFinish s).bind fun _ u => _).outcome = _
      rw [bwFinish_partial hnacc, flushAcc_store hw]
      rfl
    · rw [hself]
      exact hclean.acc_pad hq hpad
  · show ((bwFinish s).bind fun _ u => _).outcome = _
    rw [bwFinish_partial hnacc, flushAcc_failed hfail]
    rfl

/-! ### The reader -/

/-- The address of the byte that holds the next payload bit (44_bitstream.md R215). -/
def Engine.readAddr (g : Engine) : Nat := g.rbase.toNat + g.rpos.toNat / 8

section ReadBit

variable {s : State}

theorem brReadBit_pastEnd (h : s.eng.bitlen.toNat ≤ s.eng.rpos.toNat) :
    brReadBit s = .raised (s.failed 2 0x0A s.eng.rpos) := if_pos h

theorem brReadBit_ok (h : s.eng.rpos.toNat < s.eng.bitlen.toNat)
    (hr : s.readable s.eng.readAddr) :
    brReadBit s = .ok (payloadBit (Memory.read s.mem s.eng.readAddr) s.eng.rpos.toNat)
      ((s.logBus (.read s.eng.readAddr (Memory.read s.mem s.eng.readAddr))).setEng
        s.eng.nextRpos) := by
  rw [brReadBit, if_neg (Nat.not_le.2 h), ← Engine.readAddr, memRead_ok hr, Res.bind_ok]
  rfl

theorem brReadBit_readFailed (h : s.eng.rpos.toNat < s.eng.bitlen.toNat)
    (hr : s.unreadable s.eng.readAddr) :
    brReadBit s = .raised (s.readFailed s.eng.readAddr) := by
  rw [brReadBit, if_neg (Nat.not_le.2 h), ← Engine.readAddr, memRead_failed hr, Res.bind_raised]

end ReadBit

/-- Settles O39: the end of the declared bits, a byte that is read, a byte that is not. -/
theorem brReadBitReturnsBit : Obligations.BrReadBitReturnsBit := by
  rintro s a rfl
  refine ⟨fun hend => ?_, fun hlt hr => ?_, fun hlt hsize hfault => ?_⟩
  · show ((brReadBit s).bind fun _ u => _).outcome = _
    rw [brReadBit_pastEnd hend]
    rfl
  · show ((brReadBit s).bind fun _ u => _).outcome = _
    rw [brReadBit_ok hlt hr]
    rfl
  · show ((brReadBit s).bind fun _ u => _).outcome = _
    rw [brReadBit_readFailed hlt ⟨hsize, hfault⟩]
    rfl

end Sys2Proof.Machine
end

section
/-! The encoder's header and payload steps (45_encoder.md R246 to R248). -/

namespace Sys2Proof.Machine

/-! ### Little-endian fields -/

theorem length_bytesLE (n : Nat) : ∀ v, (bytesLE n v).length = n := by
  induction n with
  | zero => exact fun _ => rfl
  | succ n ih => exact fun v => congrArg Nat.succ (ih _)

/-- A little-endian field holds its value cut to the field (00_scope.md R8). -/
theorem leNat_bytesLE (n : Nat) : ∀ v, leNat (bytesLE n v) = v % 256 ^ n := by
  induction n with
  | zero => exact fun v => (Nat.mod_one v).symm
  | succ n ih =>
    intro v
    rw [bytesLE, leNat, ih, Nat.pow_succ, Nat.mul_comm (256 ^ n), Nat.mod_mul]
    rfl

/-! ### The header -/

/-- The entry of a present symbol (30_encoding.md R98). -/
def Engine.entry (g : Engine) (v : Byte) : List Byte := v :: bytesLE 4 (g.freqOf v).toNat

theorem Engine.length_entry (g : Engine) (v : Byte) : (g.entry v).length = 5 :=
  congrArg Nat.succ (length_bytesLE 4 _)

/-- The header's entries are those of the present symbols, in their order. -/
theorem flatMap_headerEntry (g : Engine) (vs : List Byte) :
    vs.flatMap (headerEntry g) = (vs.filter fun v => g.freqOf v != 0).flatMap g.entry := by
  induction vs with
  | nil => rfl
  | cons v vs ih =>
    rw [List.flatMap_cons, ih, headerEntry]
    by_cases h : g.freqOf v = 0
    · rw [if_pos h, List.filter_cons_of_neg (by simp [h]), List.nil_append]
    · have hp : (g.freqOf v != 0) = true := bne_iff_ne.2 h
      rw [if_neg h, List.filter_cons_of_pos (p := fun v => g.freqOf v != 0) hp, List.flatMap_cons,
        Engine.entry]

/-- The entries have five bytes each. -/
theorem Engine.drop_entries (g : Engine) (e : Nat) :
    ∀ vs : List Byte, (vs.flatMap g.entry).drop (5 * e) = (vs.drop e).flatMap g.entry := by
  induction e with
  | zero => exact fun vs => rfl
  | succ e ih =>
    intro vs
    cases vs with
    | nil => simp
    | cons v vs =>
      have hsplit : 5 * (e + 1) = 5 + 5 * e := by omega
      rw [List.flatMap_cons, hsplit, ← List.drop_drop, List.drop_left' (g.length_entry v), ih,
        List.drop_succ_cons]

theorem Engine.length_entries (g : Engine) (vs : List Byte) :
    (vs.flatMap g.entry).length = 5 * vs.length := by
  induction vs with
  | nil => rfl
  | cons v vs ih =>
    rw [List.flatMap_cons, List.length_append, g.length_entry, ih, List.length_cons]
    omega

/-- The header's fields in their order (45_encoder.md R246). -/
theorem headerBytes_eq (g : Engine) : headerBytes g = magic ++ (bytesLE 8 g.len.toNat
    ++ (bytesLE 2 g.k.toNat ++ (g.present.flatMap g.entry ++ bytesLE 4 g.total.toNat))) := by
  simp only [headerBytes, flatMap_headerEntry, List.append_assoc]
  rfl

theorem headerBytes_drop_len (g : Engine) : (headerBytes g).drop 4 = bytesLE 8 g.len.toNat
    ++ (bytesLE 2 g.k.toNat ++ (g.present.flatMap g.entry ++ bytesLE 4 g.total.toNat)) := by
  rw [headerBytes_eq]
  rfl

theorem headerBytes_drop_k (g : Engine) : (headerBytes g).drop 12 = bytesLE 2 g.k.toNat
    ++ (g.present.flatMap g.entry ++ bytesLE 4 g.total.toNat) := by
  rw [← List.drop_drop (i := 8) (j := 4), headerBytes_drop_len,
    List.drop_left' (length_bytesLE _ _)]

/-- From entry `e` on. -/
theorem headerBytes_drop_entry (g : Engine) {e : Nat} (he : e ≤ g.present.length) :
    (headerBytes g).drop (14 + 5 * e)
      = (g.present.drop e).flatMap g.entry ++ bytesLE 4 g.total.toNat := by
  have hsplit : 14 + 5 * e = 12 + (2 + 5 * e) := by omega
  have hlen := g.length_entries g.present
  rw [hsplit, ← List.drop_drop, headerBytes_drop_k, ← List.drop_drop,
    List.drop_left' (length_bytesLE _ _), List.drop_append_of_le_length (by omega),
    g.drop_entries]

/-- Settles O42: each field is where the fields before it end. -/
theorem headerBytesLayout : Obligations.HeaderBytesLayout := by
  intro g hfreq htotal
  refine ⟨?_, ?_, ?_, ?_, fun e v he => ?_, ?_⟩
  · rw [headerBytes_eq]
    simp only [List.length_append, length_bytesLE, g.length_entries]
    show 4 + _ = _
    omega
  · rw [headerBytes_eq]
    rfl
  · rw [headerBytes_drop_len, List.take_left' (length_bytesLE _ _), leNat_bytesLE]
    exact Nat.mod_eq_of_lt g.len.isLt
  · rw [headerBytes_drop_k, List.take_left' (length_bytesLE _ _), leNat_bytesLE]
    exact Nat.mod_eq_of_lt (g.k.isLt.trans (by decide))
  · obtain ⟨hlt, hv⟩ := List.getElem?_eq_some_iff.1 he
    have hdrop := headerBytes_drop_entry g hlt.le
    rw [List.drop_eq_getElem_cons hlt, hv, List.flatMap_cons, Engine.entry, List.cons_append,
      List.cons_append] at hdrop
    have hnext : 15 + 5 * e = 14 + 5 * e + 1 := by omega
    refine ⟨?_, ?_⟩
    · rw [← List.head?_drop, hdrop]
      rfl
    · rw [hnext, ← List.drop_drop, hdrop, List.drop_one, List.tail_cons, List.append_assoc,
        List.take_left' (length_bytesLE _ _), leNat_bytesLE]
      exact Nat.mod_eq_of_lt (hfreq v)
  · rw [headerBytes_drop_entry g le_rfl, List.drop_length, List.flatMap_nil, List.nil_append,
      leNat_bytesLE]
    exact Nat.mod_eq_of_lt htotal

/-- Settles O43: the byte is stored, and the header goes on or ends; or its write fails. -/
theorem eHeaderByteWritesOne : Obligations.EHeaderByteWritesOne := by
  rintro s a b rfl hb
  have hexec : exec .eHeaderByte s
      = ((memWrite (s.eng.dst.toNat + s.eng.hpos.toNat) b s).bind fun _ u =>
          if u.eng.hpos + 1 = u.eng.hsize then
            .ok () ((u.setEng u.eng.nextHpos).setEng u.eng.nextHpos.startPayload)
          else .ok () (u.setEng u.eng.nextHpos)).outcome := by
    show (eHeaderByte s).outcome = _
    rw [eHeaderByte, hb]
    rfl
  refine ⟨fun hm hw => ⟨_, Memory.read_write hm _ b, fun hmore => ?_, fun hlast => ?_⟩,
    fun hfail => ?_⟩
  · rw [hexec, memWrite_ok b hw, Res.bind_ok, State.store_eng, if_neg hmore]
    rfl
  · rw [hexec, memWrite_ok b hw, Res.bind_ok, State.store_eng, if_pos hlast]
    rfl
  · rw [hexec, memWrite_failed b hfail]
    rfl

/-! ### The payload -/

section Payload

variable {s : State}

theorem ePayloadStep_more (h : s.eng.i.toNat < s.eng.len.toNat) :
    ePayloadStep s = (memRead (s.eng.src.toNat + s.eng.i.toNat) s).bind fun b u =>
      (bwPutBits (u.eng.codeword b) u).bind fun _ w => .ok () (w.setEng w.eng.nextI) :=
  if_pos h

theorem ePayloadStep_last (h : s.eng.len.toNat ≤ s.eng.i.toNat) :
    ePayloadStep s = (bwFinish s).bind fun _ u =>
      .ok () (u.complete (u.eng.hsize + u.eng.wpos) (u.eng.nbits.setWidth 32)) :=
  if_neg (Nat.not_lt.2 h)

end Payload

/-- Settles O44: the writer's lemmas, on the state whose port has recorded the read. -/
theorem ePayloadStepEncodesOrCompletes : Obligations.EPayloadStepEncodesOrCompletes := by
  rintro s a rfl hm hclean
  refine ⟨fun hmore hr hw => ?_, fun hlast hnacc => ?_, fun hlast hnacc hw => ?_,
    fun hmore hr => ?_, ?_, fun hlast hnacc hfail => ?_⟩
  · obtain ⟨m, log, hok, hput, -⟩ :=
      bwPutBits_afterPut (s := s.logBus (.read _ (Memory.read s.mem _))) hm hclean _ hw
    refine ⟨m, log, ?_, hput⟩
    show (ePayloadStep s).outcome = _
    rw [ePayloadStep_more hmore, memRead_ok hr, Res.bind_ok, State.logBus_eng, hok]
    rfl
  · show (ePayloadStep s).outcome = _
    rw [ePayloadStep_last hlast, bwFinish_empty hnacc]
    rfl
  · refine ⟨_, ?_, Memory.read_write hm s.eng.writeAddr s.eng.acc⟩
    show (ePayloadStep s).outcome = _
    rw [ePayloadStep_last hlast, bwFinish_partial hnacc, flushAcc_store hw]
    rfl
  · show (ePayloadStep s).outcome = _
    rw [ePayloadStep_more hmore, memRead_failed hr]
    rfl
  · rintro bs q hmore hr rfl hfails
    obtain ⟨m, log, hraised, hput⟩ :=
      bwPutBits_byteFails (s := s.logBus (.read _ (Memory.read s.mem _))) hm hclean hfails
    refine ⟨m, log, ?_, hput⟩
    show (ePayloadStep s).outcome = _
    rw [ePayloadStep_more hmore, memRead_ok hr, Res.bind_ok, State.logBus_eng, hraised]
    rfl
  · show (ePayloadStep s).outcome = _
    rw [ePayloadStep_last hlast, bwFinish_partial hnacc, flushAcc_failed hfail]
    rfl

end Sys2Proof.Machine
end

section
/-! The decoder's header fields (46_decoder.md R272) and its tree walk (R275). -/

namespace Sys2Proof.Machine

/-! ### One field -/

section Field

variable {s : State} {off n : Nat}

/-- The state after `n` bytes from `a` on were read. -/
def State.afterReads (s : State) (a n : Nat) : State :=
  { s with busLog := readLog s.mem a n ++ s.busLog }

@[simp] theorem State.afterReads_eng (s : State) (a n : Nat) : (s.afterReads a n).eng = s.eng := rfl

/-- A field that fits and is answered. -/
theorem readField_ok (hfit : off + n ≤ s.eng.len.toNat)
    (hr : ∀ q < n, s.readable (s.eng.src.toNat + off + q)) :
    readField off n s = .ok (bytesAt s.mem (s.eng.src.toNat + off) n)
      (s.afterReads (s.eng.src.toNat + off) n) :=
  (if_neg (Nat.not_lt.2 hfit)).trans (memReadBytes_ok n _ s hr)

/-- A field that does not fit. -/
theorem readField_short (h : s.eng.len.toNat < off + n) :
    readField off n s = .raised (s.failed 1 0x01 (BitVec.ofNat 64 off)) := if_pos h

/-- A field that fits, one byte of which is answered with an error. -/
theorem readField_failed {q : Nat} (hq : q < n) (hfit : off + n ≤ s.eng.len.toNat)
    (hr : ∀ p < q, s.readable (s.eng.src.toNat + off + p))
    (hu : s.unreadable (s.eng.src.toNat + off + q)) :
    readField off n s = .raised ((s.afterReads (s.eng.src.toNat + off) q).readFailed
      (s.eng.src.toNat + off + q)) :=
  (if_neg (Nat.not_lt.2 hfit)).trans (memReadBytes_failed n _ q s hq hr hu)

end Field

/-! ### The phases -/

section Phase

variable {s : State}

theorem dHeaderField_magic (h : s.eng.phase = 0) : dHeaderField s = headerMagic s := if_pos h

theorem dHeaderField_origLen (h : s.eng.phase = 1) : dHeaderField s = headerOrigLen s := by
  rw [dHeaderField, h]
  rfl

theorem dHeaderField_count (h : s.eng.phase = 2) : dHeaderField s = headerCount s := by
  rw [dHeaderField, h]
  rfl

theorem dHeaderField_entry (h : s.eng.phase = 3) : dHeaderField s = headerEntryStep s := by
  rw [dHeaderField, h]
  rfl

theorem dHeaderField_bitLen (h : s.eng.phase = 4) : dHeaderField s = headerBitLen s := by
  rw [dHeaderField, h]
  rfl

/-- An entry that is read goes to its checks (46_decoder.md R272). -/
theorem dHeaderField_entry_ok {a : Nat} (h : s.eng.phase = 3) (he : s.eng.e.toNat < s.eng.k.toNat)
    (ha : a = s.eng.src.toNat + (14 + 5 * s.eng.e.toNat))
    (hfit : 14 + 5 * s.eng.e.toNat + 5 ≤ s.eng.len.toNat) (hr : ∀ q < 5, s.readable (a + q)) :
    dHeaderField s = headerEntryIn (14 + 5 * s.eng.e.toNat) (Memory.read s.mem a)
      (leNat (bytesAt s.mem (a + 1) 4)) (s.afterReads a 5) := by
  subst ha
  rw [dHeaderField_entry h, headerEntryStep, if_pos he]
  dsimp only [entryOffset]
  rw [readField_ok hfit hr]
  rfl

/-- A step with a field of bytes to read is that read and what follows from it. -/
theorem dHeaderField_readField {off n : Nat} (h : s.eng.headerField off n) :
    ∃ k, dHeaderField s = (readField off n s).bind k := by
  rcases h with ⟨h, rfl, rfl⟩ | ⟨h, rfl, rfl⟩ | ⟨h, rfl, rfl⟩ | ⟨h, he, rfl, rfl⟩ | ⟨h, rfl, rfl⟩
  · exact ⟨_, dHeaderField_magic h⟩
  · exact ⟨_, dHeaderField_origLen h⟩
  · exact ⟨_, dHeaderField_count h⟩
  · exact ⟨_, (dHeaderField_entry h).trans (if_pos he)⟩
  · exact ⟨_, dHeaderField_bitLen h⟩

end Phase

/-- Settles O45: phase by phase the field is read, and its checks pass. -/
theorem dHeaderFieldAcceptsField : Obligations.DHeaderFieldAcceptsField := by
  refine fun s => ⟨fun hphase hfit hr hmagic => ?magic, fun hphase hfit hr => ?origLen,
    fun hphase hfit hr hk => ?count, ?entry, fun hphase hend => ?entriesEnd, ?bitLen⟩
  case magic =>
    show (dHeaderField s).outcome = _
    rw [dHeaderField_magic hphase, headerMagic, readField_ok (off := 0) hfit hr, Res.bind_ok]
    exact congrArg Res.outcome (if_pos hmagic)
  case origLen =>
    show (dHeaderField s).outcome = _
    rw [dHeaderField_origLen hphase, headerOrigLen, readField_ok hfit hr]
    rfl
  case count =>
    show (dHeaderField s).outcome = _
    rw [dHeaderField_count hphase, headerCount, readField_ok hfit hr, Res.bind_ok,
      if_neg (Nat.not_lt.2 hk)]
    rfl
  case entry =>
    rintro a v f hphase he ha hfit hr rfl rfl hnew hnonzero
    refine ⟨(s.eng.setFreq _ _).freq, ?_, fun u => freqOf_setFreq s.eng _ u _⟩
    show (dHeaderField s).outcome = _
    rw [dHeaderField_entry_ok hphase he ha hfit hr, headerEntryIn, State.afterReads_eng,
      if_neg (not_not.2 hnew), if_neg hnonzero]
    rfl
  case entriesEnd =>
    show (dHeaderField s).outcome = _
    rw [dHeaderField_entry hphase, headerEntryStep, if_neg (Nat.not_lt.2 hend)]
    rfl
  case bitLen =>
    rintro off hphase rfl hfit hr
    show (dHeaderField s).outcome = _
    rw [dHeaderField_bitLen hphase, headerBitLen, entryOffset, readField_ok hfit hr]
    rfl

/-- Settles O46: the field does not fit, is not answered, or does not pass its checks. -/
theorem dHeaderFieldErrors : Obligations.DHeaderFieldErrors := by
  refine fun s => ⟨fun off n hfield => ⟨fun hshort => ?short, fun q hq hfit hr hu => ?failed⟩,
    fun hphase hfit hr hmagic => ?magic, fun hphase hfit hr hk => ?count, ?entry⟩
  case short =>
    obtain ⟨k, hstep⟩ := dHeaderField_readField hfield
    show (dHeaderField s).outcome = _
    rw [hstep, readField_short hshort]
    rfl
  case failed =>
    obtain ⟨k, hstep⟩ := dHeaderField_readField hfield
    show (dHeaderField s).outcome = _
    rw [hstep, readField_failed hq hfit hr hu]
    rfl
  case magic =>
    show (dHeaderField s).outcome = _
    rw [dHeaderField_magic hphase, headerMagic, readField_ok (off := 0) hfit hr, Res.bind_ok]
    exact congrArg Res.outcome (if_neg hmagic)
  case count =>
    show (dHeaderField s).outcome = _
    rw [dHeaderField_count hphase, headerCount, readField_ok hfit hr, Res.bind_ok, if_pos hk]
    rfl
  case entry =>
    rintro off a hphase he rfl ha hfit hr
    have hstep := dHeaderField_entry_ok hphase he ha hfit hr
    refine ⟨fun hdup => ?_, fun hnew hzero => ?_⟩
    · show (dHeaderField s).outcome = _
      rw [hstep, headerEntryIn, State.afterReads_eng, if_pos hdup]
      rfl
    · show (dHeaderField s).outcome = _
      rw [hstep, headerEntryIn, State.afterReads_eng, if_neg (not_not.2 hnew),
        if_pos hzero]
      rfl

/-! ### The tree walk -/

section Walk

variable {s : State} {c : NodeRef}

/-- What `TW_STEP` does with the bit it has read (46_decoder.md R275). -/
def walkBit (b : Bool) (s : State) : Res Unit :=
  match s.eng.cur with
  | none => .fault .nullNode
  | some c =>
    match (s.eng.nodeAt c).child b with
    | none => raise .placeholder (s.eng.rpos - 1) s
    | some nxt =>
      match (s.eng.nodeAt nxt).kind with
      | .leaf =>
        (soEmit (s.eng.nodeAt nxt).sym s).bind fun _ s =>
          .ok () (s.setEng (s.eng.setCur s.eng.root))
      | .internal => .ok () (s.setEng (s.eng.setCur (some nxt)))

theorem twStep_eq (s : State) : twStep s = (brReadBit s).bind walkBit := rfl

/-- The state after the next payload bit was read. -/
def State.afterBit (s : State) : State :=
  (s.logBus (.read s.eng.readAddr (Memory.read s.mem s.eng.readAddr))).setEng s.eng.nextRpos

/-- `TW_STEP` where the next bit is read (44_bitstream.md R215). -/
theorem twStep_bit (hlt : s.eng.rpos.toNat < s.eng.bitlen.toNat)
    (hr : s.readable s.eng.readAddr) :
    twStep s = walkBit
      ((Memory.read s.mem s.eng.readAddr).getLsbD (7 - s.eng.rpos.toNat % 8)) s.afterBit := by
  rw [twStep_eq, brReadBit_ok hlt hr]
  rfl

theorem walkBit_placeholder {b : Bool} (hc : s.eng.cur = some c)
    (hn : (s.eng.nodeAt c).child b = none) :
    walkBit b s = raise .placeholder (s.eng.rpos - 1) s := by
  simp only [walkBit, hc, hn]

theorem walkBit_internal {b : Bool} {n : NodeRef} (hc : s.eng.cur = some c)
    (hn : (s.eng.nodeAt c).child b = some n) (hkind : (s.eng.nodeAt n).kind = .internal) :
    walkBit b s = .ok () (s.setEng (s.eng.setCur (some n))) := by
  simp only [walkBit, hc, hn, hkind]

theorem walkBit_leaf {b : Bool} {n : NodeRef} (hc : s.eng.cur = some c)
    (hn : (s.eng.nodeAt c).child b = some n) (hkind : (s.eng.nodeAt n).kind = .leaf) :
    walkBit b s = (soEmit (s.eng.nodeAt n).sym s).bind fun _ u =>
      .ok () (u.setEng (u.eng.setCur u.eng.root)) := by
  simp only [walkBit, hc, hn, hkind]

end Walk

/-- Settles O49: no bit, no byte, or the bit selects nothing, an internal child or a leaf. -/
theorem twStepWalks : Obligations.TwStepWalks := by
  refine fun s c hc => ⟨fun hend => ?_, ?_, ?_⟩
  · show (twStep s).outcome = _
    rw [twStep_eq, brReadBit_pastEnd hend]
    rfl
  · rintro a rfl hu hlt
    show (twStep s).outcome = _
    rw [twStep_eq, brReadBit_readFailed hlt hu]
    rfl
  · rintro a b log rfl hr hb rfl hlt
    have hstep : twStep s = walkBit b s.afterBit := by
      rw [hb]
      exact twStep_bit hlt hr
    refine ⟨fun hnone => ?_, fun n hn => ⟨fun hkind => ?_, fun hkind hm hw => ?_,
      fun hkind hfail => ?_⟩⟩
    · show (twStep s).outcome = _
      have hback : s.eng.rpos + 1 - 1 = s.eng.rpos := add_sub_cancel_right _ _
      rw [hstep, walkBit_placeholder (s := s.afterBit) hc hnone]
      show (raise .placeholder (s.eng.rpos + 1 - 1) _).outcome = _
      rw [hback]
      rfl
    · show (twStep s).outcome = _
      rw [hstep, walkBit_internal (s := s.afterBit) hc hn hkind]
      rfl
    · refine ⟨_, ?_, Memory.read_write hm _ _⟩
      show (twStep s).outcome = _
      rw [hstep, walkBit_leaf (s := s.afterBit) hc hn hkind, soEmit_ok (s := s.afterBit) _ rfl hw]
      rfl
    · show (twStep s).outcome = _
      rw [hstep, walkBit_leaf (s := s.afterBit) hc hn hkind,
        soEmit_raised (s := s.afterBit) _ rfl hfail]
      rfl

end Sys2Proof.Machine
end

section
/-! The host's view of the registers (10_state.md R23 to R39; 47_host_interface.md R310, R311,
R316). -/

namespace Sys2Proof.Machine

/-! ### Words from fields -/

theorem toNat_append_add {m n : Nat} (x : BitVec m) (y : BitVec n) :
    (x ++ y).toNat = x.toNat * 2 ^ n + y.toNat := by
  rw [BitVec.toNat_append, ← Nat.shiftLeft_add_eq_or_of_lt y.isLt, Nat.shiftLeft_eq]

theorem toNat_lo (v : DWord) : (lo v).toNat = v.toNat % 2 ^ 32 := by
  simp [lo, BitVec.extractLsb'_toNat]

theorem toNat_hi (v : DWord) : (hi v).toNat = v.toNat / 2 ^ 32 := by
  have hlt : v.toNat / 2 ^ 32 < 2 ^ 32 := by omega
  rw [hi, BitVec.extractLsb'_toNat, Nat.shiftRight_eq_div_pow, Nat.mod_eq_of_lt hlt]

theorem toNat_pair (h l : Word) : (pair h l).toNat = h.toNat * 2 ^ 32 + l.toNat :=
  toNat_append_add h l

theorem lo_pair (h l : Word) : lo (pair h l) = l := by
  apply BitVec.eq_of_toNat_eq
  rw [toNat_lo, toNat_pair]
  omega

theorem hi_pair (h l : Word) : hi (pair h l) = h := by
  apply BitVec.eq_of_toNat_eq
  rw [toNat_hi, toNat_pair]
  omega

theorem toNat_bit (b : Bool) : (bit b).toNat = b.toNat := by cases b <;> rfl

theorem State.toNat_busy (s : State) : s.busy.toNat = if s.eng.fsm = .idle then 0 else 1 := by
  unfold State.busy
  cases s.eng.fsm <;> rfl

theorem toNat_statusWord (s : State) : (statusWord s).toNat =
    (if s.eng.fsm = .idle then 0 else 1) + 2 * s.regs.done.toNat + 4 * s.regs.err.toNat
      + 8 * s.regs.rej.toNat + 256 * s.eng.fsm.code.toNat := by
  simp only [statusWord, toNat_append_add, toNat_bit, State.toNat_busy, BitVec.toNat_ofNat]
  omega

theorem toNat_ctrlWord (r : Regs) : (ctrlWord r).toNat = r.ie.toNat := by
  simp only [ctrlWord, toNat_append_add, toNat_bit, BitVec.toNat_ofNat]
  omega

theorem toNat_errCodeWord (r : Regs) :
    (errCodeWord r).toNat = r.errCode.toNat + 256 * r.errSub.toNat := by
  simp only [errCodeWord, toNat_append_add, BitVec.toNat_ofNat]
  omega

theorem toNat_symbolsWord (r : Regs) : (symbolsWord r).toNat = r.symbols.toNat := by
  simp only [symbolsWord, toNat_append_add, BitVec.toNat_ofNat]
  omega

/-! ### The register map -/

theorem regAt_offset (r : RegName) : regAt r.offset = some r := by cases r <;> rfl

section ReadReg

variable {s : State} {off : Byte}

/-- A read at a register's offset answers that register. -/
theorem readReg_at (r : RegName) (h : off = r.offset) : readReg s off = regValue s r := by
  rw [readReg, h, regAt_offset]

theorem toNat_readReg_lo {v : DWord} (r : RegName) (hr : regValue s r = lo v) (h : off = r.offset) :
    (readReg s off).toNat = v.toNat % 2 ^ 32 := by
  rw [readReg_at r h, hr, toNat_lo]

theorem toNat_readReg_hi {v : DWord} (r : RegName) (hr : regValue s r = hi v) (h : off = r.offset) :
    (readReg s off).toNat = v.toNat / 2 ^ 32 := by
  rw [readReg_at r h, hr, toNat_hi]

/-- From 0x50 on every offset is reserved (10_state.md R39). -/
theorem readReg_reserved (h : 0x50 ≤ off.toNat) : readReg s off = 0 := by
  unfold readReg
  cases hr : regAt off with
  | none => rfl
  | some r =>
    rw [← offset_of_regAt_eq_some hr] at h
    revert h
    cases r <;> exact fun h => absurd h (by decide)

end ReadReg

/-- Settles O17: the register at each offset, field by field. -/
theorem readReturnsRegister : Obligations.ReadReturnsRegister := by
  intro s off halign
  have hexec : exec (.mmioRead off) s = .next (s.logHost (.reg off (readReg s off))) :=
    if_pos ((alignedOffset_iff off).2 halign)
  exact ⟨readReg s off, hexec,
    readReg_at .id,
    fun h => (congrArg _ (readReg_at .ctrl h)).trans (toNat_ctrlWord s.regs),
    readReg_at .cmd,
    fun h => (congrArg _ (readReg_at .status h)).trans (toNat_statusWord s),
    fun h => (congrArg _ (readReg_at .errCode h)).trans (toNat_errCodeWord s.regs),
    fun h => congrArg (readReg s) h,
    toNat_readReg_lo .srcAddrLo rfl, toNat_readReg_hi .srcAddrHi rfl,
    toNat_readReg_lo .srcLenLo rfl, toNat_readReg_hi .srcLenHi rfl,
    toNat_readReg_lo .dstAddrLo rfl, toNat_readReg_hi .dstAddrHi rfl,
    toNat_readReg_lo .dstCapLo rfl, toNat_readReg_hi .dstCapHi rfl,
    toNat_readReg_lo .outLenLo rfl, toNat_readReg_hi .outLenHi rfl,
    toNat_readReg_lo .errInfoLo rfl, toNat_readReg_hi .errInfoHi rfl,
    readReg_at .payloadBits,
    fun h => (congrArg _ (readReg_at .symbols h)).trans (toNat_symbolsWord s.regs),
    readReg_reserved⟩

/-! ### Operand writes -/

/-- The stored word is the operand register's value; every other register keeps its own. A finite
table: for each pair of registers the fields say which halves are involved. -/
theorem regValue_setOperand (s : State) (o : OperandReg) (v : Word) (r : RegName) :
    regValue { s with regs := s.regs.setOperand o v } r
      = if r.offset = o.offset then v else regValue s r := by
  cases o <;> cases r <;>
    simp [regValue, Regs.setOperand, setLo, setHi, lo_pair, hi_pair, RegName.offset,
      OperandReg.offset, ctrlWord, statusWord, errCodeWord, symbolsWord, State.busy]

theorem exists_regAt_operand (o : OperandReg) : ∃ r, regAt o.offset = some r := by
  cases o <;> exact ⟨_, rfl⟩

/-- Settles O20: the register map after the store. -/
theorem operandWriteStoresOrRejects : Obligations.OperandWriteStoresOrRejects := by
  refine fun s o v => ⟨fun hidle => ⟨s.regs.setOperand o v, ?_, ?_, fun off hoff => ?_⟩,
    fun hbusy => if_pos hbusy⟩
  · exact if_neg (by rw [hidle]; exact Bool.false_ne_true)
  · obtain ⟨r, hr⟩ := exists_regAt_operand o
    rw [readReg, hr]
    exact (regValue_setOperand s o v r).trans (if_pos (offset_of_regAt_eq_some hr))
  · unfold readReg
    cases hr : regAt off with
    | none => rfl
    | some r =>
      have hne : r.offset ≠ o.offset := offset_of_regAt_eq_some hr ▸ hoff
      exact (regValue_setOperand s o v r).trans (if_neg hne)

/-- Settles O21: such an offset is aligned and has no effect. -/
theorem ignoredWriteChangesNothing : Obligations.IgnoredWriteChangesNothing := by
  intro s off v halign hoff
  show execMmioWriteIgnored off v s = _
  rw [execMmioWriteIgnored, if_pos ((alignedOffset_iff off).2 halign),
    if_pos ((ignoredOffset_iff_toNat off).2 hoff)]

end Sys2Proof.Machine
end

section
/-! One step of the machine (45_encoder.md R242 to R247; 46_decoder.md R272 to R277;
70_reset_and_hazards.md R385, R389): the engine's selection, and what each input does. -/

namespace Sys2Proof.Machine

/-! ### The engine's turn -/

section EngineTurn

variable {s u : State}

theorem step_count (h : s.engineTurn u) (hfsm : u.eng.fsm = .eCount) : step s = stepCount u := by
  rw [step_of_turn h, engineStep, hfsm]

theorem step_build (h : s.engineTurn u) (hfsm : u.eng.fsm = .eBuild) : step s = stepBuild u := by
  rw [step_of_turn h, engineStep, hfsm]

theorem step_codes (h : s.engineTurn u) (hfsm : u.eng.fsm = .eCodes) : step s = stepCodes u := by
  rw [step_of_turn h, engineStep, hfsm]

theorem step_header (h : s.engineTurn u) (hfsm : u.eng.fsm = .eHeader) : step s = stepHeader u := by
  rw [step_of_turn h, engineStep, hfsm]

theorem step_payload (h : s.engineTurn u) (hfsm : u.eng.fsm = .ePayload) :
    step s = exec .ePayloadStep u := by
  rw [step_of_turn h, engineStep, hfsm]

theorem step_dHeader (h : s.engineTurn u) (hfsm : u.eng.fsm = .dHeader) :
    step s = stepDHeader u := by
  rw [step_of_turn h, engineStep, hfsm]

theorem step_dRebuild (h : s.engineTurn u) (hfsm : u.eng.fsm = .dRebuild) :
    step s = exec .dRebuildStep u := by
  rw [step_of_turn h, engineStep, hfsm]

theorem step_dPayload (h : s.engineTurn u) (hfsm : u.eng.fsm = .dPayload) :
    step s = stepDPayload u := by
  rw [step_of_turn h, engineStep, hfsm]

/-- In `E_BUILD` from phase 1 on, k selects the step (45_encoder.md R243). -/
theorem stepBuild_of_phase (hphase : u.eng.phase ≠ 0) : stepBuild u =
    if u.eng.k = 0 then onNext (exec .tbEmpty u) (moveTo .eCodes)
    else if u.eng.k = 1 then onNext (exec .tbSingle u) (moveTo .eCodes)
    else if 1 < u.eng.pq.length then exec .tbMerge u
    else onNext (exec .tbFinish u) (moveTo .eCodes) :=
  if_neg hphase

theorem stepBuild_many (hphase : u.eng.phase ≠ 0) (hk : 2 ≤ u.eng.k.toNat) : stepBuild u =
    if 1 < u.eng.pq.length then exec .tbMerge u
    else onNext (exec .tbFinish u) (moveTo .eCodes) := by
  have hzero : u.eng.k ≠ 0 := fun h => absurd hk (by rw [h]; decide)
  have hone : u.eng.k ≠ 1 := fun h => absurd hk (by rw [h]; decide)
  rw [stepBuild_of_phase hphase, if_neg hzero, if_neg hone]

/-- A micro-operation that completes is followed by the change of state. -/
theorem onNext_moveTo {o : Host.Outcome State Fault Refusal} {t : State} (f : Fsm)
    (h : o = .next t) :
    onNext o (moveTo f) = .next { t with eng := { t.eng with fsm := f, phase := 0 } } := by
  rw [h]
  rfl

end EngineTurn

/-- Settles O6: the selection of the encoder's states, branch by branch. -/
theorem engineStepEncoder : Obligations.EngineStepEncoder := by
  refine fun s u hu => ⟨fun hfsm => ?idle, fun hfsm hi => ?count, fun hfsm hi => ?counted,
    fun hfsm hphase t ht => ?leaves, fun hfsm hphase hk t ht => ?empty,
    fun hfsm hphase hk t ht => ?single, fun hfsm hphase hk hlen => ?merge,
    fun hfsm hphase hk hlen t ht => ?finish, fun hfsm t ht => ?codes, fun hfsm hphase => ?size,
    fun hfsm hphase => ?byte, fun hfsm => step_payload hu hfsm⟩
  case idle => rw [step_of_turn hu, engineStep_of_idle hfsm]
  case count => exact (step_count hu hfsm).trans (if_pos hi)
  case counted => exact (step_count hu hfsm).trans (if_neg (Nat.not_lt.2 hi))
  case leaves =>
    rw [step_build hu hfsm, stepBuild, if_pos hphase, ht]
    rfl
  case empty =>
    rw [step_build hu hfsm, stepBuild_of_phase hphase, if_pos hk, onNext_moveTo _ ht]
  case single =>
    have hzero : u.eng.k ≠ 0 := by rw [hk]; decide
    rw [step_build hu hfsm, stepBuild_of_phase hphase, if_neg hzero, if_pos hk,
      onNext_moveTo _ ht]
  case merge => rw [step_build hu hfsm, stepBuild_many hphase hk, if_pos hlen]
  case finish =>
    rw [step_build hu hfsm, stepBuild_many hphase hk, if_neg (Nat.not_lt.2 hlen),
      onNext_moveTo _ ht]
  case codes => rw [step_codes hu hfsm, stepCodes, onNext_moveTo _ ht]
  case size => exact (step_header hu hfsm).trans (if_pos hphase)
  case byte =>
    have hzero : u.eng.phase ≠ 0 := by rw [hphase]; decide
    exact (step_header hu hfsm).trans ((if_neg hzero).trans (if_pos hphase))

/-- Settles O7: the selection of the decoder's states, branch by branch. -/
theorem engineStepDecoder : Obligations.EngineStepDecoder := by
  refine fun s u hu => ⟨fun hfsm hphase => ?_, fun hfsm hphase => ?_, step_dRebuild hu,
    fun hfsm hj => ?_, fun hfsm hj => ?_⟩
  · exact (step_dHeader hu hfsm).trans (if_neg hphase)
  · exact (step_dHeader hu hfsm).trans (if_pos hphase)
  · exact (step_dPayload hu hfsm).trans (if_pos hj)
  · exact (step_dPayload hu hfsm).trans (if_neg (Nat.not_lt.2 hj))

/-! ### Host accesses and polls -/

theorem hostAccess_of_decode_ok {s : State} {a : Access} {i : Instr}
    (h : decodeAccess s.busy a = .ok i) : hostAccess a s = exec i s := by
  rw [hostAccess, h]

/-- Settles O4: taking the input off the list leaves `BUSY`, and so the decoding. -/
theorem hostAccessStepRunsInstruction : Obligations.HostAccessStepRunsInstruction := by
  refine fun s a rest hin => ⟨fun i hi => ?_, fun e he => step_of_decode_error hin he⟩
  exact (step_of_input hin).trans (hostAccess_of_decode_ok (s := s.setInputs rest) hi)

theorem exec_mmioRead {off : Byte} (s : State) (h : off.toNat % 4 = 0) :
    exec (.mmioRead off) s = .next (s.logHost (.reg off (readReg s off))) :=
  if_pos ((alignedOffset_iff off).2 h)

theorem hostAccess_read {off : Byte} (s : State) (h : off.toNat % 4 = 0) :
    hostAccess (.read off) s = .next (s.logHost (.reg off (readReg s off))) := by
  have hdecode : decodeAccess s.busy (.read off) = .ok (.mmioRead off) :=
    if_pos ((alignedOffset_iff off).2 h)
  rw [hostAccess_of_decode_ok hdecode, exec_mmioRead s h]

theorem nextPoll_eq (off : Byte) (mask val : Word) (gaps : List Nat) :
    nextPoll off mask val gaps = ⟨gaps.headD 1, .poll off mask val gaps.tail⟩ := by
  cases gaps <;> rfl

/-- Settles O60: the read, and the poll again unless its condition holds. -/
theorem pollRepeatsItsRead : Obligations.PollRepeatsItsRead := by
  intro s off mask val gaps rest halign hin
  refine (step_of_input hin).trans ?_
  show hostPoll off mask val gaps (s.setInputs rest) = _
  rw [hostPoll, hostAccess_read _ halign]
  show (if readReg s off &&& mask = val then _ else _) = _
  by_cases hval : readReg s off &&& mask = val
  · rw [if_pos hval, if_pos hval]
    rfl
  · rw [if_neg hval, if_neg hval, nextPoll_eq]
    rfl

/-! ### Stores and loads -/

section Hazards

theorem Region.meets_iff (r : Region) (base size : Nat) : r.meets base size = true ↔
    0 < r.size ∧ 0 < size ∧ r.base < base + size ∧ base < r.base + r.size :=
  decide_eq_true_iff

theorem Region.holds_iff (r : Region) (a : Nat) :
    r.holds a = true ↔ r.base ≤ a ∧ a < r.base + r.size := decide_eq_true_iff

/-- A region meets a range exactly when it holds one of its addresses. -/
theorem Region.meets_iff_exists (r : Region) (base size : Nat) :
    r.meets base size = true ↔ ∃ a, base ≤ a ∧ a < base + size ∧ r.holds a = true := by
  simp only [Region.meets_iff, Region.holds_iff]
  constructor
  · rintro ⟨hr, hsize, hlow, hhigh⟩
    exact ⟨max base r.base, by omega, by omega, by omega, by omega⟩
  · rintro ⟨a, hlow, hhigh, hbase, hend⟩
    omega

/-- Ordinary memory meets neither the window nor a device (70_reset_and_hazards.md R388). -/
theorem Platform.ordinary_iff (p : Platform) (base size : Nat) : p.ordinary base size = true ↔
    p.window.meets base size = false ∧ (p.devices.any fun r => r.meets base size) = false := by
  rw [Platform.ordinary, Bool.and_eq_true, Bool.not_eq_true', Bool.not_eq_true']

variable {s : State} {addr : Nat} {bytes : List Byte}

/-- A store into ordinary memory meets the hazard rule alone. -/
theorem hostStore_ordinary (hsize : addr + bytes.length ≤ Config.memorySize)
    (h : s.plat.ordinary addr bytes.length = true) : hostStore addr bytes s =
      if s.storeHazard addr bytes.length then .fault .bufferHazard
      else .next { s with mem := Memory.writeBytes s.mem addr bytes } := by
  obtain ⟨hwindow, hdevices⟩ := (Platform.ordinary_iff _ _ _).1 h
  rw [hostStore, if_neg (Nat.not_lt.2 hsize), hwindow, hdevices]
  rfl

/-- A store is a hazard when a byte of it lies in a buffer of the running command. -/
theorem State.storeHazard_iff (s : State) (addr size : Nat) : s.storeHazard addr size = true ↔
    s.busy = true ∧ ∃ a, addr ≤ a ∧ a < addr + size
      ∧ ((s.eng.src.toNat ≤ a ∧ a < s.eng.src.toNat + s.eng.len.toNat)
        ∨ (s.eng.dst.toNat ≤ a ∧ a < s.eng.dst.toNat + s.eng.cap.toNat)) := by
  simp only [State.storeHazard, Bool.and_eq_true, Bool.or_eq_true, Region.meets_iff_exists,
    Region.holds_iff, Engine.srcRange, Engine.dstRange, and_or_left, exists_or]

/-- A load of a byte of ordinary memory meets the hazard rule alone. -/
theorem hostLoad_ordinary {addr : DWord} (h : s.plat.ordinary addr.toNat 1 = true) :
    hostLoad addr s = if s.loadHazard addr.toNat then .fault .bufferHazard
      else .next (s.logHost (.mem addr (Memory.read s.mem addr.toNat))) := by
  obtain ⟨hwindow, hdevices⟩ := (Platform.ordinary_iff _ _ _).1 h
  have hone (r : Region) (hr : r.meets addr.toNat 1 = false) : r.holds addr.toNat = false := by
    rw [Bool.eq_false_iff] at hr ⊢
    exact fun hin => hr ((Region.meets_iff_exists _ _ _).2 ⟨_, le_rfl, Nat.lt_succ_self _, hin⟩)
  have hdevice : s.plat.isDevice addr.toNat = false :=
    List.any_eq_false.2 fun r hr => Bool.eq_false_iff.1 (hone r (Bool.eq_false_iff.2
      (List.any_eq_false.1 hdevices r hr)))
  rw [hostLoad, hone _ hwindow, hdevice]
  rfl

end Hazards

/-- Settles O59: the address space, the hazard rule, the bytes stored; and a load's hazard. -/
theorem buffersBelongToEngineWhileBusy : Obligations.BuffersBelongToEngineWhileBusy := by
  refine ⟨fun s addr bytes rest hin => ⟨fun hsize => ?_, fun hsize hord => ⟨?_, ?_⟩⟩, ?_⟩
  · exact (step_of_input hin).trans (if_pos hsize)
  · intro hbusy a hlow hhigh hbuffer
    have hhazard := (s.storeHazard_iff addr bytes.length).2 ⟨hbusy, a, hlow, hhigh, hbuffer⟩
    exact ((step_of_input hin).trans (hostStore_ordinary (s := s.setInputs rest) hsize hord)).trans
      (if_pos hhazard)
  · intro hm hfree
    have hhazard : ¬ s.storeHazard addr bytes.length = true := by
      intro h
      obtain ⟨hbusy, a, hlow, hhigh, hbuffer⟩ := (s.storeHazard_iff _ _).1 h
      have hout := hfree hbusy a hlow hhigh
      omega
    exact ⟨_, ((step_of_input hin).trans
      (hostStore_ordinary (s := s.setInputs rest) hsize hord)).trans (if_neg hhazard),
      Memory.read_writeBytes bytes hm hsize⟩
  · intro s addr rest hin hord hbusy hlow hhigh
    have hhazard : s.loadHazard addr.toNat = true := by
      rw [State.loadHazard, hbusy, Bool.true_and, Region.holds_iff]
      exact ⟨hlow, hhigh⟩
    exact ((step_of_input hin).trans (hostLoad_ordinary (s := s.setInputs rest) hord)).trans
      (if_pos hhazard)

/-! ### Forms without a meaning -/

section Stops

variable {s : State}

theorem memRead_noAddress {a : Nat} (h : Config.memorySize ≤ a) :
    memRead a s = .fault .noSuchAddress := if_neg (Nat.not_lt.2 h)

theorem pqTake_empty (h : s.eng.pq = []) : pqTake s = .fault .queueEmpty := by
  rcases pqTake_cases s with ⟨-, e⟩ | ⟨m, hm, -⟩
  · exact e
  · rw [h] at hm
    exact nomatch hm

theorem dHeaderField_noPhase (h : 5 ≤ s.eng.phase.toNat) :
    dHeaderField s = .fault .noSuchPhase := by
  have hne (n : BitVec 3) (hn : n.toNat < 5) : s.eng.phase ≠ n := by
    rintro rfl
    exact absurd hn (Nat.not_lt.2 h)
  rw [dHeaderField, if_neg (hne 0 (by decide)), if_neg (hne 1 (by decide)),
    if_neg (hne 2 (by decide)), if_neg (hne 3 (by decide)), if_neg (hne 4 (by decide))]

end Stops

/-- Settles O53, form by form. -/
theorem impossibleFormsStopByName : Obligations.ImpossibleFormsStopByName := by
  refine fun s => ⟨fun n hlen => ?full, fun w hw => ?legal, fun off v hoff => ?misaligned,
    fun off v halign heff => ?effect, fun hphase => ?phase, fun hpos => ?index,
    fun hsize => ?count, fun hlt hsize => ?bit, fun hpq => ?queue⟩
  case full => exact congrArg Res.outcome (if_neg (Nat.not_lt.2 hlen))
  case legal =>
    rcases hw with rfl | rfl | rfl <;> rfl
  case misaligned =>
    have hmis : ¬ alignedOffset off = true := fun h => hoff ((alignedOffset_iff off).1 h)
    exact ⟨if_neg hmis, if_neg hmis⟩
  case effect =>
    have hign : ¬ ignoredOffset off = true := by
      rw [ignoredOffset_iff_toNat]
      bv_omega
    show execMmioWriteIgnored off v s = _
    rw [execMmioWriteIgnored, if_pos ((alignedOffset_iff off).2 halign), if_neg hign]
  case phase => exact congrArg Res.outcome (dHeaderField_noPhase hphase)
  case index =>
    show (eHeaderByte s).outcome = _
    rw [eHeaderByte, List.getElem?_eq_none hpos]
    rfl
  case count =>
    show (ftCount s).outcome = _
    rw [ftCount, memRead_noAddress hsize]
    rfl
  case bit =>
    show ((brReadBit s).bind fun _ u => _).outcome = _
    rw [brReadBit, if_neg (Nat.not_le.2 hlt), memRead_noAddress hsize]
    rfl
  case queue =>
    have htake := pqTake_empty hpq
    refine ⟨?_, ?_, ?_⟩
    · show (tbSingle s).outcome = _
      rw [tbSingle, htake]
      rfl
    · show (tbMerge s).outcome = _
      rw [tbMerge, htake]
      rfl
    · show (tbFinish s).outcome = _
      rw [tbFinish, htake]
      rfl

/-! ### The smallest node -/

theorem pqLess_iff (g : Engine) (a b : NodeRef) : g.pqLess a b = true ↔
    g.node[a].w < g.node[b].w
      ∨ (g.node[a].w = g.node[b].w ∧ g.node[a].minsym < g.node[b].minsym) := by
  rw [Engine.pqLess, Bool.or_eq_true, Bool.and_eq_true, beq_iff_eq]
  exact or_congr decide_eq_true_iff (and_congr_right' decide_eq_true_iff)

/-- Settles O28: an extraction takes the least node, which is the smallest of distinct keys. -/
theorem pqExtractMinTakesSmallest : Obligations.PqExtractMinTakesSmallest := by
  refine fun s => ⟨fun hempty => ?_, fun hne hkeys => ?_⟩
  · rcases pqExtractMin_cases s with ⟨-, e⟩ | ⟨m, hm, -⟩
    · show ((pqExtractMin s).bind fun m u => _).outcome = _
      rw [e]
      rfl
    · rw [hempty] at hm
      exact nomatch hm
  · rcases pqExtractMin_cases s with ⟨hempty, -⟩ | ⟨m, hm, e⟩
    · exact absurd hempty hne
    · obtain ⟨hmem, hleast⟩ := pqLeast_isLeast hkeys hm
      refine ⟨m, removeRef m s.eng.pq, ?_, hmem,
        fun n hn hnm => (pqLess_iff _ _ _).1 (hleast n hn hnm), fun n => mem_removeRef m n _⟩
      show ((pqExtractMin s).bind fun m u => _).outcome = _
      rw [e]
      rfl

end Sys2Proof.Machine
end

section
/-! No codeword of a tree begins as another one (43_code_generator.md R191). -/

namespace Sys2Proof.Machine

/-- A code that begins as another one is that code: on the way down both take the same branches, and
a leaf has no branch. -/
theorem Tree.codes_eq_of_prefix {t : Tree} : ∀ {c d : Byte × List Bool}, c ∈ t.codes → d ∈ t.codes →
    c.2 <+: d.2 → c = d := by
  induction t with
  | leaf v w =>
    intro c d hc hd _
    rw [List.mem_singleton.1 hc, List.mem_singleton.1 hd]
  | single l ih =>
    intro c d hc hd hpre
    obtain ⟨c, hc', rfl⟩ := List.mem_map.1 hc
    obtain ⟨d, hd', rfl⟩ := List.mem_map.1 hd
    rw [ih hc' hd' (List.cons_prefix_cons.1 hpre).2]
  | node l r ihl ihr =>
    intro c d hc hd hpre
    rcases List.mem_append.1 hc with hc | hc
    · obtain ⟨c, hc', rfl⟩ := List.mem_map.1 hc
      rcases List.mem_append.1 hd with hd | hd
      · obtain ⟨d, hd', rfl⟩ := List.mem_map.1 hd
        rw [ihl hc' hd' (List.cons_prefix_cons.1 hpre).2]
      · obtain ⟨d, hd', rfl⟩ := List.mem_map.1 hd
        exact nomatch (List.cons_prefix_cons.1 hpre).1
    · obtain ⟨c, hc', rfl⟩ := List.mem_map.1 hc
      rcases List.mem_append.1 hd with hd | hd
      · obtain ⟨d, hd', rfl⟩ := List.mem_map.1 hd
        exact nomatch (List.cons_prefix_cons.1 hpre).1
      · obtain ⟨d, hd', rfl⟩ := List.mem_map.1 hd
        rw [ihr hc' hd' (List.cons_prefix_cons.1 hpre).2]

/-- Every leaf's symbol has a code. -/
theorem Tree.exists_code {t : Tree} {v : Byte} (h : v ∈ t.leaves.map Prod.fst) :
    ∃ p, (v, p) ∈ t.codes := by
  rw [← t.codes_map_fst] at h
  obtain ⟨⟨_, p⟩, hp, rfl⟩ := List.mem_map.1 h
  exact ⟨p, hp⟩

/-- A pattern whose bits are those of `p`, the first one most significant, is `p` as a codeword
(30_encoding.md R103). -/
theorem codeBits_eq {pat : Pattern} : ∀ {p : List Bool},
    (∀ q < p.length, pat.getLsbD (p.length - 1 - q) = p.getD q false) →
    codeBits pat p.length = p
  | [], _ => rfl
  | b :: p, h => by
    have hhead : pat.getLsbD p.length = b := h 0 (Nat.succ_pos _)
    have htail : codeBits pat p.length = p := codeBits_eq fun q hq => by
      have hbit := h (q + 1) (Nat.succ_lt_succ hq)
      have hexp : (b :: p).length - 1 - (q + 1) = p.length - 1 - q := by
        rw [List.length_cons]
        omega
      rwa [hexp, List.getD_cons_succ] at hbit
    rw [List.length_cons, codeBits, hhead, htail]

/-- After the walk of a tree the codeword of a leaf's symbol is its path. -/
theorem codeword_cgWalk {s u : State} {t : Tree} (htree : s.eng.rootTree t)
    (hu : exec .cgWalk s = .next u) {v : Byte} {p : List Bool} (hp : (v, p) ∈ t.codes) :
    u.eng.codeword v = p := by
  obtain ⟨lens, pats, hwalk, hcodes, -⟩ := (cgWalkAssignsPaths s).1 t htree
  obtain ⟨hlen, hbits⟩ := hcodes v p hp
  cases hwalk.symm.trans hu
  show codeBits pats[symIdx v] lens[symIdx v].toNat = p
  rw [hlen, codeBits_eq hbits]

/-- Settles O34: the codewords are the paths, none of which begins as another. -/
theorem codewordsArePrefixFree : Obligations.CodewordsArePrefixFree := by
  intro s u t htree hu v hv w hw hne hpre
  obtain ⟨p, hp⟩ := Tree.exists_code hv
  obtain ⟨q, hq⟩ := Tree.exists_code hw
  rw [codeword_cgWalk htree hu hp, codeword_cgWalk htree hu hq] at hpre
  exact hne (congrArg Prod.fst (Tree.codes_eq_of_prefix hp hq hpre))

end Sys2Proof.Machine
end

section
/-! The tree builder builds a full tree over the present symbols (42_tree_builder.md R175 (c)): the
queue holds the roots of a forest, whose leaves stay the same while a merge joins two trees. Which
two nodes a merge takes does not matter here. -/

namespace Sys2Proof.Machine

/-! ### Trees -/

/-- The sum of the weights of the leaves. -/
def Tree.weight (t : Tree) : Nat := (t.leaves.map Prod.snd).sum

theorem Tree.weight_node (l r : Tree) : (Tree.node l r).weight = l.weight + r.weight := by
  rw [Tree.weight, Tree.leaves, List.map_append, List.sum_append]
  rfl

/-- A full tree with `n` leaves has `2n - 1` nodes. -/
theorem Tree.size_of_full : ∀ {t : Tree}, t.full = true → t.size + 1 = 2 * t.leaves.length
  | .leaf _ _, _ => rfl
  | .node l r, h => by
    obtain ⟨hl, hr⟩ := (Bool.and_eq_true _ _).mp h
    have hsl := Tree.size_of_full hl
    have hsr := Tree.size_of_full hr
    rw [Tree.size, Tree.leaves, List.length_append]
    omega

/-- Every level of a full tree has a leaf of its own. -/
theorem Tree.depth_lt_of_full : ∀ {t : Tree}, t.full = true → t.depth + 1 ≤ t.leaves.length
  | .leaf _ _, _ => le_rfl
  | .node l r, h => by
    obtain ⟨hl, hr⟩ := (Bool.and_eq_true _ _).mp h
    have hdl := Tree.depth_lt_of_full hl
    have hdr := Tree.depth_lt_of_full hr
    rw [Tree.depth, Tree.leaves, List.length_append]
    omega

/-- Every child of a node before `b` is before `b`. -/
def Engine.closedBelow (g : Engine) (b : Nat) : Prop :=
  ∀ m : NodeRef, m.val < b → ∀ c,
    (g.nodeAt m).left = some c ∨ (g.nodeAt m).right = some c → c.val < b

/-- A tree stays in the arena while the nodes before `b` stay, if it starts among them. -/
theorem Engine.holdsTree.of_same {g h : Engine} {b : Nat} (hclosed : g.closedBelow b)
    (hsame : ∀ m : NodeRef, m.val < b → h.nodeAt m = g.nodeAt m) {t : Tree} :
    ∀ {n : NodeRef}, g.holdsTree t n → n.val < b → h.holdsTree t n := by
  induction t with
  | leaf v w =>
    intro n ht hn
    rw [Engine.holdsTree, hsame n hn]
    exact ht
  | single l ih =>
    intro n ht hn
    obtain ⟨hkind, hright, a, ha, hl⟩ := ht
    rw [Engine.holdsTree, hsame n hn]
    exact ⟨hkind, hright, a, ha, ih hl (hclosed n hn a (.inl ha))⟩
  | node l r ihl ihr =>
    intro n ht hn
    obtain ⟨hkind, ⟨a, ha, hl⟩, c, hc, hr⟩ := ht
    rw [Engine.holdsTree, hsame n hn]
    exact ⟨hkind, ⟨a, ha, ihl hl (hclosed n hn a (.inl ha))⟩,
      c, hc, ihr hr (hclosed n hn c (.inr hc))⟩

/-! ### The queue as a list without repetition -/

theorem removeRef_perm {n : NodeRef} {l : List NodeRef} (hnd : l.Nodup) (h : n ∈ l) :
    l.Perm (n :: removeRef n l) := by
  rw [removeRef, ← hnd.erase_eq_filter]
  exact List.perm_cons_erase h

theorem insertRef_perm {n : NodeRef} {l : List NodeRef} (h : n ∉ l) :
    (insertRef n l).Perm (n :: l) := by
  induction l with
  | nil => exact List.Perm.refl _
  | cons a l ih =>
    rw [List.mem_cons, not_or] at h
    obtain ⟨hna, hnl⟩ := h
    rw [insertRef]
    split
    · exact List.Perm.refl _
    · exact ((ih hnl).cons a).trans (List.Perm.swap n a l)

/-! ### The forest -/

/-- The queue holds the roots of a forest of full trees, whose leaves are `ls`: the tree at node `n`
is `T n`. -/
structure Engine.Forest (g : Engine) (ls : List (Byte × Nat)) (T : NodeRef → Tree) : Prop where
  nodup : g.pq.Nodup
  count : g.nn.toNat + g.pq.length = 2 * ls.length
  below : ∀ n ∈ g.pq, n.val < g.nn.toNat
  closed : g.closedBelow g.nn.toNat
  holds : ∀ n ∈ g.pq, g.holdsTree (T n) n
  full : ∀ n ∈ g.pq, (T n).full = true
  weight : ∀ n ∈ g.pq, (g.nodeAt n).w.toNat = (T n).weight
  leaves : (g.pq.flatMap fun n => (T n).leaves).Perm ls

section Join

variable {g : Engine} {ls : List (Byte × Nat)} {T : NodeRef → Tree} {l r n : NodeRef}
  {rest : List NodeRef}

/-- The engine after a merge of `l` and `r` into `n`, with `rest` left in the queue. -/
def Engine.joined (g : Engine) (l r n : NodeRef) (rest : List NodeRef) : Engine :=
  (g.setPq rest).queued n (Node.merged l r (g.nodeAt l) (g.nodeAt r))

theorem Engine.joined_nodeAt (g : Engine) (l r n : NodeRef) (rest : List NodeRef) (m : NodeRef) :
    (g.joined l r n rest).nodeAt m
      = if m = n then Node.merged l r (g.nodeAt l) (g.nodeAt r) else g.nodeAt m :=
  nodeAt_setNode (g.setPq rest) n m _

/-- The nodes made before keep their places. -/
theorem Engine.joined_nodeAt_before {m : NodeRef} (h : m.val < n.val) :
    (g.joined l r n rest).nodeAt m = g.nodeAt m := by
  rw [Engine.joined_nodeAt, if_neg (Fin.ne_of_lt h)]

theorem Engine.joined_nn (hn : g.nn.toNat = n.val) :
    (g.joined l r n rest).nn.toNat = n.val + 1 := by
  have hlt : g.nn.toNat + 1 < 2 ^ 9 := by have := n.isLt; omega
  have hadd : (g.nn + 1).toNat = g.nn.toNat + 1 := BitVec.toNat_add_of_lt hlt
  exact hadd.trans (by rw [hn])

/-- The trees of the queue after a merge. -/
def joinTrees (T : NodeRef → Tree) (l r n : NodeRef) : NodeRef → Tree :=
  Function.update T n (.node (T l) (T r))

theorem joinTrees_self (T : NodeRef → Tree) (l r n : NodeRef) :
    joinTrees T l r n n = .node (T l) (T r) := Function.update_self _ _ _

theorem joinTrees_of_ne {m : NodeRef} (h : m ≠ n) : joinTrees T l r n m = T m :=
  Function.update_of_ne h _ _

section

variable (hforest : g.Forest ls T) (hperm : g.pq.Perm (l :: r :: rest))
  (hn : g.nn.toNat = n.val)

include hforest hperm hn

theorem Engine.Forest.before {m : NodeRef} (hm : m ∈ l :: r :: rest) : m.val < n.val :=
  hn ▸ hforest.below m (hperm.mem_iff.2 hm)

theorem Engine.Forest.notMem_rest : n ∉ rest := fun h =>
  lt_irrefl _ (hforest.before hperm hn (List.mem_cons_of_mem _ (List.mem_cons_of_mem _ h)))

theorem Engine.Forest.joined_pq : (g.joined l r n rest).pq.Perm (n :: rest) :=
  insertRef_perm (hforest.notMem_rest hperm hn)

/-- A tree of the queue is in the arena after the merge. -/
theorem Engine.Forest.joined_holds {m : NodeRef} (hm : m ∈ l :: r :: rest) :
    (g.joined l r n rest).holdsTree (T m) m :=
  (hforest.holds m (hperm.mem_iff.2 hm)).of_same (hn ▸ hforest.closed)
    (fun _ h => Engine.joined_nodeAt_before h) (hforest.before hperm hn hm)

omit hn in
/-- The leaves of the two trees and of the others are those of the forest. -/
theorem Engine.Forest.leaves_perm :
    ((T l).leaves ++ ((T r).leaves ++ rest.flatMap fun m => (T m).leaves)).Perm ls :=
  (hperm.flatMap_right _).symm.trans hforest.leaves

omit hn in
/-- The two weights do not wrap when the counters' sum does not (42_tree_builder.md R175). -/
theorem Engine.Forest.merged_weight (hsum : (ls.map Prod.snd).sum < 2 ^ 64) :
    (g.nodeAt l).w.toNat + (g.nodeAt r).w.toNat < 2 ^ 64 := by
  have htotal := ((hforest.leaves_perm hperm).map Prod.snd).sum_eq
  rw [List.map_append, List.map_append, List.sum_append, List.sum_append] at htotal
  rw [hforest.weight l (hperm.mem_iff.2 (by simp)), hforest.weight r (hperm.mem_iff.2 (by simp)),
    Tree.weight, Tree.weight]
  omega

/-- A merge keeps the forest's leaves: two trees become one (42_tree_builder.md R173). -/
theorem Engine.Forest.joined (hsum : (ls.map Prod.snd).sum < 2 ^ 64) :
    (g.joined l r n rest).Forest ls (joinTrees T l r n) := by
  have hqueue := hforest.joined_pq hperm hn
  have hnn := g.joined_nn (l := l) (r := r) (rest := rest) hn
  have hnrest := hforest.notMem_rest hperm hn
  have hl : l ∈ l :: r :: rest := List.mem_cons_self
  have hr : r ∈ l :: r :: rest := List.mem_cons_of_mem _ List.mem_cons_self
  have hrest {m : NodeRef} (hm : m ∈ rest) : m ∈ l :: r :: rest :=
    List.mem_cons_of_mem _ (List.mem_cons_of_mem _ hm)
  have hcases {m : NodeRef} (hm : m ∈ (g.joined l r n rest).pq) : m = n ∨ m ∈ rest ∧ m ≠ n :=
    (List.mem_cons.1 (hqueue.mem_iff.1 hm)).imp_right fun h => ⟨h, fun e => hnrest (e ▸ h)⟩
  have hself : (g.joined l r n rest).nodeAt n = Node.merged l r (g.nodeAt l) (g.nodeAt r) :=
    (g.joined_nodeAt l r n rest n).trans (if_pos rfl)
  refine ⟨?nodup, ?count, ?below, ?closed, ?holds, ?full, ?weight, ?leaves⟩
  case nodup =>
    have hnd := (List.nodup_cons.1 (List.nodup_cons.1 (hperm.nodup_iff.1 hforest.nodup)).2).2
    exact hqueue.nodup_iff.2 (List.nodup_cons.2 ⟨hnrest, hnd⟩)
  case count =>
    have hcount := hforest.count
    rw [hperm.length_eq, List.length_cons, List.length_cons] at hcount
    rw [hnn, hqueue.length_eq, List.length_cons]
    omega
  case below =>
    intro m hm
    rw [hnn]
    rcases hcases hm with rfl | ⟨hm, -⟩
    · exact Nat.lt_succ_self _
    · exact (hforest.before hperm hn (hrest hm)).trans (Nat.lt_succ_self _)
  case closed =>
    intro m hm c hc
    rw [hnn] at hm ⊢
    rw [Engine.joined_nodeAt] at hc
    by_cases hmn : m = n
    · rw [if_pos hmn] at hc
      have hc' : c = l ∨ c = r := hc.imp (fun h => (Option.some.inj h).symm)
        fun h => (Option.some.inj h).symm
      refine Nat.lt_succ_of_lt (hforest.before hperm hn ?_)
      rcases hc' with rfl | rfl
      · exact hl
      · exact hr
    · rw [if_neg hmn] at hc
      have hlt : m.val < g.nn.toNat := by
        have hne := Fin.val_ne_of_ne hmn
        omega
      exact Nat.lt_succ_of_lt (hn ▸ hforest.closed m hlt c hc)
  case holds =>
    intro m hm
    rcases hcases hm with rfl | ⟨hm, hne⟩
    · rw [joinTrees_self, Engine.holdsTree, hself]
      exact ⟨rfl, ⟨l, rfl, hforest.joined_holds hperm hn hl⟩,
        r, rfl, hforest.joined_holds hperm hn hr⟩
    · rw [joinTrees_of_ne hne]
      exact hforest.joined_holds hperm hn (hrest hm)
  case full =>
    intro m hm
    rcases hcases hm with rfl | ⟨hm, hne⟩
    · rw [joinTrees_self, Tree.full, hforest.full l (hperm.mem_iff.2 hl),
        hforest.full r (hperm.mem_iff.2 hr)]
      rfl
    · rw [joinTrees_of_ne hne]
      exact hforest.full m (hperm.mem_iff.2 (hrest hm))
  case weight =>
    intro m hm
    rcases hcases hm with rfl | ⟨hm, hne⟩
    · have hadd : ((g.nodeAt l).w + (g.nodeAt r).w).toNat = _ :=
        BitVec.toNat_add_of_lt (hforest.merged_weight hperm hsum)
      rw [joinTrees_self, Tree.weight_node, hself, ← hforest.weight l (hperm.mem_iff.2 hl),
        ← hforest.weight r (hperm.mem_iff.2 hr)]
      exact hadd
    · rw [joinTrees_of_ne hne, Engine.joined_nodeAt, if_neg hne]
      exact hforest.weight m (hperm.mem_iff.2 (hrest hm))
  case leaves =>
    have hothers : (rest.flatMap fun m => (joinTrees T l r n m).leaves)
        = rest.flatMap fun m => (T m).leaves :=
      List.flatMap_congr fun m hm => by
        have hne : m ≠ n := ne_of_mem_of_not_mem hm hnrest
        rw [joinTrees_of_ne hne]
    refine (hqueue.flatMap_right _).trans ?_
    rw [List.flatMap_cons, joinTrees_self, Tree.leaves, hothers, List.append_assoc]
    exact hforest.leaves_perm hperm

end

end Join

/-! ### The builder's steps -/

/-- `s` with the builder's part of the engine taken from `g` (42_tree_builder.md R170 to R174). -/
def State.withBuilder (s : State) (g : Engine) : State :=
  { s with eng := { s.eng with node := g.node, nn := g.nn, pq := g.pq, root := g.root, k := g.k } }

/-- Two steps of the builder in a row change the builder's part of the engine alone. -/
theorem State.withBuilder_trans {s u v : State} (hu : u = s.withBuilder u.eng)
    (hv : v = u.withBuilder v.eng) : v = s.withBuilder v.eng :=
  calc v = u.withBuilder v.eng := hv
    _ = (s.withBuilder u.eng).withBuilder v.eng := congrArg (State.withBuilder · v.eng) hu
    _ = s.withBuilder v.eng := rfl

section Steps

variable {s : State} {ls : List (Byte × Nat)} {T : NodeRef → Tree}

/-- A merge of a queue without repetition joins two of its nodes. -/
theorem tbMerge_joined {n : NodeRef} (htwo : 2 ≤ s.eng.pq.length) (hlen : s.eng.pq.length ≤ 256)
    (hnd : s.eng.pq.Nodup) (hn : s.eng.nn.toNat = n.val) : ∃ (l r : NodeRef) (rest : List NodeRef),
      s.eng.pq.Perm (l :: r :: rest)
        ∧ tbMerge s = .ok () (s.setEng (s.eng.joined l r n rest)) := by
  obtain ⟨l, hl, hfirst⟩ := pqTake_ok (s := s) (Nat.lt_of_lt_of_le Nat.zero_lt_two htwo)
  have hpl := removeRef_perm hnd hl
  have hndl := (List.nodup_cons.1 (hpl.nodup_iff.1 hnd)).2
  have hlenl := hpl.length_eq
  rw [List.length_cons] at hlenl
  obtain ⟨r, hr, hsecond⟩ := pqTake_ok (s := s.setEng (s.eng.setPq (removeRef l s.eng.pq)))
    (show 0 < (removeRef l s.eng.pq).length by omega)
  have hpr := removeRef_perm hndl hr
  have hlenr := hpr.length_eq
  rw [List.length_cons] at hlenr
  refine ⟨l, r, removeRef r (removeRef l s.eng.pq), hpl.trans (hpr.cons l), ?_⟩
  rw [tbMerge, hfirst, Res.bind_ok, hsecond, Res.bind_ok]
  exact addQueued_ok (s := s.setEng (s.eng.setPq (removeRef r (removeRef l s.eng.pq)))) _ hn
    (show (removeRef r (removeRef l s.eng.pq)).length < 256 by omega)

/-- A merge while at least two trees are left. -/
theorem Engine.Forest.tbMerge (hforest : s.eng.Forest ls T) (htwo : 2 ≤ s.eng.pq.length)
    (hlen : ls.length ≤ 256) (hpq : s.eng.pq.length ≤ 256)
    (hsum : (ls.map Prod.snd).sum < 2 ^ 64) : ∃ (u : State) (U : NodeRef → Tree),
      tbMerge s = .ok () u ∧ u.eng.Forest ls U ∧ u.eng.pq.length + 1 = s.eng.pq.length
        ∧ u = s.withBuilder u.eng := by
  have hcount := hforest.count
  have hroom : s.eng.nn.toNat < 511 := by omega
  obtain ⟨n, hn⟩ : ∃ n : NodeRef, s.eng.nn.toNat = n.val := ⟨⟨s.eng.nn.toNat, hroom⟩, rfl⟩
  obtain ⟨l, r, rest, hperm, hok⟩ := tbMerge_joined htwo hpq hforest.nodup hn
  have hqueue := hforest.joined_pq hperm hn
  refine ⟨_, _, hok, hforest.joined hperm hn hsum, ?_, ?_⟩
  · rw [State.setEng_eng, hqueue.length_eq, hperm.length_eq]
    rfl
  · rw [Engine.joined, Engine.queued_eq]
    rfl

/-- Merges in a row join the trees to one. -/
theorem Engine.Forest.mergeTimes (hlen : ls.length ≤ 256)
    (hsum : (ls.map Prod.snd).sum < 2 ^ 64) : ∀ (j : Nat) {s : State} {T : NodeRef → Tree},
      s.eng.Forest ls T → s.eng.pq.length = j + 1 → j < 256 → ∃ (u : State) (U : NodeRef → Tree),
        mergeTimes j s = .ok () u ∧ u.eng.Forest ls U ∧ u.eng.pq.length = 1
          ∧ u = s.withBuilder u.eng
  | 0, s, T, hforest, hpq, _ => ⟨s, T, rfl, hforest, hpq, rfl⟩
  | j + 1, s, T, hforest, hpq, hj => by
    obtain ⟨u, U, hok, hu, hlength, hframe⟩ :=
      hforest.tbMerge (by omega) hlen (by omega) hsum
    obtain ⟨v, V, hrest, hv, hone, hframe'⟩ := mergeTimes hlen hsum j hu (by omega) (by omega)
    refine ⟨v, V, ?_, hv, hone, State.withBuilder_trans hframe hframe'⟩
    rw [Sys2Proof.Machine.mergeTimes, hok, Res.bind_ok, hrest]

end Steps

/-! ### The leaves -/

/-- The leaves a tree over the present symbols has. -/
def Engine.presentLeaves (g : Engine) : List (Byte × Nat) :=
  g.present.map fun v => (v, (g.freqOf v).toNat)

/-- The leaf of node `n` after `TB_LEAVES`. -/
def Engine.leafTree (g : Engine) (n : NodeRef) : Tree :=
  .leaf (g.present.getD n.val 0) (g.freqOf (g.present.getD n.val 0)).toNat

theorem length_presentLeaves (g : Engine) : g.presentLeaves.length = g.present.length :=
  List.length_map _

theorem mem_presentLeaves (g : Engine) (v : Byte) (w : Nat) :
    (v, w) ∈ g.presentLeaves ↔ v ∈ g.present ∧ w = (g.freqOf v).toNat := by
  simp only [Engine.presentLeaves, List.mem_map, Prod.mk.injEq]
  constructor
  · rintro ⟨u, hu, rfl, rfl⟩
    exact ⟨hu, rfl⟩
  · rintro ⟨hv, rfl⟩
    exact ⟨v, hv, rfl, rfl⟩

/-- The counters of the present symbols sum to all counters. -/
theorem sum_presentLeaves (g : Engine) : (g.presentLeaves.map Prod.snd).sum = g.freqSum := by
  have hsum (vs : List Byte) : ((vs.filter fun v => g.freqOf v != 0).map
      fun v => (g.freqOf v).toNat).sum = (vs.map fun v => (g.freqOf v).toNat).sum := by
    induction vs with
    | nil => rfl
    | cons v vs ih =>
      by_cases hv : g.freqOf v = 0
      · rw [List.filter_cons_of_neg (by simpa using hv), List.map_cons, List.sum_cons, ih, hv]
        exact (Nat.zero_add _).symm
      · rw [List.filter_cons_of_pos (by simpa using hv), List.map_cons, List.map_cons,
          List.sum_cons, List.sum_cons, ih]
  rw [Engine.presentLeaves, List.map_map]
  exact hsum allSymbols

/-- `TB_LEAVES` leaves the queue without repetition. -/
theorem tbLeaves_nodup (s : State) : (tbLeaves s).yields fun _ t => t.eng.pq.Nodup := by
  have hstart := State.Reaches.refl (fun _ => True) (s.setEng s.eng.clearTree)
  refine Res.yields_bind (leavesLoop_yields allSymbols hstart) fun _ u hu => ?_
  obtain ⟨hsorted, -⟩ := hu.works.queue ⟨List.Pairwise.nil, Nat.zero_le _⟩
  exact hsorted.imp fun h => ne_of_lt h

section Leaves

variable {g : Engine} {nodes : Vector Node 511} {q : List NodeRef}

/-- The queued leaves are those of the present symbols, each once. -/
theorem Engine.LeavesMade.symbols_perm (h : g.LeavesMade g.present nodes q) (hnd : q.Nodup) :
    (q.map fun n => g.present.getD n.val 0).Perm g.present := by
  have hget {n : NodeRef} (hn : n ∈ q) :
      g.present.getD n.val 0 = g.present[n.val]'((h.mem_queue n).1 hn) :=
    List.getD_eq_getElem _ _ _
  refine (List.perm_ext_iff_of_nodup (hnd.map_on fun m hm n hn heq => ?_)
    (nodup_present g)).2 fun v => ⟨fun hv => ?_, fun hv => ?_⟩
  · rw [hget hm, hget hn] at heq
    exact Fin.ext ((nodup_present g).getElem_inj_iff.1 heq)
  · obtain ⟨n, hn, rfl⟩ := List.mem_map.1 hv
    rw [hget hn]
    exact List.getElem_mem _
  · obtain ⟨i, hi, rfl⟩ := List.mem_iff_getElem.1 hv
    have hlt : i < 511 := by have := length_present_le g; omega
    have hmem : (⟨i, hlt⟩ : NodeRef) ∈ q := (h.mem_queue _).2 hi
    exact List.mem_map.2 ⟨_, hmem, hget hmem⟩

/-- After `TB_LEAVES` the forest has a leaf for each present symbol. -/
theorem Engine.LeavesMade.forest (h : g.LeavesMade g.present nodes q) (hnd : q.Nodup) (k : BitVec 9)
    {u : Engine} (hu : u = (g.clearTree.withTree nodes q g.present.length).setK k) :
    u.Forest g.presentLeaves g.leafTree := by
  have hpresent := length_present_le g
  have hsymbols := h.symbols_perm hnd
  have hpq : u.pq = q := by rw [hu]; rfl
  have hnn : u.nn.toNat = g.present.length := by
    rw [hu]
    exact Nat.mod_eq_of_lt (by omega)
  have hnode {n : NodeRef} (hn : n.val < g.present.length) : u.nodeAt n
      = Node.leafOf (g.present.getD n.val 0) (g.freqOf (g.present.getD n.val 0)) := by
    have hmade := h.node n
    rw [List.getElem?_eq_getElem hn] at hmade
    rw [List.getD_eq_getElem _ _ hn, hu]
    exact hmade
  have hnode' {n : NodeRef} (hn : n ∈ q) := hnode ((h.mem_queue n).1 hn)
  refine ⟨?nodup, ?count, ?below, ?closed, ?holds, fun _ _ => rfl, ?weight, ?leaves⟩
  case nodup => rwa [hpq]
  case count =>
    have hlength := hsymbols.length_eq
    rw [List.length_map] at hlength
    rw [hnn, hpq, hlength, length_presentLeaves]
    omega
  case below => exact fun n hn => hnn ▸ (h.mem_queue n).1 (hpq ▸ hn)
  case closed =>
    intro m hm c hc
    rw [hnode (hnn ▸ hm)] at hc
    exact hc.elim (fun h => nomatch h) fun h => nomatch h
  case holds =>
    intro n hn
    rw [Engine.leafTree, Engine.holdsTree, hnode' (hpq ▸ hn)]
    exact ⟨rfl, rfl, rfl⟩
  case weight =>
    intro n hn
    rw [hnode' (hpq ▸ hn)]
    exact (Nat.add_zero _).symm
  case leaves =>
    have hmap : (q.flatMap fun n => (g.leafTree n).leaves)
        = (q.map fun n => g.present.getD n.val 0).map fun v => (v, (g.freqOf v).toNat) := by
      rw [List.map_map]
      exact List.map_eq_flatMap.symm
    rw [hpq, hmap]
    exact hsymbols.map _

end Leaves

/-! ### The whole builder -/

section OneTree

variable {g h p : Engine} {T : NodeRef → Tree} {n : NodeRef}

/-- The last tree has all leaves. -/
theorem Engine.Forest.last_leaves (hforest : g.Forest p.presentLeaves T) (hpq : g.pq = [n]) :
    (T n).leaves.Perm p.presentLeaves := by
  have hall := hforest.leaves
  rwa [hpq, List.flatMap_singleton] at hall

theorem Engine.Forest.last_length (hforest : g.Forest p.presentLeaves T) (hpq : g.pq = [n]) :
    (T n).leaves.length = p.present.length :=
  (hforest.last_leaves hpq).length_eq.trans (length_presentLeaves p)

/-- The last tree's weight is the sum of all counters. -/
theorem Engine.Forest.last_weight (hforest : g.Forest p.presentLeaves T) (hpq : g.pq = [n]) :
    (g.nodeAt n).w.toNat = p.freqSum := by
  have hsum := ((hforest.last_leaves hpq).map Prod.snd).sum_eq
  rw [hforest.weight n (by rw [hpq]; exact List.mem_singleton_self n), Tree.weight, hsum,
    sum_presentLeaves]

/-- The last tree at the root is one that a walk can finish (42_tree_builder.md R175). -/
theorem Engine.Forest.rootTree (hforest : g.Forest p.presentLeaves T) (hpq : g.pq = [n])
    (hroot : h.root = some n) (hnode : h.node = g.node) : h.rootTree (T n) := by
  have hmem : n ∈ g.pq := by rw [hpq]; exact List.mem_singleton_self n
  have hsize := Tree.size_of_full (hforest.full n hmem)
  have hdepth := Tree.depth_lt_of_full (hforest.full n hmem)
  have hlength := hforest.last_length hpq
  have hpresent := length_present_le p
  have hholds : h.holdsTree (T n) n := (hforest.holds n hmem).of_same hforest.closed
    (fun m _ => by rw [Engine.nodeAt, hnode, Engine.nodeAt]) (hforest.below n hmem)
  have hsymbols : p.presentLeaves.map Prod.fst = p.present := by
    rw [Engine.presentLeaves, List.map_map]
    exact List.map_id _
  have hnodup : ((T n).leaves.map Prod.fst).Nodup := by
    rw [((hforest.last_leaves hpq).map Prod.fst).nodup_iff, hsymbols]
    exact nodup_present p
  exact ⟨⟨n, hroot, hholds⟩, by omega, by omega, hnodup⟩

end OneTree

/-- The leaves and all merges: one tree is left in the queue. -/
theorem buildTree_forest (s : State) (hk : 2 ≤ s.eng.present.length)
    (hsum : s.eng.freqSum < 2 ^ 64) : ∃ (u : State) (T : NodeRef → Tree) (n : NodeRef),
      buildTree s = tbFinish u ∧ u.eng.Forest s.eng.presentLeaves T ∧ u.eng.pq = [n]
        ∧ u = s.withBuilder u.eng := by
  have hpresent := length_present_le s.eng
  have hlength := length_presentLeaves s.eng
  obtain ⟨nodes, q, hleaves, hmade⟩ := tbLeaves_ok s
  have hnd : q.Nodup := by
    have hall := tbLeaves_nodup s
    rw [hleaves] at hall
    exact hall
  have hforest := hmade.forest hnd (BitVec.ofNat 9 s.eng.present.length) rfl
  have hqueue : q.length = s.eng.present.length :=
    (List.length_map _).symm.trans (hmade.symbols_perm hnd).length_eq
  have hcount : (BitVec.ofNat 9 s.eng.present.length).toNat = s.eng.present.length :=
    Nat.mod_eq_of_lt (by omega)
  obtain ⟨u, T, hmerges, hu, hone, hframe⟩ := Engine.Forest.mergeTimes (hlength ▸ hpresent)
    (sum_presentLeaves s.eng ▸ hsum) (s.eng.present.length - 1)
    (s := s.setEng ((s.eng.clearTree.withTree nodes q s.eng.present.length).setK
      (BitVec.ofNat 9 s.eng.present.length))) hforest (show q.length = _ by omega) (by omega)
  obtain ⟨n, hn⟩ := List.length_eq_one_iff.1 hone
  refine ⟨u, T, n, ?_, hu, hn, State.withBuilder_trans rfl hframe⟩
  rw [buildTree, hleaves, Res.bind_ok, State.setEng_eng, Engine.setK_k, hcount, hmerges,
    Res.bind_ok]

/-- Settles O32: the forest of the leaves, merged to one tree, whose root is the last queued
node. -/
theorem treeBuilderBuildsTheTree : Obligations.TreeBuilderBuildsTheTree := by
  intro s hk hsum
  obtain ⟨u, T, n, hbuild, hforest, hpq, hframe⟩ := buildTree_forest s hk hsum
  have hmem : n ∈ u.eng.pq := by rw [hpq]; exact List.mem_singleton_self n
  have hfull := hforest.full n hmem
  have hlength := hforest.last_length hpq
  have hdepth := Tree.depth_lt_of_full hfull
  have hcount := hforest.count
  rw [hpq, length_presentLeaves, List.length_singleton] at hcount
  refine ⟨u.setEng ((u.eng.setPq []).setRoot (some n)), T n, hbuild.trans (tbFinish_ok hpq),
    hforest.rootTree hpq rfl rfl, hfull, fun v w => ?_, hlength, ?_, by omega, fun m hm => ?_,
    State.withBuilder_trans hframe rfl⟩
  · rw [(hforest.last_leaves hpq).mem_iff, mem_presentLeaves]
  · show u.eng.nn.toNat = _
    omega
  · cases hm
    exact hforest.last_weight hpq

end Sys2Proof.Machine
end
